-- ==== Sys2Proof/Word.lean ====
section
/-! DEFINITION. The bit-vector types the manual's fields are made of. -/

namespace Sys2Proof

/-- One byte, as frames, packets and DDR memory carry it. -/
abbrev Byte := BitVec 8

/-- A 16-bit field: a label, a calibration stamp, a check. -/
abbrev Half := BitVec 16

/-- A 32-bit field: a serial number, a claim sequence. -/
abbrev Word := BitVec 32

/-- A strobe's tag; it wraps modulo 256 (R1). -/
abbrev Tag := BitVec 8

end Sys2Proof
end

