-- ==== Sys2Proof/Config.lean ====
section
/-! DEFINITION. What is fixed for the part: picture geometry, the DDR address map, and the constants of time.
The DDR map and the byte an unlisted address reads as are the model's choices (log 7, log 8); one answer field is a
free value (log 40); the rest is the manual's. -/

namespace Sys2Proof.Config

/-- Bytes of one source line (00_scope.md, Picture geometry). -/
def lineBytes : Nat := 2560

/-- Lines of one source frame (00_scope.md, Picture geometry). -/
def frameLines : Nat := 960

/-- Bytes of one frame slot (03, Frame slots). -/
def slotBytes : Nat := 2457600

/-- Bytes of one DDR burst (R148). -/
def burstBytes : Nat := 64

/-- Bursts of one line write (R35, R148). -/
def lineBursts : Nat := 40

/-- Bytes of one mesh record within its 64-byte unit (R148, Formats). -/
def meshBytes : Nat := 36

/-- Mesh records of the pool (R78). -/
def poolRecords : Nat := 2048

/-- Tiles of the output picture (R120). -/
def tiles : Nat := 375

/-- DESIGN CHOICE, unsafe (log 8): the base address of frame slot `k` (0 to 2) of the camera with index `c` (0 to 3).
R148 asks only that it be a multiple of 64 and that the areas do not overlap. -/
def slotBase (c k : Nat) : Nat := (3 * c + k) * slotBytes

/-- DESIGN CHOICE, unsafe (log 8): the address of pool unit 0, above the twelve frame slots. -/
def poolBase : Nat := 12 * slotBytes

/-- The 64-byte unit of pool address `a` (R148). -/
def unitAddr (a : Nat) : Nat := poolBase + a * burstBytes

/-- DESIGN CHOICE, unsafe (log 7): what a DDR byte that nothing has written since power-on reset reads as. -/
def unwritten : Byte := 0

/-- FREE VALUE (log 40): the 4 bytes in which `BALANCE_READ` reports a rounded change that a signed number of 4 bytes does not
hold; the manual states none, and nothing constrains it (R146). -/
opaque wideChange : Int → BitVec 32

/-- µs in one ms of the timebase. -/
def ms : Nat := 1000

end Sys2Proof.Config
end

