-- ==== Sys2Proof/Syntax.lean ====
section
/-! DEFINITION. The commands: one constructor for each row of spec/opcode_table.json, with the operands its rules name. -/

namespace Sys2Proof

/-- The two request ports: cockpit and maneuver (10_request_ports_and_notices.md). -/
inductive Port where
  | cp
  | mp
  deriving DecidableEq, Repr

/-- A camera by its corner; chain positions 1 to 4 in this order (00_scope.md, Conventions). -/
inductive Camera where
  | fl
  | fr
  | rr
  | rl
  deriving DecidableEq, Repr

/-- A plan slot, 0 to 3 (04_plans_and_the_mesh_pool.md). -/
abbrev PlanId := Fin 4

/-- How a lane packet ended (R28). -/
inductive PacketEnd where
  /-- an end marker arrived -/
  | endMarker
  /-- a start marker arrived before any end marker -/
  | startMarker
  /-- more data bytes arrived than a well-delimited packet holds -/
  | overlength
  deriving DecidableEq, Repr

/-- The part's steps. A request row is the execution of the request at the head of the port's request queue,
whose payload holds its operands (R174, log 10). -/
inductive Instr where
  | powerOnReset
  | startingEnd
  | selectStart (p : Port)
  /-- `bytes`: the bytes shifted in since the select period began, up to the request's second check byte -/
  | requestArrival (p : Port) (bytes : List Byte)
  | selectEnd (p : Port)
  | answerShiftedOut (p : Port)
  | unknownRequest (p : Port)
  | echo (p : Port)
  | statusRead (p : Port)
  | noticeEnable (p : Port)
  | noticeTake (p : Port)
  | chainRebuild (p : Port)
  | cameraRead (p : Port)
  | cameraRestart (p : Port)
  | chainSet (p : Port)
  | timingSet (p : Port)
  | captureRead (p : Port)
  | planOpen (p : Port)
  | planTiles (p : Port)
  | planMeshes (p : Port)
  | planVerify (p : Port)
  | planDiscard (p : Port)
  | planRead (p : Port)
  | poolRead (p : Port)
  | viewClaim (p : Port)
  | viewRenew (p : Port)
  | viewRelease (p : Port)
  | viewRead (p : Port)
  | viewsSet (p : Port)
  | balanceSet (p : Port)
  | balanceRead (p : Port)
  | outputSet (p : Port)
  | recordRead (p : Port)
  | recordLatest (p : Port)
  | recordRewind (p : Port)
  | rateCap (p : Port)
  | standby (p : Port)
  | wake (p : Port)
  | powerSet (p : Port)
  | pipelineRestart (p : Port)
  | strobe
  /-- `reply`: the 14-bit slot reply word received in the slot, or none (R3, Formats) -/
  | slotEnd (c : Camera) (reply : Option (BitVec 14))
  | cameraLost (c : Camera)
  | identTimeout (c : Camera) (reply : Option (BitVec 14))
  | settleTimerExpiry
  | testTimerExpiry (c : Camera)
  /-- `bytes`: the data bytes received after the start marker (R28) -/
  | packetArrival (lane : Camera) (how : PacketEnd) (bytes : List Byte)
  | lineConsume (lane : Camera)
  | lineWriteComplete (lane : Camera)
  | frameAbandon (lane : Camera)
  | abandonRepairsComplete (lane : Camera)
  /-- the deadline of the OPEN set with this tag passes -/
  | windowExpiry (tag : Tag)
  | compositionStart
  | meshReadComplete
  | fetchingEnd
  | tileDrawn
  | burstDone
  | verifyMeshRead
  | planAbandoned (plan : PlanId)
  | viewFrameStart
  | lineDue
  | viewFrameEnd
  | leaseExpiry (handle : Nat)
  /-- `active`: the level of the reverse line at the sample -/
  | reverseLineSample (active : Bool)
  | reverseLevelChange
  | idleTimerExpiry
  | standbyEntry
  /-- `celsius`: the die temperature in whole °C -/
  | temperatureSample (celsius : Int)
  deriving DecidableEq, Repr

end Sys2Proof
end

