-- ==== Sys2Proof/WellFormed.lean ====
section
/-! DEFINITION. Which commands are well formed: the bounds on operands that the manual gives and the types do not. -/

namespace Sys2Proof

/-- Data bytes of a well-delimited line packet (Formats, Line packet). -/
def packetBytes : Nat := 2566

/-- A complete request frame has 5 bytes and its payload (R171). -/
def frameLength (bytes : List Byte) : Nat := 5 + ((bytes[2]?).getD 0).toNat

/-- A command is well formed when its operands can occur at the part's ports, chain and lanes. -/
def Instr.wf : Instr → Bool
  | .requestArrival _ bytes => decide (3 ≤ bytes.length ∧ bytes.length = frameLength bytes)
  | .packetArrival _ .overlength bytes => decide (bytes.length = packetBytes + 1)
  | .packetArrival _ .endMarker bytes => decide (bytes.length ≤ packetBytes)
  | .packetArrival _ .startMarker bytes => decide (bytes.length ≤ packetBytes)
  | .leaseExpiry handle => decide (1 ≤ handle ∧ handle ≤ 255)
  | .powerOnReset | .startingEnd | .selectStart _ | .selectEnd _ | .answerShiftedOut _ | .unknownRequest _
  | .echo _ | .statusRead _ | .noticeEnable _ | .noticeTake _ | .chainRebuild _ | .cameraRead _
  | .cameraRestart _ | .chainSet _ | .timingSet _ | .captureRead _ | .planOpen _ | .planTiles _
  | .planMeshes _ | .planVerify _ | .planDiscard _ | .planRead _ | .poolRead _ | .viewClaim _
  | .viewRenew _ | .viewRelease _ | .viewRead _ | .viewsSet _ | .balanceSet _ | .balanceRead _
  | .outputSet _ | .recordRead _ | .recordLatest _ | .recordRewind _ | .rateCap _ | .standby _
  | .wake _ | .powerSet _ | .pipelineRestart _ | .strobe | .slotEnd _ _ | .cameraLost _
  | .identTimeout _ _ | .settleTimerExpiry | .testTimerExpiry _ | .lineConsume _
  | .lineWriteComplete _ | .frameAbandon _ | .abandonRepairsComplete _ | .windowExpiry _
  | .compositionStart | .meshReadComplete | .fetchingEnd | .tileDrawn | .burstDone | .verifyMeshRead
  | .planAbandoned _ | .viewFrameStart | .lineDue | .viewFrameEnd | .reverseLineSample _
  | .reverseLevelChange | .idleTimerExpiry | .standbyEntry | .temperatureSample _ => true

end Sys2Proof
end

