-- ==== Sys2Proof/Machine/State.lean ====
section
/-! DEFINITION. Everything the manual gives the part to hold, block by block, as plain data, and its value after
power-on reset. Times are in µs of the timebase (log 5); counts are Nat with the manual's ranges. -/

namespace Sys2Proof

/-- The index of a camera's chain position, 0 to 3. -/
def Camera.idx : Camera → Fin 4
  | .fl => 0
  | .fr => 1
  | .rr => 2
  | .rl => 3

/-- Four like things: per camera, per plan slot, per seam pair. -/
structure Quad (α : Type) where
  a : α
  b : α
  c : α
  d : α
  deriving DecidableEq, Repr

namespace Quad
variable {α β : Type}

def get (q : Quad α) : Fin 4 → α
  | 0 => q.a
  | 1 => q.b
  | 2 => q.c
  | 3 => q.d

def set (q : Quad α) (i : Fin 4) (x : α) : Quad α :=
  match i with
  | 0 => { q with a := x }
  | 1 => { q with b := x }
  | 2 => { q with c := x }
  | 3 => { q with d := x }

def all (x : α) : Quad α := ⟨x, x, x, x⟩

def map (f : α → β) (q : Quad α) : Quad β := ⟨f q.a, f q.b, f q.c, f q.d⟩

def ofFn (f : Camera → α) : Quad α := ⟨f .fl, f .fr, f .rr, f .rl⟩

def toList (q : Quad α) : List α := [q.a, q.b, q.c, q.d]

end Quad

/-- A frame slot number, 0 to 2, within a camera. -/
abbrev SlotNo := Fin 3

/-- Three like things: the frame slots of one camera. -/
structure Trio (α : Type) where
  s0 : α
  s1 : α
  s2 : α
  deriving DecidableEq, Repr

namespace Trio
variable {α β : Type}

def get (q : Trio α) : SlotNo → α
  | 0 => q.s0
  | 1 => q.s1
  | 2 => q.s2

def set (q : Trio α) (i : SlotNo) (x : α) : Trio α :=
  match i with
  | 0 => { q with s0 := x }
  | 1 => { q with s1 := x }
  | 2 => { q with s2 := x }

def all (x : α) : Trio α := ⟨x, x, x⟩

def map (f : α → β) (q : Trio α) : Trio β := ⟨f q.s0, f q.s1, f q.s2⟩

def toList (q : Trio α) : List α := [q.s0, q.s1, q.s2]

end Trio

/-- Two like things: one per request port. -/
structure Duo (α : Type) where
  cp : α
  mp : α
  deriving DecidableEq, Repr

namespace Duo
variable {α : Type}

def get (q : Duo α) : Port → α
  | .cp => q.cp
  | .mp => q.mp

def set (q : Duo α) (p : Port) (x : α) : Duo α :=
  match p with
  | .cp => { q with cp := x }
  | .mp => { q with mp := x }

def all (x : α) : Duo α := ⟨x, x⟩

end Duo

namespace Machine

/-- The part never stops: no rule of the manual describes a behaviour that ends its operation, so there is
no fault. Nothing raises one; safe. -/
inductive Fault where
  deriving DecidableEq, Repr

/-- Why a command has no meaning. -/
inductive Refusal where
  /-- raised only by an arm of exec whose command has no meaning yet; no arm raises it. Safe. -/
  | notModelled (mnemonic : String)
  deriving DecidableEq, Repr

/-- The private DDR memory: (address, byte) pairs, addresses strictly rising, none equal to what an unlisted
address reads as (R148, log 7). -/
abbrev Memory := List Host.Cell

/-! ### Chain Controller (01_the_camera_chain.md) -/

/-- States of a camera record, in the table's order (The camera table). -/
inductive CamState where
  | absent
  | unaddressed
  | addressed
  | identifying
  | testing
  | streaming
  | faulted
  | lost
  deriving DecidableEq, Repr

/-- Fault codes, in the order of the last fault code field (The camera table). -/
inductive FaultCode where
  | none
  | selftest
  | memory
  | sensorHot
  | supplyDip
  | cmdCheck
  | misplaced
  | identTimeout
  | testTimeout
  | noAck
  | desync
  deriving DecidableEq, Repr

/-- A camera's identity (R12). -/
structure Identity where
  serial : Word
  corner : Camera
  lens : BitVec 3
  revision : Byte
  stamp : Half
  deriving DecidableEq, Repr

/-- Identification progress (R11): the chunks accepted so far, the previous interval's IDENT reply, the intervals elapsed. -/
structure IdentProgress where
  chunks : List (Option Byte)
  prev : Option (Nat × Byte)
  elapsed : Nat
  deriving DecidableEq, Repr

/-- Present only in TESTING: the test start time and stream requested (R13). -/
structure TestProgress where
  start : Nat
  requested : Bool
  deriving DecidableEq, Repr

/-- One record of the camera table. -/
structure CamRecord where
  state : CamState
  startPending : Bool
  identity : Option Identity
  ident : Option IdentProgress
  test : Option TestProgress
  lastFault : FaultCode
  missed : Nat
  attempts : Nat
  deriving DecidableEq, Repr

/-- Command functions (R2). -/
inductive ChainFunc where
  | chainReset
  | assign
  | identStart
  | testStart
  | streamOn
  | streamOff
  | camReset
  deriving DecidableEq, Repr

/-- A command word's address: one chain position, or 7 for every camera (R2). -/
inductive ChainAddr where
  | one (c : Camera)
  | every
  deriving DecidableEq, Repr

/-- Where a queue entry came from (R4). -/
inductive Origin where
  | bringUp
  | fault
  | request (p : Port)
  deriving DecidableEq, Repr

/-- An entry of the chain command queue (R4). -/
structure ChainEntry where
  func : ChainFunc
  addr : ChainAddr
  param : Byte
  origin : Origin
  attempts : Nat
  deriving DecidableEq, Repr

/-- The chain phase (Bring-up). -/
inductive ChainPhase where
  | off
  | settling
  | bringingUp
  | steady
  deriving DecidableEq, Repr

/-- The strobe interval in progress: when its strobe was sent, the reply slots that have not ended, which records
were in a counted state at its start, and which became LOST in it (R3, R20). -/
structure Interval where
  strobeAt : Nat
  slotsLeft : List Camera
  counted : Quad Bool
  lostNow : Quad Bool
  deriving DecidableEq, Repr

/-- The Chain Controller's state. -/
structure Chain where
  table : Quad CamRecord
  queue : List ChainEntry
  phase : ChainPhase
  settleAt : Option Nat
  autoRebuild : Bool
  lastAuto : Option Nat
  lastBreak : Option Camera
  tag : Tag
  lastTag : Option Tag
  nextStrobe : Option Nat
  interval : Option Interval
  strobeWord : Option (BitVec 16)
  commandWord : Option (BitVec 24)
  cameraPower : Bool
  deriving DecidableEq, Repr

/-! ### Lane Intake (02_camera_lanes_and_line_intake.md) -/

/-- The error a packet is taken with (R29). -/
inductive LineError where
  | marker
  | length
  | check
  deriving DecidableEq, Repr

/-- A line in the line buffer: taken with an error, its bytes not trusted, or intact (R28 to R30). -/
inductive Line where
  | bad (e : LineError) (bytes : List Byte)
  | intact (addr : Nat) (tag : Tag) (number : Nat) (payload : List Byte)
  deriving DecidableEq, Repr

/-- What a DDR write of a lane is: the line's own, or a repair (R35, R36). -/
inductive WriteKind where
  | own
  | repair
  deriving DecidableEq, Repr

/-- One write of 2560 bytes at a line position of a slot (R35). -/
structure LineWrite where
  slot : SlotNo
  line : Nat
  data : List Byte
  kind : WriteKind
  deriving DecidableEq, Repr

/-- What the lane is busy with: a line of the filling frame; the tail repairs of a frame that a line of a newer one ends,
before that line itself; or the tail repairs of an abandon (R31, R34, R40). -/
inductive ConsumeKind where
  | line (number : Nat) (payload : List Byte)
  | tail (tag : Tag) (number : Nat) (payload : List Byte)
  | abandon
  deriving DecidableEq, Repr

/-- A consumption in flight: the writes still to complete, the bursts granted of the first of them, and whether the
line's own write has completed. -/
structure Consumption where
  kind : ConsumeKind
  writes : List LineWrite
  granted : Nat
  ownDone : Bool
  deriving DecidableEq, Repr

/-- The frame progress record (R34). -/
structure FrameProgress where
  slot : SlotNo
  tag : Tag
  nextLine : Nat
  limit : Nat
  repaired : Nat
  torn : Bool
  deadline : Nat
  deriving DecidableEq, Repr

/-- The retained copy: a line's payload and number, and whether it is a line of the frame filling (R34, R38). -/
structure Retained where
  number : Nat
  payload : List Byte
  ofFrame : Bool
  deriving DecidableEq, Repr

/-- The seven totals of a lane (R43). -/
structure LaneTotals where
  marker : Nat
  length : Nat
  check : Nat
  overrun : Nat
  miswired : Nat
  stray : Nat
  order : Nat
  deriving DecidableEq, Repr

/-- One camera lane. -/
structure Lane where
  buffer : List Line
  busy : Option Consumption
  frame : Option FrameProgress
  retained : Option Retained
  closedTag : Option Tag
  totals : LaneTotals
  deriving DecidableEq, Repr

/-! ### Capture Sequencer (03_frame_slots_and_capture_sets.md) -/

/-- A finished frame's quality (R38). -/
inductive Quality where
  | complete
  | repaired (n : Nat)
  | torn
  deriving DecidableEq, Repr

/-- A frame slot's state with what it holds (R46). -/
inductive SlotHold where
  | free
  | filling (tag : Tag)
  | held (tag : Tag) (q : Quality)
  deriving DecidableEq, Repr

/-- A frame slot; its last-good mark is read off the freshness record and its fill rank off the fill order (log 25). -/
structure Slot where
  hold : SlotHold
  pinned : Bool
  deriving DecidableEq, Repr

/-- The status of a camera's entry in a capture set, with its slot number while it has one. -/
inductive EntryStatus where
  | awaited
  | arriving (k : SlotNo)
  | present (k : SlotNo)
  | late (k : SlotNo)
  | torn (k : SlotNo)
  | missing
  | excluded
  | overwritten
  deriving DecidableEq, Repr

/-- A camera's entry in a capture set. -/
structure SetEntry where
  status : EntryStatus
  written : Nat
  repaired : Nat
  errors : Nat
  deriving DecidableEq, Repr

/-- A capture set's state: OPEN, CLOSED or COMPOSING. -/
inductive SetState where
  | opened
  | closed
  | composing
  deriving DecidableEq, Repr

/-- How a set closed. -/
inductive Closure where
  | complete
  | window
  deriving DecidableEq, Repr

/-- One capture set. Its window timer runs while it is OPEN (R60, R61). -/
structure CaptureSet where
  tag : Tag
  state : SetState
  closure : Option Closure
  openAt : Nat
  deadline : Nat
  entries : Quad SetEntry
  deriving DecidableEq, Repr

/-- The timing settings (R66): period and window in ms, stale limit in periods, repair limit in lines. -/
structure Timing where
  period : Nat
  window : Nat
  stale : Nat
  repair : Nat
  deriving DecidableEq, Repr

/-- The Capture Sequencer's state; sets oldest first, fill orders oldest first. -/
structure Capture where
  slots : Quad (Trio Slot)
  fillOrder : Quad (List SlotNo)
  fresh : Quad (Option (SlotNo × Tag))
  sets : List CaptureSet
  credit : Nat
  drops : Nat
  timing : Timing
  pendingTiming : Option Timing
  deriving DecidableEq, Repr

/-! ### Plan Store (04_plans_and_the_mesh_pool.md) -/

/-- A colour or an output pixel: Y, U and V. -/
structure Pixel where
  y : Byte
  u : Byte
  v : Byte
  deriving DecidableEq, Repr

/-- A plan's header (R72). -/
structure Header where
  label : Half
  body : Pixel
  void : Pixel
  stamps : Quad Half
  meshCount : Nat
  deriving DecidableEq, Repr

/-- A tile entry as written (R73). -/
structure TileEntry where
  cls : BitVec 3
  ramp : BitVec 3
  primCam : BitVec 3
  secCam : BitVec 3
  primMesh : BitVec 10
  secMesh : BitVec 10
  deriving DecidableEq, Repr

/-- What a plan that is not EMPTY holds: an entry is none while its tile is unwritten. -/
structure PlanContent where
  header : Header
  tiles : List (Option TileEntry)
  meshWritten : List Bool
  opener : Port
  base : Nat
  deriving DecidableEq, Repr

/-- Reasons of a rejection, in the order of the rejection record (R84). -/
inductive RejectReason where
  | unwritten
  | cls
  | camera
  | sameCamera
  | meshIndex
  | meshRange
  | spread
  deriving DecidableEq, Repr

/-- The rejection record (R86). -/
structure Rejection where
  reason : RejectReason
  tile : Option Nat
  mesh : Option Nat
  deriving DecidableEq, Repr

/-- A plan slot's state and what it holds (R75); LOADING keeps the request time and the abandoned mark of R77. -/
inductive PlanHold where
  | empty
  | loading (c : PlanContent) (reqAt : Nat) (abandoned : Bool)
  | verifying (c : PlanContent)
  | verified (c : PlanContent)
  | rejected (c : PlanContent) (r : Rejection)
  deriving DecidableEq, Repr

/-- The reference record of a plan slot (R89). -/
structure PlanRefs where
  leases : Nat
  fallback : Bool
  reverse : Bool
  pinned : Bool
  deriving DecidableEq, Repr

/-- A plan slot. -/
structure PlanSlot where
  hold : PlanHold
  refs : PlanRefs
  deriving DecidableEq, Repr

/-- Where the verification walk stands: it waits for a mesh read of a tile's primary or secondary mesh, or of a mesh of the mesh walk. -/
inductive WalkAt where
  | primary (tile : Nat) (mesh : Nat)
  | secondary (tile : Nat) (mesh : Nat) (first : Option (List Byte))
  | mesh (index : Nat)
  deriving DecidableEq, Repr

/-- The verification walk in flight (R84, R86): its plan, its place, the mesh indices that passed in the tile walk,
and the record read for it once the read has been carried out. -/
structure Walk where
  plan : PlanId
  place : WalkAt
  passed : List Nat
  record : Option (List Byte)
  deriving DecidableEq, Repr

/-- The Plan Store's state; the pool's records are in DDR memory. -/
structure Plans where
  slots : Quad PlanSlot
  walk : Option Walk
  deriving DecidableEq, Repr

/-! ### Lease Arbiter (05_view_leases.md) -/

/-- Who holds a lease. -/
inductive LeaseHolder where
  | port (p : Port)
  | line
  deriving DecidableEq, Repr

/-- The line lease's phase. -/
inductive LinePhase where
  | active
  | holding
  deriving DecidableEq, Repr

/-- A lease; `remaining` in µs, none for unlimited (log 9). -/
structure Lease where
  handle : Nat
  holder : LeaseHolder
  level : Nat
  plan : PlanId
  duration : Nat
  remaining : Option Nat
  seq : Word
  shown : Bool
  phase : Option LinePhase
  deriving DecidableEq, Repr

/-- The view settings; hold time in s (R106). -/
structure ViewSettings where
  fallback : Option PlanId
  reverse : Option PlanId
  lineLevel : Nat
  holdTime : Nat
  deriving DecidableEq, Repr

/-- The last shown view record (R101). -/
inductive LastView where
  | lease (holder : LeaseHolder) (handle : Nat) (seq : Word) (plan : PlanId)
  | fallback (plan : PlanId)
  | noView
  deriving DecidableEq, Repr

/-- The Lease Arbiter's state; leases in creation order. -/
structure Leases where
  table : List Lease
  settings : ViewSettings
  handleCtr : Nat
  seqCtr : Word
  lastView : LastView
  handed : Bool
  deriving DecidableEq, Repr

/-! ### Composer (06_composition.md) -/

/-- Who a view belongs to (Formats, Frame record). -/
inductive Holder where
  | cp
  | mp
  | line
  | fallback
  | none
  deriving DecidableEq, Repr

/-- A camera's source in a composition (R117). -/
inductive Source where
  | fresh
  | stale (age : Nat)
  | blind
  | mismatch
  | excluded
  deriving DecidableEq, Repr

/-- The view a composition draws: its plan, holder, and the level and handle of its lease. -/
structure View where
  plan : Option PlanId
  holder : Holder
  lease : Option (Nat × Nat)
  deriving DecidableEq, Repr

/-- The accumulator of one seam pair: two luma sums and a sample count (R133). -/
structure SeamAcc where
  sumA : Nat
  sumB : Nat
  count : Nat
  deriving DecidableEq, Repr

/-- A block of source pixels, bounds inclusive (R130). -/
structure Box where
  left : Nat
  right : Nat
  top : Nat
  bottom : Nat
  deriving DecidableEq, Repr

/-- One box area of the tile fetch buffer: the camera, its slot, the mesh index, the mesh record read, the clipped box
and the bytes fetched of it (R130, R150). -/
structure Draw where
  cam : Camera
  slot : SlotNo
  mesh : Nat
  record : List Byte
  box : Option Box
  data : List Byte
  deriving DecidableEq, Repr

/-- Within FETCHING: waiting for a mesh read or a box of area `k`, a mesh read carried out and not yet taken up,
or everything fetched. -/
inductive FetchStage where
  | meshRead (k : Nat)
  | meshDone (k : Nat)
  | boxRead (k : Nat)
  | fetched
  deriving DecidableEq, Repr

/-- The walk phase (The composition context). -/
inductive WalkPhase where
  | fetching (st : FetchStage)
  | drawing
  | rowWait
  deriving DecidableEq, Repr

/-- The composition context. -/
structure Context where
  frame : Nat
  setTag : Tag
  view : View
  divisor : Nat
  sources : Quad Source
  srcSlots : Quad (Option SlotNo)
  repaired : Quad Nat
  gains : Quad Nat
  row : Nat
  col : Nat
  phase : WalkPhase
  draws : List Draw
  seams : Quad SeamAcc
  degraded : Nat
  deriving DecidableEq, Repr

/-! ### Balance Unit (07_seam_balance.md) -/

/-- A pair of the last update report (R144): valid or not, the sample count, the two pair means in 1/16 luma step. -/
structure PairReport where
  valid : Bool
  count : Nat
  meanA : Nat
  meanB : Nat
  deriving DecidableEq, Repr

/-- A camera of the last update report (R144). -/
inductive CamReport where
  | anchor
  | noPair
  | zeroMean
  | moved (rounded : Int) (clamped : Int) (gain : Nat)
  deriving DecidableEq, Repr

/-- The last update report (R144). -/
structure BalanceReport where
  frame : Nat
  pairs : Quad PairReport
  cams : Quad CamReport
  deriving DecidableEq, Repr

/-- The Balance Unit's state. -/
structure Balance where
  gains : Quad Nat
  anchor : Camera
  step : Nat
  enable : Bool
  report : Option BalanceReport
  deriving DecidableEq, Repr

/-! ### Memory Arbiter (08_memory_arbitration_and_the_view_lane.md) -/

/-- One burst of the pool requester: a mesh record written (at a mesh index of its plan) or read, at a pool address. -/
inductive PoolBurst where
  | write (unit : Nat) (index : Nat) (record : List Byte)
  | read (unit : Nat)
  deriving DecidableEq, Repr

/-- Whose pool request it is: a PLAN_MESHES, a PLAN_READ part 2 with the answer gathered so far and the written marks
still to give, or the verification walk. -/
inductive PoolOwner where
  | meshes (p : Port) (plan : PlanId)
  | read (p : Port) (marks : List Bool) (gathered : List Byte)
  | walk
  deriving DecidableEq, Repr

/-- A pool request: its owner and its bursts not yet granted, in order. -/
structure PoolRequest where
  owner : PoolOwner
  left : List PoolBurst
  deriving DecidableEq, Repr

/-- A burst being carried out. `withdrawn`: its request was withdrawn after the grant, so its data is discarded (R151, log 18). -/
inductive Burst where
  | lane (c : Camera) (addr : Nat) (data : List Byte) (withdrawn : Bool)
  | pool (b : PoolBurst)
  | fetch (addr : Nat) (withdrawn : Bool)
  deriving DecidableEq, Repr

/-- What a box fetch runs over: the slot's base, the bottom line, and the first and last burst of each line (R150). -/
structure BoxScan where
  base : Nat
  bottom : Nat
  first : Nat
  last : Nat
  deriving DecidableEq, Repr

/-- The Composer fetch cursor (R150): the request in hand (mesh read or box, for area `k`) and for a box the line and
burst next to be granted; `granted` once every burst of the request has been granted and the last is in flight. -/
inductive Cursor where
  | mesh (k : Nat) (unit : Nat)
  | box (k : Nat) (scan : BoxScan) (line : Nat) (burst : Nat)
  | granted (k : Nat)
  deriving DecidableEq, Repr

/-- The Memory Arbiter's state: BUSY with a burst or FREE, the lane last granted, the pool requests, the Composer fetch. -/
structure Arb where
  inFlight : Option Burst
  pointer : Camera
  pool : List PoolRequest
  cursor : Option Cursor
  deriving DecidableEq, Repr

/-! ### View Lane (08_memory_arbitration_and_the_view_lane.md) -/

/-- The stamp line's content (R119). -/
structure Stamp where
  frame : Nat
  tag : Tag
  plan : Option PlanId
  holder : Holder
  sources : Quad Source
  divisor : Nat
  deriving DecidableEq, Repr

/-- A place of the row buffer: FREE, or a row of a picture with the pixels of its tiles drawn so far (R152). -/
inductive Place where
  | free
  | drawing (frame : Nat) (row : Nat) (tiles : List (List Pixel))
  | complete (frame : Nat) (row : Nat) (tiles : List (List Pixel))
  deriving DecidableEq, Repr

/-- A waiting picture (R153). -/
structure Waiting where
  frame : Nat
  stamp : Stamp
  fill : Pixel
  aborted : Bool
  deriving DecidableEq, Repr

/-- The line pointer: the next line due (R153). -/
inductive LinePtr where
  | stamp
  | line (n : Nat)
  deriving DecidableEq, Repr

/-- The frame in transmission (R153). -/
structure Transmission where
  frame : Nat
  stamp : Stamp
  fill : Pixel
  underrun : Nat
  aborted : Bool
  startAt : Nat
  pointer : LinePtr
  deriving DecidableEq, Repr

/-- A line sent on the view lane (Formats, View-lane lines). -/
inductive SentLine where
  | stamp (s : Stamp)
  | picture (n : Nat) (pixels : List Pixel)
  | fill (n : Nat) (colour : Pixel)
  deriving DecidableEq, Repr

/-- The View Lane's state; QUIET while `sending` is none. `endedCount`: the frame number and underrun count of a frame
that ended while its composition was still in flight (R157, log 22). -/
structure ViewLane where
  placeA : Place
  placeB : Place
  sending : Option Transmission
  waiting : List Waiting
  interval : Nat
  pendingInterval : Option Nat
  quietUntil : Option Nat
  endedCount : Option (Nat × Nat)
  out : Option SentLine
  deriving DecidableEq, Repr

/-! ### Record Log (09_the_frame_record_log.md) -/

/-- A record's outcome, in the codes' order (Formats). -/
inductive FrameOutcome where
  | complete
  | degraded
  | underrun
  | aborted
  | noView
  deriving DecidableEq, Repr

/-- A frame record (The frame record). -/
structure FrameRecord where
  frame : Nat
  tag : Tag
  plan : Option PlanId
  holder : Holder
  lease : Option (Nat × Nat)
  sources : Quad Source
  repaired : Quad Nat
  degraded : Nat
  underrun : Nat
  dropped : Nat
  divisor : Nat
  outcome : FrameOutcome
  deriving DecidableEq, Repr

/-- The Record Log's state; the ring oldest first. -/
structure RecordLog where
  ring : List FrameRecord
  next : Nat
  cursors : Duo Nat
  deriving DecidableEq, Repr

/-! ### Request Ports (10_request_ports_and_notices.md) -/

/-- Outcome codes, in the order of their values (Formats). -/
inductive Code where
  | ok
  | check
  | unknown
  | length
  | range
  | state
  | owner
  | inUse
  | noSpace
  | level
  | busy
  deriving DecidableEq, Repr

/-- A request as taken: its sequence, code, declared payload length, the payload bytes kept (at most 248), and whether
it was taken with error CHECK (R171). -/
structure Request where
  seq : Byte
  code : Byte
  len : Nat
  payload : List Byte
  badCheck : Bool
  deriving DecidableEq, Repr

/-- An answer (R174). -/
structure Answer where
  seq : Byte
  code : Byte
  outcome : Code
  payload : List Byte
  deriving DecidableEq, Repr

/-- A select period in progress: the answer being shifted out or none for the empty answer frame, the port flags fixed
at its start, whether the frame has been wholly shifted out, whether a request frame of the period has been read, an
empty request included, whether a request was dropped since the flags were fixed, and whether the period began in
STARTING (R170 to R173, R181). -/
structure Select where
  out : Option Answer
  overflow : Bool
  notice : Bool
  shifted : Bool
  taken : Bool
  dropped : Bool
  starting : Bool
  deriving DecidableEq, Repr

/-- One request port. `raised` holds the nine raised flags in the notice bits; bit 0, ANSWER, is read off the answer
queue (R175). -/
structure PortState where
  requests : List Request
  executing : Option Request
  answers : List Answer
  openItems : Nat
  overflow : Bool
  raised : BitVec 10
  enables : BitVec 10
  select : Option Select
  deriving DecidableEq, Repr

/-! ### Power and Rate Controller (11_rate_heat_and_standby.md) -/

/-- Power states, in the codes' order. -/
inductive PowerState where
  | starting
  | run
  | standby
  deriving DecidableEq, Repr

/-- Thermal states, in the codes' order. -/
inductive Thermal where
  | normal
  | warm
  | hot
  | critical
  deriving DecidableEq, Repr

/-- The Power and Rate Controller's state. `idle`: the remaining idle time in µs, none while stopped. `entry`: the
standby wait, in which standby entry has begun and a composition is in flight (R185, log 14). -/
structure Power where
  state : PowerState
  thermal : Thermal
  rateCap : Nat
  idleTimeout : Nat
  idle : Option Nat
  lineWake : Bool
  claimWake : Bool
  entry : Bool
  level : Bool
  count : Nat
  nextReverse : Nat
  nextTemp : Nat
  deriving DecidableEq, Repr

/-! ### The part -/

/-- Everything the part holds, and the queue of the commands waiting. -/
structure State where
  pending : List Instr
  now : Nat
  mem : Memory
  chain : Chain
  lanes : Quad Lane
  capture : Capture
  plans : Plans
  leases : Leases
  composer : Option Context
  balance : Balance
  arb : Arb
  view : ViewLane
  log : RecordLog
  ports : Duo PortState
  power : Power
  deriving DecidableEq, Repr

/-- A camera record after power-on reset (R7). -/
def CamRecord.reset : CamRecord :=
  { state := .absent, startPending := false, identity := none, ident := none, test := none
    lastFault := .none, missed := 0, attempts := 0 }

/-- The Chain Controller after power-on reset (R1, R4, R7, R20, R21, R27, Bring-up). -/
def Chain.reset : Chain :=
  { table := Quad.all CamRecord.reset, queue := [], phase := .off, settleAt := none, autoRebuild := true
    lastAuto := none, lastBreak := none, tag := 0, lastTag := none, nextStrobe := none, interval := none
    strobeWord := none, commandWord := none, cameraPower := false }

/-- Lane totals of 0 (R43). -/
def LaneTotals.zero : LaneTotals :=
  { marker := 0, length := 0, check := 0, overrun := 0, miswired := 0, stray := 0, order := 0 }

/-- A lane after power-on reset and after PIPELINE_RESTART (R44). -/
def Lane.reset : Lane :=
  { buffer := [], busy := none, frame := none, retained := none, closedTag := none, totals := LaneTotals.zero }

/-- A FREE slot (R46). -/
def Slot.free : Slot := { hold := .free, pinned := false }

/-- The Capture Sequencer after power-on reset (R66, R68). -/
def Capture.reset : Capture :=
  { slots := Quad.all (Trio.all Slot.free), fillOrder := Quad.all [], fresh := Quad.all none, sets := []
    credit := 0, drops := 0, timing := { period := 33, window := 25, stale := 2, repair := 4 }
    pendingTiming := none }

/-- A plan slot after power-on reset (R94). -/
def PlanSlot.reset : PlanSlot :=
  { hold := .empty, refs := { leases := 0, fallback := false, reverse := false, pinned := false } }

/-- The Lease Arbiter after power-on reset (R111). -/
def Leases.reset : Leases :=
  { table := [], settings := { fallback := none, reverse := none, lineLevel := 1, holdTime := 3 }
    handleCtr := 1, seqCtr := 0, lastView := .noView, handed := false }

/-- The Balance Unit after power-on reset (R147). -/
def Balance.reset : Balance :=
  { gains := Quad.all 256, anchor := .fl, step := 8, enable := true, report := none }

/-- The Memory Arbiter after power-on reset (R149, R151). -/
def Arb.reset : Arb := { inFlight := none, pointer := .rl, pool := [], cursor := none }

/-- The View Lane after power-on reset (R159). -/
def ViewLane.reset : ViewLane :=
  { placeA := .free, placeB := .free, sending := none, waiting := [], interval := 25, pendingInterval := none
    quietUntil := none, endedCount := none, out := none }

/-- A port after power-on reset (R181): ANSWER (bit 0) and POWER (bit 9) enabled. A select period in progress at the reset is
dropped, a DESIGN CHOICE, unsafe: the manual does not say what becomes of it (log 42). -/
def PortState.reset : PortState :=
  { requests := [], executing := none, answers := [], openItems := 0, overflow := false, raised := 0
    enables := 0x201, select := none }

/-- The Power and Rate Controller after power-on reset (R182, R183); the sampling times are DESIGN CHOICE (log 6). -/
def Power.reset : Power :=
  { state := .starting, thermal := .normal, rateCap := 1, idleTimeout := 0, idle := none, lineWake := true
    claimWake := true, entry := false, level := false, count := 0, nextReverse := 2000, nextTemp := 100000 }

/-- The part right after power-on reset; the timebase and the DDR contents are DESIGN CHOICE (log 5, log 7). -/
def State.reset : State :=
  { pending := [], now := 0, mem := [], chain := Chain.reset, lanes := Quad.all Lane.reset
    capture := Capture.reset, plans := { slots := Quad.all PlanSlot.reset, walk := none }
    leases := Leases.reset, composer := none, balance := Balance.reset, arb := Arb.reset
    view := ViewLane.reset, log := { ring := [], next := 1, cursors := Duo.all 1 }
    ports := Duo.all PortState.reset, power := Power.reset }

end Machine
end Sys2Proof
end

