-- ==== Sys2Proof/Machine/Operands.lean ====
section
/-! DEFINITION. The layouts of the Formats section: bytes of numbers, the two cyclic checks, chain words and slot
replies, line packets, request frames and their codes, tile entries, and the coded values of answers. -/

namespace Sys2Proof

/-- The chain position of a camera, 1 to 4. -/
def Camera.number : Camera → Nat
  | .fl => 1
  | .fr => 2
  | .rr => 3
  | .rl => 4

/-- The camera at a chain position. -/
def Camera.ofNumber : Nat → Option Camera
  | 1 => some .fl
  | 2 => some .fr
  | 3 => some .rr
  | 4 => some .rl
  | _ => none

/-- The four cameras in position order. -/
def Camera.all : List Camera := [.fl, .fr, .rr, .rl]

namespace Machine

/-! ### Bytes of numbers, most significant first (Formats) -/

def byte (n : Nat) : Byte := BitVec.ofNat 8 n

def be2 (n : Nat) : List Byte := [byte (n / 256), byte n]

def be4 (n : Nat) : List Byte := [byte (n / 16777216), byte (n / 65536), byte (n / 256), byte n]

/-- The number a list of bytes spells, most significant byte first. -/
def ofBytes (bs : List Byte) : Nat := bs.foldl (fun n b => n * 256 + b.toNat) 0

/-- Byte `i` of a payload, as a number. -/
def byteAt (bs : List Byte) (i : Nat) : Nat := ((bs[i]?).getD 0).toNat

/-- The two bytes from `i`, as a number. -/
def halfAt (bs : List Byte) (i : Nat) : Nat := byteAt bs i * 256 + byteAt bs (i + 1)

/-- A value or, where it is absent, every bit of its one-byte field set (Answer payloads). -/
def opt1 (x : Option Nat) : List Byte := [byte (x.getD 0xFF)]

/-- A value or, where it is absent, every bit of its two-byte field set. -/
def opt2 (x : Option Nat) : List Byte := be2 (x.getD 0xFFFF)

/-- A value or, where it is absent, every bit of its four-byte field set. -/
def opt4 (x : Option Nat) : List Byte := be4 (x.getD 0xFFFFFFFF)

/-- A mark, flag or enable: 1 for yes, 0 for no. -/
def mark (b : Bool) : List Byte := [if b then 1 else 0]

/-- A time of the timebase: whole ms modulo 2³², in 4 bytes. A part of a ms is rounded down, a DESIGN CHOICE, unsafe: the
manual gives no direction (R67, log 38). -/
def timeBytes (t : Nat) : List Byte := be4 (t / Config.ms)

/-- A signed number in 4 bytes, two's complement. -/
def signed4 (x : Int) : List Byte := be4 (BitVec.ofInt 32 x).toNat

/-- A signed number in 1 byte, two's complement. -/
def signed1 (x : Int) : List Byte := [BitVec.ofInt 8 x]

/-! ### Cyclic checks -/

/-- One bit into a 16-bit check with generator 0x8005 (R29, R170). -/
def crc16Bit (r : BitVec 16) (b : Bool) : BitVec 16 :=
  if r.msb != b then (r <<< 1) ^^^ 0x8005#16 else r <<< 1

/-- The bits of a byte, most significant first. -/
def byteBits (b : Byte) : List Bool := [7, 6, 5, 4, 3, 2, 1, 0].map (fun i => b.getLsbD i)

/-- The 16-bit check of bytes: register from 0xFFFF, each byte most significant bit first (R29, R170). -/
def crc16 (bs : List Byte) : BitVec 16 :=
  bs.foldl (fun r b => (byteBits b).foldl crc16Bit r) 0xFFFF#16

/-- One bit into the 6-bit check with generator x⁶ + x + 1 (R2). -/
def crc6Bit (r : BitVec 6) (b : Bool) : BitVec 6 :=
  if r.msb != b then (r <<< 1) ^^^ 0x03#6 else r <<< 1

/-- The 6-bit check of a word's bits before the check, most significant first, register from all ones (R2, Formats). -/
def crc6 (bits : List Bool) : BitVec 6 := bits.foldl crc6Bit 0x3F#6

/-- The bits of a vector from its most significant down. -/
def bitsDown {n : Nat} (x : BitVec n) : List Bool := ((List.range n).reverse).map (fun i => x.getLsbD i)

/-! ### Chain words (R2, Formats) -/

/-- A strobe word: kind 01, tag, check. -/
def strobeWordOf (tag : Tag) : BitVec 16 :=
  let head : BitVec 10 := 0b01#2 ++ tag
  head ++ crc6 (bitsDown head)

/-- Function codes of a command word (Formats). -/
def ChainFunc.code : ChainFunc → BitVec 3
  | .chainReset => 1
  | .assign => 2
  | .identStart => 3
  | .testStart => 4
  | .streamOn => 5
  | .streamOff => 6
  | .camReset => 7

/-- Address codes of a command word: 1 to 4, or 7 for every camera. -/
def ChainAddr.code : ChainAddr → BitVec 3
  | .one c => BitVec.ofNat 3 c.number
  | .every => 7

/-- A command word: kind 10, address, function, parameter, two zero bits, and the check. The check is fed bits 23 to 8, the
word's fields (R2, Formats' table); Formats' sentence feeds all the bits before the check, the two zero bits too: a
DESIGN CHOICE, unsafe (log 45). -/
def commandWordOf (e : ChainEntry) : BitVec 24 :=
  let head : BitVec 16 := 0b10#2 ++ e.addr.code ++ e.func.code ++ e.param
  head ++ 0#2 ++ crc6 (bitsDown head)

/-- State codes of a STATUS reply. -/
inductive StateCode where
  | idle
  | busy
  | ready
  | streaming
  deriving DecidableEq, Repr

/-- A slot reply (R3). -/
inductive Reply where
  | status (code : StateCode) (fault : FaultCode)
  | ack
  | nack
  | ident (index : Nat) (value : Byte)
  deriving DecidableEq, Repr

/-- A slot's result: a reply of good parity, or a missed slot (R3). -/
inductive SlotResult where
  | missed
  | reply (r : Reply)
  deriving DecidableEq, Repr

def StateCode.ofBits (b : BitVec 2) : StateCode :=
  if b = 0 then .idle else if b = 1 then .busy else if b = 2 then .ready else .streaming

/-- Fault code of a STATUS reply; 6 and 7 are taken as NONE (R16). -/
def FaultCode.ofBits (b : BitVec 3) : FaultCode :=
  if b = 1 then .selftest else if b = 2 then .memory else if b = 3 then .sensorHot
  else if b = 4 then .supplyDip else if b = 5 then .cmdCheck else .none

/-- The number of ones among a reply's 14 bits is even (Formats). -/
def goodParity (w : BitVec 14) : Bool := (bitsDown w).foldl (fun p b => p != b) false == false

/-- What a slot's reply word says, or a missed slot: no reply, or a reply of bad parity (R3). -/
def slotResultOf : Option (BitVec 14) → SlotResult
  | none => .missed
  | some w =>
    if goodParity w then
      let kind := w.extractLsb' 12 2
      if kind = 0 then .reply (.status (StateCode.ofBits (w.extractLsb' 10 2)) (FaultCode.ofBits (w.extractLsb' 7 3)))
      else if kind = 1 then .reply .ack
      else if kind = 2 then .reply .nack
      else .reply (.ident (w.extractLsb' 9 3).toNat (w.extractLsb' 1 8))
    else .missed

/-- The corner code of identity chunk 4 (Formats, Identity chunks). -/
def cornerOfBits (b : BitVec 2) : Camera :=
  if b = 0 then .fl else if b = 1 then .fr else if b = 2 then .rr else .rl

/-- The identity eight chunks carry (R12). -/
def identityOf (chunks : List Byte) : Identity :=
  let c4 := (chunks[4]?).getD 0
  { serial := BitVec.ofNat 32 (ofBytes (chunks.take 4))
    corner := cornerOfBits (c4.extractLsb' 6 2)
    lens := c4.extractLsb' 0 3
    revision := (chunks[5]?).getD 0
    stamp := BitVec.ofNat 16 (halfAt chunks 6) }

/-! ### Line packets (R28, R29, Formats) -/

/-- The line a packet carries: its error, MARKER before LENGTH before CHECK, or its intact fields. -/
def lineOfPacket (how : PacketEnd) (bytes : List Byte) : Line :=
  match how with
  | .startMarker => .bad .marker bytes
  | .overlength => .bad .marker bytes
  | .endMarker =>
    if bytes.length ≠ packetBytes then .bad .length bytes
    else if (crc16 (bytes.take 2564)).toNat ≠ halfAt bytes 2564 then .bad .check bytes
    else .intact (byteAt bytes 0) ((bytes[1]?).getD 0) (halfAt bytes 2 % 1024) ((bytes.drop 4).take Config.lineBytes)

/-! ### Requests (R171, R174) -/

/-- The requests of the table of requests. -/
inductive RequestKind where
  | echo | statusRead | noticeEnable | noticeTake
  | chainRebuild | cameraRead | cameraRestart | chainSet
  | timingSet | captureRead
  | planOpen | planTiles | planMeshes | planVerify | planDiscard | planRead | poolRead
  | viewClaim | viewRenew | viewRelease | viewRead | viewsSet
  | balanceSet | balanceRead | outputSet
  | recordRead | recordLatest | recordRewind
  | rateCap | standby | wake | powerSet | pipelineRestart
  deriving DecidableEq, Repr

/-- The request codes (The requests). -/
def RequestKind.ofCode (code : Nat) : Option RequestKind :=
  match code with
  | 0x01 => some .echo
  | 0x02 => some .statusRead
  | 0x03 => some .noticeEnable
  | 0x04 => some .noticeTake
  | 0x10 => some .chainRebuild
  | 0x11 => some .cameraRead
  | 0x12 => some .cameraRestart
  | 0x13 => some .chainSet
  | 0x20 => some .timingSet
  | 0x21 => some .captureRead
  | 0x30 => some .planOpen
  | 0x31 => some .planTiles
  | 0x32 => some .planMeshes
  | 0x33 => some .planVerify
  | 0x34 => some .planDiscard
  | 0x35 => some .planRead
  | 0x36 => some .poolRead
  | 0x40 => some .viewClaim
  | 0x41 => some .viewRenew
  | 0x42 => some .viewRelease
  | 0x43 => some .viewRead
  | 0x44 => some .viewsSet
  | 0x50 => some .balanceSet
  | 0x51 => some .balanceRead
  | 0x58 => some .outputSet
  | 0x60 => some .recordRead
  | 0x61 => some .recordLatest
  | 0x62 => some .recordRewind
  | 0x70 => some .rateCap
  | 0x71 => some .standby
  | 0x72 => some .wake
  | 0x73 => some .powerSet
  | 0x74 => some .pipelineRestart
  | _ => none

/-- The payload length a request must carry; none where its own rule checks it, up to the 248 bytes a payload may have. -/
def RequestKind.payloadBytes : RequestKind → Option Nat
  | .echo | .planTiles | .planMeshes => none
  | .statusRead | .chainRebuild | .poolRead | .viewRead | .balanceRead | .recordLatest | .recordRewind
  | .standby | .wake | .pipelineRestart => some 0
  | .cameraRead | .cameraRestart | .chainSet | .captureRead | .planVerify | .planDiscard | .viewRenew
  | .viewRelease | .outputSet | .recordRead | .rateCap => some 1
  | .noticeEnable | .noticeTake => some 2
  | .viewClaim | .balanceSet => some 3
  | .timingSet | .viewsSet | .powerSet => some 4
  | .planRead => some 5
  | .planOpen => some 19

/-- Whether a payload length passes the port's own check (R174). -/
def RequestKind.lengthOk (k : RequestKind) (len : Nat) : Bool :=
  match k.payloadBytes with
  | some n => len == n
  | none => decide (len ≤ 248)

/-- The port's own checks of a request, in order: the first failing one's outcome, or the request's kind (R174). -/
def Request.screen (r : Request) : Code ⊕ RequestKind :=
  if r.badCheck then .inl .check
  else match RequestKind.ofCode r.code.toNat with
    | none => .inl .unknown
    | some k => if k.lengthOk r.len then .inr k else .inl .length

/-- The bytes read so far are an empty request: the request code has been received and is 0 (R171). -/
def emptyRequest (bytes : List Byte) : Bool := decide (bytes[1]? = some 0)

/-- The request a complete frame carries, or none for a partial frame or an empty request (R171). -/
def requestOfFrame (bytes : List Byte) : Option Request :=
  let len := byteAt bytes 2
  if bytes.length < 3 ∨ bytes.length < 5 + len then none
  else if byteAt bytes 1 = 0 then none
  else some
    { seq := (bytes[0]?).getD 0
      code := (bytes[1]?).getD 0
      len := len
      payload := ((bytes.drop 3).take len).take 248
      badCheck := decide ((crc16 (bytes.take (3 + len))).toNat ≠ halfAt bytes (3 + len)) }

/-- Outcome values (Formats). -/
def Code.value : Code → Nat
  | .ok => 0
  | .check => 1
  | .unknown => 2
  | .length => 3
  | .range => 4
  | .state => 5
  | .owner => 6
  | .inUse => 7
  | .noSpace => 8
  | .level => 9
  | .busy => 10

/-- The bytes of an answer frame, or of the empty answer frame for none, with its port flags and its check (R170, Formats). -/
def answerFrame (a : Option Answer) (overflow notice : Bool) : List Byte :=
  let flags : Byte := byte ((if overflow then 1 else 0) + (if notice then 2 else 0))
  let body : List Byte := match a with
    | none => [0, 0, 0, flags, 0]
    | some a => [a.seq, a.code, byte a.outcome.value, flags, byte a.payload.length] ++ a.payload
  body ++ be2 (crc16 body).toNat

/-- The bytes the part shifts out in a select period, before filler (R170). -/
def Select.frameBytes (x : Select) : List Byte := answerFrame x.out x.overflow x.notice

/-- The byte shifted out at place `k` of a select period: the frame's, and 0x00 filler after it until select ends (R170). -/
def Select.byteOut (x : Select) (k : Nat) : Byte := (x.frameBytes[k]?).getD 0x00

/-- The next `n` bytes shifted out in a select period: from its first byte on while the frame has not been wholly shifted
out, and filler once it has (R170). -/
def Select.shiftsOut (x : Select) (n : Nat) : List Byte :=
  if x.shifted then List.replicate n 0x00 else (List.range n).map x.byteOut

/-! ### Tile entries and mesh records (Formats) -/

/-- A tile entry from its 6 bytes; the discarded bits fall away (R73). -/
def tileOfBytes (bs : List Byte) : TileEntry :=
  let b0 := (bs[0]?).getD 0
  let b1 := (bs[1]?).getD 0
  { cls := b0.extractLsb' 0 3, ramp := b0.extractLsb' 4 3
    primCam := b1.extractLsb' 0 3, secCam := b1.extractLsb' 4 3
    primMesh := BitVec.ofNat 10 (halfAt bs 2), secMesh := BitVec.ofNat 10 (halfAt bs 4) }

/-- The 6 bytes of a tile entry. -/
def tileBytes (t : TileEntry) : List Byte :=
  [byte (t.cls.toNat + 16 * t.ramp.toNat), byte (t.primCam.toNat + 16 * t.secCam.toNat)]
    ++ be2 t.primMesh.toNat ++ be2 t.secMesh.toNat

/-- Cut bytes into pieces of `n`, `count` of them. -/
def pieces (n : Nat) : Nat → List Byte → List (List Byte)
  | 0, _ => []
  | count + 1, bs => bs.take n :: pieces n count (bs.drop n)

/-- A signed 16-bit value at byte `i` (Formats, Mesh record). -/
def signedHalfAt (bs : List Byte) (i : Nat) : Int := (BitVec.ofNat 16 (halfAt bs i)).toInt

/-- The point of a mesh record at across index `i` and down index `j`, 0 to 2 each (R74). -/
def meshPoint (rec : List Byte) (i j : Nat) : Int × Int :=
  (signedHalfAt rec (4 * (3 * j + i)), signedHalfAt rec (4 * (3 * j + i) + 2))

/-- A mesh record's nine points. -/
def meshPoints (rec : List Byte) : List (Int × Int) :=
  (List.range 9).map (fun n => meshPoint rec (n % 3) (n / 3))

/-! ### Coded values (Answer payloads) -/

def CamState.value : CamState → Nat
  | .absent => 0
  | .unaddressed => 1
  | .addressed => 2
  | .identifying => 3
  | .testing => 4
  | .streaming => 5
  | .faulted => 6
  | .lost => 7

def FaultCode.value : FaultCode → Nat
  | .none => 0
  | .selftest => 1
  | .memory => 2
  | .sensorHot => 3
  | .supplyDip => 4
  | .cmdCheck => 5
  | .misplaced => 6
  | .identTimeout => 7
  | .testTimeout => 8
  | .noAck => 9
  | .desync => 10

def ChainPhase.value : ChainPhase → Nat
  | .off => 0
  | .settling => 1
  | .bringingUp => 2
  | .steady => 3

def PowerState.value : PowerState → Nat
  | .starting => 0
  | .run => 1
  | .standby => 2

def Thermal.value : Thermal → Nat
  | .normal => 0
  | .warm => 1
  | .hot => 2
  | .critical => 3

def SetState.value : SetState → Nat
  | .opened => 0
  | .closed => 1
  | .composing => 2

def Closure.value : Closure → Nat
  | .complete => 0
  | .window => 1

/-- The status's place in the entry's list of statuses, and its slot number. -/
def EntryStatus.value : EntryStatus → Nat × Option SlotNo
  | .awaited => (0, none)
  | .arriving k => (1, some k)
  | .present k => (2, some k)
  | .late k => (3, some k)
  | .torn k => (4, some k)
  | .missing => (5, none)
  | .excluded => (6, none)
  | .overwritten => (7, none)

def RejectReason.value : RejectReason → Nat
  | .unwritten => 0
  | .cls => 1
  | .camera => 2
  | .sameCamera => 3
  | .meshIndex => 4
  | .meshRange => 5
  | .spread => 6

def Port.value : Port → Nat
  | .cp => 0
  | .mp => 1

def LeaseHolder.value : LeaseHolder → Nat
  | .port p => Port.value p
  | .line => 2

def LinePhase.value : LinePhase → Nat
  | .active => 0
  | .holding => 1

def Holder.value : Holder → Nat
  | .cp => 0
  | .mp => 1
  | .line => 2
  | .fallback => 3
  | .none => 4

/-- A source byte: kind in bits 7 to 4, age in bits 3 to 0 (Formats, Frame record). -/
def Source.byte : Source → Byte
  | .fresh => 0x00
  | .stale age => Machine.byte (16 + age)
  | .blind => 0x20
  | .mismatch => 0x30
  | .excluded => 0x40

def FrameOutcome.value : FrameOutcome → Nat
  | .complete => 0
  | .degraded => 1
  | .underrun => 2
  | .aborted => 3
  | .noView => 4

def pixelBytes (p : Pixel) : List Byte := [p.y, p.u, p.v]

/-- The stamp content's 12 bytes (Formats, View-lane lines). -/
def stampBytes (s : Stamp) : List Byte :=
  be4 s.frame ++ [s.tag] ++ opt1 (s.plan.map (·.val)) ++ [byte s.holder.value]
    ++ s.sources.toList.map Source.byte ++ [byte s.divisor]

/-- The 24 bytes of a frame record (Formats, Frame record). -/
def recordBytes (r : FrameRecord) : List Byte :=
  be4 r.frame ++ [r.tag] ++ opt1 (r.plan.map (·.val)) ++ [byte r.holder.value]
    ++ opt1 (r.lease.map (·.1)) ++ [byte ((r.lease.map (·.2)).getD 0)]
    ++ r.sources.toList.map Source.byte ++ r.repaired.toList.map byte
    ++ be2 r.degraded ++ be2 r.underrun ++ [byte r.dropped, byte r.divisor, byte r.outcome.value]

/-- The 1440 bytes of a line on the view lane (Formats, View-lane lines). -/
def SentLine.bytes : SentLine → List Byte
  | .stamp s => stampBytes s ++ List.replicate 1428 0
  | .picture _ pixels => pixels.flatMap pixelBytes
  | .fill _ colour => (List.replicate 480 colour).flatMap pixelBytes

end Machine
end Sys2Proof
end

