-- ==== Sys2Proof/Machine/Flags.lean ====
section
/-! DEFINITION. Notice flags, notice lines, port flags, and the values other flags of the part are read off from. -/

namespace Sys2Proof.Machine

/-- The ten notice kinds, in the order of their bits (Formats). -/
inductive NoticeKind where
  | answer
  | camera
  | chain
  | plan
  | view
  | lease
  | frame
  | degraded
  | heat
  | power
  deriving DecidableEq, Repr

/-- A kind's bit alone. -/
def NoticeKind.mask : NoticeKind → BitVec 10
  | .answer => 0x001
  | .camera => 0x002
  | .chain => 0x004
  | .plan => 0x008
  | .view => 0x010
  | .lease => 0x020
  | .frame => 0x040
  | .degraded => 0x080
  | .heat => 0x100
  | .power => 0x200

/-- A port's ten notice flags: the nine raised ones, and ANSWER set while the answer queue holds an answer (R175). -/
def PortState.flags (x : PortState) : BitVec 10 :=
  (x.raised &&& 0x3FE) ||| (if x.answers.isEmpty then 0 else NoticeKind.answer.mask)

/-- A raise sets the port's flag of the kind, whether or not its enable is on (R175). -/
def PortState.raise (x : PortState) (k : NoticeKind) : PortState := { x with raised := x.raised ||| k.mask }

/-- The notice line is asserted while a flag is set and has its enable on (R176). -/
def PortState.noticeLine (x : PortState) : Bool := x.flags &&& x.enables != 0

/-- The NOTICE port flag: a flag other than ANSWER is set and enabled (R173). -/
def PortState.noticeFlag (x : PortState) : Bool := x.flags &&& x.enables &&& 0x3FE != 0

/-- The states whose slots are counted for loss (The camera table, R19). -/
def CamState.counted : CamState → Bool
  | .addressed | .identifying | .testing | .streaming | .faulted => true
  | .absent | .unaddressed | .lost => false

/-- Latched faults a camera reports (Faults). -/
def FaultCode.latched : FaultCode → Bool
  | .selftest | .memory => true
  | _ => false

/-- Temporary faults a camera reports (Faults). -/
def FaultCode.temporary : FaultCode → Bool
  | .sensorHot | .supplyDip | .cmdCheck => true
  | _ => false

/-- An entry that keeps its set OPEN (The capture set table). -/
def EntryStatus.outstanding : EntryStatus → Bool
  | .awaited | .arriving _ => true
  | _ => false

/-- The slot an entry names (R46). -/
def EntryStatus.slot? (x : EntryStatus) : Option SlotNo := x.value.2

/-- A source that the Composer can draw from (R117). -/
def Source.usable : Source → Bool
  | .fresh | .stale _ => true
  | _ => false

/-- The thermal divisor (R187). -/
def Thermal.divisor : Thermal → Nat
  | .normal => 1
  | .warm => 2
  | .hot => 3
  | .critical => 4

/-- The effective divisor: the larger of the rate cap and the thermal divisor (R187). -/
def Power.divisor (x : Power) : Nat := max x.rateCap x.thermal.divisor

/-- A chain bring-up is in flight while the phase is SETTLING or BRINGING_UP (Bring-up). -/
def ChainPhase.inFlight : ChainPhase → Bool
  | .settling | .bringingUp => true
  | .off | .steady => false

/-- A count that stays at its top once there. -/
def satAdd (top n k : Nat) : Nat := min top (n + k)

end Sys2Proof.Machine
end

