-- ==== Sys2Proof/Machine/Ops.lean ====
section
/-! DEFINITION. Operations every family uses: DDR memory, the passing of time, notices, and the taking and answering of requests. -/

namespace Sys2Proof.Machine

/-! ### DDR memory -/

namespace Memory

/-- The byte at an address: the listed one, or what an unlisted address reads as (log 7). -/
def read : Memory → Nat → Byte
  | [], _ => Config.unwritten
  | (b, x) :: rest, a => if a = b then x else if a < b then Config.unwritten else read rest a

/-- Memory with `x` at `a`, in canonical form. -/
def write : Memory → Nat → Byte → Memory
  | [], a, x => if x = Config.unwritten then [] else [(a, x)]
  | (b, y) :: rest, a, x =>
    if a < b then (if x = Config.unwritten then (b, y) :: rest else (a, x) :: (b, y) :: rest)
    else if a = b then (if x = Config.unwritten then rest else (a, x) :: rest)
    else (b, y) :: write rest a x

/-- Bytes written from an address upward. -/
def writeBytes : Memory → Nat → List Byte → Memory
  | m, _, [] => m
  | m, a, x :: xs => writeBytes (write m a x) (a + 1) xs

/-- The `n` bytes from an address upward. -/
def readBytes (m : Memory) (a n : Nat) : List Byte := (List.range n).map (fun i => m.read (a + i))

/-- The canonical form: addresses strictly rising, no entry equal to what an unlisted address reads as. -/
abbrev wf (m : Memory) : Prop :=
  m.Pairwise (fun x y => x.1 < y.1) ∧ ∀ x ∈ m, x.2 ≠ Config.unwritten

end Memory

/-! ### Notices -/

/-- A notice raised on one port (R175). -/
def State.raise (s : State) (p : Port) (k : NoticeKind) : State :=
  { s with ports := s.ports.set p ((s.ports.get p).raise k) }

/-- A notice raised on both ports. -/
def State.raiseBoth (s : State) (k : NoticeKind) : State :=
  { s with ports := ⟨s.ports.cp.raise k, s.ports.mp.raise k⟩ }

/-! ### Time (log 3, log 4, log 9) -/

/-- The leases' remaining times after `dt` µs (R98). -/
def Leases.elapse (x : Leases) (dt : Nat) : Leases :=
  { x with table := x.table.map (fun l => { l with remaining := l.remaining.map (· - dt) }) }

/-- The full idle time in µs. -/
def Power.idleFull (x : Power) : Nat := x.idleTimeout * 1000000

/-- The idle timer after `dt` µs: held at the timeout while a lease is live, else counting down (R184). -/
def Power.elapse (x : Power) (leaseLive : Bool) (dt : Nat) : Power :=
  { x with idle := x.idle.map (fun r => if leaseLive then x.idleFull else r - dt) }

/-- Whether any lease is live (R102). -/
def Leases.live (x : Leases) : Bool := !x.table.isEmpty

/-- `dt` µs pass: the timebase advances and the countdowns run. -/
def State.elapse (s : State) (dt : Nat) : State :=
  { s with
    now := s.now + dt
    leases := s.leases.elapse dt
    power := s.power.elapse s.leases.live dt }

/-- The timebase runs on to a due time, unless it is there already (log 4). -/
def State.runTo (s : State) (t : Nat) : State := s.elapse (t - s.now)

/-- The idle timer reloaded: set to the timeout in RUN, stopped during the standby wait, in STANDBY and with a timeout of 0 (R184). -/
def Power.reloadIdle (x : Power) : Power :=
  { x with
    idle := if x.state = .run ∧ x.entry = false ∧ x.idleTimeout ≠ 0 then some x.idleFull else none }

/-! ### Requests (R174) -/

/-- Execution of the request at the head of the port's queue begins: it leaves the queue, and the idle timer is reloaded (R174, R184). -/
def State.beginRequest (s : State) (p : Port) (r : Request) (rest : List Request) : State :=
  { s with
    ports := s.ports.set p { s.ports.get p with executing := some r, requests := rest }
    power := s.power.reloadIdle }

/-- Execution ends: the answer joins the tail of the port's answer queue (R174). -/
def State.answer (s : State) (p : Port) (outcome : Code) (payload : List Byte) : State :=
  let x := s.ports.get p
  match x.executing with
  | none => s
  | some r =>
    { s with
      ports := s.ports.set p
        { x with
          executing := none
          answers := x.answers ++ [{ seq := r.seq, code := r.code, outcome := outcome, payload := payload }] } }

/-- A refusal: an outcome other than OK, with no payload (R174). -/
def State.refuse (s : State) (p : Port) (outcome : Code) : State := s.answer p outcome []

/-- The request ready for execution on a port: none while one is in execution (R174). -/
def PortState.ready (x : PortState) : Option (Request × List Request) :=
  match x.executing, x.requests with
  | none, r :: rest => some (r, rest)
  | _, _ => none

/-- The execution of a request of kind `k` on a port, `body` giving its owning rule; where the port has no such request
ready the event does not arise (R174, log 2). -/
def State.serve (s : State) (p : Port) (k : RequestKind) (body : List Byte → State → State) : State :=
  match (s.ports.get p).ready with
  | none => s
  | some (r, rest) => if r.screen = .inr k then body r.payload (s.beginRequest p r rest) else s

end Sys2Proof.Machine
end

