-- ==== Sys2Proof/Machine/Arbiter.lean ====
section
/-! DEFINITION. The Memory Arbiter: who is pending, which burst is granted next, and withdrawal (R148 to R151). -/

namespace Sys2Proof.Machine

/-- A lane writer is pending while a burst of its current write remains ungranted (R148). -/
def Lane.pending (x : Lane) : Bool :=
  match x.busy with
  | some b => !b.writes.isEmpty && decide (b.granted < Config.lineBursts)
  | none => false

/-- The lanes in the order of grants: beginning at the lane after the pointer (R149). -/
def laneOrder : Camera → List Camera
  | .fl => [.fr, .rr, .rl, .fl]
  | .fr => [.rr, .rl, .fl, .fr]
  | .rr => [.rl, .fl, .fr, .rr]
  | .rl => [.fl, .fr, .rr, .rl]

/-- The address of a line write: the slot's base and the line's 2560 bytes beyond it (R35). -/
def LineWrite.addr (c : Camera) (w : LineWrite) : Nat :=
  Config.slotBase c.idx.val w.slot.val + w.line * Config.lineBytes

/-- The next burst of a lane's current write (R35). -/
def Consumption.nextBurst (c : Camera) (b : Consumption) : Option Burst :=
  match b.writes with
  | [] => none
  | w :: _ =>
    if b.granted < Config.lineBursts then
      some (.lane c (w.addr c + b.granted * Config.burstBytes)
        ((w.data.drop (b.granted * Config.burstBytes)).take Config.burstBytes) false)
    else none

/-- A grant to a lane: its next burst is in flight, and the pointer names the lane (R149). -/
def State.grantLane (s : State) (c : Camera) : State :=
  let ln := s.lanes.get c.idx
  match ln.busy with
  | none => s
  | some b =>
    match b.nextBurst c with
    | none => s
    | some burst =>
      { s with
        lanes := s.lanes.set c.idx { ln with busy := some { b with granted := b.granted + 1 } }
        arb := { s.arb with inFlight := some burst, pointer := c } }

/-- The Composer fetch's next burst and the cursor after it is granted (R150). -/
def Cursor.next : Cursor → Option (Nat × Cursor)
  | .mesh k unit => some (Config.unitAddr unit, .granted k)
  | .box k sc line burst =>
    let addr := sc.base + line * Config.lineBytes + burst * Config.burstBytes
    if burst < sc.last then some (addr, .box k sc line (burst + 1))
    else if line < sc.bottom then some (addr, .box k sc (line + 1) sc.first)
    else some (addr, .granted k)
  | .granted _ => none

/-- A grant to the pool requester: the next burst of the request in hand (R148). -/
def Arb.grantPool (x : Arb) : Option Arb :=
  match x.pool with
  | [] => none
  | r :: rest =>
    match r.left with
    | [] => none
    | b :: left => some { x with inFlight := some (.pool b), pool := { r with left := left } :: rest }

/-- A grant to the Composer fetch: the burst the cursor names (R150). -/
def Arb.grantFetch (x : Arb) : Option Arb :=
  match x.cursor.bind Cursor.next with
  | none => none
  | some (addr, cur) => some { x with inFlight := some (.fetch addr false), cursor := some cur }

/-- While FREE and with a requester pending, the Arbiter grants one burst at once: a pending lane in round-robin
order, else the pool requester, else the Composer fetch (R149). -/
def State.grant (s : State) : State :=
  match s.arb.inFlight with
  | some _ => s
  | none =>
    match (laneOrder s.arb.pointer).find? (fun c => (s.lanes.get c.idx).pending) with
    | some c => s.grantLane c
    | none =>
      match s.arb.grantPool with
      | some a => { s with arb := a }
      | none =>
        match s.arb.grantFetch with
        | some a => { s with arb := a }
        | none => s

/-- A lane's granted burst loses its request: it is carried out and its data discarded (R151, log 18). -/
def Arb.withdrawLane (x : Arb) (c : Camera) : Arb :=
  match x.inFlight with
  | some (.lane d addr data w) => { x with inFlight := some (.lane d addr data (w || decide (d = c))) }
  | _ => x

/-- The Composer fetch is withdrawn: its ungranted bursts are removed and the cursor is absent (R136, R151). -/
def Arb.withdrawFetch (x : Arb) : Arb :=
  { x with
    cursor := none
    inFlight := match x.inFlight with
      | some (.fetch addr _) => some (.fetch addr true)
      | b => b }

/-- A pool request joins behind those that came to need the pool before it (R148). -/
def Arb.addPool (x : Arb) (r : PoolRequest) : Arb := { x with pool := x.pool ++ [r] }

end Sys2Proof.Machine
end

