-- ==== Sys2Proof/Machine/Mesh.lean ====
section
/-! DEFINITION. Mesh records: legal range, fetch box, source positions (R74, R85, R122, R130). -/

namespace Sys2Proof.Machine

/-- The nine points lie in the legal range (R74). -/
def meshInRange (rec : List Byte) : Bool :=
  (meshPoints rec).all (fun q =>
    decide (-1024 ≤ q.1 ∧ q.1 ≤ 21488 ∧ -1024 ≤ q.2 ∧ q.2 ≤ 15344))

/-- The smallest of a list of numbers and a first one. -/
def leastOf (x : Int) (xs : List Int) : Int := xs.foldl min x

/-- The largest of a list of numbers and a first one. -/
def mostOf (x : Int) (xs : List Int) : Int := xs.foldl max x

/-- The pixel columns and rows of a mesh's fetch box: least and most column, least and most row; division rounds toward minus infinity (R85). -/
def fetchBounds (rec : List Byte) : Int × Int × Int × Int :=
  let xs := (meshPoints rec).map (·.1)
  let ys := (meshPoints rec).map (·.2)
  let x0 := (meshPoint rec 0 0).1
  let y0 := (meshPoint rec 0 0).2
  (leastOf x0 xs / 16, mostOf x0 xs / 16 + 1, leastOf y0 ys / 16, mostOf y0 ys / 16 + 1)

/-- The fetch box is within bounds: at most 128 across and 96 down (R85). -/
def spreadOk (rec : List Byte) : Bool :=
  let (l, r, t, b) := fetchBounds rec
  decide (r - l + 1 ≤ 128 ∧ b - t + 1 ≤ 96)

/-- The fetch box clipped to the source frame, or none where it holds no pixel (R130, R150). -/
def clipBox (rec : List Byte) : Option Box :=
  let (l, r, t, b) := fetchBounds rec
  if max l 0 ≤ min r 1279 ∧ max t 0 ≤ min b 959 then
    some
      { left := (max l 0).toNat, right := (min r 1279).toNat
        top := (max t 0).toNat, bottom := (min b 959).toNat }
  else none

/-- Rounding of a weighted sum of points: divided by 256 to the nearest whole 1/16 pixel, halves up (R122). -/
def round256 (x : Int) : Int := (x + 128) / 256

/-- The source position of output pixel (u, v) by a mesh record (R122). -/
def sourcePos (rec : List Byte) (u v : Nat) : Int × Int :=
  let i := if u < 16 then 0 else 1
  let j := if v < 16 then 0 else 1
  let a := u - 16 * i
  let b := v - 16 * j
  let w00 : Int := (16 - a) * (16 - b)
  let w10 : Int := a * (16 - b)
  let w01 : Int := (16 - a) * b
  let w11 : Int := a * b
  let p00 := meshPoint rec i j
  let p10 := meshPoint rec (i + 1) j
  let p01 := meshPoint rec i (j + 1)
  let p11 := meshPoint rec (i + 1) (j + 1)
  (round256 (w00 * p00.1 + w10 * p10.1 + w01 * p01.1 + w11 * p11.1),
   round256 (w00 * p00.2 + w10 * p10.2 + w01 * p01.2 + w11 * p11.2))

end Sys2Proof.Machine
end

