-- ==== Sys2Proof/Machine/Plans.lean ====
section
/-! DEFINITION. The Plan Store: plan slots, run placement, loading, the verification walk, references
(04_plans_and_the_mesh_pool.md), and the meanings of its requests and events. -/

namespace Sys2Proof.Machine

/-! ### Slots, runs and gaps -/

/-- The plan content a slot holds, if it is not EMPTY. -/
def PlanHold.content : PlanHold → Option PlanContent
  | .empty => none
  | .loading c _ _ => some c
  | .verifying c => some c
  | .verified c => some c
  | .rejected c _ => some c

/-- A plan state's code, in the order of the table of plan states. -/
def PlanHold.value : PlanHold → Nat
  | .empty => 0
  | .loading _ _ _ => 1
  | .verifying _ => 2
  | .verified _ => 3
  | .rejected _ _ => 4

def PlanHold.isVerified : PlanHold → Bool
  | .verified _ => true
  | _ => false

/-- The slot of a plan. -/
def State.plan (s : State) (id : PlanId) : PlanSlot := s.plans.slots.get id

def State.setPlan (s : State) (id : PlanId) (x : PlanSlot) : State :=
  { s with plans := { s.plans with slots := s.plans.slots.set id x } }

/-- A plan slot's state replaced, its reference record kept. -/
def State.setHold (s : State) (id : PlanId) (h : PlanHold) : State :=
  s.setPlan id { s.plan id with hold := h }

/-- A plan slot's reference record changed (R89). -/
def State.onRefs (s : State) (id : PlanId) (f : PlanRefs → PlanRefs) : State :=
  s.setPlan id { s.plan id with refs := f (s.plan id).refs }

/-- A plan is referenced by a lease, a view setting or the Composer (R89). -/
def PlanRefs.referenced (r : PlanRefs) : Bool := decide (1 ≤ r.leases) || r.fallback || r.reverse || r.pinned

/-- A run: its base, its length, and the plan slot holding it (R78). -/
structure Run where
  base : Nat
  len : Nat
  plan : PlanId
  deriving DecidableEq, Repr

/-- A run in its place among runs in address order. -/
def insertRun (r : Run) : List Run → List Run
  | [] => [r]
  | x :: xs => if r.base < x.base then r :: x :: xs else x :: insertRun r xs

/-- The run a plan slot holds (R78). -/
def Plans.runOf (x : Plans) (id : PlanId) : Option Run :=
  ((x.slots.get id).hold.content).map (fun c => { base := c.base, len := c.header.meshCount, plan := id })

/-- The four plan slots in order. -/
def planIds : List PlanId := [0, 1, 2, 3]

/-- The runs in address order. -/
def Plans.runs (x : Plans) : List Run := (planIds.filterMap x.runOf).foldr insertRun []

/-- The gaps of the pool from an address up, between runs in address order (04, The mesh pool). -/
def gapsFrom (at0 : Nat) : List Run → List (Nat × Nat)
  | [] => if at0 < Config.poolRecords then [(at0, Config.poolRecords - at0)] else []
  | r :: rest =>
    (if at0 < r.base then [(at0, r.base - at0)] else []) ++ gapsFrom (max at0 (r.base + r.len)) rest

/-- The base of a new run of `n` records for plan `id`, its own run counted as free: the lowest gap that fits (R79). -/
def Plans.placeRun (x : Plans) (id : PlanId) (n : Nat) : Option Nat :=
  ((gapsFrom 0 (x.runs.filter (fun r => !(r.plan == id)))).find? (fun g => decide (n ≤ g.2))).map (·.1)

/-- The plan a PLAN request names: its first payload byte, 0 to 3. -/
def planOf (bs : List Byte) : Option PlanId :=
  match bs with
  | [] => none
  | b :: _ => if h : b.toNat < 4 then some ⟨b.toNat, h⟩ else none

/-- A request of the opening port to its LOADING plan renews the request time and clears the abandoned mark (R77). -/
def State.touchPlan (s : State) (p : Port) (bs : List Byte) : State :=
  match planOf bs with
  | none => s
  | some id =>
    match (s.plan id).hold with
    | .loading c _ _ => if c.opener = p then s.setHold id (.loading c s.now false) else s
    | _ => s

/-- Tiles marked written. -/
def PlanContent.tilesWritten (c : PlanContent) : Nat := c.tiles.countP Option.isSome

/-- Meshes marked written. -/
def PlanContent.meshesWritten (c : PlanContent) : Nat := c.meshWritten.countP id

/-! ### Verification (R84 to R86) -/

/-- The classes of tile (R73). -/
inductive TileClass where
  | body
  | single
  | seam
  | void
  deriving DecidableEq, Repr

/-- The class a code names; 4 to 7 name none (Formats). -/
def TileClass.ofBits (b : BitVec 3) : Option TileClass :=
  if b = 0 then some .body else if b = 1 then some .single else if b = 2 then some .seam
  else if b = 3 then some .void else none

/-- The camera a tile entry's field names. -/
def camOfBits (b : BitVec 3) : Option Camera := Camera.ofNumber b.toNat

/-- The mesh indices a tile uses, primary first. -/
def TileEntry.meshes (e : TileEntry) : List Nat :=
  match TileClass.ofBits e.cls with
  | some .single => [e.primMesh.toNat]
  | some .seam => [e.primMesh.toNat, e.secMesh.toNat]
  | _ => []

/-- Checks 1 to 5 of a tile: the first that fails (R84). -/
def checkTile (c : PlanContent) (t : Nat) (entry : Option TileEntry) : Option Rejection :=
  match entry with
  | none => some { reason := .unwritten, tile := some t, mesh := none }
  | some e =>
    match TileClass.ofBits e.cls with
    | none => some { reason := .cls, tile := some t, mesh := none }
    | some .body => none
    | some .void => none
    | some .single =>
      if (camOfBits e.primCam).isNone then some { reason := .camera, tile := some t, mesh := none }
      else if e.primMesh.toNat ≥ c.header.meshCount then
        some { reason := .meshIndex, tile := some t, mesh := some e.primMesh.toNat }
      else none
    | some .seam =>
      if (camOfBits e.primCam).isNone ∨ (camOfBits e.secCam).isNone then
        some { reason := .camera, tile := some t, mesh := none }
      else if e.primCam = e.secCam then some { reason := .sameCamera, tile := some t, mesh := none }
      else if e.primMesh.toNat ≥ c.header.meshCount then
        some { reason := .meshIndex, tile := some t, mesh := some e.primMesh.toNat }
      else if e.secMesh.toNat ≥ c.header.meshCount then
        some { reason := .meshIndex, tile := some t, mesh := some e.secMesh.toNat }
      else none

/-- What the walk does next: a mesh read at a place, a rejection, or its end without failure. -/
inductive WalkNext where
  | read (place : WalkAt) (mesh : Nat)
  | fail (r : Rejection)
  | done
  deriving DecidableEq, Repr

def PlanContent.isWritten (c : PlanContent) (m : Nat) : Bool := (c.meshWritten[m]?).getD false

/-- A mesh record that is unwritten or outside the legal range (R84 check 6, R86). -/
def rangeFail (t : Option Nat) (m : Nat) : WalkNext :=
  .fail { reason := .meshRange, tile := t, mesh := some m }

/-- The mesh walk over indices: each that no tile referenced (R86). -/
def meshScan (c : PlanContent) (passed : List Nat) : List Nat → WalkNext
  | [] => .done
  | m :: rest =>
    if passed.contains m then meshScan c passed rest
    else if c.isWritten m then .read (.mesh m) m
    else rangeFail none m

/-- The mesh walk from an index to the end of the run. -/
def PlanContent.meshesFrom (c : PlanContent) (passed : List Nat) (m : Nat) : WalkNext :=
  meshScan c passed (List.range' m (c.header.meshCount - m))

/-- One tile of the walk: none when it passes without a mesh read (R84). -/
def scanTile (c : PlanContent) (passed : List Nat) (t : Nat) (entry : Option TileEntry) : Option WalkNext :=
  match checkTile c t entry with
  | some r => some (.fail r)
  | none =>
    match (entry.map TileEntry.meshes).getD [] with
    | [] => none
    | p :: rest =>
      if !passed.contains p then
        some (if c.isWritten p then .read (.primary t p) p else rangeFail (some t) p)
      else
        match rest with
        | [] => none
        | q :: _ =>
          if !passed.contains q then
            some (if c.isWritten q then .read (.secondary t q none) q else rangeFail (some t) q)
          else none

/-- The tile walk over the tiles from number `t`, then the mesh walk (R84, R86). -/
def tileScan (c : PlanContent) (passed : List Nat) (t : Nat) : List (Option TileEntry) → WalkNext
  | [] => c.meshesFrom passed 0
  | e :: rest =>
    match scanTile c passed t e with
    | some n => n
    | none => tileScan c passed (t + 1) rest

/-- The tile walk from tile `t`. -/
def PlanContent.tilesFrom (c : PlanContent) (passed : List Nat) (t : Nat) : WalkNext :=
  tileScan c passed t (c.tiles.drop t)

/-- A mesh index added to those that passed. -/
def addPassed (m : Nat) (passed : List Nat) : List Nat := if passed.contains m then passed else m :: passed

def spreadFail (t m : Nat) : WalkNext := .fail { reason := .spread, tile := some t, mesh := some m }

/-- The secondary mesh index of tile `t`, if it is a SEAM. -/
def PlanContent.secondaryOf (c : PlanContent) (t : Nat) : Option Nat :=
  (((c.tiles[t]?).join).map TileEntry.meshes).bind (fun ms => ms[1]?)

/-- The primary mesh index of tile `t`. -/
def PlanContent.primaryOf (c : PlanContent) (t : Nat) : Nat :=
  ((((c.tiles[t]?).join).map TileEntry.meshes).bind (fun ms => ms[0]?)).getD 0

/-- The walk taken up with the record its mesh read brought: checks 6 and 7 in order, then on (R84, R86). -/
def walkResume (c : PlanContent) (place : WalkAt) (passed : List Nat) (rec : List Byte) : List Nat × WalkNext :=
  match place with
  | .mesh m => (passed, if meshInRange rec then c.meshesFrom passed (m + 1) else rangeFail none m)
  | .primary t p =>
    if !meshInRange rec then (passed, rangeFail (some t) p)
    else
      match c.secondaryOf t with
      | some q =>
        if passed.contains q then
          if spreadOk rec then (addPassed p passed, c.tilesFrom (addPassed p passed) (t + 1))
          else (passed, spreadFail t p)
        else if c.isWritten q then (passed, .read (.secondary t q (some rec)) q)
        else (passed, rangeFail (some t) q)
      | none =>
        if spreadOk rec then (addPassed p passed, c.tilesFrom (addPassed p passed) (t + 1))
        else (passed, spreadFail t p)
  | .secondary t q first =>
    if !meshInRange rec then (passed, rangeFail (some t) q)
    else if (first.map spreadOk).getD true = false then (passed, spreadFail t (c.primaryOf t))
    else if !spreadOk rec then (passed, spreadFail t q)
    else
      let now := addPassed q (if first.isSome then addPassed (c.primaryOf t) passed else passed)
      (now, c.tilesFrom now (t + 1))

/-- The answer payload of PLAN_VERIFY (Formats). -/
def verifyBytes : Option Rejection → List Byte
  | none => [0, 0xFF] ++ opt2 none ++ opt2 none
  | some r => [1, byte r.reason.value] ++ opt2 r.tile ++ opt2 r.mesh

/-- The walk ends: the plan's new state, the answer of its PLAN_VERIFY, and PLAN on the opening port (R86). -/
def State.endWalk (s : State) (id : PlanId) (c : PlanContent) (r : Option Rejection) : State :=
  let h : PlanHold := match r with
    | none => .verified c
    | some r => .rejected c r
  let t := s.setHold id h
  ({ t with plans := { t.plans with walk := none } }.answer c.opener .ok (verifyBytes r)).raise c.opener .plan

/-- The walk goes on as `n` says: a mesh read is handed to the pool requester, or the walk ends (R84, R86, R148). -/
def State.walkOn (s : State) (id : PlanId) (c : PlanContent) (passed : List Nat) (n : WalkNext) : State :=
  match n with
  | .read place m =>
    { s with
      plans := { s.plans with walk := some { plan := id, place := place, passed := passed, record := none } }
      arb := s.arb.addPool { owner := .walk, left := [.read (c.base + m)] } }.grant
  | .fail r => s.endWalk id c (some r)
  | .done => s.endWalk id c none

/-! ### The pool requester (R148) -/

/-- A mesh of a port's LOADING plan is marked written (R83). A record of a plan no longer LOADING for the port is stored and
not marked (log 15). -/
def State.markMesh (s : State) (p : Port) (id : PlanId) (i : Nat) : State :=
  match (s.plan id).hold with
  | .loading c t a =>
    if c.opener = p then s.setHold id (.loading { c with meshWritten := c.meshWritten.set i true } t a) else s
  | _ => s

/-- The number of meshes of a plan marked written. -/
def State.meshesWritten (s : State) (id : PlanId) : Nat :=
  (((s.plan id).hold.content).map PlanContent.meshesWritten).getD 0

/-- The pool requester's list after the request in hand has ended. -/
def State.popPool (s : State) : State := { s with arb := { s.arb with pool := s.arb.pool.tail } }

/-- A pool burst has been carried out: a record is stored and marked written, or read for a PLAN_READ or for the walk;
the last burst of a request posts its answer (R83, R92, R148, log 15). A record fills the first 36 bytes of its unit, and the
other 28 stay as they were, a DESIGN CHOICE, unsafe: the manual does not say what the burst writes there (log 41). -/
def State.poolBurstDone (s : State) (b : PoolBurst) : State :=
  match s.arb.pool with
  | [] => s
  | r :: rest =>
    match r.owner, b with
    | .meshes p id, .write unit i rec =>
      let t := { s with mem := s.mem.writeBytes (Config.unitAddr unit) rec }.markMesh p id i
      if r.left = [] then t.popPool.answer p .ok (be2 (t.meshesWritten id)) else t
    | .read p marks gathered, .read unit =>
      let got := gathered ++ s.mem.readBytes (Config.unitAddr unit) Config.meshBytes ++ mark (marks.head?.getD false)
      if r.left = [] then s.popPool.answer p .ok got
      else { s with arb := { s.arb with pool := { r with owner := .read p marks.tail got } :: rest } }
    | .walk, .read unit =>
      let t := s.popPool
      { t with
        plans := { t.plans with
          walk := t.plans.walk.map (fun (w : Walk) =>
            { w with record := some (t.mem.readBytes (Config.unitAddr unit) Config.meshBytes) }) } }
    | _, _ => s

/-! ### Meanings: loading -/

/-- The header a PLAN_OPEN payload carries (R72, The requests). -/
def headerOf (bs : List Byte) : Header :=
  let b := fun i => (bs[i]?).getD 0
  { label := BitVec.ofNat 16 (halfAt bs 1)
    body := ⟨b 3, b 4, b 5⟩
    void := ⟨b 6, b 7, b 8⟩
    stamps := ⟨BitVec.ofNat 16 (halfAt bs 9), BitVec.ofNat 16 (halfAt bs 11),
      BitVec.ofNat 16 (halfAt bs 13), BitVec.ofNat 16 (halfAt bs 15)⟩
    meshCount := halfAt bs 17 }

/-- A LOADING plan of the other port that is not abandoned (R76, R77). -/
def PlanHold.ownedByOther (h : PlanHold) (p : Port) : Bool :=
  match h with
  | .loading c _ abandoned => decide (c.opener ≠ p) && !abandoned
  | _ => false

def PlanHold.isVerifying : PlanHold → Bool
  | .verifying _ => true
  | _ => false

/-- A plan as PLAN_OPEN leaves it: every tile and mesh unwritten (R81). -/
def newContent (h : Header) (p : Port) (base : Nat) : PlanContent :=
  { header := h, tiles := List.replicate Config.tiles none
    meshWritten := List.replicate h.meshCount false, opener := p, base := base }

/-- PLAN_OPEN (R81). -/
def execPlanOpen (p : Port) (s : State) : Host.Outcome State Fault Refusal :=
  .next (s.serve p .planOpen fun bs t0 =>
    let t := t0.touchPlan p bs
    let h := headerOf bs
    match planOf bs with
    | none => t.refuse p .range
    | some id =>
      if h.meshCount = 0 ∨ 750 < h.meshCount then t.refuse p .range
      else if (t.plan id).hold.isVerifying then t.refuse p .state
      else if (t.plan id).hold.ownedByOther p then t.refuse p .owner
      else if (t.plan id).refs.referenced then t.refuse p .inUse
      else
        match t.plans.placeRun id h.meshCount with
        | none => t.refuse p .noSpace
        | some base =>
          (t.setHold id (.loading (newContent h p base) t.now false)).answer p .ok (be2 base ++ be2 h.meshCount))

/-- Entries written into consecutive tiles (R82). -/
def setTiles (tiles : List (Option TileEntry)) (first : Nat) : List TileEntry → List (Option TileEntry)
  | [] => tiles
  | e :: rest => setTiles (tiles.set first (some e)) (first + 1) rest

/-- PLAN_TILES (R82). -/
def execPlanTiles (p : Port) (s : State) : Host.Outcome State Fault Refusal :=
  .next (s.serve p .planTiles fun bs t0 =>
    let t := t0.touchPlan p bs
    let first := halfAt bs 1
    let count := byteAt bs 3
    if bs.length ≠ 4 + 6 * count then t.refuse p .length
    else
      match planOf bs with
      | none => t.refuse p .range
      | some id =>
        if count = 0 ∨ 16 < count ∨ 375 < first + count then t.refuse p .range
        else
          match (t.plan id).hold with
          | .loading c at0 ab =>
            if c.opener ≠ p then t.refuse p .owner
            else
              let c' := { c with tiles := setTiles c.tiles first ((pieces 6 count (bs.drop 4)).map tileOfBytes) }
              (t.setHold id (.loading c' at0 ab)).answer p .ok (be2 c'.tilesWritten)
          | _ => t.refuse p .state)

/-- The mesh count that bounds mesh indices: 750 for a slot with no header (R83). -/
def PlanHold.meshBound (h : PlanHold) : Nat := (h.content.map (fun c => c.header.meshCount)).getD 750

/-- The bursts of a PLAN_MESHES: each record at its pool address, in order (R83, R148). -/
def meshBursts (base i : Nat) : List (List Byte) → List PoolBurst
  | [] => []
  | r :: rest => .write (base + i) i r :: meshBursts base (i + 1) rest

/-- PLAN_MESHES: when accepted, its records go to the pool requester and the answer is posted when they are stored (R83, log 15). -/
def execPlanMeshes (p : Port) (s : State) : Host.Outcome State Fault Refusal :=
  .next (s.serve p .planMeshes fun bs t0 =>
    let t := t0.touchPlan p bs
    let first := halfAt bs 1
    let count := byteAt bs 3
    if bs.length ≠ 4 + 36 * count then t.refuse p .length
    else
      match planOf bs with
      | none => t.refuse p .range
      | some id =>
        if count = 0 ∨ 6 < count ∨ (t.plan id).hold.meshBound < first + count then t.refuse p .range
        else
          match (t.plan id).hold with
          | .loading c _ _ =>
            if c.opener ≠ p then t.refuse p .owner
            else
              { t with
                arb := t.arb.addPool
                  { owner := .meshes p id, left := meshBursts c.base first (pieces 36 count (bs.drop 4)) } }.grant
          | _ => t.refuse p .state)

/-- PLAN_VERIFY: when accepted, the plan is VERIFYING, the walk starts, and the answer is posted at its end (R88). -/
def execPlanVerify (p : Port) (s : State) : Host.Outcome State Fault Refusal :=
  .next (s.serve p .planVerify fun bs t0 =>
    let t := t0.touchPlan p bs
    match planOf bs with
    | none => t.refuse p .range
    | some id =>
      match (t.plan id).hold with
      | .loading c _ _ =>
        if c.opener ≠ p then t.refuse p .owner
        else if t.plans.walk.isSome then t.refuse p .busy
        else (t.setHold id (.verifying c)).walkOn id c [] (c.tilesFrom [] 0)
      | _ => t.refuse p .state)

/-- PLAN_DISCARD (R91). -/
def execPlanDiscard (p : Port) (s : State) : Host.Outcome State Fault Refusal :=
  .next (s.serve p .planDiscard fun bs t0 =>
    let t := t0.touchPlan p bs
    match planOf bs with
    | none => t.refuse p .range
    | some id =>
      let h := (t.plan id).hold
      if h = .empty ∨ h.isVerifying = true then t.refuse p .state
      else if h.ownedByOther p then t.refuse p .owner
      else if (t.plan id).refs.referenced then t.refuse p .inUse
      else (t.setHold id .empty).answer p .ok [])

/-! ### Meanings: reading -/

/-- The header fields of PLAN_READ part 0, 0 when the header is absent (Formats). -/
def headerBytes : Option Header → List Byte
  | none => [0] ++ List.replicate 18 0
  | some h =>
    [1] ++ be2 h.label.toNat ++ pixelBytes h.body ++ pixelBytes h.void
      ++ h.stamps.toList.flatMap (fun (x : Half) => be2 x.toNat) ++ be2 h.meshCount

/-- PLAN_READ part 0 (R92, Formats). The time since the opening port's last request is rounded down to a ms, a DESIGN CHOICE,
unsafe: the manual gives no rounding (log 38). -/
def PlanSlot.bytes (x : PlanSlot) (now : Nat) : List Byte :=
  let c := x.hold.content
  let written : Option (Nat × Nat) := match x.hold with
    | .loading c _ _ => some (c.tilesWritten, c.meshesWritten)
    | .verifying c => some (c.tilesWritten, c.meshesWritten)
    | _ => none
  let waiting : List Byte := match x.hold with
    | .loading _ reqAt ab => mark ab ++ be4 ((now - reqAt) / Config.ms)
    | _ => [0xFF] ++ opt4 none
  let rejection : Option Rejection := match x.hold with
    | .rejected _ r => some r
    | _ => none
  [byte x.hold.value] ++ headerBytes (c.map PlanContent.header)
    ++ opt1 (c.map (fun (c : PlanContent) => Port.value c.opener))
    ++ opt2 (written.map (·.1)) ++ opt2 (written.map (·.2)) ++ waiting
    ++ opt2 (c.map PlanContent.base) ++ opt2 (c.map (fun (c : PlanContent) => c.header.meshCount))
    ++ opt1 (rejection.map (fun (r : Rejection) => r.reason.value))
    ++ opt2 (rejection.bind Rejection.tile) ++ opt2 (rejection.bind Rejection.mesh)
    ++ [byte x.refs.leases] ++ mark x.refs.fallback ++ mark x.refs.reverse ++ mark x.refs.pinned

/-- A tile of PLAN_READ part 1: its entry as written, every bit set while unwritten (log 20), and its written mark. -/
def tileReadBytes : Option TileEntry → List Byte
  | some e => tileBytes e ++ mark true
  | none => List.replicate 6 0xFF ++ mark false

/-- A plan's written mark of a mesh; every mark of a VERIFIED plan reads written (R92). -/
def PlanHold.meshMark (h : PlanHold) (i : Nat) : Bool :=
  match h with
  | .verified _ => true
  | h => (h.content.map (fun c => c.isWritten i)).getD false

/-- PLAN_READ: part 2 reads its records through the pool requester and is answered when they have been read (R92, R148,
log 15). A range that fails in parts 1 and 2 is answered RANGE before an EMPTY slot is answered STATE, a DESIGN CHOICE,
unsafe: R92 gives no order (log 39). The written marks of part 2 are those of the moment its execution begins and its
records those of their own bursts, a DESIGN CHOICE, unsafe: the manual does not say of which moment they are while an
earlier PLAN_MESHES of the other port has writes waiting, so a new record can be read with mark no (log 43). -/
def execPlanRead (p : Port) (s : State) : Host.Outcome State Fault Refusal :=
  .next (s.serve p .planRead fun bs t0 =>
    let t := t0.touchPlan p bs
    let part := byteAt bs 1
    let first := halfAt bs 2
    let count := byteAt bs 4
    match planOf bs with
    | none => t.refuse p .range
    | some id =>
      let h := (t0.plan id).hold
      match part with
      | 0 => t.answer p .ok ((t0.plan id).bytes t0.now)
      | 1 =>
        if count = 0 ∨ 16 < count ∨ 375 < first + count then t.refuse p .range
        else
          match h.content with
          | none => t.refuse p .state
          | some c => t.answer p .ok (((c.tiles.drop first).take count).flatMap tileReadBytes)
      | 2 =>
        if count = 0 ∨ 6 < count ∨ h.meshBound < first + count then t.refuse p .range
        else
          match h.content with
          | none => t.refuse p .state
          | some c =>
            { t with
              arb := t.arb.addPool
                { owner := .read p ((List.range' first count).map h.meshMark) []
                  left := (List.range' first count).map (fun i => .read (c.base + i)) } }.grant
      | _ => t.refuse p .range)

/-- POOL_READ's payload (R93, Formats). -/
def Plans.poolBytes (x : Plans) : List Byte :=
  let runs := x.runs
  let gaps := gapsFrom 0 runs
  [byte runs.length]
    ++ runs.flatMap (fun r => be2 r.base ++ be2 r.len ++ [byte r.plan.val, byte (x.slots.get r.plan).hold.value])
    ++ [byte gaps.length] ++ gaps.flatMap (fun g => be2 g.1 ++ be2 g.2)
    ++ be2 (gaps.foldl (fun n g => n + g.2) 0) ++ be2 (gaps.foldl (fun n g => max n g.2) 0)

/-- POOL_READ (R93). -/
def execPoolRead (p : Port) (s : State) : Host.Outcome State Fault Refusal :=
  .next (s.serve p .poolRead fun _ t => t.answer p .ok t.plans.poolBytes)

/-! ### Meanings: events -/

/-- VERIFY_MESH_READ: the walk's mesh read has been carried out and the walk checks on (R84, R86). -/
def execVerifyMeshRead (s : State) : Host.Outcome State Fault Refusal :=
  match s.plans.walk with
  | some ⟨id, place, passed, some rec⟩ =>
    match (s.plan id).hold with
    | .verifying c =>
      let (now, n) := walkResume c place passed rec
      .next (s.walkOn id c now n)
    | _ => .next s
  | _ => .next s

/-- PLAN_ABANDONED: 10,000 ms have passed with no request from the opening port (R77). -/
def execPlanAbandoned (plan : PlanId) (s : State) : Host.Outcome State Fault Refusal :=
  match (s.plan plan).hold with
  | .loading c reqAt false =>
    .next ((s.runTo (reqAt + 10000 * Config.ms)).setHold plan (.loading c reqAt true))
  | _ => .next s

end Sys2Proof.Machine
end

