-- ==== Sys2Proof/Machine/Pixels.lean ====
section
/-! DEFINITION. The drawing of pixels: sampling, gain, seam weights, blending, seam statistics (R121 to R129, R133). -/

namespace Sys2Proof.Machine

/-- Mid-grey, the colour of a NO_VIEW picture (R121). -/
def midGrey : Pixel := ⟨128, 128, 128⟩

/-- A position is inside the source frame (R123). -/
def insideFrame (pos : Int × Int) : Bool :=
  decide (0 ≤ pos.1 ∧ pos.1 ≤ 20464 ∧ 0 ≤ pos.2 ∧ pos.2 ≤ 15344)

/-- The first byte in the fetched data of the pixel pair that holds source pixel (x, y): the box's lines from the top,
each the whole 64-byte bursts that cover it, each pair U, Y, V, Y (R130, R150, Formats). -/
def Box.pairAt (b : Box) (x y : Nat) : Nat :=
  let first := b.left / 32
  let perLine := b.right / 32 - first + 1
  ((y - b.top) * perLine + (x / 32 - first)) * 64 + (x % 32) / 2 * 4

/-- The Y, U and V of a source pixel in the tile fetch buffer, as numbers. -/
def Draw.pixel (d : Draw) (x y : Nat) : Nat × Nat × Nat :=
  match d.box with
  | none => (0, 0, 0)
  | some b =>
    let i := b.pairAt x y
    (byteAt d.data (i + 1 + 2 * (x % 2)), byteAt d.data i, byteAt d.data (i + 2))

/-- A number divided by `n` and rounded to the nearest whole value, halves up. -/
def roundDiv (x n : Nat) : Nat := (2 * x + n) / (2 * n)

/-- The bilinear mix of four values by the fractions of a position (R123). -/
def bilinear (fx fy a b c d : Nat) : Nat :=
  roundDiv ((16 - fx) * (16 - fy) * a + fx * (16 - fy) * b + (16 - fx) * fy * c + fx * fy * d) 256

/-- The sample of a camera at a position inside the frame: Y, U, V (R123). -/
def Draw.sampleAt (d : Draw) (sx sy : Nat) : Nat × Nat × Nat :=
  let x0 := sx / 16
  let y0 := sy / 16
  let fx := sx % 16
  let fy := sy % 16
  let x1 := min (x0 + 1) 1279
  let y1 := min (y0 + 1) 959
  let p00 := d.pixel x0 y0
  let p10 := d.pixel x1 y0
  let p01 := d.pixel x0 y1
  let p11 := d.pixel x1 y1
  (bilinear fx fy p00.1 p10.1 p01.1 p11.1,
   bilinear fx fy p00.2.1 p10.2.1 p01.2.1 p11.2.1,
   bilinear fx fy p00.2.2 p10.2.2 p01.2.2 p11.2.2)

/-- The gained luma: times the gain, divided by 256, halves up, at most 255 (R124). -/
def gainedY (y gain : Nat) : Nat := min 255 (roundDiv (y * gain) 256)

/-- The gained sample of output pixel (u, v) from a camera, or none where its position is outside the frame (R122 to R124). -/
def Draw.sample (d : Draw) (gain u v : Nat) : Option Pixel :=
  let pos := sourcePos d.record u v
  if insideFrame pos then
    let q := d.sampleAt pos.1.toNat pos.2.toNat
    some ⟨byte (gainedY q.1 gain), byte q.2.1, byte q.2.2⟩
  else none

/-- Ramp directions (R73, Formats). -/
inductive Ramp where
  | n | ne | e | se | s | sw | w | nw
  deriving DecidableEq, Repr

def Ramp.ofBits (b : BitVec 3) : Ramp :=
  if b = 0 then .n else if b = 1 then .ne else if b = 2 then .e else if b = 3 then .se
  else if b = 4 then .s else if b = 5 then .sw else if b = 6 then .w else .nw

/-- The primary camera's weight at pixel (u, v), in 1/64 units (R127). -/
def seamWeight (r : Ramp) (u v : Nat) : Nat :=
  match r with
  | .n => roundDiv (64 * v) 31
  | .s => roundDiv (64 * (31 - v)) 31
  | .w => roundDiv (64 * u) 31
  | .e => roundDiv (64 * (31 - u)) 31
  | .nw => roundDiv (64 * (u + v)) 62
  | .se => roundDiv (64 * (62 - u - v)) 62
  | .ne => roundDiv (64 * (31 - u + v)) 62
  | .sw => roundDiv (64 * (31 + u - v)) 62

/-- A blended component (R128). -/
def blend (w p s : Nat) : Nat := roundDiv (w * p + (64 - w) * s) 64

/-- A pixel of a SEAM tile drawn with both sources (R128). -/
def seamPixel (w : Nat) (p s : Option Pixel) (void : Pixel) : Pixel :=
  match p, s with
  | some p, some s =>
    ⟨byte (blend w p.y.toNat s.y.toNat), byte (blend w p.u.toNat s.u.toNat), byte (blend w p.v.toNat s.v.toNat)⟩
  | some p, none => p
  | none, some s => s
  | none, none => void

/-- The 1024 output positions of a tile, line by line. -/
def tilePositions : List (Nat × Nat) := (List.range 1024).map (fun i => (i % 32, i / 32))

/-- The four seam pairs: which pair two cameras form, and whether the first given is the pair's first camera (R133). -/
def seamPair (a b : Camera) : Option (Fin 4 × Bool) :=
  match a, b with
  | .fl, .fr => some (0, true)
  | .fr, .fl => some (0, false)
  | .fr, .rr => some (1, true)
  | .rr, .fr => some (1, false)
  | .rr, .rl => some (2, true)
  | .rl, .rr => some (2, false)
  | .rl, .fl => some (3, true)
  | .fl, .rl => some (3, false)
  | _, _ => none

/-- One pixel counted in an accumulator: the luma of the pair's first and second camera (R133). -/
def SeamAcc.add (x : SeamAcc) (ya yb : Nat) : SeamAcc :=
  { sumA := x.sumA + ya, sumB := x.sumB + yb, count := x.count + 1 }

/-- What drawing a tile gives: its pixels, the accumulators after it, and whether it is a degraded seam tile. -/
structure Drawn where
  pixels : List Pixel
  seams : Quad SeamAcc
  degraded : Bool
  deriving DecidableEq, Repr

/-- A tile of one colour. -/
def plain (c : Pixel) (seams : Quad SeamAcc) : Drawn :=
  { pixels := tilePositions.map (fun _ => c), seams := seams, degraded := false }

/-- A tile drawn from one camera, the void colour where a position is outside the frame (R125, R129). -/
def drawOne (d : Draw) (gain : Nat) (void : Pixel) : List Pixel :=
  tilePositions.map (fun q => (d.sample gain q.1 q.2).getD void)

/-- The accumulator after a SEAM tile of two FRESH cameras: each pixel inside both frames counts once (R133). -/
def feedSeam (acc : SeamAcc) (first : Bool) (samples : List (Option Pixel × Option Pixel)) : SeamAcc :=
  samples.foldl (fun a q =>
    match q with
    | (some p, some s) => if first then a.add p.y.toNat s.y.toNat else a.add s.y.toNat p.y.toNat
    | _ => a) acc

/-- A SEAM tile drawn with both sources (R128, R133). -/
def drawBoth (r : Ramp) (p s : Draw) (x : Context) (void : Pixel) : Drawn :=
  let samples := tilePositions.map (fun q =>
    (q, p.sample (x.gains.get p.cam.idx) q.1 q.2, s.sample (x.gains.get s.cam.idx) q.1 q.2))
  let pixels := samples.map (fun z => seamPixel (seamWeight r z.1.1 z.1.2) z.2.1 z.2.2 void)
  let fresh := decide (x.sources.get p.cam.idx = .fresh) && decide (x.sources.get s.cam.idx = .fresh)
  let seams :=
    match seamPair p.cam s.cam with
    | some (i, first) =>
      if fresh then x.seams.set i (feedSeam (x.seams.get i) first (samples.map (·.2))) else x.seams
    | none => x.seams
  { pixels := pixels, seams := seams, degraded := false }

/-- A tile drawn by its class from the boxes fetched for it (R121, R125, R128, R129). -/
def drawEntry (e : TileEntry) (h : Header) (x : Context) : Drawn :=
  match TileClass.ofBits e.cls, x.draws with
  | some .body, _ => plain h.body x.seams
  | some .single, d :: _ =>
    { pixels := drawOne d (x.gains.get d.cam.idx) h.void, seams := x.seams, degraded := false }
  | some .seam, [d] =>
    { pixels := drawOne d (x.gains.get d.cam.idx) h.void, seams := x.seams, degraded := true }
  | some .seam, p :: s :: _ => drawBoth (Ramp.ofBits e.ramp) p s x h.void
  | _, _ => plain h.void x.seams

/-- The tile number of a context's row and column (R120). -/
def Context.tile (x : Context) : Nat := 15 * x.row + x.col

/-- The tile in hand drawn: by its entry in the plan, or mid-grey with NO_VIEW (R121). -/
def Context.drawTile (x : Context) (plan : Option PlanContent) : Drawn :=
  match plan with
  | none => plain midGrey x.seams
  | some c =>
    match (c.tiles[x.tile]?).join with
    | some e => drawEntry e c.header x
    | none => plain c.header.void x.seams

/-- The camera, slot and mesh of a box to fetch, if the camera's source is usable (R130). -/
def Context.drawFrom (x : Context) (cam : BitVec 3) (mesh : BitVec 10) : List Draw :=
  match camOfBits cam with
  | none => []
  | some c =>
    if (x.sources.get c.idx).usable then
      match x.srcSlots.get c.idx with
      | some k => [{ cam := c, slot := k, mesh := mesh.toNat, record := [], box := none, data := [] }]
      | none => []
    else []

/-- The boxes the tile in hand needs, primary before secondary (R125, R129, R130). -/
def Context.needs (x : Context) (plan : Option PlanContent) : List Draw :=
  match (plan.bind (fun c => (c.tiles[x.tile]?).join)) with
  | none => []
  | some e =>
    match TileClass.ofBits e.cls with
    | some .single => x.drawFrom e.primCam e.primMesh
    | some .seam => x.drawFrom e.primCam e.primMesh ++ x.drawFrom e.secCam e.secMesh
    | _ => []

end Sys2Proof.Machine
end

