-- ==== Sys2Proof/Machine/Balance.lean ====
section
/-! DEFINITION. The Balance Unit: the update after a composition, its report, and the meanings of BALANCE_SET and
BALANCE_READ (07_seam_balance.md). -/

namespace Sys2Proof.Machine

/-- The two cameras of each seam pair: front, right, rear, left (R133). -/
def pairCams : Fin 4 → Camera × Camera
  | 0 => (.fl, .fr)
  | 1 => (.fr, .rr)
  | 2 => (.rr, .rl)
  | 3 => (.rl, .fl)

/-- A pair is valid when both cameras were FRESH and its count is 4096 or more (R141). -/
def pairValid (sources : Quad Source) (acc : SeamAcc) (i : Fin 4) : Bool :=
  decide (sources.get (pairCams i).1.idx = .fresh) && decide (sources.get (pairCams i).2.idx = .fresh)
    && decide (4096 ≤ acc.count)

/-- A pair's report: the means in 1/16 luma step, nearest, halves up (R144). -/
def pairReport (sources : Quad Source) (seams : Quad SeamAcc) (i : Fin 4) : PairReport :=
  let a := seams.get i
  let ok := pairValid sources a i
  { valid := ok, count := a.count
    meanA := if ok then roundDiv (16 * a.sumA) a.count else 0
    meanB := if ok then roundDiv (16 * a.sumB) a.count else 0 }

/-- A camera's own sum, its neighbour's sum, and the count, in each of its valid pairs (R142). -/
def validPairs (sources : Quad Source) (seams : Quad SeamAcc) (c : Camera) : List (Nat × Nat × Nat) :=
  ([0, 1, 2, 3] : List (Fin 4)).filterMap (fun i =>
    let a := seams.get i
    if pairValid sources a i then
      if (pairCams i).1 = c then some (a.sumA, a.sumB, a.count)
      else if (pairCams i).2 = c then some (a.sumB, a.sumA, a.count)
      else none
    else none)

/-- A fraction rounded to the nearest whole number, halves away from 0 (R143). -/
def roundAway (num : Int) (den : Nat) : Int :=
  let r : Nat := (2 * num.natAbs + den) / (2 * den)
  if num < 0 then -(r : Int) else r

/-- The rounded raw change 128 × d / M from a camera's valid pairs, computed exactly (R142, R143): with own sums S, neighbour
sums T and counts n over k pairs, d is the average of (T − S) / n and M is ΣS / Σn. -/
def rawChange (ps : List (Nat × Nat × Nat)) : Int :=
  let all : Nat := (ps.map (·.2.2)).prod
  let diff : Int := (ps.map (fun q => ((q.2.1 : Int) - q.1) * ((all / q.2.2 : Nat) : Int))).sum
  let own : Nat := (ps.map (·.1)).sum
  let count : Nat := (ps.map (·.2.2)).sum
  roundAway (128 * diff * (count : Int)) (ps.length * all * own)

/-- A change clamped to the step limit (R143). -/
def clampStep (step : Nat) (x : Int) : Int := max (-(step : Int)) (min (step : Int) x)

/-- A gain clamped to 128 to 512 (R139, R143). -/
def clampGain (x : Int) : Nat := (max 128 (min 512 x)).toNat

/-- A camera's report entry in an update (R142, R143). -/
def Balance.camReport (x : Balance) (sources : Quad Source) (seams : Quad SeamAcc) (c : Camera) : CamReport :=
  if c = x.anchor then .anchor
  else
    let ps := validPairs sources seams c
    if ps = [] then .noPair
    else if (ps.map (·.1)).sum = 0 then .zeroMean
    else
      let r := rawChange ps
      let d := clampStep x.step r
      .moved r d (clampGain ((x.gains.get c.idx : Int) + d))

/-- A gain after an update (R142, R143). -/
def CamReport.gain (r : CamReport) (old : Nat) : Nat :=
  match r with
  | .moved _ _ g => g
  | _ => old

/-- The update after a completed composition; with the enable off nothing changes (R140). -/
def Balance.update (x : Balance) (frame : Nat) (sources : Quad Source) (seams : Quad SeamAcc) : Balance :=
  if x.enable then
    let cams := Quad.ofFn (x.camReport sources seams)
    let pairs : Quad PairReport :=
      ⟨pairReport sources seams 0, pairReport sources seams 1, pairReport sources seams 2, pairReport sources seams 3⟩
    { x with
      gains := ⟨cams.a.gain x.gains.a, cams.b.gain x.gains.b, cams.c.gain x.gains.c, cams.d.gain x.gains.d⟩
      report := some { frame := frame, pairs := pairs, cams := cams } }
  else x

/-- BALANCE_SET accepted: the settings and its effects on the gains (R145). -/
def Balance.configure (x : Balance) (enable : Bool) (anchor : Camera) (step : Nat) : Balance :=
  let gains :=
    if enable then
      if anchor = x.anchor then x.gains else x.gains.set anchor.idx 256
    else Quad.all 256
  { x with enable := enable, anchor := anchor, step := step, gains := gains }

/-- Every gain at 256 (R147). -/
def Balance.unity (x : Balance) : Balance := { x with gains := Quad.all 256 }

/-- BALANCE_SET (R145). -/
def execBalanceSet (p : Port) (s : State) : Host.Outcome State Fault Refusal :=
  .next (s.serve p .balanceSet fun bs t =>
    let e := byteAt bs 0
    let step := byteAt bs 2
    match Camera.ofNumber (byteAt bs 1) with
    | some a =>
      if 1 < e ∨ step = 0 ∨ 16 < step then t.refuse p .range
      else { t with balance := t.balance.configure (decide (e = 1)) a step }.answer p .ok []
    | none => t.refuse p .range)

def PairReport.bytes (x : PairReport) : List Byte := mark x.valid ++ be4 x.count ++ be2 x.meanA ++ be2 x.meanB

/-- A rounded change in 4 bytes: two's complement where it fits, else a free value (R146, log 40). -/
def changeBytes (x : Int) : List Byte :=
  if -2147483648 ≤ x ∧ x < 2147483648 then signed4 x else be4 (Config.wideChange x).toNat

def CamReport.bytes : CamReport → List Byte
  | .anchor => [0, 0, 0, 0, 0, 0, 0, 0]
  | .noPair => [1, 0, 0, 0, 0, 0, 0, 0]
  | .zeroMean => [2, 0, 0, 0, 0, 0, 0, 0]
  | .moved r d g => [3] ++ changeBytes r ++ signed1 d ++ be2 g

def BalanceReport.bytes (x : BalanceReport) : List Byte :=
  be4 x.frame ++ x.pairs.toList.flatMap PairReport.bytes ++ x.cams.toList.flatMap CamReport.bytes

/-- BALANCE_READ's payload; the report's fields are 0 when it is absent (R146, Formats). -/
def Balance.bytes (x : Balance) : List Byte :=
  x.gains.toList.flatMap be2 ++ [byte x.anchor.number, byte x.step] ++ mark x.enable
    ++ (match x.report with
      | some r => [1] ++ r.bytes
      | none => [0] ++ List.replicate 72 0)

/-- BALANCE_READ (R146). -/
def execBalanceRead (p : Port) (s : State) : Host.Outcome State Fault Refusal :=
  .next (s.serve p .balanceRead fun _ t => t.answer p .ok t.balance.bytes)

end Sys2Proof.Machine
end

