-- ==== Sys2Proof/Machine/Capture.lean ====
section
/-! DEFINITION. The Capture Sequencer: slots and slot choice, freshness, the capture set table, closure and credit
(03_frame_slots_and_capture_sets.md), and the meanings of WINDOW_EXPIRY, TIMING_SET and CAPTURE_READ. -/

namespace Sys2Proof.Machine

/-! ### Slots -/

/-- The slot of camera `c` numbered `k`. -/
def Capture.slot (x : Capture) (c : Camera) (k : SlotNo) : Slot := (x.slots.get c.idx).get k

def Capture.setSlot (x : Capture) (c : Camera) (k : SlotNo) (v : Slot) : Capture :=
  { x with slots := x.slots.set c.idx ((x.slots.get c.idx).set k v) }

/-- The last-good mark: the freshness record names the slot (R50). -/
def Capture.lastGood (x : Capture) (c : Camera) (k : SlotNo) : Bool :=
  match x.fresh.get c.idx with
  | some (j, _) => decide (j = k)
  | none => false

/-- A slot is a member of a set when the set's entry for its camera names it (R46). -/
def Capture.member (x : Capture) (c : Camera) (k : SlotNo) : Bool :=
  x.sets.any (fun st => (st.entries.get c.idx).status.slot? == some k)

def Slot.isFree (x : Slot) : Bool := x.hold == .free

def Slot.isHeld (x : Slot) : Bool :=
  match x.hold with
  | .held _ _ => true
  | _ => false

/-- The fill rank, 1 to 3, of a slot that is not FREE (R46). -/
def Capture.rank (x : Capture) (c : Camera) (k : SlotNo) : Option Nat :=
  ((x.fillOrder.get c.idx).findIdx? (· == k)).map (· + 1)

/-- The slot chosen for a new frame, by the first step that finds one (R48). The last value is never reached: step 3 always finds a slot. -/
def Capture.choose (x : Capture) (c : Camera) : SlotNo :=
  let unpinned := fun k => !(x.slot c k).pinned
  let oldHeld := (x.fillOrder.get c.idx).filter (fun k => unpinned k && (x.slot c k).isHeld)
  match ([0, 1, 2] : List SlotNo).find? (fun k => unpinned k && (x.slot c k).isFree) with
  | some k => k
  | none =>
    match oldHeld.find? (fun k => !x.member c k && !x.lastGood c k) with
    | some k => k
    | none => oldHeld.head?.getD 0

/-! ### Capture sets -/

/-- The closure test: an OPEN set with no outstanding entry closes COMPLETE (R60). -/
def CaptureSet.settle (x : CaptureSet) : CaptureSet :=
  if x.state = .opened ∧ x.entries.toList.all (fun e => !e.status.outstanding) then
    { x with state := .closed, closure := some .complete }
  else x

/-- A set after a change of its entries, with the closure test where one changed (R60). -/
def CaptureSet.change (x : CaptureSet) (f : CaptureSet → CaptureSet) : CaptureSet :=
  if (f x).entries = x.entries then f x else (f x).settle

/-- Whether a set closed from OPEN. -/
def closedBy (x y : CaptureSet) : Bool := decide (x.state = .opened) && decide (y.state = .closed)

/-- A change applied to every set of the table; each closure adds 1 to the credit (R62). -/
def Capture.change (x : Capture) (f : CaptureSet → CaptureSet) : Capture :=
  { x with
    sets := x.sets.map (fun st => st.change f)
    credit := satAdd 255 x.credit (x.sets.countP (fun st => closedBy st (st.change f))) }

/-- The live set with a tag (R53). -/
def Capture.find (x : Capture) (t : Tag) : Option CaptureSet := x.sets.find? (fun st => st.tag == t)

/-- One camera's entry changed in a set. -/
def CaptureSet.onEntry (x : CaptureSet) (c : Camera) (f : SetEntry → SetEntry) : CaptureSet :=
  { x with entries := x.entries.set c.idx (f (x.entries.get c.idx)) }

/-- A change of camera `c`'s entry in the live set with tag `t`, if there is one. -/
def Capture.onEntry (x : Capture) (c : Camera) (t : Tag) (f : SetEntry → SetEntry) : Capture :=
  x.change (fun st => if st.tag = t then st.onEntry c f else st)

/-- The kinds of line report (R42). -/
inductive LineReport where
  | written
  | repaired
  | error
  deriving DecidableEq, Repr

/-- One line report added to an entry (R58). Lines written and lines repaired run on past 960 and 15 where a set lives on until
its tag comes round (R55), a DESIGN CHOICE, unsafe: the manual gives no top for them (log 37). -/
def SetEntry.count (e : SetEntry) : LineReport → SetEntry
  | .written => { e with written := e.written + 1 }
  | .repaired => { e with repaired := e.repaired + 1 }
  | .error => { e with errors := satAdd 65535 e.errors 1 }

/-- A line report reaches the entry of its camera in the live set its tag names (R58). -/
def Capture.report (x : Capture) (c : Camera) (t : Tag) (r : LineReport) : Capture :=
  x.onEntry c t (fun e => e.count r)

/-- A new frame of camera `c` with tag `t`: the chosen slot's old frame is given up, the slot becomes FILLING and takes
the last place in the fill order, and an AWAITED entry becomes ARRIVING (R49, R56). -/
def Capture.newFrame (x : Capture) (c : Camera) (t : Tag) : SlotNo × Capture :=
  let k := x.choose c
  let given := if (x.slot c k).isHeld then
      x.change (fun st => st.onEntry c (fun e =>
        if e.status.slot? = some k then { e with status := .overwritten } else e))
    else x
  let fresh := if given.lastGood c k then given.fresh.set c.idx none else given.fresh
  let filled := { given with
    fresh := fresh
    fillOrder := given.fillOrder.set c.idx ((given.fillOrder.get c.idx).filter (· != k) ++ [k]) }
  let y := filled.setSlot c k { filled.slot c k with hold := .filling t }
  (k, y.onEntry c t (fun e => if e.status = .awaited then { e with status := .arriving k } else e))

/-- A frame of camera `c` is finalised in slot `k` (R50, R57). -/
def Capture.finalised (x : Capture) (c : Camera) (k : SlotNo) (t : Tag) (q : Quality) : Capture :=
  let y := x.setSlot c k { x.slot c k with hold := .held t q }
  let z := if q = .torn then y else { y with fresh := y.fresh.set c.idx (some (k, t)) }
  z.onEntry c t (fun e =>
    if e.status = .arriving k then { e with status := if q = .torn then .torn k else .present k } else e)

/-- Camera `c` has left STREAMING: its AWAITED entries in OPEN sets become MISSING (R59). -/
def Capture.departure (x : Capture) (c : Camera) : Capture :=
  x.change (fun st => if st.state = .opened then
    st.onEntry c (fun e => if e.status = .awaited then { e with status := .missing } else e) else st)

/-! ### Strobes (R51, R54, R55) -/

/-- Pending timing settings come into force (R66). -/
def Capture.bringTiming (x : Capture) : Capture :=
  match x.pendingTiming with
  | some t => { x with timing := t, pendingTiming := none }
  | none => x

/-- Freshness records whose tag has come round become NONE (R51). -/
def Capture.ageFresh (x : Capture) (t : Tag) : Capture :=
  { x with fresh := x.fresh.map (fun f => match f with
      | some (k, u) => if u = t then none else some (k, u)
      | none => none) }

/-- A count of one more drop (R55). -/
def Capture.countDrop (x : Capture) : Capture := { x with drops := satAdd 255 x.drops 1 }

/-- The table without its oldest set that is not COMPOSING (R55). -/
def dropOldest : List CaptureSet → List CaptureSet
  | [] => []
  | st :: rest => if st.state = .composing then st :: dropOldest rest else rest

/-- Room and tag for a strobe's set, or none when no set is opened for it (R55). The drop count is counted in both. Where a
COMPOSING set bears the strobe's tag no set is opened, and none is dropped for room even with 4 in the table: a DESIGN
CHOICE, unsafe, for R55's sentence on a full table does not say whether it waits on a set being opened (log 46). -/
def Capture.makeRoom (x : Capture) (t : Tag) : Capture × Bool :=
  match x.find t with
  | some st =>
    if st.state = .composing then (x.countDrop, false)
    else
      let y := { x with sets := x.sets.filter (fun z => !(z.tag == t)) }.countDrop
      if y.sets.length ≥ 4 then ({ y with sets := dropOldest y.sets }.countDrop, true) else (y, true)
  | none =>
    if x.sets.length ≥ 4 then ({ x with sets := dropOldest x.sets }.countDrop, true) else (x, true)

/-- The set a strobe opens, before its closure test (R54). -/
def newSet (t : Tag) (now window : Nat) (streaming : Quad Bool) : CaptureSet :=
  { tag := t, state := .opened, closure := none, openAt := now, deadline := now + window * Config.ms
    entries := streaming.map (fun on =>
      { status := if on then .awaited else .excluded, written := 0, repaired := 0, errors := 0 }) }

/-- A set joins the table with its closure test (R54, R60). -/
def Capture.openSet (x : Capture) (st : CaptureSet) : Capture :=
  { x with
    sets := x.sets ++ [st.settle]
    credit := satAdd 255 x.credit (if closedBy st st.settle then 1 else 0) }

/-- The Capture Sequencer at a strobe, in the order of R54. -/
def Capture.strobe (x : Capture) (t : Tag) (now : Nat) (streaming : Quad Bool) : Capture :=
  let y := x.bringTiming.ageFresh t
  match y.makeRoom t with
  | (z, true) => z.openSet (newSet t now z.timing.window streaming)
  | (z, false) => z

/-! ### Composition (R47, R52, R63, R64) -/

/-- The newest CLOSED set, and the sets created after it. -/
def newestClosed : List CaptureSet → Option (CaptureSet × List CaptureSet)
  | [] => none
  | st :: rest =>
    match newestClosed rest with
    | some r => some r
    | none => if st.state = .closed then some (st, rest) else none

/-- The set becomes COMPOSING, every older one is retired, and the credit is 0 (R63). -/
def Capture.startComposition (x : Capture) (st : CaptureSet) (newer : List CaptureSet) : Capture :=
  { x with sets := { st with state := .composing } :: newer, credit := 0 }

/-- The source age: the set's tag minus the last-good tag, modulo 256 (R52). -/
def sourceAge (setTag good : Tag) : Nat := (setTag - good).toNat

/-- The COMPOSING set is retired and every pinned mark cleared (R64). -/
def Capture.endComposition (x : Capture) : Capture :=
  { x with
    sets := x.sets.filter (fun st => !(st.state == .composing))
    slots := x.slots.map (fun t => t.map (fun sl => { sl with pinned := false })) }

/-- Sets, slots, fill orders, freshness and credit cleared; drop count and timing kept (R69, R70). -/
def Capture.clear (x : Capture) : Capture :=
  { x with
    sets := []
    slots := Quad.all (Trio.all Slot.free)
    fillOrder := Quad.all []
    fresh := Quad.all none
    credit := 0 }

/-! ### Meanings -/

/-- Entries of a set whose window has expired: AWAITED becomes MISSING, ARRIVING becomes LATE (R61). -/
def SetEntry.expire (e : SetEntry) : SetEntry :=
  match e.status with
  | .awaited => { e with status := .missing }
  | .arriving k => { e with status := .late k }
  | _ => e

/-- A set closed WINDOW (R61). -/
def CaptureSet.expire (x : CaptureSet) : CaptureSet :=
  { x with state := .closed, closure := some .window, entries := x.entries.map SetEntry.expire }

/-- The window expiry of the OPEN set with tag `t` (R61). -/
def Capture.expire (x : Capture) (t : Tag) : Capture :=
  { x with
    sets := x.sets.map (fun st => if st.tag = t ∧ st.state = .opened then st.expire else st)
    credit := satAdd 255 x.credit 1 }

/-- WINDOW_EXPIRY: the deadline of the OPEN set with this tag passes (R61). -/
def execWindowExpiry (tag : Tag) (s : State) : Host.Outcome State Fault Refusal :=
  match s.capture.find tag with
  | some st =>
    if st.state = .opened then
      let t := s.runTo st.deadline
      .next { t with capture := t.capture.expire tag }
    else .next s
  | none => .next s

/-- The timing settings a TIMING_SET payload asks for. -/
def timingOf (bs : List Byte) : Timing :=
  { period := byteAt bs 0, window := byteAt bs 1, stale := byteAt bs 2, repair := byteAt bs 3 }

/-- The ranges of R66. -/
def Timing.ok (t : Timing) : Bool :=
  decide (20 ≤ t.period ∧ t.period ≤ 100 ∧ 5 ≤ t.window ∧ t.window ≤ t.period ∧ t.stale ≤ 7 ∧ t.repair ≤ 15)

/-- TIMING_SET (R66). -/
def execTimingSet (p : Port) (s : State) : Host.Outcome State Fault Refusal :=
  .next (s.serve p .timingSet fun bs t =>
    if (timingOf bs).ok then
      { t with capture := { t.capture with pendingTiming := some (timingOf bs) } }.answer p .ok []
    else t.refuse p .range)

def SetEntry.bytes (e : SetEntry) : List Byte :=
  [byte e.status.value.1] ++ opt1 (e.status.slot?.map (·.val)) ++ be2 e.written ++ [byte e.repaired] ++ be2 e.errors

def CaptureSet.bytes (x : CaptureSet) : List Byte :=
  [x.tag, byte x.state.value] ++ opt1 (x.closure.map Closure.value) ++ timeBytes x.openAt ++ timeBytes x.deadline
    ++ x.entries.toList.flatMap SetEntry.bytes

/-- A slot in CAPTURE_READ part 1: its quality is absent unless HELD. -/
def Capture.slotBytes (x : Capture) (c : Camera) (k : SlotNo) : List Byte :=
  let sl := x.slot c k
  let body : List Byte := match sl.hold with
    | .free => [0, 0, 0xFF, 0]
    | .filling t => [1, t, 0xFF, 0]
    | .held t .complete => [2, t, 0, 0]
    | .held t (.repaired n) => [2, t, 1, byte n]
    | .held t .torn => [2, t, 2, 0]
  body ++ mark sl.pinned ++ mark (x.lastGood c k) ++ opt1 (x.rank c k)

def freshBytes : Option (SlotNo × Tag) → List Byte
  | some (k, t) => [byte k.val, t]
  | none => [0xFF, 0]

def Timing.bytes (t : Timing) : List Byte := [byte t.period, byte t.window, byte t.stale, byte t.repair]

/-- CAPTURE_READ part 0 (R67, Formats). -/
def Capture.bytes0 (x : Capture) : List Byte :=
  [byte x.sets.length] ++ x.sets.flatMap CaptureSet.bytes ++ [byte x.credit, byte x.drops]

/-- CAPTURE_READ part 1 (R67, Formats). -/
def Capture.bytes1 (x : Capture) : List Byte :=
  Camera.all.flatMap (fun c => ([0, 1, 2] : List SlotNo).flatMap (fun k => x.slotBytes c k))
    ++ x.fresh.toList.flatMap freshBytes ++ x.timing.bytes
    ++ (match x.pendingTiming with
      | some t => [1] ++ t.bytes
      | none => [0, 0, 0, 0, 0])

/-- CAPTURE_READ part 2 (R67, R43). -/
def LaneTotals.bytes (t : LaneTotals) : List Byte :=
  be2 t.marker ++ be2 t.length ++ be2 t.check ++ be2 t.overrun ++ be2 t.miswired ++ be2 t.stray ++ be2 t.order

/-- CAPTURE_READ (R67). -/
def execCaptureRead (p : Port) (s : State) : Host.Outcome State Fault Refusal :=
  .next (s.serve p .captureRead fun bs t =>
    match byteAt bs 0 with
    | 0 => t.answer p .ok t.capture.bytes0
    | 1 => t.answer p .ok t.capture.bytes1
    | 2 => t.answer p .ok (t.lanes.toList.flatMap (fun ln => ln.totals.bytes))
    | _ => t.refuse p .range)

end Sys2Proof.Machine
end

