-- ==== Sys2Proof/Machine/Lanes.lean ====
section
/-! DEFINITION. Lane Intake: line buffers, the assessment of a line, gaps and repairs, frames and their ends
(02_camera_lanes_and_line_intake.md), and the meanings of its five events. -/

namespace Sys2Proof.Machine

/-- The kinds of lane total (R43). -/
inductive TotalKind where
  | marker
  | length
  | check
  | overrun
  | miswired
  | stray
  | order
  deriving DecidableEq, Repr

/-- One more on a total, staying at 65535 (R43). -/
def LaneTotals.add (t : LaneTotals) (k : TotalKind) : LaneTotals :=
  match k with
  | .marker => { t with marker := satAdd 65535 t.marker 1 }
  | .length => { t with length := satAdd 65535 t.length 1 }
  | .check => { t with check := satAdd 65535 t.check 1 }
  | .overrun => { t with overrun := satAdd 65535 t.overrun 1 }
  | .miswired => { t with miswired := satAdd 65535 t.miswired 1 }
  | .stray => { t with stray := satAdd 65535 t.stray 1 }
  | .order => { t with order := satAdd 65535 t.order 1 }

def LineError.total : LineError → TotalKind
  | .marker => .marker
  | .length => .length
  | .check => .check

/-- The lane of the camera at a chain position. -/
def State.lane (s : State) (c : Camera) : Lane := s.lanes.get c.idx

def State.setLane (s : State) (c : Camera) (x : Lane) : State := { s with lanes := s.lanes.set c.idx x }

/-- A line error counted against the frame filling on a lane, if one is (R30, R32, R42). -/
def State.reportError (s : State) (c : Camera) : State :=
  match (s.lane c).frame with
  | some f => { s with capture := s.capture.report c f.tag .error }
  | none => s

/-- The line at the head leaves the buffer, counted in the total of its kind (R31, R32). -/
def State.dropLine (s : State) (c : Camera) (k : TotalKind) : State :=
  let ln := s.lane c
  s.setLane c { ln with buffer := ln.buffer.tail, totals := ln.totals.add k }

/-- The quality of a frame at its finalisation (R38). -/
def FrameProgress.quality (f : FrameProgress) : Quality :=
  if f.torn then .torn else if f.repaired = 0 then .complete else .repaired f.repaired

/-- The frame is finalised with a quality: reported, the closed tag set, the progress dropped, the retained copy kept (R38). -/
def State.finaliseFrame (s : State) (c : Camera) (f : FrameProgress) (q : Quality) : State :=
  let ln := s.lane c
  { s with
    capture := s.capture.finalised c f.slot f.tag q
    lanes := s.lanes.set c.idx
      { ln with
        frame := none
        closedTag := some f.tag
        retained := ln.retained.map (fun r => { r with ofFrame := false }) } }

/-- `count` missing lines from line `e`: the repairs to write for them, in order, and whether the frame is torn (R36). Each
repair is counted when its write completes (log 17). -/
def FrameProgress.gap (f : FrameProgress) (retained : Option Retained) (e count : Nat) : FrameProgress × List LineWrite :=
  if count = 0 ∨ f.torn = true then (f, [])
  else
    match retained with
    | some r =>
      if r.ofFrame then
        let k := min count (f.limit - f.repaired)
        ({ f with torn := decide (k < count) },
          (List.range k).map (fun i => { slot := f.slot, line := e + i, data := r.payload, kind := .repair }))
      else ({ f with torn := true }, [])
    | none => ({ f with torn := true }, [])

/-- The tail of the filling frame is taken as missing lines, and the lane is busy with the repairs (R34 step 1, R40). -/
def State.takeTail (s : State) (c : Camera) (f : FrameProgress) (kind : ConsumeKind) : State :=
  let ln := s.lane c
  let (g, ws) := f.gap ln.retained f.nextLine (Config.frameLines - f.nextLine)
  s.setLane c
    { ln with
      frame := some { g with nextLine := Config.frameLines }
      busy := some { kind := kind, writes := ws, granted := 0, ownDone := false } }

/-- A new frame starts: its slot chosen, its progress record set up (R34 steps 2 and 3). -/
def State.startFrame (s : State) (c : Camera) (t : Tag) : State :=
  let (k, cap) := s.capture.newFrame c t
  let ln := s.lane c
  { s with
    capture := cap
    lanes := s.lanes.set c.idx
      { ln with
        frame := some
          { slot := k, tag := t, nextLine := 0, limit := s.capture.timing.repair, repaired := 0, torn := false
            deadline := s.now + 2 * s.capture.timing.period * Config.ms }
        retained := ln.retained.map (fun r => { r with ofFrame := false }) } }

/-- Steps 9 to 11 for a line of the filling frame: dropped as ORDER, or its gap taken and its write issued (R31, R36, R37). -/
def State.consumeInFrame (s : State) (c : Camera) (n : Nat) (payload : List Byte) : State :=
  let ln := s.lane c
  match ln.frame with
  | none => s
  | some f =>
    if n < f.nextLine then s.dropLine c .order
    else
      let (g, ws) := f.gap ln.retained f.nextLine (n - f.nextLine)
      (s.setLane c
        { ln with
          frame := some { g with nextLine := n }
          busy := some
            { kind := .line n payload
              writes := ws ++ [{ slot := f.slot, line := n, data := payload, kind := .own }]
              granted := 0
              ownDone := false } }).grant

/-- The frame filling on the lane, if one is, is finalised, a new frame starts, and the line goes on at step 9 (R34). -/
def State.beginFrame (s : State) (c : Camera) (t : Tag) (n : Nat) (payload : List Byte) : State :=
  let u := match (s.lane c).frame with
    | some f => s.finaliseFrame c f f.quality
    | none => s
  (u.startFrame c t).consumeInFrame c n payload

/-- A line of a newer frame at step 8: the tail repairs of the frame filling are written first, and its slot is FILLING until
they are complete, so that no composition pins a slot that is still written to (R34, R47). With none to write the new
frame begins at once. The LINE_CONSUME that follows the last of them goes on with the line: a DESIGN CHOICE, unsafe, for
the table of steps has no row for their completion (log 17). -/
def State.newerLine (s : State) (c : Camera) (t : Tag) (n : Nat) (payload : List Byte) : State :=
  match (s.lane c).frame with
  | none => s.beginFrame c t n payload
  | some f =>
    let u := s.takeTail c f (.tail t n payload)
    match (f.gap (s.lane c).retained f.nextLine (Config.frameLines - f.nextLine)).2 with
    | [] => u.beginFrame c t n payload
    | _ :: _ => u.grant

/-- The assessment of an intact line by the steps of R31. -/
def State.assess (s : State) (c : Camera) (addr : Nat) (t : Tag) (n : Nat) (payload : List Byte) : State :=
  let ln := s.lane c
  if addr ≠ c.number then s.dropLine c .miswired
  else if (s.chain.table.get c.idx).state ≠ .streaming then s.dropLine c .stray
  else if n > 959 then s.dropLine c .order
  else if ln.closedTag = some t then s.dropLine c .order
  else if ln.frame.map (·.tag) = some t then s.consumeInFrame c n payload
  else if s.capture.find t = none then s.dropLine c .stray
  else s.newerLine c t n payload

/-- The DDR burst of a lane's write has been carried out: a repair completes at its last burst and is counted and
reported, and the line's own write completes at its last (R35, R36, R42). -/
def State.laneBurstDone (s : State) (c : Camera) : State :=
  let ln := s.lane c
  match ln.busy with
  | none => s
  | some b =>
    match b.writes with
    | [] => s
    | w :: rest =>
      if b.granted < Config.lineBursts then s
      else
        match w.kind with
        | .own => s.setLane c { ln with busy := some { b with writes := rest, granted := 0, ownDone := true } }
        | .repair =>
          match ln.frame with
          | none => s.setLane c { ln with busy := some { b with writes := rest, granted := 0 } }
          | some f =>
            { s with
              capture := s.capture.report c f.tag .repaired
              lanes := s.lanes.set c.idx
                { ln with
                  busy := some { b with writes := rest, granted := 0 }
                  frame := some { f with repaired := f.repaired + 1 } } }

/-- A consumption in flight withdrawn: its ungranted bursts are removed, and the line being consumed leaves the buffer (R41, R151). -/
def State.withdrawLane (s : State) (c : Camera) : State :=
  let ln := s.lane c
  match ln.busy with
  | none => s
  | some b =>
    let buffer := match b.kind with
      | .line _ _ | .tail _ _ _ => ln.buffer.tail
      | .abandon => ln.buffer
    { s with
      lanes := s.lanes.set c.idx { ln with busy := none, buffer := buffer }
      arb := s.arb.withdrawLane c }

/-- The lane's camera has left STREAMING: a frame filling is finalised TORN at once (R41). -/
def State.laneDeparture (s : State) (c : Camera) : State :=
  let t := s.withdrawLane c
  match (t.lane c).frame with
  | none => t
  | some f => t.finaliseFrame c f .torn

/-- A position is reported as leaving STREAMING, to its lane and to the Capture Sequencer (R8, R41, R59). -/
def State.leaveStreaming (s : State) (c : Camera) : State :=
  let t := s.laneDeparture c
  { t with capture := t.capture.departure c }

/-- A lane at a strobe: a closed tag equal to the strobe's becomes NONE (R33). -/
def Lane.strobe (x : Lane) (t : Tag) : Lane :=
  { x with closedTag := if x.closedTag = some t then none else x.closedTag }

/-- A lane after the reports of standby entry (R45). -/
def Lane.standby (x : Lane) : Lane := { x with buffer := [], retained := none, closedTag := none }

/-- Lane Intake at PIPELINE_RESTART: every lane as after power-on reset, writes in flight withdrawn (R44). -/
def State.restartLanes (s : State) : State :=
  { s with
    lanes := Quad.all Lane.reset
    arb := (((s.arb.withdrawLane .fl).withdrawLane .fr).withdrawLane .rr).withdrawLane .rl }

/-! ### Meanings -/

/-- PACKET_ARRIVAL: the packet is checked and offered to the line buffer (R28, R29, R30). -/
def execPacketArrival (lane : Camera) (how : PacketEnd) (bytes : List Byte) (s : State) :
    Host.Outcome State Fault Refusal :=
  let ln := s.lane lane
  if ln.buffer.length < 2 then
    .next (s.setLane lane { ln with buffer := ln.buffer ++ [lineOfPacket how bytes] })
  else .next ((s.setLane lane { ln with totals := ln.totals.add .overrun }).reportError lane)

/-- LINE_CONSUME: a READY lane begins consuming its head line, and a lane whose tail repairs are complete goes on with the
line that ended the frame (R31, R32, R34, log 17). -/
def execLineConsume (lane : Camera) (s : State) : Host.Outcome State Fault Refusal :=
  match (s.lane lane).busy, (s.lane lane).buffer with
  | none, .bad e _ :: _ => .next ((s.reportError lane).dropLine lane e.total)
  | none, .intact addr t n payload :: _ => .next (s.assess lane addr t n payload)
  | some ⟨.tail t n payload, [], _, _⟩, _ => .next (s.beginFrame lane t n payload)
  | _, _ => .next s

/-- LINE_WRITE_COMPLETE: the line's own write is complete (R37, R39). -/
def execLineWriteComplete (lane : Camera) (s : State) : Host.Outcome State Fault Refusal :=
  let ln := s.lane lane
  match ln.busy, ln.frame with
  | some ⟨.line n payload, _, _, true⟩, some f =>
    let g := { f with nextLine := n + 1, deadline := s.now + 2 * s.capture.timing.period * Config.ms }
    let t :=
      { s with
        capture := s.capture.report lane f.tag .written
        lanes := s.lanes.set lane.idx
          { ln with
            busy := none
            buffer := ln.buffer.tail
            retained := some { number := n, payload := payload, ofFrame := true }
            frame := some g } }
    .next (if n = 959 then t.finaliseFrame lane g g.quality else t)
  | _, _ => .next s

/-- FRAME_ABANDON: the abandon deadline of the filling frame passes with the lane READY (R40). -/
def execFrameAbandon (lane : Camera) (s : State) : Host.Outcome State Fault Refusal :=
  let ln := s.lane lane
  match ln.busy, ln.frame with
  | none, some f =>
    .next ((s.runTo f.deadline).takeTail lane f .abandon).grant
  | _, _ => .next s

/-- ABANDON_REPAIRS_COMPLETE: the abandon's repair writes are complete, and the frame is finalised (R40, R38). -/
def execAbandonRepairsComplete (lane : Camera) (s : State) : Host.Outcome State Fault Refusal :=
  let ln := s.lane lane
  match ln.busy, ln.frame with
  | some ⟨.abandon, [], _, _⟩, some f =>
    .next ((s.setLane lane { ln with busy := none }).finaliseFrame lane f f.quality)
  | _, _ => .next s

end Sys2Proof.Machine
end

