-- ==== Sys2Proof/Machine/Chain.lean ====
section
/-! DEFINITION. The Chain Controller: strobes and command words, reply slots, bring-up, faults, loss, chain break and
rebuild (01_the_camera_chain.md), and the meanings of its events and requests. -/

namespace Sys2Proof.Machine

/-! ### Records and the command queue -/

/-- The record of the camera at a chain position. -/
def State.cam (s : State) (c : Camera) : CamRecord := s.chain.table.get c.idx

/-- A record written: a change of state raises CAMERA on both ports, and a record that leaves STREAMING is reported
to its lane and to the Capture Sequencer (R8). -/
def State.setCam (s : State) (c : Camera) (r : CamRecord) : State :=
  let old := s.cam c
  let s1 := { s with chain := { s.chain with table := s.chain.table.set c.idx r } }
  let s2 := if r.state = old.state then s1 else s1.raiseBoth .camera
  if old.state = .streaming ∧ r.state ≠ .streaming then s2.leaveStreaming c else s2

/-- The position an entry's target slot belongs to: its parameter for ASSIGN, else its address (R4). -/
def ChainEntry.target (e : ChainEntry) : Option Camera :=
  match e.func, e.addr with
  | .assign, _ => Camera.ofNumber e.param.toNat
  | _, .one c => some c
  | _, .every => none

/-- An entry joins the chain command queue, which holds up to 8 (R4, log 26). -/
def Chain.enqueue (x : Chain) (e : ChainEntry) : Chain :=
  if x.queue.length < 8 then { x with queue := x.queue ++ [e] } else x

/-- Every queue entry for a position is removed (R18, R19). -/
def Chain.removeFor (x : Chain) (c : Camera) : Chain :=
  { x with queue := x.queue.filter (fun e => !(e.target == some c)) }

def State.enqueue (s : State) (e : ChainEntry) : State := { s with chain := s.chain.enqueue e }

/-- An entry addressed to one position, parameter 0 (R2). -/
def entryFor (f : ChainFunc) (c : Camera) (o : Origin) : ChainEntry :=
  { func := f, addr := .one c, param := 0, origin := o, attempts := 0 }

/-- The CHAIN_RESET entry of a bring-up (R9, R22). -/
def chainResetEntry : ChainEntry :=
  { func := .chainReset, addr := .every, param := 0, origin := .bringUp, attempts := 0 }

/-- The ASSIGN entry for a position (R10). -/
def assignEntry (c : Camera) : ChainEntry :=
  { func := .assign, addr := .every, param := BitVec.ofNat 8 c.number, origin := .bringUp, attempts := 0 }

/-- The effects of bring-up start on a record (R6). -/
def CamRecord.bringUpStart (r : CamRecord) : CamRecord :=
  { r with attempts := satAdd 255 r.attempts 1, lastFault := .none, missed := 0, startPending := false }

/-- A record becomes FAULTED with a fault code: its entries removed, its progress dropped, STREAM_OFF added if it
was STREAMING, CAMERA raised (R18). -/
def State.camFault (s : State) (c : Camera) (f : FaultCode) : State :=
  let r := s.cam c
  let s1 := { s with chain := s.chain.removeFor c }
  let s2 := s1.setCam c { r with state := .faulted, lastFault := f, ident := none, test := none, startPending := false }
  if r.state = .streaming then s2.enqueue (entryFor .streamOff c .fault) else s2

/-- A temporary fault: the last fault code set, CAMERA raised, the state kept (R17). -/
def State.camTemporary (s : State) (c : Camera) (f : FaultCode) : State :=
  (s.setCam c { s.cam c with lastFault := f }).raiseBoth .camera

/-- A STATUS reply taken for its fault code alone (R16 to R18). -/
def State.camFaultCode (s : State) (c : Camera) (f : FaultCode) : State :=
  if f.latched then s.camFault c f else if f.temporary then s.camTemporary c f else s

/-- A position became LOST in the interval (R20). -/
def Interval.lose (i : Interval) (c : Camera) : Interval := { i with lostNow := i.lostNow.set c.idx true }

/-- The slot at the front of the slots left has ended (R3). -/
def Interval.slotOver (i : Interval) : Interval := { i with slotsLeft := i.slotsLeft.tail }

/-- A record becomes LOST at its third consecutive missed slot (R19). -/
def State.camLost (s : State) (c : Camera) : State :=
  let r := s.cam c
  let ch := s.chain.removeFor c
  let s1 := { s with chain := { ch with interval := ch.interval.map (fun (i : Interval) => i.lose c) } }
  s1.setCam c { r with state := .lost, missed := 3, ident := none, test := none, startPending := false }

/-! ### Settling, rebuild and break -/

/-- The states in which a record counts as settled (R15). -/
def CamState.settled : CamState → Bool
  | .streaming | .faulted | .lost | .absent => true
  | _ => false

/-- The chain bring-up settles: the phase becomes STEADY and CHAIN is raised (R15). -/
def State.chainSettle (s : State) : State :=
  if s.chain.phase = .bringingUp ∧ s.chain.table.toList.all (fun r => r.state.settled)
      ∧ s.chain.queue.all (fun e => !(e.origin == .bringUp)) then
    { s with chain := { s.chain with phase := .steady } }.raiseBoth .chain
  else s

/-- Every record becomes UNADDRESSED with the effects of bring-up start, keeping its identity (R9, R22). -/
def State.unaddressAll (s : State) : State :=
  Camera.all.foldl (fun t c =>
    t.setCam c { (t.cam c).bringUpStart with state := .unaddressed, ident := none, test := none }) s

/-- A chain rebuild starts (R22). -/
def State.rebuild (s : State) : State :=
  let t := { s with chain := { s.chain with queue := [] } }.unaddressAll
  { t.enqueue chainResetEntry with
    chain := { (t.enqueue chainResetEntry).chain with phase := .bringingUp } }

/-- The positions beyond a position on the chain. -/
def beyond : Camera → List Camera
  | .fl => [.fr, .rr, .rl]
  | .fr => [.rr, .rl]
  | .rr => [.rl]
  | .rl => []

/-- The position of a chain break in this interval, if one is recognised: the lowest position that became LOST, when
every counted position beyond it became LOST too (R20). -/
def Interval.breakAt (i : Interval) : Option Camera :=
  match Camera.all.find? (fun c => i.lostNow.get c.idx) with
  | none => none
  | some k => if (beyond k).all (fun c => !i.counted.get c.idx || i.lostNow.get c.idx) then some k else none

/-- Whether a chain break starts an automatic rebuild (R21). -/
def State.autoRebuildAllowed (s : State) : Bool :=
  s.chain.autoRebuild && !s.chain.phase.inFlight &&
    (match s.chain.lastAuto with
      | none => true
      | some t => decide (t + 10000 * Config.ms ≤ s.now))

/-- The chain break test at the end of the last reply slot (R20, R21). -/
def State.breakTest (s : State) : State :=
  match s.chain.interval.bind Interval.breakAt with
  | none => s
  | some k =>
    let t := { s with chain := { s.chain with lastBreak := some k } }.raiseBoth .chain
    if t.autoRebuildAllowed then
      { t with chain := { t.chain with lastAuto := some t.now } }.rebuild
    else t

/-! ### Strobes -/

/-- Records with stream start pending become STREAMING (R14). -/
def State.streamStarts (s : State) : State :=
  Camera.all.foldl (fun t c =>
    let r := t.cam c
    if r.startPending then t.setCam c { r with state := .streaming, startPending := false, test := none } else t) s

/-- The command word of the entry at the head of the queue is sent after the strobe word; a CHAIN_RESET is removed as
it is sent, and one of origin BRING_UP adds ASSIGN 1 (R4, R10). With an empty queue no command word is held (log 30). -/
def Chain.sendCommand (x : Chain) : Chain :=
  match x.queue with
  | [] => { x with commandWord := none }
  | e :: rest =>
    let sent := { e with attempts := e.attempts + 1 }
    if e.func = .chainReset then
      let y := { x with queue := rest, commandWord := some (commandWordOf sent) }
      if e.origin = .bringUp then y.enqueue (assignEntry .fl) else y
    else { x with queue := sent :: rest, commandWord := some (commandWordOf sent) }

/-- Which positions' records are STREAMING. -/
def State.streaming (s : State) : Quad Bool := s.chain.table.map (fun (r : CamRecord) => decide (r.state = .streaming))

/-- A strobe word is sent: stream starts, the strobe handed to the lanes and the Capture Sequencer, the tag counter
advanced, a new strobe interval begun, the command word sent (R1, R4, R14, R33, R54). -/
def State.sendStrobe (s : State) : State :=
  let t := s.streamStarts
  let tag := t.chain.tag
  let cap := t.capture.strobe tag t.now t.streaming
  { t with
    capture := cap
    lanes := t.lanes.map (fun ln => ln.strobe tag)
    chain :=
      ({ t.chain with
        tag := tag + 1
        lastTag := some tag
        strobeWord := some (strobeWordOf tag)
        nextStrobe := some (t.now + cap.timing.period * Config.ms)
        interval := some
          { strobeAt := t.now
            slotsLeft := Camera.all
            counted := t.chain.table.map (fun (r : CamRecord) => r.state.counted)
            lostNow := Quad.all false } }).sendCommand }

/-- Camera power is switched on: power settle begins (R9). -/
def State.camerasOn (s : State) : State :=
  { s with
    chain := { s.chain with
      cameraPower := true, phase := .settling, settleAt := some (s.now + 200 * Config.ms) } }

/-- A record at standby entry (R7). -/
def CamRecord.standby (r : CamRecord) : CamRecord :=
  { r with state := .absent, missed := 0, startPending := false, ident := none, test := none }

/-- The Chain Controller at standby entry, camera power switched off (R7, R23). That no strobe word and no command word is held
from then on is a DESIGN CHOICE, unsafe (log 30), and so is that the strobe interval in progress is dropped, with the
reply slots left in it and the chain break test at its last slot (R20), of which R23 says nothing (log 47). -/
def Chain.standby (x : Chain) : Chain :=
  { x with
    table := x.table.map CamRecord.standby
    queue := [], phase := .off, settleAt := none, nextStrobe := none, interval := none
    strobeWord := none, commandWord := none, cameraPower := false }

/-! ### Reply slots -/

/-- Addressing is complete: IDENT_START is added for each ADDRESSED position (R10). -/
def State.addressingDone (s : State) : State :=
  Camera.all.foldl (fun t c =>
    if (t.cam c).state = .addressed then t.enqueue (entryFor .identStart c .bringUp) else t) s

/-- The position after a position. -/
def nextPosition : Camera → Option Camera
  | .fl => some .fr
  | .fr => some .rr
  | .rr => some .rl
  | .rl => none

/-- A command for position `c` succeeds (R10, R11, R13, R14, R26). -/
def State.commandDone (s : State) (c : Camera) (f : ChainFunc) : State :=
  let r := s.cam c
  match f with
  | .assign =>
    let t := s.setCam c { r with state := .addressed }
    match nextPosition c with
    | some d => t.enqueue (assignEntry d)
    | none => t.addressingDone
  | .identStart =>
    s.setCam c
      { r with
        state := .identifying
        identity := none
        ident := some { chunks := List.replicate 8 none, prev := none, elapsed := 0 } }
  | .testStart =>
    s.setCam c { r with state := .testing, ident := none, test := some { start := s.now, requested := false } }
  | .streamOn => if r.state = .testing then s.setCam c { r with startPending := true } else s
  | .camReset => s.enqueue (entryFor .identStart c .bringUp)
  | .streamOff | .chainReset => s

/-- A command for position `c` fails (R5, R10). -/
def State.commandFailed (s : State) (c : Camera) (f : ChainFunc) : State :=
  match f with
  | .assign =>
    ((c :: beyond c).foldl (fun t d => t.setCam d { t.cam d with state := .absent }) s).addressingDone
  | .identStart | .testStart | .streamOn | .camReset => s.camFault c .noAck
  | .streamOff | .chainReset => s

/-- The queue's head entry, when it was sent in this interval and its target slot is position `c`'s. -/
def Chain.sentTo (x : Chain) (c : Camera) : Option ChainEntry :=
  match x.queue with
  | [] => none
  | e :: _ => if e.attempts ≥ 1 ∧ e.target = some c then some e else none

def State.popCommand (s : State) : State := { s with chain := { s.chain with queue := s.chain.queue.tail } }

/-- The command sent in this interval at the end of its target slot (R4). -/
def State.settleCommand (s : State) (c : Camera) (res : SlotResult) : State :=
  match s.chain.sentTo c with
  | none => s
  | some e =>
    if res = .reply .ack then s.popCommand.commandDone c e.func
    else if res = .reply .nack then s.popCommand.commandFailed c e.func
    else if e.attempts ≥ 3 then s.popCommand.commandFailed c e.func
    else s

/-- Whether a slot's result is the reply that settles the command sent to the position (R4, R16). -/
def Chain.settles (x : Chain) (c : Camera) (res : SlotResult) : Bool :=
  (x.sentTo c).isSome && (decide (res = .reply .ack) || decide (res = .reply .nack))

/-- The chunks after an IDENT reply: the chunk is accepted when the reply equals the previous interval's (R11). -/
def IdentProgress.take (p : IdentProgress) (i : Nat) (b : Byte) : IdentProgress :=
  { p with
    chunks := if p.prev = some (i, b) ∧ p.chunks[i]? = some none then p.chunks.set i (some b) else p.chunks
    prev := some (i, b) }

/-- The eighth chunk is accepted: the identity is stored and its corner checked (R12). -/
def State.identityCheck (s : State) (c : Camera) (chunks : List (Option Byte)) : State :=
  let id := identityOf (chunks.map (·.getD 0))
  let t := s.setCam c { s.cam c with identity := some id, ident := none }
  if id.corner = c then t.enqueue (entryFor .testStart c .bringUp) else t.camFault c .misplaced

/-- The end of the accounting of an identification interval: all chunks accepted, or 64 intervals elapsed (R11, R12). -/
def State.identClose (s : State) (c : Camera) (p : IdentProgress) : State :=
  if p.chunks.all Option.isSome then s.identityCheck c p.chunks
  else
    let t := s.setCam c { s.cam c with ident := some p }
    if p.elapsed ≥ 64 then t.camFault c .identTimeout else t

/-- The slot of an IDENTIFYING record whose identification is in progress (R11, R16). -/
def State.identSlot (s : State) (c : Camera) (p : IdentProgress) (res : SlotResult) : State :=
  let q := { p with elapsed := p.elapsed + 1 }
  match res with
  | .reply (.ident i b) => s.identClose c (q.take i b)
  | .reply (.status _ f) =>
    if f.latched then s.camFault c f
    else (s.camFaultCode c f).identClose c { q with prev := none }
  | _ => s.identClose c { q with prev := none }

/-- A STATUS reply for a record in TESTING (R13). -/
def State.testSlot (s : State) (c : Camera) (code : StateCode) (f : FaultCode) : State :=
  if f.latched then s.camFault c f
  else
    let t := s.camFaultCode c f
    let r := t.cam c
    match r.test with
    | some tp =>
      if code = .ready ∧ tp.requested = false then
        (t.setCam c { r with test := some { tp with requested := true } }).enqueue (entryFor .streamOn c .bringUp)
      else t
    | none => t

/-- What a slot's result does by the state of the position's record (R11, R13, R16). -/
def State.takeReply (s : State) (c : Camera) (res : SlotResult) : State :=
  let r := s.cam c
  match r.state, r.ident, res with
  | .identifying, some p, res => s.identSlot c p res
  | .identifying, none, .reply (.status _ f) => s.camFaultCode c f
  | .addressed, _, .reply (.status _ f) => s.camFaultCode c f
  | .testing, _, .reply (.status code f) => s.testSlot c code f
  | .streaming, _, .reply (.status code f) =>
    if code ≠ .streaming then s.camFault c .desync else s.camFaultCode c f
  | _, _, _ => s

/-- The consecutive missed slots of a counted record after a slot (R19). -/
def State.countSlot (s : State) (c : Camera) (res : SlotResult) : State :=
  let r := s.cam c
  if r.state.counted then
    s.setCam c { r with missed := if res = .missed then r.missed + 1 else 0 }
  else s

/-- Whether a slot's result is the third consecutive missed slot of a counted record (R19). -/
def CamRecord.thirdMiss (r : CamRecord) (res : SlotResult) : Bool :=
  r.state.counted && decide (res = .missed) && decide (2 ≤ r.missed)

/-- A slot's result taken: loss first, then the command sent to the position, then the reply by the record's state (R3, R4, R19, log 13). -/
def State.slotResult (s : State) (c : Camera) (res : SlotResult) : State :=
  if (s.cam c).thirdMiss res then s.camLost c
  else
    let t := s.countSlot c res
    let settled := t.chain.settles c res
    let u := t.settleCommand c res
    if settled then u else u.takeReply c res

/-- The slot is over; after the last one comes the chain break test, and the bring-up may settle (R15, R20). Where one loss does
both, the break test is taken first, with the bring-up still in flight, and no automatic rebuild starts (R21): a DESIGN
CHOICE, unsafe, for the manual gives no order (log 36). -/
def State.afterSlot (s : State) (c : Camera) : State :=
  let t := { s with chain := { s.chain with interval := s.chain.interval.map Interval.slotOver } }
  (if c = .rl then t.breakTest else t).chainSettle

/-- When reply slot `c` of an interval ends (R3). -/
def Interval.slotTime (i : Interval) (c : Camera) : Nat := i.strobeAt + 500 + 600 * c.number

/-- The end of the reply slot of position `c`, when it is the next slot of the interval in progress (R3). -/
def State.endSlot (s : State) (c : Camera) (res : SlotResult) : State :=
  match s.chain.interval with
  | some i =>
    if i.slotsLeft.head? = some c then ((s.runTo (i.slotTime c)).slotResult c res).afterSlot c else s
  | none => s

/-! ### Meanings: events -/

/-- STROBE: one capture period after the strobe before it (R1). -/
def execStrobe (s : State) : Host.Outcome State Fault Refusal :=
  match s.chain.nextStrobe with
  | some t => if s.power.state = .run then .next (s.runTo t).sendStrobe.chainSettle else .next s
  | none => .next s

/-- SLOT_END: the result of the next reply slot of the interval is taken (R3). -/
def execSlotEnd (c : Camera) (reply : Option (BitVec 14)) (s : State) : Host.Outcome State Fault Refusal :=
  .next (s.endSlot c (slotResultOf reply))

/-- CAMERA_LOST: the slot of a counted record ends missed for the third consecutive time (R19, log 11). -/
def execCameraLost (c : Camera) (s : State) : Host.Outcome State Fault Refusal :=
  if (s.cam c).thirdMiss .missed then .next (s.endSlot c .missed) else .next s

/-- IDENT_TIMEOUT: the slot that brings the intervals elapsed of an identification to 64 (R11, log 11). -/
def execIdentTimeout (c : Camera) (reply : Option (BitVec 14)) (s : State) : Host.Outcome State Fault Refusal :=
  match (s.cam c).state, (s.cam c).ident with
  | .identifying, some p => if p.elapsed = 63 then .next (s.endSlot c (slotResultOf reply)) else .next s
  | _, _ => .next s

/-- SETTLE_TIMER_EXPIRY: power settle ends (R9). -/
def execSettleTimerExpiry (s : State) : Host.Outcome State Fault Refusal :=
  match s.chain.settleAt with
  | some t =>
    let u := ((s.runTo t).enqueue chainResetEntry).unaddressAll
    .next { u with chain := { u.chain with settleAt := none, phase := .bringingUp } }
  | none => .next s

/-- TEST_TIMER_EXPIRY: 2000 ms after the test start time; without effect once the stream is requested (R13). -/
def execTestTimerExpiry (c : Camera) (s : State) : Host.Outcome State Fault Refusal :=
  match (s.cam c).state, (s.cam c).test with
  | .testing, some tp =>
    let t := s.runTo (tp.start + 2000 * Config.ms)
    if tp.requested then .next t else .next (t.camFault c .testTimeout).chainSettle
  | _, _ => .next s

/-! ### Meanings: requests -/

/-- CHAIN_REBUILD (R24). -/
def execChainRebuild (p : Port) (s : State) : Host.Outcome State Fault Refusal :=
  .next (s.serve p .chainRebuild fun _ t =>
    if t.power.state = .standby then t.refuse p .state
    else if t.chain.phase.inFlight then t.refuse p .busy
    else t.rebuild.answer p .ok [])

/-- The identity fields of CAMERA_READ, 0 when absent (Formats). -/
def identityBytes : Option Identity → List Byte
  | some i =>
    [1] ++ be4 i.serial.toNat ++ [byte i.corner.idx.val, byte i.lens.toNat, i.revision] ++ be2 i.stamp.toNat
  | none => [0, 0, 0, 0, 0, 0, 0, 0, 0, 0]

/-- The chunks accepted of a record, absent outside IDENTIFYING; 8 once the identity is stored (R25, log 20). -/
def CamRecord.chunksAccepted (r : CamRecord) : Option Nat :=
  if r.state = .identifying then
    some (match r.ident with
      | some p => p.chunks.countP Option.isSome
      | none => 8)
  else none

/-- The payload of CAMERA_READ (R25, Formats). -/
def Chain.bytes (x : Chain) (r : CamRecord) : List Byte :=
  [byte r.state.value] ++ mark r.startPending ++ identityBytes r.identity ++ opt1 r.chunksAccepted
    ++ [byte r.lastFault.value, byte r.missed, byte r.attempts, byte x.phase.value] ++ mark x.autoRebuild
    ++ opt1 (x.lastBreak.map Camera.number) ++ [byte x.queue.length] ++ mark x.lastTag.isSome ++ [x.lastTag.getD 0]

/-- CAMERA_READ (R25). -/
def execCameraRead (p : Port) (s : State) : Host.Outcome State Fault Refusal :=
  .next (s.serve p .cameraRead fun bs t =>
    match Camera.ofNumber (byteAt bs 0) with
    | some c => t.answer p .ok (t.chain.bytes (t.cam c))
    | none => t.refuse p .range)

/-- One camera taken back through bring-up from its address (R26). -/
def State.restartCamera (s : State) (p : Port) (c : Camera) : State :=
  (s.setCam c { (s.cam c).bringUpStart with state := .addressed, ident := none, test := none }).enqueue
    (entryFor .camReset c (.request p))

/-- CAMERA_RESTART (R26). -/
def execCameraRestart (p : Port) (s : State) : Host.Outcome State Fault Refusal :=
  .next (s.serve p .cameraRestart fun bs t =>
    match Camera.ofNumber (byteAt bs 0) with
    | none => t.refuse p .range
    | some c =>
      if t.power.state = .standby then t.refuse p .state
      else if t.chain.phase.inFlight then t.refuse p .busy
      else if (t.cam c).state = .absent ∨ (t.cam c).state = .unaddressed then t.refuse p .state
      else if t.chain.queue.any (fun e => e.target == some c) then t.refuse p .busy
      else (t.restartCamera p c).answer p .ok [])

/-- CHAIN_SET (R27). -/
def execChainSet (p : Port) (s : State) : Host.Outcome State Fault Refusal :=
  .next (s.serve p .chainSet fun bs t =>
    match byteAt bs 0 with
    | 0 => { t with chain := { t.chain with autoRebuild := false } }.answer p .ok []
    | 1 => { t with chain := { t.chain with autoRebuild := true } }.answer p .ok []
    | _ => t.refuse p .range)

end Sys2Proof.Machine
end

