-- ==== Sys2Proof/Machine/ViewLane.lean ====
section
/-! DEFINITION. The View Lane's places, rows, underrun counts and aborts (R152 to R157), and the meaning of OUTPUT_SET. -/

namespace Sys2Proof.Machine

/-! ### Places of the row buffer -/

def Place.isFree : Place → Bool
  | .free => true
  | _ => false

def Place.isComplete : Place → Bool
  | .complete _ _ _ => true
  | _ => false

/-- The place holds a row of the picture numbered `frame`. -/
def Place.ofFrame (x : Place) (frame : Nat) : Bool :=
  match x with
  | .free => false
  | .drawing f _ _ => f == frame
  | .complete f _ _ => f == frame

/-- The tiles of a COMPLETE place that holds row `row` of picture `frame`. -/
def Place.rowTiles (x : Place) (frame row : Nat) : Option (List (List Pixel)) :=
  match x with
  | .complete f r tiles => if f = frame ∧ r = row then some tiles else none
  | _ => none

/-- The number of COMPLETE places, the answer to the Composer's row test (R132, R152). -/
def ViewLane.completeCount (v : ViewLane) : Nat :=
  (if v.placeA.isComplete then 1 else 0) + (if v.placeB.isComplete then 1 else 0)

/-- A change of both places. -/
def ViewLane.onPlaces (v : ViewLane) (f : Place → Place) : ViewLane :=
  { v with placeA := f v.placeA, placeB := f v.placeB }

/-- A FREE place becomes DRAWING with a picture's frame and row number; the first FREE place is taken (R152, log 21).
With no FREE place nothing changes, which does not arise (log 26). -/
def ViewLane.beginRow (v : ViewLane) (frame row : Nat) : ViewLane :=
  if v.placeA.isFree then { v with placeA := .drawing frame row [] }
  else if v.placeB.isFree then { v with placeB := .drawing frame row [] }
  else v

/-- A tile of the row being drawn, written at its place after the tiles before it (R131). -/
def Place.addTile (x : Place) (frame row : Nat) (tile : List Pixel) : Place :=
  match x with
  | .drawing f r tiles => if f = frame ∧ r = row then .drawing f r (tiles ++ [tile]) else x
  | _ => x

def ViewLane.addTile (v : ViewLane) (frame row : Nat) (tile : List Pixel) : ViewLane :=
  v.onPlaces (fun x => x.addTile frame row tile)

/-- The COMPLETE row of a picture leaves the buffer: its place becomes FREE (R152). -/
def ViewLane.freeRow (v : ViewLane) (frame row : Nat) : ViewLane :=
  v.onPlaces (fun x => if (x.rowTiles frame row).isSome then .free else x)

/-- A COMPLETE place holds row `row` of picture `frame`. -/
def ViewLane.holdsRow (v : ViewLane) (frame row : Nat) : Bool :=
  (v.placeA.rowTiles frame row).isSome || (v.placeB.rowTiles frame row).isSome

/-- The tiles of a picture's COMPLETE row. -/
def ViewLane.rowTiles (v : ViewLane) (frame row : Nat) : Option (List (List Pixel)) :=
  match v.placeA.rowTiles frame row with
  | some t => some t
  | none => v.placeB.rowTiles frame row

/-- Line `k` of a row, 0 to 31: the 32 pixels of that line from each of its tiles in column order (R131). -/
def rowLine (tiles : List (List Pixel)) (k : Nat) : List Pixel :=
  tiles.flatMap (fun t => (t.drop (32 * k)).take 32)

/-- Whether the interval of line `n` of picture `frame` has begun: the frame's line pointer is past it, or the frame has ended (R155). -/
def ViewLane.passed (v : ViewLane) (frame n : Nat) : Bool :=
  match v.sending with
  | some t =>
    if t.frame = frame then
      match t.pointer with
      | .stamp => false
      | .line m => decide (n < m)
    else v.endedCount.any (fun e => e.1 == frame)
  | none => v.endedCount.any (fun e => e.1 == frame)

/-- A DRAWING row handed over becomes COMPLETE. -/
def Place.finish (x : Place) (frame row : Nat) : Place :=
  match x with
  | .drawing f r tiles => if f = frame ∧ r = row then .complete f r tiles else x
  | _ => x

/-- A DRAWING row discarded: its place becomes FREE. -/
def Place.discard (x : Place) (frame row : Nat) : Place :=
  match x with
  | .drawing f r _ => if f = frame ∧ r = row then .free else x
  | _ => x

/-- A row handed over: COMPLETE, or discarded when the interval of its last line has begun (R131, R155). -/
def ViewLane.handOver (v : ViewLane) (frame row : Nat) : ViewLane :=
  if v.passed frame (32 * row + 31) then v.onPlaces (fun x => x.discard frame row)
  else v.onPlaces (fun x => x.finish frame row)

/-! ### Pictures -/

/-- A picture joins the tail of the waiting pictures (R153). -/
def ViewLane.await (v : ViewLane) (frame : Nat) (stamp : Stamp) (fill : Pixel) : ViewLane :=
  { v with waiting := v.waiting ++ [{ frame := frame, stamp := stamp, fill := fill, aborted := false }] }

/-- The underrun count of a picture whose composition is in flight: of its frame in transmission, of its frame ended,
or 0 before its frame has started (R157, log 22). -/
def ViewLane.underrunOf (v : ViewLane) (frame : Nat) : Nat :=
  let ended := match v.endedCount with
    | some (f, n) => if f = frame then n else 0
    | none => 0
  match v.sending with
  | some t => if t.frame = frame then t.underrun else ended
  | none => ended

/-- The count kept for a frame that ended before its composition is dropped once it has been taken (R157). -/
def ViewLane.countTaken (v : ViewLane) : ViewLane := { v with endedCount := none }

/-- A picture is aborted: its rows leave the buffer, and its frame in transmission or waiting is marked (R156). -/
def ViewLane.abort (v : ViewLane) (frame : Nat) : ViewLane :=
  let x := v.onPlaces (fun p => if p.ofFrame frame then .free else p)
  { x with
    sending := x.sending.map (fun (t : Transmission) => if t.frame = frame then { t with aborted := true } else t)
    waiting := x.waiting.map (fun (w : Waiting) => if w.frame = frame then { w with aborted := true } else w) }

/-- The waiting picture at the head may start its frame once its row 0 is COMPLETE, or without it when aborted (R153, R156). -/
def ViewLane.headReady (v : ViewLane) : Option Waiting :=
  match v.sending, v.waiting with
  | none, w :: _ => if w.aborted || v.holdsRow w.frame 0 then some w else none
  | _, _ => none

/-- The frame of a waiting picture starts at a time: the pending interval comes into force, the stamp line is sent (R153). -/
def ViewLane.startFrame (v : ViewLane) (w : Waiting) (now : Nat) : ViewLane :=
  { v with
    waiting := v.waiting.tail
    interval := v.pendingInterval.getD v.interval
    pendingInterval := none
    sending := some
      { frame := w.frame, stamp := w.stamp, fill := w.fill, underrun := 0, aborted := w.aborted
        startAt := now, pointer := .stamp }
    out := some (.stamp w.stamp) }

/-- Picture line `n` of the frame in transmission is sent, from its COMPLETE row or as a fill line counted as underrun (R154). -/
def ViewLane.sendLine (v : ViewLane) (t : Transmission) (n : Nat) : ViewLane :=
  match v.rowTiles t.frame (n / 32) with
  | some tiles =>
    { v with sending := some { t with pointer := .line (n + 1) }, out := some (.picture n (rowLine tiles (n % 32))) }
  | none =>
    { v with
      sending := some { t with pointer := .line (n + 1), underrun := t.underrun + 1 }
      out := some (.fill n t.fill) }

/-- When the next line of a frame falls due: line `n` at n + 1 intervals from the start (R153). -/
def ViewLane.dueAt (v : ViewLane) (t : Transmission) (n : Nat) : Nat := t.startAt + (n + 1) * v.interval

/-- The line the pointer names as next due; STAMP is followed by line 0 (R153, log 23). -/
def LinePtr.next : LinePtr → Nat
  | .stamp => 0
  | .line n => n

/-- The frame in transmission ends: QUIET until four intervals later; its underrun count is kept for a composition of
its picture still in flight (R153, R157, log 22). -/
def ViewLane.endFrame (v : ViewLane) (t : Transmission) (composing : Option Nat) : ViewLane :=
  { v with
    sending := none
    quietUntil := some (v.dueAt t 800 + 4 * v.interval)
    endedCount := if composing = some t.frame then some (t.frame, t.underrun) else v.endedCount }

/-! ### Meanings -/

/-- OUTPUT_SET (R158). -/
def execOutputSet (p : Port) (s : State) : Host.Outcome State Fault Refusal :=
  .next (s.serve p .outputSet fun bs t =>
    let n := byteAt bs 0
    if n < 15 ∨ 40 < n then t.refuse p .range
    else { t with view := { t.view with pendingInterval := some n } }.answer p .ok [])

/-- VIEW_FRAME_START: the head of the waiting pictures starts its frame at the first moment the View Lane is QUIET, its
row 0 is COMPLETE or it is aborted, and the quiet time is over (R153, R156). -/
def execViewFrameStart (s : State) : Host.Outcome State Fault Refusal :=
  match s.view.headReady with
  | some w =>
    let t := s.runTo (s.view.quietUntil.getD 0)
    .next { t with view := t.view.startFrame w t.now }
  | none => .next s

end Sys2Proof.Machine
end

