-- ==== Sys2Proof/Machine/Walk.lean ====
section
/-! DEFINITION. The Composer's walk: beginning a tile and a row, taking fetched bursts (R120, R130, R132, R150), and the
meanings of MESH_READ_COMPLETE, FETCHING_END, LINE_DUE and VIEW_FRAME_END. -/

namespace Sys2Proof.Machine

/-- The content of the plan a composition draws, read from the Plan Store where the plan is pinned (R116, log 31). -/
def State.viewPlan (s : State) (x : Context) : Option PlanContent :=
  x.view.plan.bind (fun id => (s.plan id).hold.content)

/-- The base of the run of the plan a composition draws. -/
def State.viewBase (s : State) (x : Context) : Nat := ((s.viewPlan x).map PlanContent.base).getD 0

/-- The mesh read of box area `k` is handed to the Memory Arbiter: one burst, the pool unit of the mesh (R150). -/
def State.handMesh (s : State) (x : Context) (k : Nat) (d : Draw) : State :=
  { s with
    composer := some { x with phase := .fetching (.meshRead k) }
    arb := { s.arb with cursor := some (.mesh k (s.viewBase x + d.mesh)) } }.grant

/-- The tile in hand begins: its boxes are fetched, or it is drawn with no time in FETCHING (R120, R130). -/
def State.beginTile (s : State) (x : Context) : State :=
  match x.needs (s.viewPlan x) with
  | [] => { s with composer := some { x with draws := [], phase := .drawing } }
  | d :: ds => s.handMesh { x with draws := d :: ds } 0 d

/-- The row test before the first tile of a row: two COMPLETE places hold the row back, else it starts (R132, R152). -/
def State.beginRow (s : State) (x : Context) : State :=
  if 2 ≤ s.view.completeCount then { s with composer := some { x with phase := .rowWait } }
  else { s with view := s.view.beginRow x.frame x.row }.beginTile x

/-- A row has left the buffer: the Composer leaves ROW_WAIT and takes the row test again (R132, R152). -/
def State.rowLeft (s : State) : State :=
  match s.composer with
  | some x => if x.phase = .rowWait then s.beginRow x else s
  | none => s

/-! ### Fetches -/

/-- One box area changed. -/
def Context.onDraw (x : Context) (k : Nat) (f : Draw → Draw) : Context := { x with draws := x.draws.modify k f }

/-- The request in hand of the Composer fetch has ended, and the cursor is absent (R150). -/
def State.dropCursor (s : State) : State := { s with arb := { s.arb with cursor := none } }

/-- Box area `k` has been fetched: the secondary's mesh read follows the primary's box, else everything is fetched (R130, R150). -/
def State.areaFetched (s : State) (x : Context) (k : Nat) : State :=
  match x.draws[k + 1]? with
  | some d => s.handMesh x (k + 1) d
  | none => { s with composer := some { x with phase := .fetching .fetched } }

/-- A burst of the Composer fetch has been carried out: its data joins the tile fetch buffer (R130, R150). -/
def State.fetchBurstDone (s : State) (addr : Nat) : State :=
  match s.composer with
  | none => s
  | some x =>
    let data := s.mem.readBytes addr Config.burstBytes
    match x.phase with
    | .fetching (.meshRead k) =>
      { s.dropCursor with
        composer := some
          { x.onDraw k (fun (d : Draw) => { d with record := data.take Config.meshBytes }) with
            phase := .fetching (.meshDone k) } }
    | .fetching (.boxRead k) =>
      let y := x.onDraw k (fun (d : Draw) => { d with data := d.data ++ data })
      match s.arb.cursor with
      | some (.granted _) => s.dropCursor.areaFetched y k
      | _ => { s with composer := some y }
    | _ => s

/-- The box fetch of area `k` is handed to the Memory Arbiter (R150). -/
def State.handBox (s : State) (x : Context) (k : Nat) (d : Draw) (b : Box) : State :=
  let scan : BoxScan :=
    { base := Config.slotBase d.cam.idx.val d.slot.val, bottom := b.bottom, first := b.left / 32, last := b.right / 32 }
  { s with
    composer := some { x with phase := .fetching (.boxRead k) }
    arb := { s.arb with cursor := some (.box k scan b.top scan.first) } }.grant

/-! ### Meanings -/

/-- MESH_READ_COMPLETE: the Composer takes up a mesh read that has been carried out, forms the clipped fetch box and hands
over its fetch; a box with no pixel fetches nothing (R130, R150). -/
def execMeshReadComplete (s : State) : Host.Outcome State Fault Refusal :=
  match s.composer with
  | some x =>
    match x.phase with
    | .fetching (.meshDone k) =>
      match x.draws[k]? with
      | some d =>
        let y := x.onDraw k (fun (e : Draw) => { e with box := clipBox d.record })
        match clipBox d.record with
        | some b => .next (s.handBox y k d b)
        | none => .next (s.areaFetched y k)
      | none => .next s
    | _ => .next s
  | none => .next s

/-- FETCHING_END: every burst of every box of the tile has been carried out, and the tile is in DRAWING (R120, R130). -/
def execFetchingEnd (s : State) : Host.Outcome State Fault Refusal :=
  match s.composer with
  | some x =>
    if x.phase = .fetching .fetched then .next { s with composer := some { x with phase := .drawing } } else .next s
  | none => .next s

/-- A COMPLETE row of the frame in transmission leaves the buffer, and the Composer is told (R152). -/
def State.leaveBuffer (s : State) (frame row : Nat) : State :=
  if s.view.holdsRow frame row then { s with view := s.view.freeRow frame row }.rowLeft else s

/-- LINE_DUE: the next picture line falls due and is sent or filled; the row before it has left the buffer where the line
is the first of its row (R152, R154). -/
def execLineDue (s : State) : Host.Outcome State Fault Refusal :=
  match s.view.sending with
  | some t =>
    let n := t.pointer.next
    if n < 800 then
      let a := s.runTo (s.view.dueAt t n)
      let b := if n % 32 = 0 ∧ 0 < n then a.leaveBuffer t.frame (n / 32 - 1) else a
      .next { b with view := b.view.sendLine t n }
    else .next s
  | none => .next s

/-- VIEW_FRAME_END: the interval of line 799 ends; row 24 leaves the buffer, and the lane is QUIET (R152, R153). -/
def execViewFrameEnd (s : State) : Host.Outcome State Fault Refusal :=
  match s.view.sending with
  | some t =>
    if t.pointer = .line 800 then
      let a := s.runTo (s.view.dueAt t 800)
      let b := a.leaveBuffer t.frame 24
      .next { b with view := b.view.endFrame t (b.composer.map Context.frame) }
    else .next s
  | none => .next s

end Sys2Proof.Machine
end

