-- ==== Sys2Proof/Machine/Records.lean ====
section
/-! DEFINITION. The Record Log: outcomes, appends, cursors (R160 to R164), and the meanings of RECORD_READ,
RECORD_LATEST and RECORD_REWIND. -/

namespace Sys2Proof.Machine

/-- A record's outcome: the first that applies (R161). -/
def outcomeOf (aborted : Bool) (underrun : Nat) (holder : Holder) (sources : Quad Source) (degraded : Nat) : FrameOutcome :=
  if aborted then .aborted
  else if 1 ≤ underrun then .underrun
  else if holder = .none then .noView
  else if sources.toList.any (fun x => !(x == .fresh)) || decide (1 ≤ degraded) then .degraded
  else .complete

/-- The record of a composition, with its outcome (R135, R160, R161). -/
def recordOf (x : Context) (underrun dropped : Nat) (aborted : Bool) : FrameRecord :=
  { frame := x.frame, tag := x.setTag, plan := x.view.plan, holder := x.view.holder, lease := x.view.lease
    sources := x.sources, repaired := x.repaired, degraded := x.degraded, underrun := underrun
    dropped := dropped, divisor := x.divisor
    outcome := outcomeOf aborted underrun x.view.holder x.sources x.degraded }

/-- The ring with a record at its newest end: at 32 records the oldest is removed first; after the record carrying
4,294,967,295 the ring is emptied and the numbering restarts (R162, R163). -/
def RecordLog.append (x : RecordLog) (r : FrameRecord) : RecordLog :=
  if r.frame = 4294967295 then { ring := [], next := 1, cursors := Duo.all 1 }
  else
    { x with
      ring := (if 32 ≤ x.ring.length then x.ring.tail else x.ring) ++ [r]
      next := x.next + 1 }

/-- A record appended: it takes the drop count with it, raises FRAME on both ports, and DEGRADED where its outcome is
other than COMPLETE (R55, R160, R162). -/
def State.appendRecord (s : State) (x : Context) (underrun : Nat) (aborted : Bool) : State :=
  let r := recordOf x underrun s.capture.drops aborted
  let t :=
    { s with
      log := s.log.append r
      capture := { s.capture with drops := 0 } }.raiseBoth .frame
  if r.outcome = .complete then t else t.raiseBoth .degraded

/-- The number of the oldest record, or the next frame number for an empty ring (R164, R167). -/
def RecordLog.oldest (x : RecordLog) : Nat :=
  match x.ring with
  | r :: _ => r.frame
  | [] => x.next

/-- What a RECORD_READ of up to `n` gives a cursor: the records lost, those returned, and the new cursor (R165). -/
def RecordLog.read (x : RecordLog) (cursor n : Nat) : Nat × List FrameRecord × Nat :=
  if cursor = x.next then (0, [], cursor)
  else
    let start := max cursor x.oldest
    let got := (x.ring.filter (fun r => decide (start ≤ r.frame))).take n
    (x.oldest - cursor, got, start + got.length)

/-- The answer of RECORD_READ and RECORD_LATEST: flags, skipped count, unread count, number of records, records (Formats). -/
def readBytes (skipped unread : Nat) (records : List FrameRecord) : List Byte :=
  mark (decide (0 < skipped)) ++ be4 skipped ++ be4 unread ++ [byte records.length] ++ records.flatMap recordBytes

def State.setCursor (s : State) (p : Port) (n : Nat) : State :=
  { s with log := { s.log with cursors := s.log.cursors.set p n } }

/-- RECORD_READ (R165). -/
def execRecordRead (p : Port) (s : State) : Host.Outcome State Fault Refusal :=
  .next (s.serve p .recordRead fun bs t =>
    let n := byteAt bs 0
    if n = 0 ∨ 4 < n then t.refuse p .range
    else
      let (skipped, got, cursor) := t.log.read (t.log.cursors.get p) n
      (t.setCursor p cursor).answer p .ok (readBytes skipped (t.log.next - cursor) got))

/-- RECORD_LATEST (R166). -/
def execRecordLatest (p : Port) (s : State) : Host.Outcome State Fault Refusal :=
  .next (s.serve p .recordLatest fun _ t =>
    match t.log.ring.getLast? with
    | some r => t.answer p .ok (readBytes 0 (t.log.next - t.log.cursors.get p) [r])
    | none => t.answer p .ok (readBytes 0 0 []))

/-- RECORD_REWIND (R167). -/
def execRecordRewind (p : Port) (s : State) : Host.Outcome State Fault Refusal :=
  .next (s.serve p .recordRewind fun _ t =>
    (t.setCursor p t.log.oldest).answer p .ok (be4 t.log.oldest ++ be4 (t.log.next - t.log.oldest)))

end Sys2Proof.Machine
end

