-- ==== Sys2Proof/Machine/Leases.lean ====
section
/-! DEFINITION. The Lease Arbiter: lease table, ranking, the shown view, the line lease, view settings
(05_view_leases.md), and the meanings of VIEW_RENEW, VIEW_RELEASE, VIEW_READ, VIEWS_SET and LEASE_EXPIRY. -/

namespace Sys2Proof.Machine

/-! ### Joining and leaving the table -/

/-- Whether a live lease bears a handle. -/
def Leases.bears (x : Leases) (h : Nat) : Bool := x.table.any (fun l => l.handle == h)

/-- The value `i` places after `h`, counting 1 to 255 and then 1 again (R96). -/
def handleAfter (h i : Nat) : Nat := (h - 1 + i) % 255 + 1

/-- The handle a new lease takes: the counter's value, or the first after it that no live lease bears (R96). -/
def Leases.nextHandle (x : Leases) : Nat :=
  (((List.range 255).map (handleAfter x.handleCtr)).find? (fun h => !x.bears h)).getD (handleAfter x.handleCtr 0)

/-- The table with a new lease at its newest end, and the counters advanced (R96). -/
def Leases.join (x : Leases) (l : Lease) : Leases :=
  { x with table := x.table ++ [l], handleCtr := handleAfter l.handle 1, seqCtr := x.seqCtr + 1 }

/-- A lease joins the table: WAITING, with its handle and claim sequence; the plan's leases-naming count rises (R96). -/
def State.joinLease (s : State) (holder : LeaseHolder) (level : Nat) (plan : PlanId) (duration : Nat)
    (remaining : Option Nat) (phase : Option LinePhase) : State :=
  let l : Lease :=
    { handle := s.leases.nextHandle, holder := holder, level := level, plan := plan, duration := duration
      remaining := remaining, seq := s.leases.seqCtr, shown := false, phase := phase }
  { s with leases := s.leases.join l }.onRefs plan (fun r => { r with leases := r.leases + 1 })

/-- The live lease with a handle. -/
def Leases.find (x : Leases) (h : Nat) : Option Lease := x.table.find? (fun l => l.handle == h)

/-- A lease leaves the table: its plan's leases-naming count falls by 1 (R96). -/
def State.removeLease (s : State) (l : Lease) : State :=
  { s with leases := { s.leases with table := s.leases.table.filter (fun m => !(m.handle == l.handle)) } }.onRefs
    l.plan (fun r => { r with leases := r.leases - 1 })

/-- LEASE raised on the port that held a lease; the line lease belongs to no port (R98). -/
def State.raiseLease (s : State) (h : LeaseHolder) : State :=
  match h with
  | .port p => s.raise p .lease
  | .line => s

/-- A lease's fields replaced where it stands in the table. -/
def Leases.update (x : Leases) (h : Nat) (f : Lease → Lease) : Leases :=
  { x with table := x.table.map (fun l => if l.handle = h then f l else l) }

/-- The µs of a duration in units of 100 ms, none for unlimited (R97). -/
def durationTime (d : Nat) : Option Nat := if d = 0 then none else some (d * 100 * Config.ms)

/-- The remaining time in ms, rounded up to the ms not yet run out; 0xFFFF for unlimited (R98, Formats, log 9). -/
def remainingMs (r : Option Nat) : Nat :=
  match r with
  | none => 0xFFFF
  | some us => (us + 999) / Config.ms

/-! ### The line lease (R103 to R105) -/

/-- The line lease in the table, if one lives. -/
def Leases.lineLease (x : Leases) : Option Lease := x.table.find? (fun l => l.holder == .line)

/-- The line lease phase: NONE while no line lease exists (R102). -/
def Leases.linePhase (x : Leases) : Option LinePhase := x.lineLease.bind Lease.phase

/-- An activation handed over: the line lease is created on the reverse plan, or a HOLDING one becomes ACTIVE (R103). -/
def State.activate (s : State) : State :=
  let t := { s with leases := { s.leases with handed := true } }
  match t.leases.lineLease with
  | none =>
    match t.leases.settings.reverse with
    | none => t
    | some plan => t.joinLease .line t.leases.settings.lineLevel plan 0 none (some .active)
  | some l =>
    if l.phase = some .holding then
      { t with leases := t.leases.update l.handle (fun m => { m with phase := some .active, remaining := none }) }
    else t

/-- An inactivation handed over: an ACTIVE line lease becomes HOLDING with the hold time, and with a hold time of 0
expires at once (R104). -/
def State.inactivate (s : State) : State :=
  let t := { s with leases := { s.leases with handed := false } }
  match t.leases.lineLease with
  | none => t
  | some l =>
    if l.phase = some .active then
      if t.leases.settings.holdTime = 0 then t.removeLease l
      else
        { t with
          leases := t.leases.update l.handle (fun m =>
            { m with phase := some .holding, remaining := some (t.leases.settings.holdTime * 1000 * Config.ms) }) }
    else t

/-! ### Ranking and the shown view (R99 to R101) -/

/-- The top-ranked lease: the lowest level, and within it the earliest created (R99). -/
def Leases.top (x : Leases) : Option Lease :=
  ([0, 1, 2, 3] : List Nat).findSome? (fun lv => x.table.find? (fun l => l.level == lv))

/-- A lease's holder as a view's holder. -/
def LeaseHolder.asHolder : LeaseHolder → Holder
  | .port .cp => .cp
  | .port .mp => .mp
  | .line => .line

/-- The view named at a composition start, and the last shown view record it makes (R100, R101). -/
def Leases.nameView (x : Leases) : View × LastView :=
  match x.top with
  | some l =>
    ({ plan := some l.plan, holder := l.holder.asHolder, lease := some (l.level, l.handle) },
      .lease l.holder l.handle l.seq l.plan)
  | none =>
    match x.settings.fallback with
    | some p => ({ plan := some p, holder := .fallback, lease := none }, .fallback p)
    | none => ({ plan := none, holder := .none, lease := none }, .noView)

/-- Two views differ: in kind, in the lease's claim sequence, or in the fallback plan (R101). -/
def LastView.differs : LastView → LastView → Bool
  | .lease _ _ s _, .lease _ _ t _ => decide (s ≠ t)
  | .fallback p, .fallback q => decide (p ≠ q)
  | .noView, .noView => false
  | _, _ => true

/-- The Lease Arbiter names the view: the top-ranked lease SHOWN, every other WAITING, VIEW raised where the view
differs from the last shown one (R100, R101). -/
def State.showView (s : State) : State :=
  let top := (s.leases.top).map Lease.handle
  let last := s.leases.nameView.2
  let t := { s with
    leases := { s.leases with
      table := s.leases.table.map (fun l => { l with shown := decide (top = some l.handle) })
      lastView := last } }
  if last.differs s.leases.lastView then t.raiseBoth .view else t

/-! ### What the Power and Rate Controller is told (R102) -/

/-- A level-0 lease or the line lease is live. -/
def Leases.urgent (x : Leases) : Bool := x.table.any (fun l => l.level == 0 || l.holder == .line)

/-- Every lease is removed at standby entry, LEASE raised on each port that held one (R113). -/
def State.removeLeases (s : State) : State :=
  s.leases.table.foldl (fun t l => (t.removeLease l).raiseLease l.holder) s

/-! ### Meanings -/

/-- The lease a VIEW_RENEW or VIEW_RELEASE names, or the outcome of its refusal (R108, R109). -/
def Leases.named (x : Leases) (p : Port) (h : Nat) : Code ⊕ Lease :=
  if h = 0 then .inl .range
  else
    match x.find h with
    | none => .inl .state
    | some l => if l.holder = .port p then .inr l else .inl .owner

/-- VIEW_RENEW (R108). -/
def execViewRenew (p : Port) (s : State) : Host.Outcome State Fault Refusal :=
  .next (s.serve p .viewRenew fun bs t =>
    match t.leases.named p (byteAt bs 0) with
    | .inl code => t.refuse p code
    | .inr l =>
      { t with
        leases := t.leases.update l.handle (fun m => { m with remaining := durationTime m.duration }) }.answer p .ok
        (be2 (remainingMs (durationTime l.duration))))

/-- VIEW_RELEASE (R109). -/
def execViewRelease (p : Port) (s : State) : Host.Outcome State Fault Refusal :=
  .next (s.serve p .viewRelease fun bs t =>
    match t.leases.named p (byteAt bs 0) with
    | .inl code => t.refuse p code
    | .inr l => (t.removeLease l).answer p .ok [])

def Lease.bytes (l : Lease) : List Byte :=
  [byte l.handle, byte l.holder.value, byte l.level, byte l.plan.val, byte l.duration]
    ++ be2 (remainingMs l.remaining) ++ be4 l.seq.toNat ++ mark l.shown ++ opt1 (l.phase.map LinePhase.value)

/-- The last shown view of VIEW_READ; fields its kind does not have are absent (R101, Formats). -/
def LastView.bytes : LastView → List Byte
  | .lease h n q p => [0, byte h.value, byte n] ++ be4 q.toNat ++ [byte p.val]
  | .fallback p => [1, 0xFF, 0xFF] ++ opt4 none ++ [byte p.val]
  | .noView => [2, 0xFF, 0xFF] ++ opt4 none ++ [0xFF]

/-- VIEW_READ's payload (R110, Formats). -/
def Leases.bytes (x : Leases) : List Byte :=
  [byte x.table.length] ++ x.table.flatMap Lease.bytes
    ++ opt1 (x.settings.fallback.map (·.val)) ++ opt1 (x.settings.reverse.map (·.val))
    ++ [byte x.settings.lineLevel, byte x.settings.holdTime] ++ opt1 (x.linePhase.map LinePhase.value)
    ++ x.lastView.bytes ++ mark x.handed ++ [byte x.handleCtr] ++ be4 x.seqCtr.toNat

/-- VIEW_READ (R110). -/
def execViewRead (p : Port) (s : State) : Host.Outcome State Fault Refusal :=
  .next (s.serve p .viewRead fun _ t => t.answer p .ok t.leases.bytes)

/-- A plan operand that may be NONE: a plan number, NONE for 0xFF, or out of range (R106, The requests). -/
def planOrNone (n : Nat) : Option (Option PlanId) :=
  if n = 0xFF then some none else if h : n < 4 then some (some ⟨n, h⟩) else none

/-- A setting names no plan, or one that is VERIFIED (R106). -/
def State.mayName (s : State) (x : Option PlanId) : Bool :=
  match x with
  | none => true
  | some id => (s.plan id).hold.isVerified

/-- The fallback mark moves from the old plan to the new; a setting that keeps its plan moves no mark (R106). -/
def State.moveFallback (s : State) (old new : Option PlanId) : State :=
  if old = new then s
  else
    let t := match old with
      | some id => s.onRefs id (fun r => { r with fallback := false })
      | none => s
    match new with
    | some id => t.onRefs id (fun r => { r with fallback := true })
    | none => t

/-- The reverse mark moves in the same way (R106). -/
def State.moveReverse (s : State) (old new : Option PlanId) : State :=
  if old = new then s
  else
    let t := match old with
      | some id => s.onRefs id (fun r => { r with reverse := false })
      | none => s
    match new with
    | some id => t.onRefs id (fun r => { r with reverse := true })
    | none => t

/-- The four view settings replaced, with the plan references (R106). -/
def State.setViews (s : State) (v : ViewSettings) : State :=
  let old := s.leases.settings
  let t := (s.moveFallback old.fallback v.fallback).moveReverse old.reverse v.reverse
  { t with leases := { t.leases with settings := v } }

/-- VIEWS_SET (R106). -/
def execViewsSet (p : Port) (s : State) : Host.Outcome State Fault Refusal :=
  .next (s.serve p .viewsSet fun bs t =>
    match planOrNone (byteAt bs 0), planOrNone (byteAt bs 1) with
    | some fb, some rv =>
      let level := byteAt bs 2
      let hold := byteAt bs 3
      if level = 0 ∨ 3 < level ∨ 10 < hold then t.refuse p .range
      else if !(t.mayName fb && t.mayName rv) then t.refuse p .state
      else
        (t.setViews { fallback := fb, reverse := rv, lineLevel := level, holdTime := hold }).answer p .ok []
    | _, _ => t.refuse p .range)

/-- LEASE_EXPIRY: the lease's remaining time reaches 0; it is removed, and LEASE raised on its holder port (R98). -/
def execLeaseExpiry (handle : Nat) (s : State) : Host.Outcome State Fault Refusal :=
  match s.leases.find handle with
  | some l =>
    match l.remaining with
    | some r => .next (((s.elapse r).removeLease l).raiseLease l.holder)
    | none => .next s
  | none => .next s

end Sys2Proof.Machine
end

