-- ==== Sys2Proof/Machine/Standby.lean ====
section
/-! DEFINITION. Standby entry (R185): its one event, and where it is taken. -/

namespace Sys2Proof.Machine

/-- STREAMING cameras are reported as leaving STREAMING (R185 step 1). -/
def State.reportAll (s : State) : State :=
  Camera.all.foldl (fun t c => if (t.cam c).state = .streaming then t.leaveStreaming c else t) s

/-- The standby entry, one event in the order of R185 (R23, R45, R70, R113). A burst granted before it was withdrawn, a lane's
or the Composer fetch's, stays in flight through the entry, and the Arbiter is BUSY until its BURST_DONE, a DESIGN CHOICE,
unsafe: R151 calls the Arbiter FREE at standby entry but for the pool's bursts, and has a granted burst carried out
(log 44). -/
def State.enterStandby (s : State) : State :=
  let a := s.reportAll
  let b := { a with lanes := a.lanes.map Lane.standby, capture := a.capture.clear }.removeLeases
  { b with
    chain := b.chain.standby
    power := { b.power with state := .standby, entry := false, idle := none } }.raiseBoth .power

/-- Standby entry has begun and the Composer is IDLE: the entry is due (R185). -/
abbrev State.entryDue (s : State) : Prop := s.power.entry = true ∧ s.composer = none

/-- An entry that is due is taken (R134, R185, R192, log 14). -/
def State.takeEntry (s : State) : State := if s.entryDue then s.enterStandby else s

/-- Standby entry begins: it is taken at once with the Composer IDLE, else the standby wait begins (R184, R185). -/
def State.beginEntry (s : State) : State :=
  { s with power := { s.power with entry := true, idle := none } }.takeEntry

end Sys2Proof.Machine
end

