-- ==== Sys2Proof/Machine/Compose.lean ====
section
/-! DEFINITION. Compositions: the start test and the start, the tile drawn, completion and abort (R114 to R120, R134 to
R136), and the meanings of COMPOSITION_START, TILE_DRAWN and BURST_DONE. -/

namespace Sys2Proof.Machine

/-! ### The start (R115 to R119) -/

/-- The conditions of a start on the part's state, but for the CLOSED set (R115). -/
def State.mayStart (s : State) : Bool :=
  s.composer.isNone && decide (s.power.state = .run) && !s.power.entry && decide (s.power.thermal ≠ .critical)
    && decide (s.power.divisor ≤ s.capture.credit)

/-- The plan's expected stamp for a camera is not 0, and the camera has no identity or another stamp (R117 order 1). -/
def mismatched (h : Header) (r : CamRecord) (c : Camera) : Bool :=
  let e := h.stamps.get c.idx
  decide (e ≠ 0) &&
    (match r.identity with
      | some i => decide (i.stamp ≠ e)
      | none => true)

/-- The last-good slot and its age, where it is usable for a set: age 1 up to the stale limit in force (R52). -/
def Capture.usable (x : Capture) (c : Camera) (setTag : Tag) : Option (SlotNo × Nat) :=
  match x.fresh.get c.idx with
  | some (k, good) =>
    let age := sourceAge setTag good
    if 1 ≤ age ∧ age ≤ x.timing.stale then some (k, age) else none
  | none => none

/-- A camera's source and slot, by the first row of the table of R117 that applies. -/
def State.sourceOf (s : State) (h : Option Header) (st : CaptureSet) (c : Camera) : Source × Option SlotNo :=
  if h.any (fun x => mismatched x (s.cam c) c) then (.mismatch, none)
  else
    match (st.entries.get c.idx).status with
    | .present k => (.fresh, some k)
    | status =>
      match s.capture.usable c st.tag with
      | some (k, age) => (.stale age, some k)
      | none => if status = .excluded then (.excluded, none) else (.blind, none)

/-- The repaired lines of a camera's source: those of its slot's quality (R117). -/
def Capture.repairedOf (x : Capture) (c : Camera) (k : Option SlotNo) : Nat :=
  match k.map (fun (k : SlotNo) => (x.slot c k).hold) with
  | some (.held _ (.repaired n)) => n
  | _ => 0

/-- The source slots pinned (R47, R118). -/
def Capture.pin (x : Capture) (slots : Quad (Option SlotNo)) : Capture :=
  Camera.all.foldl (fun y c =>
    match slots.get c.idx with
    | some k => y.setSlot c k { y.slot c k with pinned := true }
    | none => y) x

/-- The stamp line's content for a composition (R119). -/
def Context.stamp (x : Context) : Stamp :=
  { frame := x.frame, tag := x.setTag, plan := x.view.plan, holder := x.view.holder
    sources := x.sources, divisor := x.divisor }

/-- The context of a composition of set `st` as its start creates it (R115 to R118). -/
def State.newContext (s : State) (st : CaptureSet) (h : Option Header) : Context :=
  let src := Quad.ofFn (s.sourceOf h st)
  { frame := s.log.next, setTag := st.tag, view := s.leases.nameView.1, divisor := s.power.divisor
    sources := src.map (fun (x : Source × Option SlotNo) => x.1)
    srcSlots := src.map (fun (x : Source × Option SlotNo) => x.2)
    repaired := Quad.ofFn (fun c => s.capture.repairedOf c (s.sourceOf h st c).2)
    gains := s.balance.gains, row := 0, col := 0, phase := .rowWait, draws := []
    seams := Quad.all { sumA := 0, sumB := 0, count := 0 }, degraded := 0 }

/-- The header of the plan the start's view names, if it names one (R116). -/
def State.viewHeader (s : State) : Option Header :=
  (s.leases.nameView.1.plan.bind (fun id => (s.plan id).hold.content)).map PlanContent.header

/-- The pinned marks a start sets, on the plan and on the source slots, where a plan is named (R90, R118). -/
def State.pinFor (s : State) (x : Context) : State :=
  match x.view.plan with
  | some id =>
    { s with capture := s.capture.pin x.srcSlots }.onRefs id (fun (r : PlanRefs) => { r with pinned := true })
  | none => s

/-- A composition starts on the newest CLOSED set (R63, R100, R115 to R119), and its walk begins with the row test of row 0. -/
def State.startComposition (s : State) (st : CaptureSet) (newer : List CaptureSet) : State :=
  let h := s.viewHeader
  let x := s.newContext st h
  let t := { s with capture := s.capture.startComposition st newer }.showView.pinFor x
  { t with view := t.view.await x.frame x.stamp ((h.map Header.void).getD midGrey) }.beginRow x

/-- COMPOSITION_START (R115). -/
def execCompositionStart (s : State) : Host.Outcome State Fault Refusal :=
  match newestClosed s.capture.sets with
  | some (st, newer) => if s.mayStart then .next (s.startComposition st newer) else .next s
  | none => .next s

/-! ### The end (R134 to R136) -/

/-- What completion and abort share: the set retired and pins cleared, the plan unpinned, the context dropped (R64, R90). -/
def State.releaseComposition (s : State) (x : Context) : State :=
  let t := { s with composer := none, capture := s.capture.endComposition, view := s.view.countTaken }
  match x.view.plan with
  | some id => t.onRefs id (fun (r : PlanRefs) => { r with pinned := false })
  | none => t

/-- Completion, one event: the underrun count read, the gains updated, the record appended, the rest released (R134). -/
def State.completeComposition (s : State) (x : Context) : State :=
  let t := { s with balance := s.balance.update x.frame x.sources x.seams }
  (t.appendRecord x (s.view.underrunOf x.frame) false).releaseComposition x

/-- The abort of a composition in flight; with the Composer IDLE nothing changes (R136). -/
def State.abortComposition (s : State) : State :=
  match s.composer with
  | none => s
  | some x =>
    let t := { s with arb := s.arb.withdrawFetch, view := s.view.abort x.frame }
    (t.appendRecord x (t.view.underrunOf x.frame) true).releaseComposition x

/-! ### The tile drawn -/

/-- After the tile of column 14: the row is handed over, and the next row follows, or the completion and with it a standby
entry that waited for it (R131, R132, R134, R185). -/
def State.rowDrawn (s : State) (x : Context) : State :=
  let t := { s with view := s.view.handOver x.frame x.row }
  if x.row = 24 then (t.completeComposition x).takeEntry else t.beginRow { x with row := x.row + 1, col := 0 }

/-- The tile in hand is drawn into the row buffer, and the walk moves on (R120, R129, R131, R133). -/
def State.drawTile (s : State) (x : Context) : State :=
  let drawn := x.drawTile (s.viewPlan x)
  let y := { x with
    seams := drawn.seams, draws := []
    degraded := x.degraded + (if drawn.degraded then 1 else 0) }
  let t := { s with view := s.view.addTile x.frame x.row drawn.pixels }
  if x.col < 14 then t.beginTile { y with col := x.col + 1 } else t.rowDrawn y

/-- TILE_DRAWN (R120). -/
def execTileDrawn (s : State) : Host.Outcome State Fault Refusal :=
  match s.composer with
  | some x => if x.phase = .drawing then .next (s.drawTile x) else .next s
  | none => .next s

/-! ### The burst carried out -/

/-- A burst has been carried out, by its requester; a withdrawn burst's data is discarded (R35, R148, R150, R151). -/
def State.burstDone (s : State) (b : Burst) : State :=
  match b with
  | .lane c addr data withdrawn =>
    if withdrawn then s else { s with mem := s.mem.writeBytes addr data }.laneBurstDone c
  | .pool b => s.poolBurstDone b
  | .fetch addr withdrawn => if withdrawn then s else s.fetchBurstDone addr

/-- BURST_DONE: the burst in flight has been carried out, the Arbiter is FREE and grants the next burst (R149). -/
def execBurstDone (s : State) : Host.Outcome State Fault Refusal :=
  match s.arb.inFlight with
  | some b => .next ({ s with arb := { s.arb with inFlight := none } }.burstDone b).grant
  | none => .next s

end Sys2Proof.Machine
end

