-- ==== Sys2Proof/Machine/Power.lean ====
section
/-! DEFINITION. The Power and Rate Controller: power states, standby and wake, the reverse line, the idle timer, heat
(R182 to R192), VIEW_CLAIM, which may wake the part (R107), and PIPELINE_RESTART, which clears across blocks (R192). -/

namespace Sys2Proof.Machine

/-! ### Entering RUN and waking -/

/-- An active debounced level is handed to the Lease Arbiter at STARTING end and at wake (R182, R186). -/
def State.handLevel (s : State) : State := if s.power.level then s.activate else s

/-- The part enters RUN: POWER raised, idle timer reloaded, an active reverse level handed over, camera power on, the
first strobe sent (R182, R184, R186). -/
def State.enterRun (s : State) : State :=
  (({ s with power := ({ s.power with state := .run }).reloadIdle }.raiseBoth .power).handLevel.camerasOn).sendStrobe

/-- A wake event cancels the standby wait: the power state stays RUN and the idle timer is reloaded (R185). -/
def State.cancelEntry (s : State) : State :=
  { s with power := ({ s.power with entry := false }).reloadIdle }

/-- A wake event: in STANDBY the part wakes, during the standby wait the wait is cancelled (R185, R186). -/
def State.wakeEvent (s : State) : State :=
  match s.power.state with
  | .standby => s.enterRun
  | .run => if s.power.entry then s.cancelEntry else s
  | .starting => s

/-! ### Meanings: resets and power events -/

/-- POWER_ON_RESET: every block at its value after power-on reset (R182); the queue of commands is the sender's and is kept (log 24). -/
def execPowerOnReset (s : State) : Host.Outcome State Fault Refusal :=
  .next { State.reset with pending := s.pending }

/-- STARTING_END (R182). -/
def execStartingEnd (s : State) : Host.Outcome State Fault Refusal :=
  if s.power.state = .starting then .next s.enterRun else .next s

/-- STANDBY_ENTRY: an entry that is due is taken (R185). The commands that make one due take it themselves (log 14). -/
def execStandbyEntry (s : State) : Host.Outcome State Fault Refusal := .next s.takeEntry

/-- IDLE_TIMER_EXPIRY: the idle timer reaches 0 and standby entry begins, taken at once with the Composer IDLE (R184, R185). -/
def execIdleTimerExpiry (s : State) : Host.Outcome State Fault Refusal :=
  match s.power.idle with
  | some r =>
    if s.power.state = .run ∧ s.power.entry = false ∧ s.leases.live = false then .next (s.elapse r).beginEntry
    else .next s
  | none => .next s

/-- A change of the debounced level, taken according to the power state (R183). -/
def State.levelChange (s : State) : State :=
  let active := !s.power.level
  let t := { s with power := { s.power with level := active, count := 0 } }
  match t.power.state with
  | .starting => t
  | .standby => if active && t.power.lineWake then t.wakeEvent else t
  | .run =>
    let u := if active then t.activate else t.inactivate
    let v := { u with power := u.power.reloadIdle }
    if active && v.power.lineWake then v.wakeEvent else v

/-- REVERSE_LEVEL_CHANGE: the debounce count has reached 5 (R183, log 12). -/
def execReverseLevelChange (s : State) : Host.Outcome State Fault Refusal :=
  if s.power.count = 5 then .next s.levelChange else .next s

/-- REVERSE_LINE_SAMPLE: a sample equal to the debounced level clears the count, one that differs adds 1; a level change
not yet taken is taken first (R183, log 12). -/
def execReverseLineSample (active : Bool) (s : State) : Host.Outcome State Fault Refusal :=
  let t := s.runTo s.power.nextReverse
  let u := if t.power.count = 5 then t.levelChange else t
  .next
    { u with
      power := { u.power with
        nextReverse := u.now + 2 * Config.ms
        count := if active = u.power.level then 0 else u.power.count + 1 } }

/-- The thermal state after a sample (R187). -/
def Thermal.sample (x : Thermal) (celsius : Int) : Thermal :=
  match x with
  | .normal => if 95 ≤ celsius then .warm else .normal
  | .warm => if 105 ≤ celsius then .hot else if celsius < 90 then .normal else .warm
  | .hot => if 115 ≤ celsius then .critical else if celsius < 100 then .warm else .hot
  | .critical => if celsius < 110 then .hot else .critical

/-- TEMPERATURE_SAMPLE (R187). -/
def execTemperatureSample (celsius : Int) (s : State) : Host.Outcome State Fault Refusal :=
  let t := s.runTo s.power.nextTemp
  let new := t.power.thermal.sample celsius
  let u := { t with power := { t.power with nextTemp := t.now + 100 * Config.ms, thermal := new } }
  .next (if new = t.power.thermal then u else u.raiseBoth .heat)

/-! ### Meanings: requests -/

/-- RATE_CAP (R188). -/
def execRateCap (p : Port) (s : State) : Host.Outcome State Fault Refusal :=
  .next (s.serve p .rateCap fun bs t =>
    let cap := byteAt bs 0
    if cap = 0 ∨ 4 < cap then t.refuse p .range
    else { t with power := { t.power with rateCap := cap } }.answer p .ok [])

/-- STANDBY, checked in the order of R189; accepted, it is answered and standby entry begins (R185). -/
def execStandby (p : Port) (s : State) : Host.Outcome State Fault Refusal :=
  .next (s.serve p .standby fun _ t =>
    if t.power.state = .standby then t.refuse p .state
    else if t.power.entry then t.answer p .ok []
    else if t.leases.urgent then t.refuse p .inUse
    else (t.answer p .ok []).beginEntry)

/-- WAKE (R190). -/
def execWake (p : Port) (s : State) : Host.Outcome State Fault Refusal :=
  .next (s.serve p .wake fun _ t => t.wakeEvent.answer p .ok [])

/-- POWER_SET (R191). -/
def execPowerSet (p : Port) (s : State) : Host.Outcome State Fault Refusal :=
  .next (s.serve p .powerSet fun bs t =>
    let idle := halfAt bs 0
    let line := byteAt bs 2
    let claim := byteAt bs 3
    if (idle ≠ 0 ∧ (idle < 10 ∨ 600 < idle)) ∨ 1 < line ∨ 1 < claim then t.refuse p .range
    else
      { t with
        power := ({ t.power with
          idleTimeout := idle, lineWake := decide (line = 1), claimWake := decide (claim = 1) }).reloadIdle }.answer p .ok [])

/-- A duration is accepted at a level (R97). -/
def durationOk (level duration : Nat) : Bool :=
  if level = 0 then decide (1 ≤ duration ∧ duration ≤ 20) else if level = 1 then decide (1 ≤ duration) else true

/-- The checks of VIEW_CLAIM in order, or the plan claimed (R107). -/
def State.claimCheck (s : State) (p : Port) (bs : List Byte) : Code ⊕ PlanId :=
  let level := byteAt bs 0
  let duration := byteAt bs 2
  match planOf (bs.drop 1) with
  | none => .inl .range
  | some id =>
    if 3 < level then .inl .range
    else if level = 0 ∧ p = .cp then .inl .level
    else if durationOk level duration = false then .inl .range
    else if s.power.state = .standby ∧ s.power.claimWake = false then .inl .state
    else if s.leases.table.any (fun l => l.holder == .port p && l.level == level) then .inl .state
    else if (s.plan id).hold.isVerified = false then .inl .state
    else .inr id

/-- VIEW_CLAIM: the lease joins the table, and with CLAIM wake on it wakes the part or cancels the standby wait (R96, R107, R185, R186). -/
def execViewClaim (p : Port) (s : State) : Host.Outcome State Fault Refusal :=
  .next (s.serve p .viewClaim fun bs t =>
    match t.claimCheck p bs with
    | .inl code => t.refuse p code
    | .inr id =>
      let duration := byteAt bs 2
      let a := t.joinLease (.port p) (byteAt bs 0) id duration (durationTime duration) none
      let b := if a.power.claimWake then a.wakeEvent else a
      b.answer p .ok ([byte t.leases.nextHandle] ++ be4 t.leases.seqCtr.toNat))

/-- PIPELINE_RESTART: the abort, then lanes, capture sets, slots and gains cleared, then the answer; in a standby wait the
entry follows at once (R44, R69, R136, R147, R185, R192). A burst of the Composer fetch or of a lane that was granted before
the restart withdrew it is still in flight at that entry, the Arbiter BUSY with it: a DESIGN CHOICE, unsafe (log 44). -/
def execPipelineRestart (p : Port) (s : State) : Host.Outcome State Fault Refusal :=
  .next (s.serve p .pipelineRestart fun _ t =>
    if t.power.state = .standby then t.refuse p .state
    else
      let a := t.abortComposition.restartLanes
      ({ a with capture := a.capture.clear, balance := a.balance.unity }.answer p .ok []).takeEntry)

end Sys2Proof.Machine
end

