-- ==== Sys2Proof/Machine/Ports.lean ====
section
/-! DEFINITION. Request Ports: select periods, arrivals, open items, overflow (R170 to R173, R181), and the meanings of
UNKNOWN_REQUEST, ECHO, STATUS_READ, NOTICE_ENABLE and NOTICE_TAKE (R174 to R180). -/

namespace Sys2Proof.Machine

/-- One port's state changed. -/
def State.onPort (s : State) (p : Port) (f : PortState → PortState) : State :=
  { s with ports := s.ports.set p (f (s.ports.get p)) }

/-- A select period begins: the answer at the head of the queue or the empty answer frame, with its port flags fixed; in
STARTING an empty answer frame with both flags no (R170, R173, R181). -/
def PortState.beginSelect (x : PortState) (starting : Bool) : PortState :=
  { x with
    select := some
      { out := if starting then none else x.answers.head?
        overflow := !starting && x.overflow
        notice := !starting && x.noticeFlag
        shifted := false, taken := false, dropped := false, starting := starting } }

/-- What port `p` shifts out to its master in the next `n` bytes while its select is asserted, and none while it is not: the
frame and filler after it (R170). -/
def State.shiftsOut (s : State) (p : Port) (n : Nat) : Option (List Byte) :=
  (s.ports.get p).select.map (fun sel => sel.shiftsOut n)

/-- SELECT_START (R170). -/
def execSelectStart (p : Port) (s : State) : Host.Outcome State Fault Refusal :=
  match (s.ports.get p).select with
  | none => .next (s.onPort p (fun x => x.beginSelect (decide (s.power.state = .starting))))
  | some _ => .next s

/-- A request arrives in a select period: it joins the queue as an open item, or with 4 open it is dropped and the
overflow flag set; one that arrives in a select period begun in STARTING is discarded (R172, R181). -/
def PortState.arrive (x : PortState) (sel : Select) (r : Request) : PortState :=
  if sel.starting then { x with select := some { sel with taken := true } }
  else if x.openItems < 4 then
    { x with requests := x.requests ++ [r], openItems := x.openItems + 1, select := some { sel with taken := true } }
  else { x with overflow := true, select := some { sel with taken := true, dropped := true } }

/-- The bytes shifted in: an empty request takes the rest of the select period, a complete frame arrives, and a partial one
does nothing (R171). -/
def PortState.shiftIn (x : PortState) (sel : Select) (bytes : List Byte) : PortState :=
  if emptyRequest bytes then { x with select := some { sel with taken := true } }
  else
    match requestOfFrame bytes with
    | some r => x.arrive sel r
    | none => x

/-- REQUEST_ARRIVAL: the bytes of a request frame have been received in a select period that has taken none (R171, R172). -/
def execRequestArrival (p : Port) (bytes : List Byte) (s : State) : Host.Outcome State Fault Refusal :=
  match (s.ports.get p).select with
  | some sel => if sel.taken then .next s else .next (s.onPort p (fun x => x.shiftIn sel bytes))
  | none => .next s

/-- SELECT_END: a partial request is discarded, and an answer not wholly shifted stays at the head of the queue (R171, R173). -/
def execSelectEnd (p : Port) (s : State) : Host.Outcome State Fault Refusal :=
  .next (s.onPort p (fun x => { x with select := none }))

/-- The last byte of the frame has been shifted out: its answer leaves the queue and the count, and the overflow flag it
carried is cleared unless a request was dropped since its flags were fixed (R173). -/
def PortState.shiftedOut (x : PortState) (sel : Select) : PortState :=
  { x with
    answers := if sel.out.isSome then x.answers.tail else x.answers
    openItems := if sel.out.isSome then x.openItems - 1 else x.openItems
    overflow := x.overflow && !(sel.overflow && !sel.dropped)
    select := some { sel with shifted := true } }

/-- ANSWER_SHIFTED_OUT (R173). -/
def execAnswerShiftedOut (p : Port) (s : State) : Host.Outcome State Fault Refusal :=
  match (s.ports.get p).select with
  | some sel => if sel.shifted then .next s else .next (s.onPort p (fun x => x.shiftedOut sel))
  | none => .next s

/-- UNKNOWN_REQUEST: the request at the head fails the port's own checks and is answered with the first failing one's outcome (R174). -/
def execUnknownRequest (p : Port) (s : State) : Host.Outcome State Fault Refusal :=
  match (s.ports.get p).ready with
  | some (r, rest) =>
    match r.screen with
    | .inl code => .next ((s.beginRequest p r rest).refuse p code)
    | .inr _ => .next s
  | none => .next s

/-- ECHO (R179). -/
def execEcho (p : Port) (s : State) : Host.Outcome State Fault Refusal :=
  .next (s.serve p .echo fun bs t => t.answer p .ok bs)

/-- The other port. -/
def Port.other : Port → Port
  | .cp => .mp
  | .mp => .cp

/-- STATUS_READ's payload (R180, Formats). -/
def State.statusBytes (s : State) (p : Port) : List Byte :=
  let x := s.ports.get p
  [byte s.power.state.value, byte s.power.thermal.value, byte s.power.rateCap, byte s.power.divisor]
    ++ mark s.composer.isSome ++ [byte s.chain.phase.value, byte s.capture.sets.length, byte s.capture.credit]
    ++ be4 s.log.next ++ [byte x.openItems] ++ mark x.overflow ++ be2 x.flags.toNat ++ be2 x.enables.toNat
    ++ [byte (s.ports.get (Port.other p)).openItems]

/-- STATUS_READ (R180). -/
def execStatusRead (p : Port) (s : State) : Host.Outcome State Fault Refusal :=
  .next (s.serve p .statusRead fun _ t => t.answer p .ok (t.statusBytes p))

/-- NOTICE_ENABLE (R177). -/
def execNoticeEnable (p : Port) (s : State) : Host.Outcome State Fault Refusal :=
  .next (s.serve p .noticeEnable fun bs t =>
    let m := halfAt bs 0
    if 1024 ≤ m then t.refuse p .range
    else (t.onPort p (fun x => { x with enables := BitVec.ofNat 10 m })).answer p .ok (be2 m))

/-- NOTICE_TAKE: the flags as they stand, and in the same event those of the mask cleared; ANSWER follows its queue (R175, R178). -/
def execNoticeTake (p : Port) (s : State) : Host.Outcome State Fault Refusal :=
  .next (s.serve p .noticeTake fun bs t =>
    let m := halfAt bs 0
    if 1024 ≤ m then t.refuse p .range
    else
      (t.onPort p (fun x => { x with raised := x.raised &&& ~~~(BitVec.ofNat 10 m) })).answer p .ok
        (be2 ((t.ports.get p).flags).toNat))

end Sys2Proof.Machine
end

