-- ==== Sys2Proof/Machine/Dispatch.lean ====
section
/-! DEFINITION. The dispatch: one arm per command, each a direct call of its meaning. -/

namespace Sys2Proof.Machine

def exec (i : Instr) (s : State) : Host.Outcome State Fault Refusal :=
  match i with
  | .powerOnReset => Sys2Proof.Machine.execPowerOnReset s
  | .startingEnd => Sys2Proof.Machine.execStartingEnd s
  | .selectStart p => Sys2Proof.Machine.execSelectStart p s
  | .requestArrival p bytes => Sys2Proof.Machine.execRequestArrival p bytes s
  | .selectEnd p => Sys2Proof.Machine.execSelectEnd p s
  | .answerShiftedOut p => Sys2Proof.Machine.execAnswerShiftedOut p s
  | .unknownRequest p => Sys2Proof.Machine.execUnknownRequest p s
  | .echo p => Sys2Proof.Machine.execEcho p s
  | .statusRead p => Sys2Proof.Machine.execStatusRead p s
  | .noticeEnable p => Sys2Proof.Machine.execNoticeEnable p s
  | .noticeTake p => Sys2Proof.Machine.execNoticeTake p s
  | .chainRebuild p => Sys2Proof.Machine.execChainRebuild p s
  | .cameraRead p => Sys2Proof.Machine.execCameraRead p s
  | .cameraRestart p => Sys2Proof.Machine.execCameraRestart p s
  | .chainSet p => Sys2Proof.Machine.execChainSet p s
  | .timingSet p => Sys2Proof.Machine.execTimingSet p s
  | .captureRead p => Sys2Proof.Machine.execCaptureRead p s
  | .planOpen p => Sys2Proof.Machine.execPlanOpen p s
  | .planTiles p => Sys2Proof.Machine.execPlanTiles p s
  | .planMeshes p => Sys2Proof.Machine.execPlanMeshes p s
  | .planVerify p => Sys2Proof.Machine.execPlanVerify p s
  | .planDiscard p => Sys2Proof.Machine.execPlanDiscard p s
  | .planRead p => Sys2Proof.Machine.execPlanRead p s
  | .poolRead p => Sys2Proof.Machine.execPoolRead p s
  | .viewClaim p => Sys2Proof.Machine.execViewClaim p s
  | .viewRenew p => Sys2Proof.Machine.execViewRenew p s
  | .viewRelease p => Sys2Proof.Machine.execViewRelease p s
  | .viewRead p => Sys2Proof.Machine.execViewRead p s
  | .viewsSet p => Sys2Proof.Machine.execViewsSet p s
  | .balanceSet p => Sys2Proof.Machine.execBalanceSet p s
  | .balanceRead p => Sys2Proof.Machine.execBalanceRead p s
  | .outputSet p => Sys2Proof.Machine.execOutputSet p s
  | .recordRead p => Sys2Proof.Machine.execRecordRead p s
  | .recordLatest p => Sys2Proof.Machine.execRecordLatest p s
  | .recordRewind p => Sys2Proof.Machine.execRecordRewind p s
  | .rateCap p => Sys2Proof.Machine.execRateCap p s
  | .standby p => Sys2Proof.Machine.execStandby p s
  | .wake p => Sys2Proof.Machine.execWake p s
  | .powerSet p => Sys2Proof.Machine.execPowerSet p s
  | .pipelineRestart p => Sys2Proof.Machine.execPipelineRestart p s
  | .strobe => Sys2Proof.Machine.execStrobe s
  | .slotEnd c reply => Sys2Proof.Machine.execSlotEnd c reply s
  | .cameraLost c => Sys2Proof.Machine.execCameraLost c s
  | .identTimeout c reply => Sys2Proof.Machine.execIdentTimeout c reply s
  | .settleTimerExpiry => Sys2Proof.Machine.execSettleTimerExpiry s
  | .testTimerExpiry c => Sys2Proof.Machine.execTestTimerExpiry c s
  | .packetArrival lane how bytes => Sys2Proof.Machine.execPacketArrival lane how bytes s
  | .lineConsume lane => Sys2Proof.Machine.execLineConsume lane s
  | .lineWriteComplete lane => Sys2Proof.Machine.execLineWriteComplete lane s
  | .frameAbandon lane => Sys2Proof.Machine.execFrameAbandon lane s
  | .abandonRepairsComplete lane => Sys2Proof.Machine.execAbandonRepairsComplete lane s
  | .windowExpiry tag => Sys2Proof.Machine.execWindowExpiry tag s
  | .compositionStart => Sys2Proof.Machine.execCompositionStart s
  | .meshReadComplete => Sys2Proof.Machine.execMeshReadComplete s
  | .fetchingEnd => Sys2Proof.Machine.execFetchingEnd s
  | .tileDrawn => Sys2Proof.Machine.execTileDrawn s
  | .burstDone => Sys2Proof.Machine.execBurstDone s
  | .verifyMeshRead => Sys2Proof.Machine.execVerifyMeshRead s
  | .planAbandoned plan => Sys2Proof.Machine.execPlanAbandoned plan s
  | .viewFrameStart => Sys2Proof.Machine.execViewFrameStart s
  | .lineDue => Sys2Proof.Machine.execLineDue s
  | .viewFrameEnd => Sys2Proof.Machine.execViewFrameEnd s
  | .leaseExpiry handle => Sys2Proof.Machine.execLeaseExpiry handle s
  | .reverseLineSample active => Sys2Proof.Machine.execReverseLineSample active s
  | .reverseLevelChange => Sys2Proof.Machine.execReverseLevelChange s
  | .idleTimerExpiry => Sys2Proof.Machine.execIdleTimerExpiry s
  | .standbyEntry => Sys2Proof.Machine.execStandbyEntry s
  | .temperatureSample celsius => Sys2Proof.Machine.execTemperatureSample celsius s

end Sys2Proof.Machine
end

