-- ==== Sys2Proof/Safety.lean ====
section
/-! DEFINITION. The words the statements are made in: a request ready on a port and the state its answer leaves; and the
invariants that every step of the part keeps. -/

namespace Sys2Proof.Machine

/-! ### Requests -/

/-- Request `r`, of kind `k`, stands at the head of port `p`'s request queue, `rest` behind it, and no request of the port
is in execution; it passes the port's own checks (R174). -/
def State.Ready (s : State) (p : Port) (k : RequestKind) (r : Request) (rest : List Request) : Prop :=
  (s.ports.get p).executing = none ∧ (s.ports.get p).requests = r :: rest ∧ r.screen = .inr k

/-- The state after the request at the head of port `p`'s queue has been executed and answered: the request has left the
queue, its answer is at the tail of the answer queue, the idle timer is reloaded, and nothing else has changed (R174, R184). -/
def State.replied (s : State) (p : Port) (r : Request) (rest : List Request) (outcome : Code) (payload : List Byte) : State :=
  { s with
    ports := s.ports.set p
      { s.ports.get p with
        executing := none
        requests := rest
        answers := (s.ports.get p).answers ++ [{ seq := r.seq, code := r.code, outcome := outcome, payload := payload }] }
    power := s.power.reloadIdle }

/-- The state in which the request at the head of port `p`'s queue is in execution (R174, R184). -/
def State.taken (s : State) (p : Port) (r : Request) (rest : List Request) : State :=
  { s with
    ports := s.ports.set p { s.ports.get p with executing := some r, requests := rest }
    power := s.power.reloadIdle }

/-- The state after request `r`, in execution on port `p`, has been answered: its answer is at the tail of the answer queue,
and nothing else has changed (R174). -/
def State.answered (s : State) (p : Port) (r : Request) (outcome : Code) (payload : List Byte) : State :=
  { s with
    ports := s.ports.set p
      { s.ports.get p with
        executing := none
        answers := (s.ports.get p).answers ++ [{ seq := r.seq, code := r.code, outcome := outcome, payload := payload }] } }

/-! ### What a group of blocks leaves alone -/

/-- A port with its raised notice flags set aside. -/
def PortState.quiet (x : PortState) : PortState := { x with raised := 0 }

/-- Both ports with their raised notice flags set aside. -/
def quietPorts (x : Duo PortState) : Duo PortState := ⟨x.cp.quiet, x.mp.quiet⟩

/-- `t` is `s` but for the chain, the lanes, the capture sets, the Arbiter and notices raised: the DDR memory, plans,
leases, Composer, gains, View Lane, records, power, timebase, queue, and the ports' queues, counts and enables are the same. -/
def State.pipeOnly (s t : State) : Prop :=
  t = { s with chain := t.chain, lanes := t.lanes, capture := t.capture, arb := t.arb, ports := t.ports }
    ∧ quietPorts t.ports = quietPorts s.ports

/-- `t` is `s` but for the leases, the reference records of plans and notices raised. -/
def State.leasesOnly (s t : State) : Prop :=
  t = { s with leases := t.leases, plans := t.plans, ports := t.ports }
    ∧ (∀ id, (t.plan id).hold = (s.plan id).hold) ∧ t.plans.walk = s.plans.walk
    ∧ quietPorts t.ports = quietPorts s.ports

/-- Every port has the notice flag of a kind set. -/
def State.bothRaised (t : State) (k : NoticeKind) : Prop := ∀ q, (t.ports.get q).raised &&& k.mask ≠ 0

/-! ### Reply slots and standby entry -/

/-- Position `c`'s reply slot is the next of the interval `i` in progress, in which no position has become LOST (R3, R20). -/
def State.slotDue (s : State) (c : Camera) (i : Interval) : Prop :=
  s.chain.interval = some i ∧ i.slotsLeft.head? = some c ∧ i.lostNow = Quad.all false

/-- `t` is `s` after the end of position `c`'s slot, as far as blocks other than the pipeline go, and the slot is over (R3). -/
def State.slotDone (s : State) (c : Camera) (i : Interval) (t : State) : Prop :=
  (s.runTo (i.strobeAt + 500 + 600 * c.number)).pipeOnly t
    ∧ t.chain.interval = some { i with slotsLeft := i.slotsLeft.tail }

/-- `t` has the lanes, the capture sets and the Arbiter of `s` after each position of `gone`, in position order, has been
reported as leaving STREAMING (R8, R22, R41, R59). -/
def State.departs (s : State) (gone : Camera → Bool) (t : State) : Prop :=
  let u := Camera.all.foldl (fun v c => if gone c then v.leaveStreaming c else v) s
  t.lanes = u.lanes ∧ t.capture = u.capture ∧ t.arb = u.arb

/-- `t` is `u` after standby entry: the power state is STANDBY and POWER is raised; no lease is left, LEASE being raised for
those of ports; camera power is off, strobes have stopped and every record is ABSENT; lanes, sets and slots are cleared,
their totals kept; the write of a STREAMING camera's lane is withdrawn, and the Arbiter is otherwise as it was; and nothing
else has changed (R7, R23, R45, R70, R113, R149, R151, R185). That no strobe and command word is held is the model's choice
(log 30), and so are a withdrawn burst still in flight (log 18, log 44) and the strobe interval dropped (log 47). -/
def State.sleepsTo (u t : State) : Prop :=
  t.power = { u.power with state := .standby, entry := false, idle := none } ∧ t.bothRaised .power
    ∧ t.leases = { u.leases with table := [] }
    ∧ (∀ l ∈ u.leases.table, ∀ p, l.holder = .port p → (t.ports.get p).raised &&& NoticeKind.lease.mask ≠ 0)
    ∧ t.chain = { u.chain with
        table := t.chain.table, queue := [], phase := .off, settleAt := none, nextStrobe := none, interval := none
        strobeWord := none, commandWord := none, cameraPower := false }
    ∧ (∀ c, t.cam c = { u.cam c with
        state := .absent, missed := 0, startPending := false, ident := none, test := none })
    ∧ (∀ c, (t.lane c).buffer = [] ∧ (t.lane c).retained = none ∧ (t.lane c).closedTag = none
      ∧ (t.lane c).totals = (u.lane c).totals
      ∧ ((u.cam c).state = .streaming ∨ (u.lane c).frame = none → (t.lane c).frame = none)
      ∧ ((u.cam c).state = .streaming ∨ (u.lane c).busy = none → (t.lane c).busy = none))
    ∧ t.arb = { u.arb with
        inFlight := match u.arb.inFlight with
          | some (.lane c addr data w) =>
            some (.lane c addr data (w || (decide ((u.cam c).state = .streaming) && (u.lane c).busy.isSome)))
          | other => other }
    ∧ t.capture = { u.capture with
        sets := [], slots := Quad.all (Trio.all Slot.free), fillOrder := Quad.all [], fresh := Quad.all none, credit := 0 }
    ∧ (∀ id, (t.plan id).hold = (u.plan id).hold)
    ∧ t = { u with
        chain := t.chain, lanes := t.lanes, capture := t.capture, arb := t.arb, ports := t.ports, power := t.power
        leases := t.leases, plans := { u.plans with slots := t.plans.slots } }
    ∧ quietPorts t.ports = quietPorts u.ports

/-! ### A tile begun -/

/-- `t` is `u` with the tile that `y` is at begun: where it needs no area it is in DRAWING; else the mesh read of its first
area is in hand, at the pool unit its mesh has in the plan's run, and the Arbiter grants at once where it is FREE
(R120, R130, R150). The plan is read where it is pinned (log 31). -/
def State.tileBegun (u : State) (y : Context) (t : State) : Prop :=
  (y.needs (u.viewPlan y) = [] → t = { u with composer := some { y with draws := [], phase := .drawing } })
    ∧ ∀ d ds, y.needs (u.viewPlan y) = d :: ds →
      t = ({ u with
        composer := some { y with draws := d :: ds, phase := .fetching (.meshRead 0) }
        arb := { u.arb with
          cursor := some (.mesh 0 (((u.viewPlan y).map PlanContent.base).getD 0 + d.mesh)) } } : State).grant

/-! ### Invariants -/

/-- A port's open items are the requests queued, the one in execution and the answers not yet wholly shifted out; they
number at most 4, and an answer being shifted out is still in the answer queue (R172, R173). -/
def PortState.itemsOk (x : PortState) : Prop :=
  x.openItems = x.requests.length + (if x.executing.isSome then 1 else 0) + x.answers.length
    ∧ x.openItems ≤ 4
    ∧ ∀ sel, x.select = some sel → sel.shifted = false → sel.out.isSome = true → x.answers ≠ []

/-- The open items of both ports are accounted for (R172). -/
def State.itemsOk (s : State) : Prop := s.ports.cp.itemsOk ∧ s.ports.mp.itemsOk

/-- The records are numbered consecutively up to the next frame number, 32 at most; both cursors are at most the next
frame number; and a composition in flight carries the next frame number (R116, R162 to R164). -/
def State.recordsOk (s : State) : Prop :=
  s.log.ring.map FrameRecord.frame = List.range' (s.log.next - s.log.ring.length) s.log.ring.length
    ∧ s.log.ring.length ≤ 32 ∧ s.log.ring.length < s.log.next ∧ s.log.next ≤ 4294967295
    ∧ s.log.cursors.cp ≤ s.log.next ∧ s.log.cursors.mp ≤ s.log.next
    ∧ 1 ≤ s.log.cursors.cp ∧ 1 ≤ s.log.cursors.mp
    ∧ ∀ x, s.composer = some x → x.frame = s.log.next

/-- The four gains lie in 128 to 512 (R139). -/
def State.gainsOk (s : State) : Prop := ∀ g ∈ s.balance.gains.toList, 128 ≤ g ∧ g ≤ 512

/-- The number of sets of a table that are COMPOSING. -/
def composingCount (sets : List CaptureSet) : Nat := sets.countP (fun x => x.state == .composing)

/-- The capture set table holds at most four sets, no two of them of one tag, one is COMPOSING exactly while a composition
is in flight, and the credit is at most 255 (R53, R62, R114). -/
def State.setsOk (s : State) : Prop :=
  s.capture.sets.Pairwise (fun x y => x.tag ≠ y.tag) ∧ s.capture.credit ≤ 255
    ∧ s.capture.sets.length ≤ 4 ∧ composingCount s.capture.sets = (if s.composer.isSome then 1 else 0)

/-- A set that is OPEN has an entry that is AWAITED or ARRIVING: one that has none is closed (R60). -/
def CaptureSet.openOk (st : CaptureSet) : Prop :=
  st.state = .opened → ∃ c : Camera, (st.entries.get c.idx).status.outstanding = true

/-- Every OPEN set has an entry outstanding (R60). -/
def State.openOk (s : State) : Prop := ∀ st ∈ s.capture.sets, st.openOk

/-- No two leases bear one handle, no port holds two leases at one level, at most one is the line lease, and every level is
0 to 3 (R96). -/
def Leases.tableOk (x : Leases) : Prop :=
  x.table.Pairwise (fun l m => l.handle ≠ m.handle ∧ (l.holder = m.holder → l.holder ≠ .line ∧ l.level ≠ m.level))
    ∧ ∀ l ∈ x.table, l.level ≤ 3

/-- What the reference record of a plan says of the leases and the view settings: its leases-naming count is the number of
leases that name it, and its marks follow the settings (R89, R96, R106). -/
def State.refsFollow (s : State) : Prop :=
  ∀ id, (s.plan id).refs.leases = s.leases.table.countP (fun l => l.plan == id)
    ∧ (s.plan id).refs.fallback = decide (s.leases.settings.fallback = some id)
    ∧ (s.plan id).refs.reverse = decide (s.leases.settings.reverse = some id)
    ∧ (s.plan id).refs.pinned = decide ((s.composer.bind (fun x => x.view.plan)) = some id)

/-- Every referenced plan is VERIFIED (R89). -/
def State.referencedVerified (s : State) : Prop :=
  ∀ id, (s.plan id).refs.referenced = true → (s.plan id).hold.isVerified = true

/-- Every plan in use is VERIFIED, with the lease table and the reference records in order (R89, R96). -/
def State.plansOk (s : State) : Prop :=
  s.leases.tableOk ∧ s.leases.settings.lineLevel ≤ 3 ∧ s.refsFollow ∧ s.referencedVerified

/-- A standby wait lasts only while a composition is in flight: an entry that is due has been taken (R185). -/
def State.waitOk (s : State) : Prop := s.power.entry = true → s.composer ≠ none

/-- The runs of the plans lie within the pool, hold a record each at least, and no two of them overlap (R78). -/
def State.runsOk (s : State) : Prop :=
  (∀ id r, s.plans.runOf id = some r → 1 ≤ r.len ∧ r.base + r.len ≤ 2048)
    ∧ ∀ i j r q, i ≠ j → s.plans.runOf i = some r → s.plans.runOf j = some q →
      r.base + r.len ≤ q.base ∨ q.base + q.len ≤ r.base

/-- Every line buffer holds at most two lines (R30), and the chain command queue at most eight entries (R4). -/
def State.queuesOk (s : State) : Prop :=
  (∀ x ∈ s.lanes.toList, x.buffer.length ≤ 2) ∧ s.chain.queue.length ≤ 8

end Sys2Proof.Machine
end

