-- ==== Sys2Proof/Certificates/Slice0/Obligations.lean ====
section
/-! DEFINITION. The statements: what each command of the part does, what it leaves alone, and the invariants that every
step keeps. A request's statement speaks of a request READY on its port (Safety.lean); `replied` is the state in which it
has been answered and nothing else has changed but the reload of the idle timer (R174, R184). -/

open Sys2Proof Sys2Proof.Machine

/-! ### Steps, reset -/

/-- A step takes the command at the front of the queue and runs its meaning on the queue's rest. The queue of
waiting commands is the model's (log 1, log 35). -/
def Obligations.StepRunsTheFrontCommand : Prop :=
  ∀ (c : Instr) (rest : List Instr) (s : State), s.pending = c :: rest → step s = exec c { s with pending := rest }

/-- No command ends in a fault or a refusal: the manual describes no behaviour that stops the part. That a command
whose conditions do not hold changes nothing is the model's choice (log 2). -/
def Obligations.NoCommandStopsThePart : Prop :=
  ∀ (c : Instr) (s : State), ∃ t, exec c s = .next t

/-- POWER_ON_RESET puts the part in the model's state after power-on reset, and that state holds the values listed, which
are the manual's. What the manual gives no value for is the model's choice: the timebase 0 (log 5), the moments of the
first samples (log 6), DDR memory with nothing written (log 7), outputs with no word sent yet (log 30), select periods
in progress dropped (log 42), and the commands waiting kept (log 24). -/
def Obligations.ResetHoldsTheManualsValues : Prop :=
  let s := State.reset
  (∀ u : State, exec .powerOnReset u = .next { State.reset with pending := u.pending })
  ∧ (s.power.state = .starting ∧ s.power.thermal = .normal ∧ s.power.rateCap = 1 ∧ s.power.idleTimeout = 0
    ∧ s.power.lineWake = true ∧ s.power.claimWake = true ∧ s.power.level = false ∧ s.power.count = 0)
  ∧ (∀ p, (s.ports.get p).requests = [] ∧ (s.ports.get p).answers = [] ∧ (s.ports.get p).openItems = 0
    ∧ (s.ports.get p).overflow = false ∧ (s.ports.get p).flags = 0 ∧ (s.ports.get p).enables = 0x201)
  ∧ (s.log.ring = [] ∧ s.log.next = 1 ∧ ∀ p, s.log.cursors.get p = 1)
  ∧ (s.view.sending = none ∧ s.view.waiting = [] ∧ s.view.placeA = .free ∧ s.view.placeB = .free
    ∧ s.view.interval = 25 ∧ s.view.pendingInterval = none ∧ s.view.quietUntil = none)
  ∧ (s.arb.inFlight = none ∧ s.arb.pointer = .rl ∧ s.arb.pool = [] ∧ s.arb.cursor = none)
  ∧ (s.balance.gains = Quad.all 256 ∧ s.balance.anchor = .fl ∧ s.balance.step = 8 ∧ s.balance.enable = true
    ∧ s.balance.report = none)
  ∧ s.composer = none
  ∧ (s.leases.table = [] ∧ s.leases.settings = { fallback := none, reverse := none, lineLevel := 1, holdTime := 3 }
    ∧ s.leases.handleCtr = 1 ∧ s.leases.seqCtr = 0 ∧ s.leases.lastView = .noView ∧ s.leases.handed = false)
  ∧ ((∀ id, (s.plan id).hold = .empty ∧ (s.plan id).refs.referenced = false) ∧ s.plans.walk = none)
  ∧ (s.capture.sets = [] ∧ s.capture.credit = 0 ∧ s.capture.drops = 0
    ∧ s.capture.timing = { period := 33, window := 25, stale := 2, repair := 4 } ∧ s.capture.pendingTiming = none
    ∧ (∀ c, s.capture.fresh.get (Camera.idx c) = none)
    ∧ ∀ c k, (s.capture.slot c k).hold = .free ∧ (s.capture.slot c k).pinned = false)
  ∧ (∀ c, (s.lane c).buffer = [] ∧ (s.lane c).busy = none ∧ (s.lane c).frame = none ∧ (s.lane c).retained = none
    ∧ (s.lane c).closedTag = none ∧ (s.lane c).totals = LaneTotals.zero)
  ∧ ((∀ c, (s.cam c).state = .absent ∧ (s.cam c).identity = none ∧ (s.cam c).lastFault = .none
      ∧ (s.cam c).missed = 0 ∧ (s.cam c).attempts = 0 ∧ (s.cam c).startPending = false)
    ∧ s.chain.queue = [] ∧ s.chain.phase = .off ∧ s.chain.autoRebuild = true ∧ s.chain.tag = 0
    ∧ s.chain.lastBreak = none ∧ s.chain.lastAuto = none ∧ s.chain.lastTag = none)

/-! ### Request ports -/

/-- SELECT_START: the head of the answer queue or the empty answer frame is chosen and the port flags are fixed; in
STARTING it is the empty answer frame with both flags no. ANSWER_SHIFTED_OUT: the answer leaves the queue and the
open items, and the overflow flag is cleared when the frame carried it and no request has been dropped since.
SELECT_END ends the select period and leaves the answers in their queue. While select is asserted the frame's bytes go
out and 0x00 filler after them: the answer's fields, or zeros for the empty answer frame, with the port flags, and the
check over them. How many bytes a master has shifted in is outside the model (log 28). -/
def Obligations.SelectPeriodSendsOneFrame : Prop :=
  ∀ (p : Port) (s : State),
    ((s.ports.get p).select = none →
      exec (.selectStart p) s = .next
        { s with
          ports := s.ports.set p
            { s.ports.get p with
              select := some
                (if s.power.state = .starting then
                  { out := none, overflow := false, notice := false
                    shifted := false, taken := false, dropped := false, starting := true }
                else
                  { out := (s.ports.get p).answers.head?, overflow := (s.ports.get p).overflow
                    notice := (s.ports.get p).flags &&& (s.ports.get p).enables &&& 0x3FE != 0
                    shifted := false, taken := false, dropped := false, starting := false }) } })
    ∧ (∀ sel : Select, (s.ports.get p).select = some sel → sel.shifted = false →
      exec (.answerShiftedOut p) s = .next
        { s with
          ports := s.ports.set p
            { s.ports.get p with
              answers := if sel.out = none then (s.ports.get p).answers else (s.ports.get p).answers.tail
              openItems := if sel.out = none then (s.ports.get p).openItems else (s.ports.get p).openItems - 1
              overflow := if sel.overflow = true ∧ sel.dropped = false then false else (s.ports.get p).overflow
              select := some { sel with shifted := true } } })
    ∧ exec (.selectEnd p) s = .next { s with ports := s.ports.set p { s.ports.get p with select := none } }
    ∧ (∀ n, s.shiftsOut p n = (s.ports.get p).select.map (fun sel =>
      if sel.shifted then List.replicate n 0 else (sel.frameBytes ++ List.replicate n 0).take n))
    ∧ ∀ sel : Select,
      let flags := byte ((if sel.overflow then 1 else 0) + (if sel.notice then 2 else 0))
      let body := match sel.out with
        | none => [0, 0, 0, flags, 0]
        | some a => [a.seq, a.code, byte a.outcome.value, flags, byte a.payload.length] ++ a.payload
      sel.frameBytes = body ++ be2 (crc16 body).toNat

/-- A complete frame's bytes are read as sequence, code, payload and check; payload bytes beyond the 248th are not kept, and
a check that does not agree with the bytes before it marks the request. -/
def Obligations.RequestFrameIsReadByItsFields : Prop :=
  ∀ (seq code hi lo : Byte) (payload : List Byte), code ≠ 0 → payload.length ≤ 255 →
    requestOfFrame ([seq, code, byte payload.length] ++ payload ++ [hi, lo]) = some
      { seq := seq, code := code, len := payload.length, payload := payload.take 248
        badCheck := decide ((crc16 ([seq, code, byte payload.length] ++ payload)).toNat ≠ hi.toNat * 256 + lo.toNat) }

/-- REQUEST_ARRIVAL: with fewer than 4 open items the request joins the tail of the queue and is counted; with 4 it is
dropped and the overflow flag is set; in a select period begun in STARTING it is discarded. A request code of 0 marks an
empty request: nothing is queued or counted. After either, whatever else arrives in the select period is ignored. -/
def Obligations.ArrivalJoinsTheQueueOrOverflows : Prop :=
  ∀ (p : Port) (bytes : List Byte) (s : State) (sel : Select), (s.ports.get p).select = some sel →
    (∀ r : Request, sel.taken = false → requestOfFrame bytes = some r →
      exec (.requestArrival p bytes) s = .next
        { s with
          ports := s.ports.set p
            (if sel.starting then { s.ports.get p with select := some { sel with taken := true } }
            else if (s.ports.get p).openItems < 4 then
              { s.ports.get p with
                requests := (s.ports.get p).requests ++ [r]
                openItems := (s.ports.get p).openItems + 1
                select := some { sel with taken := true } }
            else
              { s.ports.get p with
                overflow := true
                select := some { sel with taken := true, dropped := true } }) })
    ∧ (sel.taken = false → bytes[1]? = some 0 →
      exec (.requestArrival p bytes) s = .next
        { s with ports := s.ports.set p { s.ports.get p with select := some { sel with taken := true } } })
    ∧ (sel.taken = true → exec (.requestArrival p bytes) s = .next s)

/-- UNKNOWN_REQUEST: a request taken with error CHECK, of a code outside the table, or of a wrong payload length is answered
CHECK, UNKNOWN or LENGTH, in this order. -/
def Obligations.FailedPortCheckIsAnswered : Prop :=
  ∀ (p : Port) (s : State) (r : Request) (rest : List Request),
    (s.ports.get p).executing = none → (s.ports.get p).requests = r :: rest →
    (r.badCheck = true → exec (.unknownRequest p) s = .next (s.replied p r rest .check []))
    ∧ (r.badCheck = false → RequestKind.ofCode r.code.toNat = none →
      exec (.unknownRequest p) s = .next (s.replied p r rest .unknown []))
    ∧ ∀ k, r.badCheck = false → RequestKind.ofCode r.code.toNat = some k → k.lengthOk r.len = false →
      exec (.unknownRequest p) s = .next (s.replied p r rest .length [])

/-- ECHO answers OK with its own payload and changes no state. -/
def Obligations.EchoAnswersItsOwnPayload : Prop :=
  ∀ (p : Port) (s : State) (r : Request) (rest : List Request), s.Ready p .echo r rest →
    exec (.echo p) s = .next (s.replied p r rest .ok r.payload)

/-- STATUS_READ answers the summary of the part, field by field, and changes no state. -/
def Obligations.StatusReadAnswersTheSummary : Prop :=
  ∀ (p q : Port) (s : State) (r : Request) (rest : List Request), s.Ready p .statusRead r rest → q ≠ p →
    exec (.statusRead p) s = .next (s.replied p r rest .ok
      ([byte s.power.state.value, byte s.power.thermal.value, byte s.power.rateCap
        , byte (max s.power.rateCap s.power.thermal.divisor)]
        ++ mark s.composer.isSome
        ++ [byte s.chain.phase.value, byte s.capture.sets.length, byte s.capture.credit]
        ++ be4 s.log.next ++ [byte (s.ports.get p).openItems] ++ mark (s.ports.get p).overflow
        ++ be2 (s.ports.get p).flags.toNat ++ be2 (s.ports.get p).enables.toNat
        ++ [byte (s.ports.get q).openItems]))

/-- NOTICE_ENABLE sets the port's ten enables to the mask, answers with them, and the flags stay; NOTICE_TAKE answers the ten
flags as they stand and clears those of the mask, ANSWER following its queue; a mask with any of bits 10 to 15 set is refused
RANGE. The notice line is asserted while a flag is set and enabled. -/
def Obligations.NoticeEnableAndTakeActOnTheirPort : Prop :=
  ∀ (p : Port) (s : State) (r : Request) (rest : List Request),
    (s.Ready p .noticeEnable r rest →
      (halfAt r.payload 0 < 1024 →
        exec (.noticeEnable p) s = .next
          (({ s with
              ports := s.ports.set p { s.ports.get p with enables := BitVec.ofNat 10 (halfAt r.payload 0) } } : State).replied
            p r rest .ok (be2 (halfAt r.payload 0))))
      ∧ (1024 ≤ halfAt r.payload 0 → exec (.noticeEnable p) s = .next (s.replied p r rest .range [])))
    ∧ (s.Ready p .noticeTake r rest →
      (halfAt r.payload 0 < 1024 →
        exec (.noticeTake p) s = .next
          (({ s with
              ports := s.ports.set p
                { s.ports.get p with
                  raised := (s.ports.get p).raised &&& ~~~(BitVec.ofNat 10 (halfAt r.payload 0)) } } : State).replied
            p r rest .ok (be2 (s.ports.get p).flags.toNat)))
      ∧ (1024 ≤ halfAt r.payload 0 → exec (.noticeTake p) s = .next (s.replied p r rest .range [])))
    ∧ ∀ (x : PortState) (e : BitVec 10), (x.flags.getLsbD 0 = true ↔ x.answers ≠ [])
      ∧ (∀ i : Fin 10, 0 < i.val → x.flags.getLsbD i.val = x.raised.getLsbD i.val)
      ∧ ({ x with enables := e } : PortState).flags = x.flags
      ∧ ({ x with enables := e } : PortState).noticeLine = (x.flags &&& e != 0)

/-- CAMERA_READ, CAPTURE_READ, POOL_READ, VIEW_READ and BALANCE_READ answer OK with the payload of their unit's state, field
by field, and change no state; a position outside 1 to 4 or a part above 2 is refused RANGE. The runs of POOL_READ are
those of the plans in address order, and its gaps the longest free stretches between them. A named value is given by its
place in its list. Inside the payloads some values are the model's choices: the chunks accepted once the identity is
stored (log 20), counts past their ranges (log 37), the rounding of remaining times (log 9) and of times of the timebase
(log 5, log 38), and a rounded change that 4 bytes do not hold, a free value (log 40). -/
def Obligations.ReadRequestsAnswerAndChangeNothing : Prop :=
  (∀ (p : Port) (s : State) (r : Request) (rest : List Request),
    let part := byteAt r.payload 0
    (s.Ready p .cameraRead r rest →
      (∀ c : Camera, part = c.number →
        let m := s.cam c
        exec (.cameraRead p) s = .next (s.replied p r rest .ok
          ([byte m.state.value] ++ mark m.startPending
            ++ (match m.identity with
              | some i => [1] ++ be4 i.serial.toNat ++ [byte (i.corner.number - 1), byte i.lens.toNat, i.revision]
                  ++ be2 i.stamp.toNat
              | none => List.replicate 10 0)
            ++ [if m.state = .identifying then
                (match m.ident with
                  | some q => byte (q.chunks.countP Option.isSome)
                  | none => 8)
              else 0xFF]
            ++ [byte m.lastFault.value, byte m.missed, byte m.attempts, byte s.chain.phase.value]
            ++ mark s.chain.autoRebuild
            ++ [match s.chain.lastBreak with
              | some d => byte d.number
              | none => 0xFF]
            ++ [byte s.chain.queue.length]
            ++ (match s.chain.lastTag with
              | some g => [1, g]
              | none => [0, 0]))))
      ∧ (part = 0 ∨ 4 < part → exec (.cameraRead p) s = .next (s.replied p r rest .range [])))
    ∧ (s.Ready p .captureRead r rest →
      (part = 0 →
        exec (.captureRead p) s = .next (s.replied p r rest .ok
          ([byte s.capture.sets.length]
            ++ s.capture.sets.flatMap (fun st =>
              [st.tag, byte st.state.value] ++ opt1 (st.closure.map Closure.value)
                ++ be4 (st.openAt / 1000) ++ be4 (st.deadline / 1000)
                ++ Camera.all.flatMap (fun c =>
                  let e := st.entries.get c.idx
                  [byte e.status.value.1] ++ opt1 (e.status.value.2.map Fin.val) ++ be2 e.written ++ [byte e.repaired]
                    ++ be2 e.errors))
            ++ [byte s.capture.credit, byte s.capture.drops])))
      ∧ (part = 1 →
        let times := fun x : Timing => [byte x.period, byte x.window, byte x.stale, byte x.repair]
        exec (.captureRead p) s = .next (s.replied p r rest .ok
          (Camera.all.flatMap (fun c => ([0, 1, 2] : List SlotNo).flatMap (fun k =>
              (match (s.capture.slot c k).hold with
                | .free => [0, 0, 0xFF, 0]
                | .filling g => [1, g, 0xFF, 0]
                | .held g .complete => [2, g, 0, 0]
                | .held g (.repaired n) => [2, g, 1, byte n]
                | .held g .torn => [2, g, 2, 0])
              ++ mark (s.capture.slot c k).pinned
              ++ mark (decide ((s.capture.fresh.get c.idx).map Prod.fst = some k))
              ++ opt1 (((s.capture.fillOrder.get c.idx).findIdx? (fun j => j == k)).map (fun i => i + 1))))
            ++ Camera.all.flatMap (fun c => match s.capture.fresh.get c.idx with
              | some (k, g) => [byte k.val, g]
              | none => [0xFF, 0])
            ++ times s.capture.timing
            ++ (match s.capture.pendingTiming with
              | some x => [1] ++ times x
              | none => [0, 0, 0, 0, 0]))))
      ∧ (part = 2 →
        exec (.captureRead p) s = .next (s.replied p r rest .ok
          (Camera.all.flatMap (fun c =>
            let x := (s.lane c).totals
            be2 x.marker ++ be2 x.length ++ be2 x.check ++ be2 x.overrun ++ be2 x.miswired ++ be2 x.stray
              ++ be2 x.order))))
      ∧ (2 < part → exec (.captureRead p) s = .next (s.replied p r rest .range [])))
    ∧ (s.Ready p .poolRead r rest →
      let runs := s.plans.runs
      let gaps := gapsFrom 0 runs
      exec (.poolRead p) s = .next (s.replied p r rest .ok
        ([byte runs.length]
          ++ runs.flatMap (fun q => be2 q.base ++ be2 q.len ++ [byte q.plan.val, byte (s.plan q.plan).hold.value])
          ++ [byte gaps.length] ++ gaps.flatMap (fun g => be2 g.1 ++ be2 g.2)
          ++ be2 (gaps.map Prod.snd).sum ++ be2 ((gaps.map Prod.snd).foldl max 0))))
    ∧ (s.Ready p .viewRead r rest →
      exec (.viewRead p) s = .next (s.replied p r rest .ok
        ([byte s.leases.table.length]
          ++ s.leases.table.flatMap (fun l =>
            [byte l.handle, byte l.holder.value, byte l.level, byte l.plan.val, byte l.duration]
              ++ be2 (match l.remaining with
                | none => 0xFFFF
                | some us => (us + 999) / 1000)
              ++ be4 l.seq.toNat ++ mark l.shown ++ opt1 (l.phase.map LinePhase.value))
          ++ opt1 (s.leases.settings.fallback.map Fin.val) ++ opt1 (s.leases.settings.reverse.map Fin.val)
          ++ [byte s.leases.settings.lineLevel, byte s.leases.settings.holdTime]
          ++ opt1 (((s.leases.table.find? (fun l => l.holder == .line)).bind Lease.phase).map LinePhase.value)
          ++ (match s.leases.lastView with
            | .lease h n q i => [0, byte h.value, byte n] ++ be4 q.toNat ++ [byte i.val]
            | .fallback i => [1, 0xFF, 0xFF] ++ List.replicate 4 0xFF ++ [byte i.val]
            | .noView => [2, 0xFF, 0xFF] ++ List.replicate 4 0xFF ++ [0xFF])
          ++ mark s.leases.handed ++ [byte s.leases.handleCtr] ++ be4 s.leases.seqCtr.toNat)))
    ∧ (s.Ready p .balanceRead r rest →
      exec (.balanceRead p) s = .next (s.replied p r rest .ok
        (Camera.all.flatMap (fun c => be2 (s.balance.gains.get c.idx))
          ++ [byte s.balance.anchor.number, byte s.balance.step] ++ mark s.balance.enable
          ++ (match s.balance.report with
            | none => List.replicate 73 0
            | some x =>
              [(1 : Byte)] ++ be4 x.frame
                ++ ([0, 1, 2, 3] : List (Fin 4)).flatMap (fun i =>
                  mark (x.pairs.get i).valid ++ be4 (x.pairs.get i).count ++ be2 (x.pairs.get i).meanA
                    ++ be2 (x.pairs.get i).meanB)
                ++ Camera.all.flatMap (fun c => match x.cams.get c.idx with
                  | .anchor => [0] ++ List.replicate 7 0
                  | .noPair => [1] ++ List.replicate 7 0
                  | .zeroMean => [2] ++ List.replicate 7 0
                  | .moved n d g =>
                    [3]
                      ++ be4 (if -2147483648 ≤ n ∧ n < 2147483648 then (n % 4294967296).toNat
                        else (Config.wideChange n).toNat)
                      ++ [BitVec.ofInt 8 d] ++ be2 g))))))
  ∧ (∀ x : Plans, (∀ id q, x.runOf id = some q → 1 ≤ q.len ∧ q.base + q.len ≤ 2048) →
    (∀ i j q u, i ≠ j → x.runOf i = some q → x.runOf j = some u →
      q.base + q.len ≤ u.base ∨ u.base + u.len ≤ q.base) →
    x.runs.Pairwise (fun q u => q.base + q.len ≤ u.base)
    ∧ (∀ q, q ∈ x.runs ↔ ∃ id, x.runOf id = some q)
    ∧ (gapsFrom 0 x.runs).Pairwise (fun g h => g.1 + g.2 < h.1)
    ∧ ∀ a n, (a, n) ∈ gapsFrom 0 x.runs ↔
      1 ≤ n ∧ a + n ≤ 2048 ∧ (∀ q ∈ x.runs, a + n ≤ q.base ∨ q.base + q.len ≤ a)
      ∧ (a = 0 ∨ ∃ q ∈ x.runs, q.base + q.len = a) ∧ (a + n = 2048 ∨ ∃ q ∈ x.runs, q.base = a + n))
  ∧ ([.absent, .unaddressed, .addressed, .identifying, .testing, .streaming, .faulted, .lost].map CamState.value
      = List.range 8
    ∧ [.none, .selftest, .memory, .sensorHot, .supplyDip, .cmdCheck, .misplaced, .identTimeout, .testTimeout, .noAck
      , .desync].map FaultCode.value = List.range 11
    ∧ [.off, .settling, .bringingUp, .steady].map ChainPhase.value = List.range 4
    ∧ [.opened, .closed, .composing].map SetState.value = List.range 3
    ∧ [.complete, .window].map Closure.value = List.range 2
    ∧ (∀ k, [.awaited, .arriving k, .present k, .late k, .torn k, .missing, .excluded, .overwritten].map
        EntryStatus.value =
      [(0, none), (1, some k), (2, some k), (3, some k), (4, some k), (5, none), (6, none), (7, none)])
    ∧ (∀ c t a r, [.empty, .loading c t a, .verifying c, .verified c, .rejected c r].map PlanHold.value = List.range 5)
    ∧ [.port .cp, .port .mp, .line].map LeaseHolder.value = List.range 3
    ∧ [.active, .holding].map LinePhase.value = List.range 2)

/-! ### The camera chain -/

/-- CHAIN_REBUILD: refused STATE in STANDBY and BUSY while a bring-up is in flight; else the queue holds the CHAIN_RESET
alone, every record is UNADDRESSED with the effects of bring-up start and its identity kept, each STREAMING position is
reported as leaving STREAMING, and it is answered OK. -/
def Obligations.ChainRebuildTakesEveryRecordBack : Prop :=
  ∀ (p : Port) (s : State) (r : Request) (rest : List Request), s.Ready p .chainRebuild r rest →
    (s.power.state = .standby → exec (.chainRebuild p) s = .next (s.replied p r rest .state []))
    ∧ (s.power.state ≠ .standby → s.chain.phase.inFlight = true →
      exec (.chainRebuild p) s = .next (s.replied p r rest .busy []))
    ∧ (s.power.state ≠ .standby → s.chain.phase.inFlight = false →
      ∃ t, exec (.chainRebuild p) s = .next t ∧ (s.replied p r rest .ok []).pipeOnly t
        ∧ s.departs (fun c => decide ((s.cam c).state = .streaming)) t
        ∧ t.chain.queue = [chainResetEntry] ∧ t.chain.phase = .bringingUp
        ∧ ∀ c, (t.cam c).state = .unaddressed ∧ (t.cam c).identity = (s.cam c).identity
          ∧ (t.cam c).lastFault = .none ∧ (t.cam c).missed = 0 ∧ (t.cam c).startPending = false
          ∧ (t.cam c).attempts = min 255 ((s.cam c).attempts + 1))

/-- CAMERA_RESTART of a camera that the checks of R26 let through: the record is ADDRESSED with the effects of bring-up
start, a CAM_RESET for its position is queued, the other records stay, a STREAMING position is reported as leaving
STREAMING, and it is answered OK. -/
def Obligations.CameraRestartTakesOneRecordBack : Prop :=
  ∀ (p : Port) (c : Camera) (s : State) (r : Request) (rest : List Request), s.Ready p .cameraRestart r rest →
    byteAt r.payload 0 = c.number →
    (s.power.state = .standby → exec (.cameraRestart p) s = .next (s.replied p r rest .state []))
    ∧ (s.power.state ≠ .standby → s.chain.phase.inFlight = true →
      exec (.cameraRestart p) s = .next (s.replied p r rest .busy []))
    ∧ (s.power.state ≠ .standby → s.chain.phase.inFlight = false →
      (s.cam c).state = .absent ∨ (s.cam c).state = .unaddressed →
      exec (.cameraRestart p) s = .next (s.replied p r rest .state []))
    ∧ (s.power.state ≠ .standby → s.chain.phase.inFlight = false →
      (s.cam c).state ≠ .absent → (s.cam c).state ≠ .unaddressed →
      s.chain.queue.all (fun e => !(e.target == some c)) = true → s.chain.queue.length < 8 →
      ∃ t, exec (.cameraRestart p) s = .next t ∧ (s.replied p r rest .ok []).pipeOnly t
        ∧ s.departs (fun d => decide (d = c ∧ (s.cam c).state = .streaming)) t
        ∧ (t.cam c).state = .addressed ∧ (t.cam c).identity = (s.cam c).identity ∧ (t.cam c).lastFault = .none
        ∧ (t.cam c).missed = 0 ∧ (t.cam c).attempts = min 255 ((s.cam c).attempts + 1)
        ∧ (∀ d, d ≠ c → t.cam d = s.cam d)
        ∧ t.chain.queue = s.chain.queue ++
          [{ func := .camReset, addr := .one c, param := 0, origin := .request p, attempts := 0 }])

/-- STROBE in RUN: the strobe word carries the tag counter's value, the counter advances, the next strobe is one
capture period later, the four reply slots lie ahead, and records with stream start pending become STREAMING. The
strobe is then handed to the Capture Sequencer with the STREAMING positions and to the lanes, whose closed tag it ages,
and the command word of the queue's head is sent: a CHAIN_RESET leaves the queue, and one of origin BRING_UP adds
ASSIGN 1. A strobe taken late counts from when it is taken, with no command to send no command word is held, and a
command word's check is over bits 23 to 8 (the model's choices, log 4, log 30, log 45). -/
def Obligations.StrobeSendsTheTagAndStartsStreams : Prop :=
  ∀ (s : State) (due : Nat), s.power.state = .run → s.chain.nextStrobe = some due →
    ∃ t, exec .strobe s = .next t ∧ (s.runTo due).pipeOnly t ∧ t.now = max s.now due
      ∧ t.chain.strobeWord = some (strobeWordOf s.chain.tag) ∧ t.chain.lastTag = some s.chain.tag
      ∧ t.chain.tag = s.chain.tag + 1
      ∧ t.chain.nextStrobe = some (t.now + t.capture.timing.period * 1000)
      ∧ t.chain.interval.map Interval.slotsLeft = some [.fl, .fr, .rr, .rl]
      ∧ (∀ c, (s.cam c).startPending = true →
        t.cam c = { s.cam c with state := .streaming, startPending := false, test := none })
      ∧ (∀ c, (s.cam c).startPending = false → t.cam c = s.cam c)
      ∧ t.capture = s.capture.strobe s.chain.tag t.now t.streaming
      ∧ (∀ c : Camera, t.streaming.get c.idx = decide ((t.cam c).state = .streaming))
      ∧ (∀ c, t.lane c = { s.lane c with
          closedTag := if (s.lane c).closedTag = some s.chain.tag then none else (s.lane c).closedTag })
      ∧ (s.chain.queue = [] → t.chain.queue = [] ∧ t.chain.commandWord = none)
      ∧ ∀ e rest, s.chain.queue = e :: rest →
        t.chain.commandWord = some (commandWordOf { e with attempts := e.attempts + 1 })
        ∧ (e.func ≠ .chainReset → t.chain.queue = { e with attempts := e.attempts + 1 } :: rest)
        ∧ (e.func = .chainReset → e.origin ≠ .bringUp → t.chain.queue = rest)
        ∧ (e.func = .chainReset → e.origin = .bringUp → rest.length < 8 → t.chain.queue = rest ++ [assignEntry .fl])

/-- The Capture Sequencer at a strobe: pending timing settings come into force and freshness records of the strobe's tag
become NONE. A live set of the tag is dropped, unless it is COMPOSING, when no set is opened; with a full table the
oldest set that is not COMPOSING is dropped; and each drop, and each strobe that opens no set, is counted. Else a set
joins the newest end: AWAITED for each STREAMING position and EXCLUDED for the others, its window running; it closes
COMPLETE at once, with credit, where none streams. That a strobe which opens no set drops none for room either, is the
model's choice (log 46). -/
def Obligations.StrobeOpensACaptureSet : Prop :=
  ∀ (x : Capture) (tag : Tag) (now : Nat) (on : Quad Bool), x.credit ≤ 255 →
    let y := x.strobe tag now on
    (y.timing = x.pendingTiming.getD x.timing ∧ y.pendingTiming = none ∧ y.slots = x.slots ∧ y.fillOrder = x.fillOrder
      ∧ ∀ c : Camera, y.fresh.get c.idx =
        if (x.fresh.get c.idx).map Prod.snd = some tag then none else x.fresh.get c.idx)
    ∧ (∀ st, x.find tag = some st → st.state = .composing →
      y.sets = x.sets ∧ y.credit = x.credit ∧ y.drops = min 255 (x.drops + 1))
    ∧ ∀ (kept : List CaptureSet) (dropped : Bool),
      ((x.find tag = none ∧ x.sets.length < 4 ∧ kept = x.sets ∧ dropped = false)
        ∨ (∃ st, x.find tag = some st ∧ st.state ≠ .composing ∧ x.sets.length ≤ 4
          ∧ kept = x.sets.filter (fun z => z.tag ≠ tag) ∧ dropped = true)
        ∨ (∃ older st newer, x.find tag = none ∧ x.sets.length = 4 ∧ x.sets = older ++ st :: newer
          ∧ (∀ z ∈ older, z.state = .composing) ∧ st.state ≠ .composing
          ∧ kept = older ++ newer ∧ dropped = true)) →
      y.drops = (if dropped then min 255 (x.drops + 1) else x.drops)
      ∧ ∃ st, y.sets = kept ++ [st] ∧ st.tag = tag ∧ st.openAt = now
        ∧ st.deadline = now + ((x.pendingTiming.getD x.timing).window) * 1000
        ∧ (∀ c : Camera, st.entries.get c.idx =
          { status := if on.get c.idx then .awaited else .excluded, written := 0, repaired := 0, errors := 0 })
        ∧ (on = Quad.all false → st.state = .closed ∧ st.closure = some .complete ∧ y.credit = min 255 (x.credit + 1))
        ∧ (on ≠ Quad.all false → st.state = .opened ∧ st.closure = none ∧ y.credit = x.credit)

/-- SLOT_END in an interval with no loss so far. For a position no command was sent to: a STREAMING record that answers
STATUS STREAMING with no fault has no missed slot; a counted record that misses for the first or second time has one
more; the other records, the command queue, the lanes and the capture sets stay. For the position a command was sent
to: ACK removes the entry and has the command's effect; NACK, or a missed slot of its third attempt, removes it and the
command has failed, which leaves a FAULTED record as it is for STREAM_OFF, makes the record FAULTED with NO_ACK for the
others, a STREAMING one leaving STREAMING, and for ASSIGN makes the record and those beyond it ABSENT and ends
addressing; before the third attempt a
missed slot leaves the entry at the head. The slot is over in each case. The timebase runs on to the slot's end (the
model's choice, log 4), and a reply that settles a command does no more (log 13). -/
def Obligations.SlotEndCountsMissedSlots : Prop :=
  ∀ (c : Camera) (reply : Option (BitVec 14)) (s : State) (i : Interval), s.slotDue c i →
    (s.chain.sentTo c = none →
      ((s.cam c).state = .streaming → slotResultOf reply = .reply (.status .streaming .none) →
        ∃ t, exec (.slotEnd c reply) s = .next t ∧ s.slotDone c i t
          ∧ t.cam c = { s.cam c with missed := 0 } ∧ (∀ d, d ≠ c → t.cam d = s.cam d)
          ∧ t.chain.queue = s.chain.queue ∧ t.lanes = s.lanes ∧ t.capture = s.capture)
      ∧ ((s.cam c).state.counted = true → (s.cam c).ident = none → (s.cam c).missed < 2 →
        slotResultOf reply = .missed →
        ∃ t, exec (.slotEnd c reply) s = .next t ∧ s.slotDone c i t
          ∧ t.cam c = { s.cam c with missed := (s.cam c).missed + 1 } ∧ (∀ d, d ≠ c → t.cam d = s.cam d)
          ∧ t.chain.queue = s.chain.queue ∧ t.lanes = s.lanes ∧ t.capture = s.capture))
    ∧ ∀ e : ChainEntry, s.chain.sentTo c = some e → s.chain.queue.length ≤ 5 →
      let counted := (s.cam c).state.counted
      let tail := s.chain.queue.tail
      (slotResultOf reply = .reply .ack →
        let r := { s.cam c with missed := if counted then 0 else (s.cam c).missed }
        ∃ t, exec (.slotEnd c reply) s = .next t ∧ s.slotDone c i t ∧ (∀ d, d ≠ c → t.cam d = s.cam d)
          ∧ match e.func with
            | .assign =>
              t.cam c = { r with state := .addressed }
              ∧ (∀ d, nextPosition c = some d → t.chain.queue = tail ++ [assignEntry d])
              ∧ (c = .rl → t.chain.queue = tail ++
                (Camera.all.filter (fun d => (t.cam d).state = .addressed)).map (fun d => entryFor .identStart d .bringUp))
            | .identStart =>
              t.cam c = { r with
                state := .identifying, identity := none
                ident := some { chunks := List.replicate 8 none, prev := none, elapsed := 0 } }
              ∧ t.chain.queue = tail
            | .testStart =>
              t.cam c = { r with
                state := .testing, ident := none, test := some { start := t.now, requested := false } }
              ∧ t.chain.queue = tail
            | .streamOn =>
              t.cam c = { r with startPending := if r.state = .testing then true else r.startPending }
              ∧ t.chain.queue = tail
            | .camReset => t.cam c = r ∧ t.chain.queue = tail ++ [entryFor .identStart c .bringUp]
            | .streamOff => t.cam c = r ∧ t.chain.queue = tail
            | .chainReset => t.cam c = r ∧ t.chain.queue = tail)
      ∧ (slotResultOf reply = .reply .nack
          ∨ (slotResultOf reply = .missed ∧ 3 ≤ e.attempts ∧ (counted = true → (s.cam c).missed < 2)) →
        ∃ t, exec (.slotEnd c reply) s = .next t ∧ s.slotDone c i t
          ∧ (e.func = .assign →
            (∀ d : Camera, c.number ≤ d.number → (t.cam d).state = .absent)
            ∧ (∀ d : Camera, d.number < c.number → t.cam d = s.cam d)
            ∧ t.chain.queue = tail ++
              (Camera.all.filter (fun d => (t.cam d).state = .addressed)).map (fun d => entryFor .identStart d .bringUp))
          ∧ (e.func = .identStart ∨ e.func = .testStart ∨ e.func = .streamOn ∨ e.func = .camReset →
            (t.cam c).state = .faulted ∧ (t.cam c).lastFault = .noAck ∧ (t.cam c).ident = none ∧ (t.cam c).test = none
            ∧ (t.cam c).startPending = false ∧ (t.cam c).identity = (s.cam c).identity
            ∧ (∀ d, d ≠ c → t.cam d = s.cam d) ∧ ((s.cam c).state ≠ .faulted → t.bothRaised .camera)
            ∧ s.departs (fun d => decide (d = c ∧ (s.cam c).state = .streaming)) t
            ∧ t.chain.queue = tail.filter (fun x => x.target ≠ some c) ++
              (if (s.cam c).state = .streaming then [entryFor .streamOff c .fault] else []))
          ∧ (e.func = .streamOff → (s.cam c).state = .faulted →
            t.cam c = { s.cam c with missed := if slotResultOf reply = .missed then (s.cam c).missed + 1 else 0 }
            ∧ (∀ d, d ≠ c → t.cam d = s.cam d) ∧ t.chain.queue = tail))
      ∧ (slotResultOf reply = .missed → e.attempts < 3 → (s.cam c).ident = none →
        (counted = true → (s.cam c).missed < 2) →
        ∃ t, exec (.slotEnd c reply) s = .next t ∧ s.slotDone c i t
          ∧ t.cam c = { s.cam c with missed := if counted then (s.cam c).missed + 1 else (s.cam c).missed }
          ∧ (∀ d, d ≠ c → t.cam d = s.cam d) ∧ t.chain.queue = s.chain.queue)

/-- SLOT_END with a STATUS reply for a position no command was sent to: another state code than STREAMING for a STREAMING
record makes it FAULTED with DESYNC, and a latched fault code makes the record FAULTED with that fault; CAMERA is
raised on both ports, the position's queue entries are removed, and a STREAMING record's frame filling is given up and
STREAM_OFF queued. A temporary fault code is kept as the last fault code, raises CAMERA, and changes no state. READY in
TESTING queues STREAM_ON once. In IDENTIFYING an IDENT reply equal to the one before it accepts its chunk, and with the
eighth the identity is stored and checked: the position's own corner queues TEST_START, another makes the record
FAULTED with MISPLACED. The timebase runs on to the slot's end (the model's choice, log 4). -/
def Obligations.DesyncFaultsTheRecord : Prop :=
  ∀ (c : Camera) (reply : Option (BitVec 14)) (s : State) (i : Interval),
    s.slotDue c i → s.chain.sentTo c = none → s.chain.queue.length < 8 →
    let cleared := s.chain.queue.filter (fun e => e.target ≠ some c)
    (∀ code f g, slotResultOf reply = .reply (.status code f) →
      ((s.cam c).state = .streaming ∧ code ≠ .streaming ∧ g = .desync)
      ∨ (((s.cam c).state = .addressed ∨ (s.cam c).state = .identifying ∨ (s.cam c).state = .testing
          ∨ ((s.cam c).state = .streaming ∧ code = .streaming)) ∧ (f = .selftest ∨ f = .memory) ∧ g = f) →
      ∃ t, exec (.slotEnd c reply) s = .next t ∧ s.slotDone c i t
        ∧ t.cam c = { s.cam c with
          state := .faulted, lastFault := g, missed := 0, ident := none, test := none, startPending := false }
        ∧ (∀ d, d ≠ c → t.cam d = s.cam d) ∧ t.bothRaised .camera
        ∧ t.chain.queue = cleared ++
          (if (s.cam c).state = .streaming then [entryFor .streamOff c .fault] else [])
        ∧ ((s.cam c).state = .streaming → (t.lane c).busy = none ∧ (t.lane c).frame = none)
        ∧ s.departs (fun d => decide (d = c ∧ (s.cam c).state = .streaming)) t)
    ∧ (∀ code f, slotResultOf reply = .reply (.status code f) → f = .sensorHot ∨ f = .supplyDip ∨ f = .cmdCheck →
      (s.cam c).state = .addressed
        ∨ ((s.cam c).state = .identifying
          ∧ ∀ q, (s.cam c).ident = some q → q.elapsed < 63 ∧ q.chunks.all Option.isSome = false)
        ∨ ((s.cam c).state = .testing ∧ code ≠ .ready) ∨ ((s.cam c).state = .streaming ∧ code = .streaming) →
      ∃ t, exec (.slotEnd c reply) s = .next t ∧ s.slotDone c i t
        ∧ t.cam c = { s.cam c with
          lastFault := f, missed := 0
          ident := if (s.cam c).state = .identifying then
              (s.cam c).ident.map (fun q => { q with prev := none, elapsed := q.elapsed + 1 })
            else (s.cam c).ident }
        ∧ (∀ d, d ≠ c → t.cam d = s.cam d)
        ∧ t.bothRaised .camera ∧ t.chain.queue = s.chain.queue ∧ t.lanes = s.lanes ∧ t.capture = s.capture)
    ∧ (∀ f x, slotResultOf reply = .reply (.status .ready f) →
      f = .none ∨ f = .sensorHot ∨ f = .supplyDip ∨ f = .cmdCheck →
      (s.cam c).state = .testing → (s.cam c).test = some x → x.requested = false →
      ∃ t, exec (.slotEnd c reply) s = .next t ∧ s.slotDone c i t
        ∧ t.cam c = { s.cam c with
          lastFault := if f = .none then (s.cam c).lastFault else f, missed := 0
          test := some { x with requested := true } }
        ∧ (∀ d, d ≠ c → t.cam d = s.cam d) ∧ t.chain.queue = s.chain.queue ++ [entryFor .streamOn c .bringUp])
    ∧ ∀ k b q, slotResultOf reply = .reply (.ident k b) → (s.cam c).state = .identifying → (s.cam c).ident = some q →
      let chunks := if q.prev = some (k, b) ∧ q.chunks[k]? = some none then q.chunks.set k (some b) else q.chunks
      (chunks.all Option.isSome = false → q.elapsed < 63 →
        ∃ t, exec (.slotEnd c reply) s = .next t ∧ s.slotDone c i t
          ∧ t.cam c = { s.cam c with
            missed := 0, ident := some { chunks := chunks, prev := some (k, b), elapsed := q.elapsed + 1 } }
          ∧ (∀ d, d ≠ c → t.cam d = s.cam d) ∧ t.chain.queue = s.chain.queue)
      ∧ ∀ b0 b1 b2 b3 b4 b5 b6 b7 : Byte,
        chunks = [some b0, some b1, some b2, some b3, some b4, some b5, some b6, some b7] →
        ∃ t id, exec (.slotEnd c reply) s = .next t ∧ s.slotDone c i t ∧ (∀ d, d ≠ c → t.cam d = s.cam d)
          ∧ id = { serial := b0 ++ b1 ++ b2 ++ b3, corner := cornerOfBits (b4.extractLsb' 6 2)
                   lens := b4.extractLsb' 0 3, revision := b5, stamp := b6 ++ b7 }
          ∧ (id.corner = c →
            t.cam c = { s.cam c with missed := 0, identity := some id, ident := none }
            ∧ t.chain.queue = s.chain.queue ++ [entryFor .testStart c .bringUp])
          ∧ (id.corner ≠ c →
            t.cam c = { s.cam c with
              state := .faulted, lastFault := .misplaced, missed := 0, identity := some id, ident := none, test := none
              startPending := false }
            ∧ t.chain.queue = cleared ∧ t.bothRaised .camera)

/-- CAMERA_LOST: the third missed slot in a row makes a counted record LOST, raises CAMERA on both ports, removes the
position's queue entries and reports a STREAMING position as leaving STREAMING; at the last position this is said where
automatic rebuild is off, for else a chain break may take the record back at once. The event is the slot itself (the
model's choice, log 4, log 11). -/
def Obligations.ThirdMissedSlotLosesTheCamera : Prop :=
  ∀ (c : Camera) (s : State) (i : Interval),
    s.chain.interval = some i → i.slotsLeft.head? = some c → (s.cam c).state.counted = true → (s.cam c).missed = 2 →
    c ≠ .rl ∨ s.chain.autoRebuild = false →
    ∃ t, exec (.cameraLost c) s = .next t ∧ (s.runTo (i.strobeAt + 500 + 600 * c.number)).pipeOnly t
      ∧ (t.cam c).state = .lost ∧ (t.cam c).missed = 3 ∧ (t.cam c).identity = (s.cam c).identity
      ∧ (∀ d, d ≠ c → t.cam d = s.cam d) ∧ t.bothRaised .camera
      ∧ s.departs (fun d => decide (d = c ∧ (s.cam c).state = .streaming)) t
      ∧ ∀ e ∈ t.chain.queue, e.target ≠ some c

/-- SETTLE_TIMER_EXPIRY: a CHAIN_RESET of origin BRING_UP is queued, every record is UNADDRESSED with its identity
kept, and the phase is BRINGING_UP. The timebase runs on to the expiry (the model's choice, log 4). -/
def Obligations.SettleExpiryBeginsBringUp : Prop :=
  ∀ (s : State) (due : Nat), s.chain.settleAt = some due → s.chain.queue.length < 8 →
    ∃ t, exec .settleTimerExpiry s = .next t ∧ (s.runTo due).pipeOnly t
      ∧ t.chain.queue = s.chain.queue ++
        [{ func := .chainReset, addr := .every, param := 0, origin := .bringUp, attempts := 0 }]
      ∧ t.chain.phase = .bringingUp ∧ t.chain.settleAt = none
      ∧ ∀ c, (t.cam c).state = .unaddressed ∧ (t.cam c).identity = (s.cam c).identity ∧ (t.cam c).lastFault = .none
        ∧ (t.cam c).attempts = min 255 ((s.cam c).attempts + 1)

/-- IDENT_TIMEOUT: the 64th interval of an identification with a chunk still missing faults the record
IDENT_TIMEOUT. TEST_TIMER_EXPIRY 2000 ms after the test start time faults a TESTING record whose stream has not been
requested with TEST_TIMEOUT, and leaves one whose stream has been requested as it is. An identification's timeout is
the slot itself (the model's choice, log 4, log 11). -/
def Obligations.TimeoutsFaultTheRecord : Prop :=
  ∀ (c : Camera) (s : State),
    (∀ (reply : Option (BitVec 14)) (i : Interval) (q : IdentProgress),
      s.chain.interval = some i → i.slotsLeft.head? = some c → i.lostNow = Quad.all false → s.chain.sentTo c = none →
      (s.cam c).state = .identifying → (s.cam c).ident = some q → q.elapsed = 63 → q.chunks.all Option.isSome = false →
      (s.cam c).missed < 2 → slotResultOf reply = .missed →
      ∃ t, exec (.identTimeout c reply) s = .next t ∧ (s.runTo (i.strobeAt + 500 + 600 * c.number)).pipeOnly t
        ∧ (t.cam c).state = .faulted ∧ (t.cam c).lastFault = .identTimeout ∧ (t.cam c).ident = none
        ∧ (∀ d, d ≠ c → t.cam d = s.cam d) ∧ t.bothRaised .camera)
    ∧ (∀ x : TestProgress, (s.cam c).state = .testing → (s.cam c).test = some x → x.requested = false →
      ∃ t, exec (.testTimerExpiry c) s = .next t ∧ (s.runTo (x.start + 2000000)).pipeOnly t
        ∧ (t.cam c).state = .faulted ∧ (t.cam c).lastFault = .testTimeout ∧ (t.cam c).test = none
        ∧ (∀ d, d ≠ c → t.cam d = s.cam d) ∧ t.bothRaised .camera)
    ∧ ∀ x : TestProgress, (s.cam c).state = .testing → (s.cam c).test = some x → x.requested = true →
      exec (.testTimerExpiry c) s = .next (s.runTo (x.start + 2000000))

/-- A chain break is recognised at a position exactly when it is the lowest one that became LOST in the interval and every
counted position beyond it became LOST too. The end of the last slot tests for it: a break becomes the last break
position and raises CHAIN on both ports, and a rebuild starts at once, and is recorded, while the automatic-rebuild
enable is on, no bring-up is in flight and none was recorded in the last 10,000 ms; without a break the three stay.
CAMERA_LOST is the slot itself (the model's choice, log 11), which the timebase runs on to (log 4), and the break test
comes before the settling of a bring-up (log 36). -/
def Obligations.ChainBreakIsTheLowestLoss : Prop :=
  (∀ (i : Interval) (k : Camera), i.breakAt = some k ↔
    (i.lostNow.get k.idx = true
      ∧ (∀ c : Camera, c.number < k.number → i.lostNow.get c.idx = false)
      ∧ ∀ c : Camera, k.number < c.number → i.counted.get c.idx = true → i.lostNow.get c.idx = true))
  ∧ (∀ (reply : Option (BitVec 14)) (s : State) (i : Interval),
    s.chain.interval = some i → i.slotsLeft.head? = some .rl →
    let j := if (s.cam .rl).thirdMiss (slotResultOf reply) then
      { i with lostNow := i.lostNow.set Camera.rl.idx true } else i
    ∃ t, exec (.slotEnd .rl reply) s = .next t ∧ (s.runTo (i.strobeAt + 2900)).pipeOnly t
      ∧ (j.breakAt = none →
        t.chain.lastBreak = s.chain.lastBreak ∧ t.chain.lastAuto = s.chain.lastAuto
        ∧ (s.chain.phase.inFlight = false → t.chain.phase = s.chain.phase))
      ∧ ∀ k, j.breakAt = some k →
        t.chain.lastBreak = some k ∧ t.bothRaised .chain
        ∧ (s.chain.autoRebuild = true → s.chain.phase.inFlight = false →
          (∀ at0, s.chain.lastAuto = some at0 → at0 + 10000000 ≤ t.now) →
          t.chain.lastAuto = some t.now ∧ t.chain.phase = .bringingUp ∧ t.chain.queue = [chainResetEntry]
          ∧ ∀ c, (t.cam c).state = .unaddressed)
        ∧ (s.chain.autoRebuild = false ∨ s.chain.phase.inFlight = true
            ∨ (∃ at0, s.chain.lastAuto = some at0 ∧ t.now < at0 + 10000000) →
          t.chain.lastAuto = s.chain.lastAuto
          ∧ (s.chain.phase.inFlight = false → t.chain.phase = s.chain.phase)
          ∧ ∀ c, c ≠ .rl → t.cam c = s.cam c))
  ∧ ∀ (c : Camera) (s : State), (s.cam c).state.counted = true → 2 ≤ (s.cam c).missed →
    exec (.cameraLost c) s = exec (.slotEnd c none) s

/-! ### Lanes and capture sets -/

/-- A packet cut by a start marker or run over its length is taken with MARKER, one of a wrong length with LENGTH, one whose
check disagrees with CHECK, and any other is intact, with its address, tag, line number and payload. -/
def Obligations.PacketIsCheckedMarkerLengthCheck : Prop :=
  ∀ bytes : List Byte,
    lineOfPacket .startMarker bytes = .bad .marker bytes ∧ lineOfPacket .overlength bytes = .bad .marker bytes
    ∧ (bytes.length ≠ 2566 → lineOfPacket .endMarker bytes = .bad .length bytes)
    ∧ (bytes.length = 2566 → (crc16 (bytes.take 2564)).toNat ≠ halfAt bytes 2564 →
      lineOfPacket .endMarker bytes = .bad .check bytes)
    ∧ ∀ (a t h l : Byte) (payload : List Byte), bytes.take 2564 = [a, t, h, l] ++ payload → bytes.length = 2566 →
      (crc16 (bytes.take 2564)).toNat = halfAt bytes 2564 →
      lineOfPacket .endMarker bytes = .intact a.toNat t ((h.toNat * 256 + l.toNat) % 1024) payload

/-- PACKET_ARRIVAL: the line joins the buffer while it holds fewer than 2 lines; else it is dropped with OVERRUN and counted
as a line error against the frame filling on the lane. A line report adds 1 to its count of the camera's entry in the
live set its tag names, line errors staying at 65535, and changes nothing else, whatever the entry's status; with no such
set it changes nothing. Lines written and lines repaired run on without a top (the model's choice, log 37). That every
OPEN set has an entry outstanding, and the credit is at most 255, is kept by every step (EveryStepKeepsTablesWithinBounds). -/
def Obligations.PacketJoinsTheBufferOrOverruns : Prop :=
  (∀ (c : Camera) (how : PacketEnd) (bytes : List Byte) (s : State),
    ((s.lane c).buffer.length < 2 →
      exec (.packetArrival c how bytes) s = .next
        { s with
          lanes := s.lanes.set c.idx { s.lane c with buffer := (s.lane c).buffer ++ [lineOfPacket how bytes] } })
    ∧ (2 ≤ (s.lane c).buffer.length →
      exec (.packetArrival c how bytes) s = .next
        { s with
          lanes := s.lanes.set c.idx
            { s.lane c with
              totals := { (s.lane c).totals with overrun := min 65535 ((s.lane c).totals.overrun + 1) } }
          capture := match (s.lane c).frame with
            | some f => s.capture.report c f.tag .error
            | none => s.capture }))
  ∧ ∀ (x : Capture) (c : Camera) (tag : Tag) (kind : LineReport), x.credit ≤ 255 →
    (∀ st ∈ x.sets, st.state = .opened → ∃ d : Camera, (st.entries.get d.idx).status.outstanding = true) →
    x.report c tag kind =
      { x with
        sets := x.sets.map (fun st =>
          if st.tag = tag then
            let e := st.entries.get c.idx
            { st with
              entries := st.entries.set c.idx
                (match kind with
                  | .written => { e with written := e.written + 1 }
                  | .repaired => { e with repaired := e.repaired + 1 }
                  | .error => { e with errors := min 65535 (e.errors + 1) }) }
          else st) }

/-- LINE_CONSUME of a line that is not written: one taken with an error is counted in its kind and against the frame
filling; a misaddressed one is MISWIRED; one of a camera that is not STREAMING, or of a tag with no frame and no live set,
is STRAY; one of a line number above 959, of the closed tag, or before the next expected line of the frame filling is
ORDER. It leaves the buffer. -/
def Obligations.UnusableLineIsCountedAndDropped : Prop :=
  ∀ (c : Camera) (s : State) (rest : List Line), (s.lane c).busy = none →
    (∀ (e : LineError) (bytes : List Byte), (s.lane c).buffer = .bad e bytes :: rest →
      exec (.lineConsume c) s = .next
        { s with
          lanes := s.lanes.set c.idx { s.lane c with buffer := rest, totals := (s.lane c).totals.add e.total }
          capture := match (s.lane c).frame with
            | some f => s.capture.report c f.tag .error
            | none => s.capture })
    ∧ ∀ (a : Nat) (t : Tag) (n : Nat) (payload : List Byte), (s.lane c).buffer = .intact a t n payload :: rest →
      (a ≠ c.number →
        exec (.lineConsume c) s = .next
          { s with
            lanes := s.lanes.set c.idx { s.lane c with buffer := rest, totals := (s.lane c).totals.add .miswired } })
      ∧ (a = c.number → (s.cam c).state ≠ .streaming →
        exec (.lineConsume c) s = .next
          { s with
            lanes := s.lanes.set c.idx { s.lane c with buffer := rest, totals := (s.lane c).totals.add .stray } })
      ∧ (a = c.number → (s.cam c).state = .streaming →
        959 < n ∨ (s.lane c).closedTag = some t
          ∨ (∃ f, (s.lane c).frame = some f ∧ f.tag = t ∧ n < f.nextLine) →
        exec (.lineConsume c) s = .next
          { s with
            lanes := s.lanes.set c.idx { s.lane c with buffer := rest, totals := (s.lane c).totals.add .order } })
      ∧ (a = c.number → (s.cam c).state = .streaming → n ≤ 959 → (s.lane c).closedTag ≠ some t →
        (s.lane c).frame.map FrameProgress.tag ≠ some t → s.capture.find t = none →
        exec (.lineConsume c) s = .next
          { s with
            lanes := s.lanes.set c.idx { s.lane c with buffer := rest, totals := (s.lane c).totals.add .stray } })

/-- LINE_CONSUME of a line of the frame filling at or beyond the next expected line: the lane is busy with the repairs of
the gap, none for the next line itself, and one write of the line at its position of the frame's slot. Of a tag with a
live set and no frame: the tail of a frame filling is taken as missing lines, and while it has repairs the lane is busy
with them, the frame still filling its slot. With none, and at the LINE_CONSUME after the last (the model's choice,
log 17), that frame is finalised, and a new one starts in the slot chosen, its missing lines before this one leaving
it torn.
The slot chosen is the lowest FREE one, else the oldest HELD one that no set and no last-good mark needs, else the
oldest HELD one, none of them pinned; its old frame's entry becomes OVERWRITTEN and its last-good record NONE, and an
AWAITED entry of the new tag becomes ARRIVING. The Arbiter grants at once where it is FREE. -/
def Obligations.NextLineIsWrittenToItsSlot : Prop :=
  let begun := fun (s : State) (c : Camera) (old : Option FrameProgress) (tag : Tag) (n : Nat) (payload : List Byte) =>
    let cap := match old with
      | none => s.capture
      | some f => s.capture.finalised c f.slot f.tag
        (if f.torn then .torn else if f.repaired = 0 then .complete else .repaired f.repaired)
    ({ s with
      capture := (cap.newFrame c tag).2
      lanes := s.lanes.set c.idx
        { s.lane c with
          closedTag := match old with
            | none => (s.lane c).closedTag
            | some f => some f.tag
          retained := (s.lane c).retained.map (fun r => { r with ofFrame := false })
          frame := some
            { slot := (cap.newFrame c tag).1, tag := tag, nextLine := n, limit := s.capture.timing.repair
              repaired := 0, torn := decide (0 < n), deadline := s.now + 2 * s.capture.timing.period * 1000 }
          busy := some
            { kind := .line n payload
              writes := [{ slot := (cap.newFrame c tag).1, line := n, data := payload, kind := .own }]
              granted := 0, ownDone := false } } } : State).grant
  (∀ (c : Camera) (s : State) (rest : List Line) (tag : Tag) (n : Nat) (payload : List Byte),
    (s.lane c).busy = none → (s.lane c).buffer = .intact c.number tag n payload :: rest →
    (s.cam c).state = .streaming → n ≤ 959 → (s.lane c).closedTag ≠ some tag →
    (∀ f : FrameProgress, (s.lane c).frame = some f → f.tag = tag → f.nextLine ≤ n →
      let gap := f.gap (s.lane c).retained f.nextLine (n - f.nextLine)
      (f.nextLine = n → gap = (f, []))
      ∧ exec (.lineConsume c) s = .next
        ({ s with
          lanes := s.lanes.set c.idx
            { s.lane c with
              frame := some { gap.1 with nextLine := n }
              busy := some
                { kind := .line n payload
                  writes := gap.2 ++ [{ slot := f.slot, line := n, data := payload, kind := .own }]
                  granted := 0, ownDone := false } } } : State).grant)
    ∧ ((s.lane c).frame.map FrameProgress.tag ≠ some tag → s.capture.find tag ≠ none →
      ((s.lane c).frame = none → exec (.lineConsume c) s = .next (begun s c none tag n payload))
      ∧ ∀ f : FrameProgress, (s.lane c).frame = some f →
        let gap := f.gap (s.lane c).retained f.nextLine (960 - f.nextLine)
        (gap.2 = [] → exec (.lineConsume c) s = .next (begun s c (some gap.1) tag n payload))
        ∧ (gap.2 ≠ [] → exec (.lineConsume c) s = .next
          ({ s with
            lanes := s.lanes.set c.idx
              { s.lane c with
                frame := some { gap.1 with nextLine := 960 }
                busy := some { kind := .tail tag n payload, writes := gap.2, granted := 0, ownDone := false } } } :
            State).grant)))
  ∧ (∀ (c : Camera) (s : State) (tag : Tag) (n : Nat) (payload : List Byte) (g : Nat) (o : Bool),
    (s.lane c).busy = some { kind := .tail tag n payload, writes := [], granted := g, ownDone := o } →
    exec (.lineConsume c) s = .next (begun s c (s.lane c).frame tag n payload))
  ∧ ∀ (x : Capture) (c : Camera),
    let free := fun k => (x.slot c k).pinned = false ∧ (x.slot c k).hold = .free
    let held := fun k => (x.slot c k).pinned = false ∧ (x.slot c k).isHeld = true
    let unneeded := fun k => held k ∧ x.member c k = false ∧ x.lastGood c k = false
    (∀ k, free k → (∀ j, j < k → ¬free j) → x.choose c = k)
    ∧ (∀ before k after, (∀ j, ¬free j) → x.fillOrder.get c.idx = before ++ k :: after →
      (unneeded k → (∀ j ∈ before, ¬unneeded j) → x.choose c = k)
      ∧ (held k → (∀ j ∈ before, ¬held j) → (∀ j ∈ x.fillOrder.get c.idx, ¬unneeded j) → x.choose c = k))
    ∧ ∀ tag : Tag,
      let k := x.choose c
      let y := (x.newFrame c tag).2
      (x.newFrame c tag).1 = k ∧ y.slot c k = { x.slot c k with hold := .filling tag }
      ∧ (∀ d j, d ≠ c ∨ j ≠ k → y.slot d j = x.slot d j)
      ∧ y.fillOrder = x.fillOrder.set c.idx ((x.fillOrder.get c.idx).filter (fun j => j ≠ k) ++ [k])
      ∧ y.fresh = (if x.lastGood c k then x.fresh.set c.idx none else x.fresh)
      ∧ y.timing = x.timing ∧ y.pendingTiming = x.pendingTiming ∧ y.drops = x.drops
      ∧ y.sets.map CaptureSet.tag = x.sets.map CaptureSet.tag
      ∧ ∀ (j : Nat) (st : CaptureSet), x.sets[j]? = some st → ∃ u : CaptureSet, y.sets[j]? = some u
        ∧ (∀ d, d ≠ c → u.entries.get (Camera.idx d) = st.entries.get (Camera.idx d))
        ∧ u.entries.get c.idx =
          (if (x.slot c k).isHeld ∧ (st.entries.get c.idx).status.slot? = some k then
            { st.entries.get c.idx with status := .overwritten }
          else if st.tag = tag ∧ (st.entries.get c.idx).status = .awaited then
            { st.entries.get c.idx with status := .arriving k }
          else st.entries.get c.idx)

/-- A gap of missing lines in a frame that is not torn, with a retained copy of the frame: as many repairs as the repair
limit leaves, at most one for each line, each the retained payload at its line; the frame is torn where they fall short,
and its repaired lines stay, each repair being counted when its write completes (the model's choice, log 17). Without
such a copy the frame is torn and nothing is written. A torn frame takes no repair, and no missing line changes nothing. -/
def Obligations.GapIsRepairedUpToTheLimit : Prop :=
  ∀ (f : FrameProgress) (e count : Nat),
    (∀ copy : Option Retained, f.torn = true ∨ count = 0 → f.gap copy e count = (f, []))
    ∧ (f.torn = false → 0 < count →
      (∀ m : Retained, m.ofFrame = true →
        f.gap (some m) e count =
          ({ f with torn := decide (f.limit - f.repaired < count) },
            (List.range (min count (f.limit - f.repaired))).map (fun j =>
              { slot := f.slot, line := e + j, data := m.payload, kind := .repair })))
      ∧ (∀ m : Retained, m.ofFrame = false → f.gap (some m) e count = ({ f with torn := true }, []))
      ∧ f.gap none e count = ({ f with torn := true }, []))

/-- LINE_WRITE_COMPLETE: the line leaves the buffer, is counted as written, becomes the retained copy and moves the next
expected line and the abandon deadline on; at line 959 the frame is finalised as well. -/
def Obligations.WrittenLineMovesTheFrameOn : Prop :=
  ∀ (c : Camera) (s : State) (f : FrameProgress) (n : Nat) (payload : List Byte) (ws : List LineWrite) (g : Nat),
    (s.lane c).busy = some { kind := .line n payload, writes := ws, granted := g, ownDone := true } →
    (s.lane c).frame = some f →
    (n ≠ 959 →
      exec (.lineWriteComplete c) s = .next
        { s with
          capture := s.capture.report c f.tag .written
          lanes := s.lanes.set c.idx
            { s.lane c with
              busy := none
              buffer := (s.lane c).buffer.tail
              retained := some { number := n, payload := payload, ofFrame := true }
              frame := some
                { f with nextLine := n + 1, deadline := s.now + 2 * s.capture.timing.period * 1000 } } })
    ∧ (n = 959 →
      ∃ t q, exec (.lineWriteComplete c) s = .next t ∧ s.pipeOnly t
        ∧ (t.lane c).busy = none ∧ (t.lane c).buffer = (s.lane c).buffer.tail ∧ (t.lane c).frame = none
        ∧ (t.lane c).closedTag = some f.tag
        ∧ t.capture = (s.capture.report c f.tag .written).finalised c f.slot f.tag q
        ∧ q = (if f.torn then .torn else if f.repaired = 0 then .complete else .repaired f.repaired)
        ∧ ∀ d, d ≠ c → t.lane d = s.lane d)

/-- FRAME_ABANDON of a lane that is READY: the rest of the frame is taken as missing lines, its repairs are to be
written, and the next expected line is 960. ABANDON_REPAIRS_COMPLETE: the lane is READY and the frame is finalised
with its quality and the closed tag. A finalisation makes its slot HELD, and a frame that is not torn the camera's
last-good; the entry of the frame's tag that is ARRIVING in that slot becomes PRESENT, or TORN for a torn frame, every
other entry stays, a LATE one too, and an OPEN set with none outstanding then closes COMPLETE with credit, 255 at most.
That the repairs of an abandon are counted when their writes complete is the model's choice (log 17), and so is that
the timebase runs on to the deadline (log 4). -/
def Obligations.AbandonedFrameIsRepairedAndFinalised : Prop :=
  (∀ (c : Camera) (s : State) (f : FrameProgress), (s.lane c).frame = some f →
    ((s.lane c).busy = none →
      exec (.frameAbandon c) s = .next
        (({ s.runTo f.deadline with
          lanes := s.lanes.set c.idx
            { s.lane c with
              frame := some
                { (f.gap (s.lane c).retained f.nextLine (960 - f.nextLine)).1 with nextLine := 960 }
              busy := some
                { kind := .abandon
                  writes := (f.gap (s.lane c).retained f.nextLine (960 - f.nextLine)).2
                  granted := 0, ownDone := false } } } : State).grant))
    ∧ ∀ (g : Nat) (o : Bool),
      (s.lane c).busy = some { kind := .abandon, writes := [], granted := g, ownDone := o } →
      ∃ t q, exec (.abandonRepairsComplete c) s = .next t ∧ s.pipeOnly t ∧ t.chain = s.chain ∧ t.arb = s.arb
        ∧ (t.lane c).busy = none ∧ (t.lane c).frame = none ∧ (t.lane c).closedTag = some f.tag
        ∧ (t.lane c).buffer = (s.lane c).buffer ∧ (∀ d, d ≠ c → t.lane d = s.lane d)
        ∧ t.capture = s.capture.finalised c f.slot f.tag q
        ∧ q = (if f.torn then .torn else if f.repaired = 0 then .complete else .repaired f.repaired)
        ∧ (t.capture.slot c f.slot).hold = .held f.tag q
        ∧ (q ≠ .torn → t.capture.fresh.get c.idx = some (f.slot, f.tag))
        ∧ (q = .torn → t.capture.fresh = s.capture.fresh))
  ∧ ∀ (x : Capture) (c : Camera) (k : SlotNo) (tag : Tag) (q : Quality),
    let hit := fun st : CaptureSet => decide (st.tag = tag ∧ (st.entries.get c.idx).status = .arriving k)
    let closes := fun st : CaptureSet => hit st && decide (st.state = .opened)
      && Camera.all.all (fun d => decide (d = c) || !(st.entries.get d.idx).status.outstanding)
    x.finalised c k tag q =
      { x with
        slots := x.slots.set c.idx ((x.slots.get c.idx).set k { x.slot c k with hold := .held tag q })
        fresh := if q = .torn then x.fresh else x.fresh.set c.idx (some (k, tag))
        sets := x.sets.map (fun st =>
          if hit st then
            { st with
              entries := st.entries.set c.idx
                { st.entries.get c.idx with status := if q = .torn then .torn k else .present k }
              state := if closes st then .closed else st.state
              closure := if closes st then some .complete else st.closure }
          else st)
        credit := min 255 (x.credit + x.sets.countP closes) }

/-- A camera that leaves STREAMING: its lane is READY with no frame filling, the line it was consuming leaves the buffer,
and its burst in flight is withdrawn; the frame filling is HELD and TORN, and the entry ARRIVING with it becomes TORN;
and in each OPEN set its AWAITED entry becomes MISSING. The other entries stay, and an OPEN set changed so closes
COMPLETE, with credit, 255 at most, where none is outstanding then. -/
def Obligations.DepartureEndsTheFilling : Prop :=
  ∀ (c : Camera) (s : State),
    let t := s.leaveStreaming c
    (t.lane c).busy = none ∧ (t.lane c).frame = none ∧ (∀ d, d ≠ c → t.lane d = s.lane d)
    ∧ ((s.lane c).busy = none → t.arb = s.arb ∧ (t.lane c).buffer = (s.lane c).buffer)
    ∧ (∀ b, (s.lane c).busy = some b →
      (∀ addr data w, s.arb.inFlight = some (.lane c addr data w) →
        t.arb = { s.arb with inFlight := some (.lane c addr data true) })
      ∧ ((∀ addr data w, s.arb.inFlight ≠ some (.lane c addr data w)) → t.arb = s.arb)
      ∧ (∀ tag n payload, b.kind = .line n payload ∨ b.kind = .tail tag n payload →
        (t.lane c).buffer = (s.lane c).buffer.tail)
      ∧ (b.kind = .abandon → (t.lane c).buffer = (s.lane c).buffer))
    ∧ (∀ f, (s.lane c).frame = some f →
      (t.capture.slot c f.slot).hold = .held f.tag .torn ∧ (t.lane c).closedTag = some f.tag)
    ∧ t.capture.sets.length = s.capture.sets.length
    ∧ (∀ (j : Nat) (st : CaptureSet), s.capture.sets[j]? = some st → st.state = .opened →
      (st.entries.get c.idx).status = .awaited →
      ∃ u : CaptureSet, t.capture.sets[j]? = some u ∧ u.tag = st.tag
        ∧ u.entries = st.entries.set c.idx { st.entries.get c.idx with status := .missing }
        ∧ ((∀ d : Camera, (u.entries.get d.idx).status.outstanding = false) →
          u.state = .closed ∧ u.closure = some .complete)
        ∧ ((∃ d : Camera, (u.entries.get d.idx).status.outstanding = true) → u.state = .opened))
    ∧ (∀ (f : FrameProgress) (j : Nat) (st : CaptureSet), (s.lane c).frame = some f → s.capture.sets[j]? = some st →
      st.tag = f.tag → (st.entries.get c.idx).status = .arriving f.slot →
      ∃ u : CaptureSet, t.capture.sets[j]? = some u ∧ u.tag = st.tag
        ∧ u.entries = st.entries.set c.idx { st.entries.get c.idx with status := .torn f.slot }
        ∧ (st.state = .opened → (∀ d : Camera, (u.entries.get d.idx).status.outstanding = false) →
          u.state = .closed ∧ u.closure = some .complete)
        ∧ (st.state ≠ .opened ∨ (∃ d : Camera, (u.entries.get d.idx).status.outstanding = true) →
          u.state = st.state ∧ u.closure = st.closure))
    ∧ t.capture = (match (s.lane c).frame with
      | none => s.capture
      | some f => s.capture.finalised c f.slot f.tag .torn).departure c
    ∧ (∀ x : Capture,
      let hit := fun st : CaptureSet => decide (st.state = .opened ∧ (st.entries.get c.idx).status = .awaited)
      let closes := fun st : CaptureSet =>
        hit st && Camera.all.all (fun d => decide (d = c) || !(st.entries.get d.idx).status.outstanding)
      x.departure c =
        { x with
          sets := x.sets.map (fun st =>
            if hit st then
              { st with
                entries := st.entries.set c.idx { st.entries.get c.idx with status := .missing }
                state := if closes st then .closed else st.state
                closure := if closes st then some .complete else st.closure }
            else st)
          credit := min 255 (x.credit + x.sets.countP closes) })
    ∧ s.pipeOnly t

/-- WINDOW_EXPIRY of an OPEN set: it closes WINDOW, its AWAITED entries become MISSING and its ARRIVING ones LATE,
and the credit rises by 1 up to 255. The timebase runs on to the deadline (the model's choice, log 4). -/
def Obligations.WindowExpiryClosesTheSet : Prop :=
  ∀ (tag : Tag) (s : State) (st : CaptureSet), s.capture.find tag = some st → st.state = .opened →
    ∃ t, exec (.windowExpiry tag) s = .next t
      ∧ t = { s.runTo st.deadline with capture := t.capture }
      ∧ t.capture.credit = min 255 (s.capture.credit + 1) ∧ t.capture.slots = s.capture.slots
      ∧ t.capture.sets.length = s.capture.sets.length
      ∧ ∃ u, t.capture.find tag = some u ∧ u.state = .closed ∧ u.closure = some .window ∧ u.openAt = st.openAt
        ∧ ∀ c : Camera, (u.entries.get c.idx).status =
          match (st.entries.get c.idx).status with
          | .awaited => .missing
          | .arriving k => .late k
          | x => x


/-! ### Settings -/

/-- CHAIN_SET, TIMING_SET, BALANCE_SET, OUTPUT_SET, RATE_CAP and POWER_SET replace their settings and answer OK while every
operand is in its range; with one out of range they are refused RANGE and change nothing. -/
def Obligations.SettingRequestsReplaceTheirSettings : Prop :=
  ∀ (p : Port) (s : State) (r : Request) (rest : List Request),
    (s.Ready p .chainSet r rest →
      (byteAt r.payload 0 ≤ 1 →
        exec (.chainSet p) s = .next
          (({ s with chain := { s.chain with autoRebuild := decide (byteAt r.payload 0 = 1) } } : State).replied
            p r rest .ok []))
      ∧ (1 < byteAt r.payload 0 → exec (.chainSet p) s = .next (s.replied p r rest .range [])))
    ∧ (s.Ready p .timingSet r rest → ∀ a b c d : Byte, r.payload = [a, b, c, d] →
      (20 ≤ a.toNat ∧ a.toNat ≤ 100 ∧ 5 ≤ b.toNat ∧ b.toNat ≤ a.toNat ∧ c.toNat ≤ 7 ∧ d.toNat ≤ 15 →
        exec (.timingSet p) s = .next
          (({ s with
            capture := { s.capture with
              pendingTiming := some
                { period := a.toNat, window := b.toNat, stale := c.toNat, repair := d.toNat } } } : State).replied
            p r rest .ok []))
      ∧ (¬(20 ≤ a.toNat ∧ a.toNat ≤ 100 ∧ 5 ≤ b.toNat ∧ b.toNat ≤ a.toNat ∧ c.toNat ≤ 7 ∧ d.toNat ≤ 15) →
        exec (.timingSet p) s = .next (s.replied p r rest .range [])))
    ∧ (s.Ready p .balanceSet r rest →
      (∀ c : Camera, byteAt r.payload 0 ≤ 1 → byteAt r.payload 1 = c.number →
        1 ≤ byteAt r.payload 2 → byteAt r.payload 2 ≤ 16 →
        exec (.balanceSet p) s = .next
          (({ s with
            balance := { s.balance with
              enable := decide (byteAt r.payload 0 = 1), anchor := c, step := byteAt r.payload 2
              gains :=
                if byteAt r.payload 0 = 0 then Quad.all 256
                else if c = s.balance.anchor then s.balance.gains else s.balance.gains.set c.idx 256 } } : State).replied
            p r rest .ok []))
      ∧ (1 < byteAt r.payload 0 ∨ byteAt r.payload 1 = 0 ∨ 4 < byteAt r.payload 1
          ∨ byteAt r.payload 2 = 0 ∨ 16 < byteAt r.payload 2 →
        exec (.balanceSet p) s = .next (s.replied p r rest .range [])))
    ∧ (s.Ready p .outputSet r rest →
      (15 ≤ byteAt r.payload 0 → byteAt r.payload 0 ≤ 40 →
        exec (.outputSet p) s = .next
          (({ s with view := { s.view with pendingInterval := some (byteAt r.payload 0) } } : State).replied
            p r rest .ok []))
      ∧ (byteAt r.payload 0 < 15 ∨ 40 < byteAt r.payload 0 →
        exec (.outputSet p) s = .next (s.replied p r rest .range [])))
    ∧ (s.Ready p .rateCap r rest →
      (1 ≤ byteAt r.payload 0 → byteAt r.payload 0 ≤ 4 →
        exec (.rateCap p) s = .next
          (({ s with power := { s.power with rateCap := byteAt r.payload 0 } } : State).replied p r rest .ok []))
      ∧ (byteAt r.payload 0 = 0 ∨ 4 < byteAt r.payload 0 →
        exec (.rateCap p) s = .next (s.replied p r rest .range [])))
    ∧ (s.Ready p .powerSet r rest →
      (halfAt r.payload 0 = 0 ∨ (10 ≤ halfAt r.payload 0 ∧ halfAt r.payload 0 ≤ 600) →
        byteAt r.payload 2 ≤ 1 → byteAt r.payload 3 ≤ 1 →
        exec (.powerSet p) s = .next
          (({ s with
            power := { s.power with
              idleTimeout := halfAt r.payload 0
              lineWake := decide (byteAt r.payload 2 = 1)
              claimWake := decide (byteAt r.payload 3 = 1) } } : State).replied p r rest .ok []))
      ∧ ((0 < halfAt r.payload 0 ∧ halfAt r.payload 0 < 10) ∨ 600 < halfAt r.payload 0
          ∨ 1 < byteAt r.payload 2 ∨ 1 < byteAt r.payload 3 →
        exec (.powerSet p) s = .next (s.replied p r rest .range [])))

/-! ### Plans and the mesh pool -/

/-- PLAN_OPEN, by the checks of R81 in their order: an accepted one makes the plan LOADING for the port, with
nothing written and its run at the lowest gap that fits, and answers the run's base and length. Where the runs of the
other plans lie within the pool, that is the lowest range of records free of them, the plan's own run counting as free,
and there is none exactly when no range is free. Every PLAN request of the opening port renews the request time (the
model's reading, log 19). -/
def Obligations.PlanOpenLoadsOrRefuses : Prop :=
  (∀ (p : Port) (s : State) (r : Request) (rest : List Request) (id : PlanId), s.Ready p .planOpen r rest →
    planOf r.payload = some id →
    let u := s.touchPlan p r.payload
    let n := (headerOf r.payload).meshCount
    (n = 0 ∨ 750 < n → exec (.planOpen p) s = .next (u.replied p r rest .range []))
    ∧ (1 ≤ n → n ≤ 750 → (s.plan id).hold.isVerifying = true →
      exec (.planOpen p) s = .next (u.replied p r rest .state []))
    ∧ (∀ c t, 1 ≤ n → n ≤ 750 → (s.plan id).hold = .loading c t false → c.opener ≠ p →
      exec (.planOpen p) s = .next (u.replied p r rest .owner []))
    ∧ (∀ c, 1 ≤ n → n ≤ 750 → (s.plan id).hold = .verified c → (s.plan id).refs.referenced = true →
      exec (.planOpen p) s = .next (u.replied p r rest .inUse []))
    ∧ (1 ≤ n → n ≤ 750 → (s.plan id).hold.isVerifying = false → (u.plan id).hold.ownedByOther p = false →
      (s.plan id).refs.referenced = false →
      (s.plans.placeRun id n = none → exec (.planOpen p) s = .next (u.replied p r rest .noSpace []))
      ∧ ∀ base, s.plans.placeRun id n = some base →
        exec (.planOpen p) s = .next
          ((s.setHold id
            (.loading
              { header := headerOf r.payload, tiles := List.replicate 375 none, meshWritten := List.replicate n false
                opener := p, base := base } s.now false)).replied p r rest .ok (be2 base ++ be2 n))))
  ∧ ∀ (x : Plans) (id : PlanId) (n : Nat), 1 ≤ n →
    (∀ j r, j ≠ id → x.runOf j = some r → 1 ≤ r.len ∧ r.base + r.len ≤ 2048) →
    let free := fun base => base + n ≤ 2048
      ∧ ∀ j r, j ≠ id → x.runOf j = some r → base + n ≤ r.base ∨ r.base + r.len ≤ base
    (∀ base, x.placeRun id n = some base ↔ free base ∧ ∀ b, b < base → ¬free b)
    ∧ (x.placeRun id n = none ↔ ∀ b, ¬free b)

/-- PLAN_TILES writes its entries into consecutive tiles of the port's LOADING plan and answers how many tiles are written;
PLAN_DISCARD empties a plan that is not EMPTY, VERIFYING, owned by the other port or referenced, and is refused IN_USE for a
referenced one. A tile entry of six bytes holds
class, ramp, cameras and mesh indices, its other bits discarded. -/
def Obligations.TilesAreWrittenAndPlansDiscarded : Prop :=
  (∀ (p : Port) (s : State) (r : Request) (rest : List Request) (id : PlanId), planOf r.payload = some id →
    (s.Ready p .planTiles r rest → ∀ (c : PlanContent) (at0 : Nat) (ab : Bool),
      (s.plan id).hold = .loading c at0 ab → c.tiles.length = 375 →
      r.payload.length = 4 + 6 * byteAt r.payload 3 → 1 ≤ byteAt r.payload 3 → byteAt r.payload 3 ≤ 16 →
      halfAt r.payload 1 + byteAt r.payload 3 ≤ 375 →
      (c.opener ≠ p → exec (.planTiles p) s = .next (s.replied p r rest .owner []))
      ∧ (c.opener = p → ∃ tiles,
        exec (.planTiles p) s = .next
          ((s.setHold id (.loading { c with tiles := tiles } s.now false)).replied p r rest .ok
            (be2 (tiles.countP Option.isSome)))
        ∧ (∀ j, j < byteAt r.payload 3 →
          tiles[halfAt r.payload 1 + j]? = some (some (tileOfBytes ((r.payload.drop (4 + 6 * j)).take 6))))
        ∧ ∀ k, k < halfAt r.payload 1 ∨ halfAt r.payload 1 + byteAt r.payload 3 ≤ k → tiles[k]? = c.tiles[k]?))
    ∧ (s.Ready p .planDiscard r rest →
      (∀ c, (s.plan id).hold = .verified c → (s.plan id).refs.referenced = true →
        exec (.planDiscard p) s = .next (s.replied p r rest .inUse []))
      ∧ ((s.plan id).hold ≠ .empty → (s.plan id).hold.isVerifying = false →
        ((s.touchPlan p r.payload).plan id).hold.ownedByOther p = false → (s.plan id).refs.referenced = false →
        exec (.planDiscard p) s = .next ((s.setHold id .empty).replied p r rest .ok []))))
  ∧ ∀ (b0 b1 b2 b3 b4 b5 : Byte),
    let e := tileOfBytes [b0, b1, b2, b3, b4, b5]
    e.cls.toNat = b0.toNat % 8 ∧ e.ramp.toNat = b0.toNat / 16 % 8
    ∧ e.primCam.toNat = b1.toNat % 8 ∧ e.secCam.toNat = b1.toNat / 16 % 8
    ∧ e.primMesh.toNat = (b2.toNat * 256 + b3.toNat) % 1024 ∧ e.secMesh.toNat = (b4.toNat * 256 + b5.toNat) % 1024

/-- PLAN_MESHES hands its records to the pool requester, each a write at its place of the plan's run, and stays in
execution; PLAN_READ answers the plan's state (part 0) and tiles (part 1) at once, field by field, and hands the reads of
its meshes (part 2), with their written marks as they stand, to the pool requester and stays in execution. That the
request stays in execution is the model's choice (log 15), and so are taking the marks at that moment (log 43), reading
before renewing (log 34), what an unwritten tile reads as (log 20) and the rounding of the
time since the opening port's last request (log 38). -/
def Obligations.MeshesPassThroughThePool : Prop :=
  ∀ (p : Port) (s : State) (r : Request) (rest : List Request) (id : PlanId), planOf r.payload = some id →
    let u := s.touchPlan p r.payload
    (s.Ready p .planMeshes r rest → ∀ (c : PlanContent) (at0 : Nat) (ab : Bool),
      (s.plan id).hold = .loading c at0 ab → c.opener = p →
      r.payload.length = 4 + 36 * byteAt r.payload 3 → 1 ≤ byteAt r.payload 3 → byteAt r.payload 3 ≤ 6 →
      halfAt r.payload 1 + byteAt r.payload 3 ≤ c.header.meshCount →
      exec (.planMeshes p) s = .next
        (({ u.taken p r rest with
          arb := { s.arb with
            pool := s.arb.pool ++
              [{ owner := .meshes p id
                 left := (List.range (byteAt r.payload 3)).map (fun j =>
                   .write (c.base + halfAt r.payload 1 + j) (halfAt r.payload 1 + j)
                     ((r.payload.drop (4 + 36 * j)).take 36)) }] } } : State).grant))
    ∧ (s.Ready p .planRead r rest →
      (byteAt r.payload 1 = 0 →
        let x := s.plan id
        exec (.planRead p) s = .next (u.replied p r rest .ok
          ([byte x.hold.value]
            ++ (match x.hold.content with
              | none => List.replicate 19 0 ++ [0xFF]
              | some c =>
                [1] ++ be2 c.header.label.toNat ++ [c.header.body.y, c.header.body.u, c.header.body.v]
                  ++ [c.header.void.y, c.header.void.u, c.header.void.v]
                  ++ Camera.all.flatMap (fun d => be2 (c.header.stamps.get d.idx).toNat) ++ be2 c.header.meshCount
                  ++ [byte (Port.value c.opener)])
            ++ (match x.hold with
              | .loading c _ _ | .verifying c =>
                be2 (c.tiles.countP Option.isSome) ++ be2 (c.meshWritten.countP (fun w => w))
              | _ => List.replicate 4 0xFF)
            ++ (match x.hold with
              | .loading _ at0 ab => mark ab ++ be4 ((s.now - at0) / 1000)
              | _ => List.replicate 5 0xFF)
            ++ (match x.hold.content with
              | some c => be2 c.base ++ be2 c.header.meshCount
              | none => List.replicate 4 0xFF)
            ++ (match x.hold with
              | .rejected _ q => [byte q.reason.value] ++ be2 (q.tile.getD 0xFFFF) ++ be2 (q.mesh.getD 0xFFFF)
              | _ => List.replicate 5 0xFF)
            ++ [byte x.refs.leases] ++ mark x.refs.fallback ++ mark x.refs.reverse ++ mark x.refs.pinned)))
      ∧ (∀ c, byteAt r.payload 1 = 1 → (s.plan id).hold.content = some c → 1 ≤ byteAt r.payload 4 →
        byteAt r.payload 4 ≤ 16 → halfAt r.payload 2 + byteAt r.payload 4 ≤ 375 →
        exec (.planRead p) s = .next
          (u.replied p r rest .ok
            (((c.tiles.drop (halfAt r.payload 2)).take (byteAt r.payload 4)).flatMap (fun e => match e with
              | some e =>
                [byte (e.cls.toNat + 16 * e.ramp.toNat), byte (e.primCam.toNat + 16 * e.secCam.toNat)]
                  ++ be2 e.primMesh.toNat ++ be2 e.secMesh.toNat ++ [1]
              | none => List.replicate 6 0xFF ++ [0]))))
      ∧ ∀ c, byteAt r.payload 1 = 2 → (s.plan id).hold.content = some c → 1 ≤ byteAt r.payload 4 →
        byteAt r.payload 4 ≤ 6 → halfAt r.payload 2 + byteAt r.payload 4 ≤ c.header.meshCount →
        exec (.planRead p) s = .next
          (({ u.taken p r rest with
            arb := { s.arb with
              pool := s.arb.pool ++
                [{ owner := .read p
                     ((List.range' (halfAt r.payload 2) (byteAt r.payload 4)).map (fun i =>
                       (s.plan id).hold.isVerified || decide (c.meshWritten[i]? = some true))) []
                   left := (List.range' (halfAt r.payload 2) (byteAt r.payload 4)).map (fun i =>
                     .read (c.base + i)) }] } } : State).grant))

/-- PLAN_VERIFY of the port's LOADING plan makes it VERIFYING and walks its tiles, or is refused BUSY while another
walk is in flight; a plan whose tile 0 is unwritten is REJECTED at once. VERIFY_MESH_READ takes the walk on with the
record read. The walk visits the tiles in order and applies to each, in order, the checks UNWRITTEN, CLASS, CAMERA,
SAME_CAMERA, MESH_INDEX, MESH_RANGE and SPREAD, primary before secondary, a mesh that has passed passing again; then
each mesh of the run that no tile referenced is checked for MESH_RANGE alone. The first that fails makes the plan
REJECTED, and the end of the run makes it VERIFIED; the end of a walk is answered and raises PLAN on the opening port.
Nine points in the legal range pass MESH_RANGE, and a fetch box of at most 128 by 96 pixels passes SPREAD. A walk that
needs no read ends in its PLAN_VERIFY (the model's choice, log 16). -/
def Obligations.VerificationWalksToItsVerdict : Prop :=
  (∀ (p : Port) (s : State) (r : Request) (rest : List Request) (id : PlanId) (c : PlanContent) (at0 : Nat) (ab : Bool),
    s.Ready p .planVerify r rest → planOf r.payload = some id → (s.plan id).hold = .loading c at0 ab → c.opener = p →
    (s.plans.walk.isSome = true →
      exec (.planVerify p) s = .next ((s.touchPlan p r.payload).replied p r rest .busy []))
    ∧ (s.plans.walk = none →
      exec (.planVerify p) s = .next
        (((s.taken p r rest).setHold id (.verifying c)).walkOn id c [] (c.tilesFrom [] 0)))
    ∧ (s.plans.walk = none → c.tiles.head? = some none →
      ∃ t, exec (.planVerify p) s = .next t
        ∧ t.plans.walk = none ∧ (t.plan id).hold = .rejected c { reason := .unwritten, tile := some 0, mesh := none }
        ∧ (t.ports.get p).executing = none
        ∧ (t.ports.get p).answers = (s.ports.get p).answers ++
          [{ seq := r.seq, code := r.code, outcome := .ok, payload := [1, 0, 0, 0, 0xFF, 0xFF] }]
        ∧ (t.ports.get p).raised &&& NoticeKind.plan.mask ≠ 0))
  ∧ (∀ (s : State) (id : PlanId) (place : WalkAt) (passed : List Nat) (rec : List Byte) (c : PlanContent),
    s.plans.walk = some { plan := id, place := place, passed := passed, record := some rec } →
    (s.plan id).hold = .verifying c →
    exec .verifyMeshRead s = .next
      (s.walkOn id c (walkResume c place passed rec).1 (walkResume c place passed rec).2)
    ∧ (∀ m, place = .mesh m → m + 1 = c.header.meshCount → meshInRange rec = true →
      ∃ t, exec .verifyMeshRead s = .next t ∧ (t.plan id).hold = .verified c ∧ t.plans.walk = none
        ∧ (t.ports.get c.opener).raised &&& NoticeKind.plan.mask ≠ 0 ∧ t.mem = s.mem ∧ t.arb = s.arb)
    ∧ ∀ m, place = .mesh m → meshInRange rec = false →
      ∃ t, exec .verifyMeshRead s = .next t
        ∧ (t.plan id).hold = .rejected c { reason := .meshRange, tile := none, mesh := some m }
        ∧ t.plans.walk = none ∧ (t.ports.get c.opener).raised &&& NoticeKind.plan.mask ≠ 0)
  ∧ (∀ (s : State) (id : PlanId) (c : PlanContent) (passed : List Nat) (r : Request),
    (s.ports.get c.opener).executing = some r →
    let ended := fun (h : PlanHold) (payload : List Byte) =>
      let u := ({ s with
        plans := { slots := s.plans.slots.set id { s.plan id with hold := h }, walk := none } } : State).answered
          c.opener r .ok payload
      { u with
        ports := u.ports.set c.opener
          { u.ports.get c.opener with raised := (u.ports.get c.opener).raised ||| NoticeKind.plan.mask } }
    s.walkOn id c passed .done = ended (.verified c) [0, 0xFF, 0xFF, 0xFF, 0xFF, 0xFF]
    ∧ (∀ why tile mesh,
      s.walkOn id c passed (.fail { reason := why, tile := tile, mesh := mesh }) =
        ended (.rejected c { reason := why, tile := tile, mesh := mesh })
          ([1, byte why.value] ++ be2 (tile.getD 0xFFFF) ++ be2 (mesh.getD 0xFFFF)))
    ∧ ∀ place m,
      s.walkOn id c passed (.read place m) =
        ({ s with
          plans := { s.plans with walk := some { plan := id, place := place, passed := passed, record := none } }
          arb := { s.arb with
            pool := s.arb.pool ++ [{ owner := .walk, left := [.read (c.base + m)] }] } } : State).grant)
  ∧ (∀ (c : PlanContent) (passed : List Nat) (t : Nat) (e : TileEntry) (rec : List Byte),
    let p := e.primMesh.toNat
    let q := e.secMesh.toNat
    let seam : Prop := e.cls = 2
    let noCamera := fun b : BitVec 3 => b.toNat = 0 ∨ 4 < b.toNat
    let fail := fun (why : RejectReason) (m : Option Nat) => WalkNext.fail { reason := why, tile := some t, mesh := m }
    let read := fun (place : WalkAt) (m : Nat) =>
      if c.meshWritten[m]? = some true then WalkNext.read place m else fail .meshRange (some m)
    let on := fun ms : List Nat => (ms, c.tilesFrom ms (t + 1))
    scanTile c passed t none = some (fail .unwritten none)
    ∧ scanTile c passed t (some e) =
      (if 4 ≤ e.cls.toNat then some (fail .cls none)
      else if e.cls = 0 ∨ e.cls = 3 then none
      else if noCamera e.primCam ∨ seam ∧ noCamera e.secCam then some (fail .camera none)
      else if seam ∧ e.primCam = e.secCam then some (fail .sameCamera none)
      else if c.header.meshCount ≤ p then some (fail .meshIndex (some p))
      else if seam ∧ c.header.meshCount ≤ q then some (fail .meshIndex (some q))
      else if p ∉ passed then some (read (.primary t p) p)
      else if seam ∧ q ∉ passed then some (read (.secondary t q none) q)
      else none)
    ∧ (c.tiles[t]? = some (some e) → e.cls = 1 ∨ seam →
      walkResume c (.primary t p) passed rec =
        (if meshInRange rec = false then (passed, fail .meshRange (some p))
        else if seam ∧ q ∉ passed then (passed, read (.secondary t q (some rec)) q)
        else if spreadOk rec = false then (passed, fail .spread (some p))
        else on (addPassed p passed)))
    ∧ (c.tiles[t]? = some (some e) → seam → ∀ first : Option (List Byte),
      walkResume c (.secondary t q first) passed rec =
        (if meshInRange rec = false then (passed, fail .meshRange (some q))
        else if first.map spreadOk = some false then (passed, fail .spread (some p))
        else if spreadOk rec = false then (passed, fail .spread (some q))
        else on (addPassed q (if first.isSome then addPassed p passed else passed))))
    ∧ (∀ m, walkResume c (.mesh m) passed rec =
      (passed,
        if meshInRange rec then c.meshesFrom passed (m + 1)
        else .fail { reason := .meshRange, tile := none, mesh := some m }))
    ∧ ∀ m n, n ∈ addPassed m passed ↔ n = m ∨ n ∈ passed)
  ∧ (∀ (c : PlanContent) (passed : List Nat) (t : Nat),
    (∀ k e n, t ≤ k → c.tiles[k]? = some e → scanTile c passed k e = some n →
      (∀ j d, t ≤ j → j < k → c.tiles[j]? = some d → scanTile c passed j d = none) → c.tilesFrom passed t = n)
    ∧ ((∀ j d, t ≤ j → c.tiles[j]? = some d → scanTile c passed j d = none) →
      c.tilesFrom passed t = c.meshesFrom passed 0)
    ∧ (∀ m, t ≤ m → m < c.header.meshCount → m ∉ passed → (∀ j, t ≤ j → j < m → j ∈ passed) →
      c.meshesFrom passed t =
        (if c.meshWritten[m]? = some true then .read (.mesh m) m
        else .fail { reason := .meshRange, tile := none, mesh := some m }))
    ∧ ((∀ j, t ≤ j → j < c.header.meshCount → j ∈ passed) → c.meshesFrom passed t = .done))
  ∧ (∀ rec : List Byte,
    (meshInRange rec = true ↔ ∀ i j, i ≤ 2 → j ≤ 2 →
      -1024 ≤ (meshPoint rec i j).1 ∧ (meshPoint rec i j).1 ≤ 21488
        ∧ -1024 ≤ (meshPoint rec i j).2 ∧ (meshPoint rec i j).2 ≤ 15344)
    ∧ (spreadOk rec = true ↔ ∀ i j k l, i ≤ 2 → j ≤ 2 → k ≤ 2 → l ≤ 2 →
      (meshPoint rec i j).1 / 16 - (meshPoint rec k l).1 / 16 + 2 ≤ 128
        ∧ (meshPoint rec i j).2 / 16 - (meshPoint rec k l).2 / 16 + 2 ≤ 96)
    ∧ ∀ i j, i ≤ 2 → j ≤ 2 →
      let signed := fun n : Nat => if n < 32768 then (n : Int) else (n : Int) - 65536
      (meshPoint rec i j).1 = signed (halfAt rec (4 * (3 * j + i)))
        ∧ (meshPoint rec i j).2 = signed (halfAt rec (4 * (3 * j + i) + 2)))
  ∧ [.unwritten, .cls, .camera, .sameCamera, .meshIndex, .meshRange, .spread].map RejectReason.value = List.range 7

/-- PLAN_ABANDONED 10,000 ms after the opening port's last request marks its LOADING plan abandoned; a request of
the opening port that names the plan renews the time and clears the mark, and one of the other port does not. The
timebase runs on to the expiry (the model's choice, log 4). -/
def Obligations.AbandonmentFollowsTheOpeningPort : Prop :=
  ∀ (s : State) (id : PlanId) (c : PlanContent) (at0 : Nat) (ab : Bool), (s.plan id).hold = .loading c at0 ab →
    (ab = false →
      exec (.planAbandoned id) s = .next ((s.runTo (at0 + 10000000)).setHold id (.loading c at0 true)))
    ∧ ∀ (p : Port) (bs : List Byte), planOf bs = some id →
      (c.opener = p → s.touchPlan p bs = s.setHold id (.loading c s.now false))
      ∧ (c.opener ≠ p → s.touchPlan p bs = s)

/-! ### View leases -/

/-- VIEW_CLAIM: CP is refused LEVEL at level 0, a duration that R97 does not accept RANGE, a second lease at a level
STATE; an accepted claim joins the newest end of the table, WAITING, with the next handle and claim sequence, counts
in its plan's reference record, and is answered with them; with CLAIM wake on it wakes the part from STANDBY and
cancels the standby wait. The remaining time is held in µs (the model's choice, log 9). -/
def Obligations.ClaimJoinsTheLeaseTable : Prop :=
  ∀ (p : Port) (s : State) (r : Request) (rest : List Request) (level duration : Byte) (id : PlanId),
    s.Ready p .viewClaim r rest → r.payload = [level, byte id.val, duration] → level.toNat ≤ 3 →
    (level = 0 → p = .cp → exec (.viewClaim p) s = .next (s.replied p r rest .level []))
    ∧ (p = .mp → level = 0 → duration = 0 ∨ 20 < duration.toNat →
      exec (.viewClaim p) s = .next (s.replied p r rest .range []))
    ∧ (level = 1 → duration = 0 → exec (.viewClaim p) s = .next (s.replied p r rest .range []))
    ∧ ((level = 0 → p = .mp ∧ 1 ≤ duration.toNat ∧ duration.toNat ≤ 20) → (level = 1 → duration ≠ 0) →
      ((s.power.state ≠ .standby → (∃ l ∈ s.leases.table, l.holder = .port p ∧ l.level = level.toNat) →
        exec (.viewClaim p) s = .next (s.replied p r rest .state []))
      ∧ (s.power.state = .standby → s.power.claimWake = false →
        exec (.viewClaim p) s = .next (s.replied p r rest .state []))
      ∧ ((∀ l ∈ s.leases.table, ¬(l.holder = .port p ∧ l.level = level.toNat)) →
        (s.plan id).hold.isVerified = true →
        let l : Lease :=
          { handle := s.leases.nextHandle, holder := .port p, level := level.toNat, plan := id
            duration := duration.toNat
            remaining := if duration = 0 then none else some (duration.toNat * 100000)
            seq := s.leases.seqCtr, shown := false, phase := none }
        (s.power.state = .run → s.power.entry = false →
          exec (.viewClaim p) s = .next
            ((({ s with
              leases := { s.leases with
                table := s.leases.table ++ [l]
                handleCtr := l.handle % 255 + 1
                seqCtr := s.leases.seqCtr + 1 } } : State).onRefs id (fun x => { x with leases := x.leases + 1 })).replied
              p r rest .ok ([byte l.handle] ++ be4 s.leases.seqCtr.toNat)))
        ∧ (s.power.state = .run → s.power.entry = true →
          ∃ t, exec (.viewClaim p) s = .next t ∧ t.leases.table = s.leases.table ++ [l]
            ∧ t.power = ({ s.power with entry := !s.power.claimWake } : Power).reloadIdle
            ∧ t.ports = (s.replied p r rest .ok ([byte l.handle] ++ be4 s.leases.seqCtr.toNat)).ports
            ∧ s.leasesOnly { t with power := s.power, ports := s.ports })
        ∧ (s.power.state = .standby → s.power.claimWake = true → s.power.level = false →
          ∃ t, exec (.viewClaim p) s = .next t ∧ t.leases.table = s.leases.table ++ [l]
            ∧ t.power.state = .run ∧ t.bothRaised .power ∧ t.chain.cameraPower = true
            ∧ t.chain.lastTag = some s.chain.tag
          ∧ t = { s with
            chain := t.chain, lanes := t.lanes, capture := t.capture, arb := t.arb, ports := t.ports, power := t.power
            leases := t.leases, plans := { s.plans with slots := t.plans.slots } }
          ∧ (∀ id, (t.plan id).hold = (s.plan id).hold)
            ∧ quietPorts t.ports
              = quietPorts (s.replied p r rest .ok ([byte l.handle] ++ be4 s.leases.seqCtr.toNat)).ports))))

/-- VIEW_RENEW restarts a lease's remaining time from its duration, VIEW_RELEASE removes the lease with no LEASE
notice, each refused RANGE for handle 0, STATE for a handle no live lease bears and OWNER for a lease the port does
not hold. LEASE_EXPIRY removes the lease when its remaining time has passed and raises LEASE on its holder port. A
lease that leaves takes 1 from its plan's leases-naming count. The remaining time is held in µs and the timebase
runs on to an expiry (the model's choice, log 4, log 9). -/
def Obligations.LeasesAreRenewedReleasedAndExpire : Prop :=
  (∀ (p : Port) (s : State) (r : Request) (rest : List Request), s.Ready p .viewRenew r rest →
    (byteAt r.payload 0 = 0 → exec (.viewRenew p) s = .next (s.replied p r rest .range []))
    ∧ (0 < byteAt r.payload 0 → s.leases.find (byteAt r.payload 0) = none →
      exec (.viewRenew p) s = .next (s.replied p r rest .state []))
    ∧ ∀ l, 0 < byteAt r.payload 0 → s.leases.find (byteAt r.payload 0) = some l →
      (l.holder ≠ .port p → exec (.viewRenew p) s = .next (s.replied p r rest .owner []))
      ∧ (l.holder = .port p →
        exec (.viewRenew p) s = .next
          (({ s with
            leases := { s.leases with
              table := s.leases.table.map (fun m =>
                if m.handle = l.handle then
                  { m with remaining := if m.duration = 0 then none else some (m.duration * 100000) }
                else m) } } : State).replied p r rest .ok
            (be2 (if l.duration = 0 then 0xFFFF else l.duration * 100)))))
  ∧ (∀ (p : Port) (s : State) (r : Request) (rest : List Request), s.Ready p .viewRelease r rest →
    (byteAt r.payload 0 = 0 → exec (.viewRelease p) s = .next (s.replied p r rest .range []))
    ∧ (0 < byteAt r.payload 0 → s.leases.find (byteAt r.payload 0) = none →
      exec (.viewRelease p) s = .next (s.replied p r rest .state []))
    ∧ ∀ l, 0 < byteAt r.payload 0 → s.leases.find (byteAt r.payload 0) = some l →
      (l.holder ≠ .port p → exec (.viewRelease p) s = .next (s.replied p r rest .owner []))
      ∧ (l.holder = .port p → exec (.viewRelease p) s = .next ((s.removeLease l).replied p r rest .ok [])))
  ∧ (∀ (s : State) (n : Nat) (l : Lease) (left : Nat), s.leases.find n = some l → l.remaining = some left →
    ∃ t, exec (.leaseExpiry n) s = .next t ∧ t.now = s.now + left ∧ (s.elapse left).leasesOnly t
      ∧ t.leases.table = ((s.elapse left).leases.table.filter (fun m => m.handle ≠ l.handle))
      ∧ (t.plan l.plan).refs.leases = (s.plan l.plan).refs.leases - 1
      ∧ ∀ p, l.holder = .port p → (t.ports.get p).raised &&& NoticeKind.lease.mask ≠ 0)
  ∧ ∀ (s : State) (l : Lease), s.leasesOnly (s.removeLease l)
    ∧ (s.removeLease l).leases.table = s.leases.table.filter (fun m => m.handle ≠ l.handle)
    ∧ ((s.removeLease l).plan l.plan).refs.leases = (s.plan l.plan).refs.leases - 1
    ∧ (s.removeLease l).ports = s.ports

/-- VIEWS_SET replaces the four view settings and moves the plans' fallback and reverse marks with them; it is refused RANGE
for a line level outside 1 to 3 or a hold time above 10 and STATE for a plan that is not VERIFIED. -/
def Obligations.ViewsSetReplacesTheSettings : Prop :=
  ∀ (p : Port) (s : State) (r : Request) (rest : List Request) (fb rv : Option PlanId),
    s.Ready p .viewsSet r rest → planOrNone (byteAt r.payload 0) = some fb → planOrNone (byteAt r.payload 1) = some rv →
    (byteAt r.payload 2 = 0 ∨ 3 < byteAt r.payload 2 ∨ 10 < byteAt r.payload 3 →
      exec (.viewsSet p) s = .next (s.replied p r rest .range []))
    ∧ (1 ≤ byteAt r.payload 2 → byteAt r.payload 2 ≤ 3 → byteAt r.payload 3 ≤ 10 →
      ((∃ id, (fb = some id ∨ rv = some id) ∧ (s.plan id).hold.isVerified = false) →
        exec (.viewsSet p) s = .next (s.replied p r rest .state []))
      ∧ ((∀ id, fb = some id ∨ rv = some id → (s.plan id).hold.isVerified = true) →
        ∃ t, exec (.viewsSet p) s = .next t ∧ (s.replied p r rest .ok []).leasesOnly t
          ∧ t.leases = { s.leases with
              settings :=
                { fallback := fb, reverse := rv, lineLevel := byteAt r.payload 2, holdTime := byteAt r.payload 3 } }
          ∧ ((∀ id, (s.plan id).refs.fallback = decide (s.leases.settings.fallback = some id)) →
            ∀ id, (t.plan id).refs.fallback = decide (fb = some id))
          ∧ ((∀ id, (s.plan id).refs.reverse = decide (s.leases.settings.reverse = some id)) →
            ∀ id, (t.plan id).refs.reverse = decide (rv = some id))
          ∧ ∀ id, (t.plan id).refs.leases = (s.plan id).refs.leases
            ∧ (t.plan id).refs.pinned = (s.plan id).refs.pinned))

/-- The top-ranked lease has the lowest level, and within it was created first; a table of leases at levels 0 to 3 has one
unless it is empty. The view named is its plan, else the fallback plan, else NO_VIEW. -/
def Obligations.LowestLevelThenEarliestIsShown : Prop :=
  ∀ x : Leases,
    (∀ l, x.top = some l →
      (∃ before after, x.table = before ++ l :: after
        ∧ (∀ m ∈ before, m.level ≤ 3 → l.level < m.level) ∧ ∀ m ∈ after, m.level ≤ 3 → l.level ≤ m.level)
      ∧ x.nameView.1 = { plan := some l.plan, holder := l.holder.asHolder, lease := some (l.level, l.handle) })
    ∧ ((∀ l ∈ x.table, l.level ≤ 3) → (x.top = none ↔ x.table = []))
    ∧ (x.top = none → x.nameView.1 = match x.settings.fallback with
      | some id => { plan := some id, holder := .fallback, lease := none }
      | none => { plan := none, holder := .none, lease := none })

/-! ### Composition -/

/-- COMPOSITION_START takes the newest CLOSED set when the Composer is IDLE, the part is in RUN with no standby wait, heat is
not CRITICAL and the credit is at least the effective divisor; the context takes its set, view, frame number, divisor, gains
and sources, each with its slot and that slot's repaired lines, the older sets are retired and the credit is 0, the picture
waits in the View Lane, and the plan and the source slots are pinned, none of them with NO_VIEW. Row 0 then waits in
ROW_WAIT while two COMPLETE rows are held, else it takes a place and its first tile begins. With a condition failing
nothing changes. The plan is read where it is pinned (log 31). -/
def Obligations.CompositionStartTakesTheNewestClosedSet : Prop :=
  ∀ (s : State) (older newer : List CaptureSet) (st : CaptureSet),
    s.capture.sets = older ++ st :: newer → st.state = .closed → (∀ z ∈ newer, z.state ≠ .closed) →
    (s.composer = none ∧ s.power.state = .run ∧ s.power.entry = false ∧ s.power.thermal ≠ .critical
        ∧ max s.power.rateCap s.power.thermal.divisor ≤ s.capture.credit →
      ∃ t x, exec .compositionStart s = .next t ∧ t.composer = some x
        ∧ x.frame = s.log.next ∧ x.setTag = st.tag ∧ x.view = s.leases.nameView.1
        ∧ x.divisor = max s.power.rateCap s.power.thermal.divisor ∧ x.gains = s.balance.gains
        ∧ (∀ c : Camera, x.sources.get c.idx = (s.sourceOf s.viewHeader st c).1
          ∧ x.srcSlots.get c.idx = (s.sourceOf s.viewHeader st c).2
          ∧ (∀ k tag n, x.srcSlots.get c.idx = some k → (s.capture.slot c k).hold = .held tag (.repaired n) →
            x.repaired.get c.idx = n)
          ∧ ((∀ k tag n, x.srcSlots.get c.idx = some k → (s.capture.slot c k).hold ≠ .held tag (.repaired n)) →
            x.repaired.get c.idx = 0)
          ∧ ∀ k, t.capture.slot c k =
            { s.capture.slot c k with
              pinned := (s.capture.slot c k).pinned
                || (x.view.plan.isSome && decide (x.srcSlots.get c.idx = some k)) })
        ∧ x.degraded = 0 ∧ x.row = 0 ∧ x.col = 0 ∧ x.seams = Quad.all { sumA := 0, sumB := 0, count := 0 }
        ∧ t.capture.sets = { st with state := .composing } :: newer ∧ t.capture.credit = 0
        ∧ t.view.waiting = s.view.waiting ++
          [{ frame := s.log.next, stamp := x.stamp, fill := (s.viewHeader.map Header.void).getD midGrey
             aborted := false }]
        ∧ (s.view.completeCount = 2 → x.phase = .rowWait ∧ t.lanes = s.lanes ∧ t.arb = s.arb
          ∧ t.view = { s.view with waiting := t.view.waiting })
        ∧ (s.view.completeCount < 2 → x.phase ≠ .rowWait
          ∧ t.view = { s.view.beginRow s.log.next 0 with waiting := t.view.waiting }
          ∧ ({ t with composer := none, lanes := s.lanes, arb := s.arb } : State).tileBegun x t)
        ∧ (∀ id, x.view.plan = some id → (t.plan id).refs.pinned = true)
        ∧ (∀ id, (t.plan id).hold = (s.plan id).hold
          ∧ (t.plan id).refs = { (s.plan id).refs with
            pinned := (s.plan id).refs.pinned || decide (x.view.plan = some id) })
        ∧ t.leases = { s.leases with
            table := s.leases.table.map (fun l =>
              { l with shown := decide (s.leases.top.map Lease.handle = some l.handle) })
            lastView := s.leases.nameView.2 }
        ∧ (s.leases.nameView.2.differs s.leases.lastView = true → t.bothRaised .view)
        ∧ (s.leases.nameView.2.differs s.leases.lastView = false → t.ports = s.ports)
        ∧ quietPorts t.ports = quietPorts s.ports
        ∧ t.capture = { s.capture with sets := t.capture.sets, credit := 0, slots := t.capture.slots }
        ∧ (∀ c, t.lane c = { s.lane c with busy := (t.lane c).busy })
        ∧ t = { s with
          composer := some x, capture := t.capture, leases := t.leases, view := t.view, lanes := t.lanes, arb := t.arb
          ports := t.ports, plans := { s.plans with slots := t.plans.slots } })
    ∧ (s.composer ≠ none ∨ s.power.state ≠ .run ∨ s.power.entry = true ∨ s.power.thermal = .critical
        ∨ s.capture.credit < max s.power.rateCap s.power.thermal.divisor →
      exec .compositionStart s = .next s)

/-- A camera's source by the first row of the table of sources that applies: MISMATCH, FRESH, STALE with its age, EXCLUDED,
BLIND; `h` is the header of the plan named, if one is. -/
def Obligations.CameraSourceFollowsTheTable : Prop :=
  ∀ (s : State) (h : Option Header) (st : CaptureSet) (c : Camera),
    let mismatch : Prop := ∃ x, h = some x ∧ x.stamps.get c.idx ≠ 0
      ∧ ∀ i, (s.cam c).identity = some i → i.stamp ≠ x.stamps.get c.idx
    (mismatch → s.sourceOf h st c = (.mismatch, none))
    ∧ (¬mismatch →
      (∀ k, (st.entries.get c.idx).status = .present k → s.sourceOf h st c = (.fresh, some k))
      ∧ ((∀ k, (st.entries.get c.idx).status ≠ .present k) →
        (∀ k good, s.capture.fresh.get c.idx = some (k, good) → 1 ≤ (st.tag - good).toNat →
          (st.tag - good).toNat ≤ s.capture.timing.stale →
          s.sourceOf h st c = (.stale (st.tag - good).toNat, some k))
        ∧ ((∀ k good, s.capture.fresh.get c.idx = some (k, good) →
            ¬(1 ≤ (st.tag - good).toNat ∧ (st.tag - good).toNat ≤ s.capture.timing.stale)) →
          s.sourceOf h st c = (if (st.entries.get c.idx).status = .excluded then .excluded else .blind, none))))

/-- MESH_READ_COMPLETE: with a clipped fetch box that holds a pixel, its fetch is in hand from the box's first line
and burst; with none, the next area's mesh read is in hand or the tile is fetched; the Arbiter grants at once where it
is FREE. The fetch box runs from the pixel column of the smallest point x to the one after that of the largest, and
likewise down; clipped, it is what lies within columns 0 to 1279 and rows 0 to 959. FETCHING_END puts a fetched tile
in DRAWING. The bases of a frame slot and of the pool are the model's choice (log 8), and so is reading the plan where
it is pinned (log 31). -/
def Obligations.FetchedMeshNamesItsBox : Prop :=
  (∀ (s : State) (x : Context), s.composer = some x →
    (∀ k d b, x.phase = .fetching (.meshDone k) → x.draws[k]? = some d → clipBox d.record = some b →
      ∃ t y, exec .meshReadComplete s = .next t ∧ t = { s with composer := some y, lanes := t.lanes, arb := t.arb }
        ∧ (∀ c, t.lane c = { s.lane c with busy := (t.lane c).busy })
        ∧ y = { x with phase := .fetching (.boxRead k), draws := y.draws }
        ∧ y.draws[k]? = some { d with box := some b } ∧ (∀ j, j ≠ k → y.draws[j]? = x.draws[j]?)
        ∧ t = ({ s with
          composer := some y
          arb := { s.arb with
            cursor := some
              (.box k
                { base := Config.slotBase d.cam.idx.val d.slot.val, bottom := b.bottom
                  first := b.left / 32, last := b.right / 32 } b.top (b.left / 32)) } } : State).grant
        ∧ (s.arb.inFlight ≠ none → t.arb.pool = s.arb.pool ∧
          t.arb.cursor = some
            (.box k
              { base := Config.slotBase d.cam.idx.val d.slot.val, bottom := b.bottom
                first := b.left / 32, last := b.right / 32 } b.top (b.left / 32))))
    ∧ (∀ k d, x.phase = .fetching (.meshDone k) → x.draws[k]? = some d → clipBox d.record = none →
      ∃ t y, exec .meshReadComplete s = .next t ∧ t = { s with composer := some y, lanes := t.lanes, arb := t.arb }
        ∧ (∀ c, t.lane c = { s.lane c with busy := (t.lane c).busy })
        ∧ y = { x with phase := y.phase, draws := y.draws }
        ∧ y.draws[k]? = some { d with box := none } ∧ (∀ j, j ≠ k → y.draws[j]? = x.draws[j]?)
        ∧ y.phase = (if (x.draws[k + 1]?).isSome then .fetching (.meshRead (k + 1)) else .fetching .fetched)
        ∧ (x.draws[k + 1]? = none → t = { s with composer := some y })
        ∧ ∀ e, x.draws[k + 1]? = some e →
          t = ({ s with
            composer := some y
            arb := { s.arb with
              cursor := some
                (.mesh (k + 1) (((s.viewPlan x).map PlanContent.base).getD 0 + e.mesh)) } } : State).grant)
    ∧ (x.phase = .fetching .fetched →
      exec .fetchingEnd s = .next { s with composer := some { x with phase := .drawing } }))
  ∧ ∀ rec : List Byte, ∃ l r t b : Int, fetchBounds rec = (l, r, t, b)
    ∧ (∀ i j, i ≤ 2 → j ≤ 2 → l ≤ (meshPoint rec i j).1 / 16 ∧ (meshPoint rec i j).1 / 16 + 1 ≤ r
      ∧ t ≤ (meshPoint rec i j).2 / 16 ∧ (meshPoint rec i j).2 / 16 + 1 ≤ b)
    ∧ (∃ i j, i ≤ 2 ∧ j ≤ 2 ∧ l = (meshPoint rec i j).1 / 16)
    ∧ (∃ i j, i ≤ 2 ∧ j ≤ 2 ∧ r = (meshPoint rec i j).1 / 16 + 1)
    ∧ (∃ i j, i ≤ 2 ∧ j ≤ 2 ∧ t = (meshPoint rec i j).2 / 16)
    ∧ (∃ i j, i ≤ 2 ∧ j ≤ 2 ∧ b = (meshPoint rec i j).2 / 16 + 1)
    ∧ (clipBox rec = none ↔ 1279 < l ∨ r < 0 ∨ 959 < t ∨ b < 0)
    ∧ ∀ x, clipBox rec = some x → (x.left : Int) = max l 0 ∧ (x.right : Int) = min r 1279
      ∧ (x.top : Int) = max t 0 ∧ (x.bottom : Int) = min b 959 ∧ x.left ≤ x.right ∧ x.top ≤ x.bottom

/-- TILE_DRAWN before the last column: the tile's pixels join the row's DRAWING place, its seam statistics and degraded count
are taken, and the next column's tile begins. At the last column of rows 0 to 23 the row is then handed over, and the
next row waits in ROW_WAIT while two COMPLETE rows are held, else it takes a FREE place and its first tile begins. A
tile needs an area of its primary camera if it is SINGLE, of its primary and its secondary if it is SEAM, each only
where the camera's source is FRESH or STALE, and no other needs one. A row handed over is
COMPLETE, or its place is FREE where the interval of its last line has begun. The tile's pixels follow its class: the
body or void colour, mid-grey without a plan, the gained samples of one camera, or the blend of two, at the source
positions of the mesh; SEAM drawn from one camera is degraded, and from two FRESH cameras of a pair it feeds that pair.
Which FREE place a row takes is the model's choice (log 21), and so is reading the plan where it is pinned (log 31). -/
def Obligations.DrawnTileJoinsItsRow : Prop :=
  (∀ (s : State) (x : Context), s.composer = some x → x.phase = .drawing →
    let d := x.drawTile (s.viewPlan x)
    let count := x.degraded + (if d.degraded then 1 else 0)
    (x.col < 14 →
      ∃ t y, exec .tileDrawn s = .next t
        ∧ t = { s with composer := some y, view := t.view, lanes := t.lanes, arb := t.arb }
        ∧ (∀ c, t.lane c = { s.lane c with busy := (t.lane c).busy })
        ∧ y = { x with col := x.col + 1, phase := y.phase, draws := y.draws, seams := d.seams, degraded := count }
        ∧ t.view = s.view.addTile x.frame x.row d.pixels
        ∧ ({ s with view := t.view } : State).tileBegun
          { x with col := x.col + 1, seams := d.seams, degraded := count } t)
    ∧ (x.col = 14 → x.row < 24 →
      let v := (s.view.addTile x.frame x.row d.pixels).handOver x.frame x.row
      ∃ t y, exec .tileDrawn s = .next t
        ∧ t = { s with composer := some y, view := t.view, lanes := t.lanes, arb := t.arb }
        ∧ (∀ c, t.lane c = { s.lane c with busy := (t.lane c).busy })
        ∧ y = { x with
          row := x.row + 1, col := 0, phase := y.phase, draws := y.draws, seams := d.seams, degraded := count }
        ∧ (v.completeCount = 2 → y.phase = .rowWait ∧ t.view = v ∧ t.lanes = s.lanes ∧ t.arb = s.arb)
        ∧ (v.completeCount < 2 → y.phase ≠ .rowWait ∧ t.view = v.beginRow x.frame (x.row + 1)
          ∧ ({ s with view := t.view } : State).tileBegun
            { x with row := x.row + 1, col := 0, seams := d.seams, degraded := count } t)))
  ∧ (∀ (x : Context) (plan : Option PlanContent),
    let area := fun (code : BitVec 3) (mesh : BitVec 10) => Camera.all.flatMap (fun c =>
      if code.toNat = c.number then
        match x.sources.get c.idx, x.srcSlots.get c.idx with
        | .fresh, some k | .stale _, some k =>
          [({ cam := c, slot := k, mesh := mesh.toNat, record := [], box := none, data := [] } : Draw)]
        | _, _ => []
      else [])
    (plan = none → x.needs plan = [])
    ∧ ∀ c : PlanContent, plan = some c →
      ((∀ e, c.tiles[15 * x.row + x.col]? ≠ some (some e)) → x.needs plan = [])
      ∧ ∀ e, c.tiles[15 * x.row + x.col]? = some (some e) →
        (e.cls ≠ 1 → e.cls ≠ 2 → x.needs plan = [])
        ∧ (e.cls = 1 → x.needs plan = area e.primCam e.primMesh)
        ∧ (e.cls = 2 → x.needs plan = area e.primCam e.primMesh ++ area e.secCam e.secMesh))
  ∧ (∀ (v : ViewLane) (frame row : Nat) (tiles : List (List Pixel)) (tile : List Pixel),
    let after := (v.addTile frame row tile).handOver frame row
    let place := if v.passed frame (32 * row + 31) then Place.free else .complete frame row (tiles ++ [tile])
    (v.placeA = .drawing frame row tiles → after.placeA = place)
    ∧ (v.placeB = .drawing frame row tiles → after.placeB = place)
    ∧ (v.placeA = .free → v.beginRow frame row = { v with placeA := .drawing frame row [] })
    ∧ (v.placeA ≠ .free → v.placeB = .free → v.beginRow frame row = { v with placeB := .drawing frame row [] })
    ∧ ∀ (y : Transmission) (n : Nat), v.sending = some y → y.frame = frame →
      (v.passed frame n = true ↔ ∃ m, y.pointer = .line m ∧ n < m))
  ∧ (∀ (x : Context) (plan : Option PlanContent) (i : Nat), i < 1024 →
    let pixel := (x.drawTile plan).pixels[i]?
    let gained := fun d : Draw => d.sample (x.gains.get d.cam.idx) (i % 32) (i / 32)
    (plan = none → pixel = some ⟨128, 128, 128⟩)
    ∧ ∀ (c : PlanContent) (e : TileEntry), plan = some c → c.tiles[15 * x.row + x.col]? = some (some e) →
      (e.cls = 0 → pixel = some c.header.body)
      ∧ (e.cls = 3 ∨ ((e.cls = 1 ∨ e.cls = 2) ∧ x.draws = []) → pixel = some c.header.void)
      ∧ (∀ d ds, (e.cls = 1 ∧ x.draws = d :: ds) ∨ (e.cls = 2 ∧ x.draws = [d]) →
        pixel = some ((gained d).getD c.header.void))
      ∧ ∀ p q ds, e.cls = 2 → x.draws = p :: q :: ds →
        let w := seamWeight (Ramp.ofBits e.ramp) (i % 32) (i / 32)
        (∀ a b, gained p = some a → gained q = some b → pixel = some
          ⟨byte (blend w a.y.toNat b.y.toNat), byte (blend w a.u.toNat b.u.toNat), byte (blend w a.v.toNat b.v.toNat)⟩)
        ∧ (∀ a, gained p = some a → gained q = none → pixel = some a)
        ∧ (∀ b, gained p = none → gained q = some b → pixel = some b)
        ∧ (gained p = none → gained q = none → pixel = some c.header.void))
  ∧ (∀ (x : Context) (c : PlanContent) (e : TileEntry), c.tiles[15 * x.row + x.col]? = some (some e) →
    ((x.drawTile (some c)).degraded = true ↔ e.cls = 2 ∧ x.draws.length = 1)
    ∧ ((∀ p q ds, x.draws = p :: q :: ds → e.cls ≠ 2 ∨ x.sources.get p.cam.idx ≠ .fresh
        ∨ x.sources.get q.cam.idx ≠ .fresh ∨ seamPair p.cam q.cam = none) →
      (x.drawTile (some c)).seams = x.seams)
    ∧ ∀ p q ds k first, e.cls = 2 → x.draws = p :: q :: ds → x.sources.get p.cam.idx = .fresh →
      x.sources.get q.cam.idx = .fresh → seamPair p.cam q.cam = some (k, first) →
      let both := (List.range 1024).filterMap (fun i =>
        match p.sample (x.gains.get p.cam.idx) (i % 32) (i / 32), q.sample (x.gains.get q.cam.idx) (i % 32) (i / 32) with
        | some a, some b => some (if first then (a.y.toNat, b.y.toNat) else (b.y.toNat, a.y.toNat))
        | _, _ => none)
      (x.drawTile (some c)).seams = x.seams.set k
        { sumA := (x.seams.get k).sumA + (both.map Prod.fst).sum
          sumB := (x.seams.get k).sumB + (both.map Prod.snd).sum
          count := (x.seams.get k).count + both.length })
  ∧ (∀ (d : Draw) (gain u v : Nat),
    let pos := sourcePos d.record u v
    (¬(0 ≤ pos.1 ∧ pos.1 ≤ 20464 ∧ 0 ≤ pos.2 ∧ pos.2 ≤ 15344) → d.sample gain u v = none)
    ∧ ∀ x y : Nat, pos = ((x : Int), (y : Int)) → x ≤ 20464 → y ≤ 15344 →
      let near := min (x / 16 + 1) 1279
      let below := min (y / 16 + 1) 959
      let mix := fun f : Nat × Nat × Nat → Nat =>
        bilinear (x % 16) (y % 16) (f (d.pixel (x / 16) (y / 16))) (f (d.pixel near (y / 16)))
          (f (d.pixel (x / 16) below)) (f (d.pixel near below))
      d.sample gain u v = some
        ⟨byte (gainedY (mix (fun q => q.1)) gain), byte (mix (fun q => q.2.1)), byte (mix (fun q => q.2.2))⟩)
  ∧ (∀ (rec : List Byte) (i j a b : Nat), i < 2 → j < 2 → a < 16 → b < 16 →
    let pos := sourcePos rec (16 * i + a) (16 * j + b)
    let sum := fun f : Int × Int → Int =>
      (16 - a : Int) * (16 - b) * f (meshPoint rec i j) + (a : Int) * (16 - b) * f (meshPoint rec (i + 1) j)
        + (16 - a : Int) * b * f (meshPoint rec i (j + 1)) + (a : Int) * b * f (meshPoint rec (i + 1) (j + 1))
    256 * pos.1 ≤ sum Prod.fst + 128 ∧ sum Prod.fst + 128 < 256 * (pos.1 + 1)
      ∧ 256 * pos.2 ≤ sum Prod.snd + 128 ∧ sum Prod.snd + 128 < 256 * (pos.2 + 1))
  ∧ (∀ fx fy a b c d : Nat,
    let sum := (16 - fx) * (16 - fy) * a + fx * (16 - fy) * b + (16 - fx) * fy * c + fx * fy * d
    256 * bilinear fx fy a b c d ≤ sum + 128 ∧ sum + 128 < 256 * (bilinear fx fy a b c d + 1))
  ∧ (∀ y gain : Nat, ∃ g, gainedY y gain = min 255 g ∧ 256 * g ≤ y * gain + 128 ∧ y * gain + 128 < 256 * (g + 1))
  ∧ (∀ w p s : Nat, 64 * blend w p s ≤ w * p + (64 - w) * s + 32 ∧ w * p + (64 - w) * s + 32 < 64 * (blend w p s + 1))
  ∧ ∀ (r : Ramp) (u v : Nat), u < 32 → v < 32 →
    let num := match r with
      | .n => 2 * v
      | .s => 2 * (31 - v)
      | .w => 2 * u
      | .e => 2 * (31 - u)
      | .nw => u + v
      | .se => 62 - u - v
      | .ne => 31 - u + v
      | .sw => 31 + u - v
    62 * seamWeight r u v ≤ 64 * num + 31 ∧ 64 * num + 31 < 62 * (seamWeight r u v + 1)

/-- TILE_DRAWN at the last tile completes the composition in one event: the Composer is IDLE, the record with the
underrun count and the drop count is appended and FRAME raised, the gains are updated from the seam statistics, the
COMPOSING set is retired, the drop count is 0, and no slot and not the plan is pinned any more. During a standby wait
the standby entry is taken in the same event. The model's choices here: the count of a frame that has ended is kept for
this record (log 22), the last TILE_DRAWN takes the entry itself (log 14), the outputs hold no strobe and command word
from the entry on (log 30), a lane burst granted before the entry stays in flight, its data discarded (log 18, log 44),
and the strobe interval in progress is dropped (log 47). -/
def Obligations.LastTileCompletesTheComposition : Prop :=
  ∀ (s : State) (x : Context), s.composer = some x → x.phase = .drawing → x.col = 14 → x.row = 24 →
    ∃ t u, exec .tileDrawn s = .next t ∧ u.composer = none
      ∧ (∃ y : Context, y.frame = x.frame ∧ y.setTag = x.setTag ∧ y.view = x.view ∧ y.sources = x.sources
        ∧ y.repaired = x.repaired ∧ y.divisor = x.divisor
        ∧ y.seams = (x.drawTile (s.viewPlan x)).seams
        ∧ y.degraded = x.degraded + (if (x.drawTile (s.viewPlan x)).degraded then 1 else 0)
        ∧ u.log = s.log.append (recordOf y (s.view.underrunOf x.frame) s.capture.drops false)
        ∧ u.balance = s.balance.update x.frame x.sources y.seams)
      ∧ u.bothRaised .frame ∧ t.bothRaised .frame
      ∧ u.capture = { s.capture with sets := u.capture.sets, slots := u.capture.slots, drops := 0 }
      ∧ u.capture.sets = s.capture.sets.filter (fun st => st.state ≠ .composing)
      ∧ (∀ c k, (u.capture.slot c k).pinned = false ∧ (u.capture.slot c k).hold = (s.capture.slot c k).hold)
      ∧ (∀ id, x.view.plan = some id → (u.plan id).refs.pinned = false)
      ∧ (∀ id, (u.plan id).hold = (s.plan id).hold) ∧ quietPorts u.ports = quietPorts s.ports
      ∧ u.view =
        { (s.view.addTile x.frame x.row (x.drawTile (s.viewPlan x)).pixels).handOver x.frame x.row with endedCount := none }
      ∧ u = { s with
        composer := none, capture := u.capture, balance := u.balance, log := u.log, view := u.view, ports := u.ports
        plans := { s.plans with slots := u.plans.slots } }
      ∧ (s.power.entry = false → t = u) ∧ (s.power.entry = true → u.sleepsTo t)

/-- BURST_DONE: a lane's burst writes its 64 bytes at its address unless withdrawn, a mesh record write of a
PLAN_MESHES writes its record at its pool unit, and no other burst changes DDR memory: every other byte reads as
before. The last burst of a lane's write completes it, and a repair so completed is counted and reported. A record
stored is marked written, and the last burst of a PLAN_MESHES answers it with the meshes marked written; one read for a
PLAN_READ part 2 joins its answer with its mark, and the last one posts it; one read for the walk is kept for it. A
burst fetched joins the tile fetch buffer: a mesh read is taken up next, and after the last burst of a box comes the
next area's mesh read, or the tile is fetched. A withdrawn burst does nothing more. The Arbiter is FREE and grants the
next burst. The addresses are the model's choice (log 8), a withdrawn burst's data is discarded (log 18), bytes 36 to 63
of a pool unit stay as they were (log 41), requests are answered at their last burst (log 15), a repair is counted when
its write completes (log 17), and a pinned plan is read where it stands (log 31). -/
def Obligations.BurstWritesItsBytesAndNoOthers : Prop :=
  (∀ (s : State) (b : Burst), s.arb.inFlight = some b → s.mem.wf →
    ∃ t, exec .burstDone s = .next t
      ∧ t = { s with
        mem := t.mem, lanes := t.lanes, capture := t.capture, plans := t.plans, composer := t.composer, arb := t.arb
        ports := t.ports }
      ∧ (∀ c addr data, b = .lane c addr data false →
        (∀ j, (h : j < data.length) → t.mem.read (addr + j) = data[j])
        ∧ ∀ a, a < addr ∨ addr + data.length ≤ a → t.mem.read a = s.mem.read a)
      ∧ (∀ p id left rest unit i rec, b = .pool (.write unit i rec) →
        s.arb.pool = { owner := .meshes p id, left := left } :: rest →
        (∀ j, (h : j < rec.length) → t.mem.read (Config.unitAddr unit + j) = rec[j])
        ∧ ∀ a, a < Config.unitAddr unit ∨ Config.unitAddr unit + rec.length ≤ a → t.mem.read a = s.mem.read a)
      ∧ (∀ c addr data, b = .lane c addr data true → t.mem = s.mem)
      ∧ (∀ unit, b = .pool (.read unit) → t.mem = s.mem)
      ∧ ∀ addr w, b = .fetch addr w → t.mem = s.mem)
  ∧ ∀ (s : State) (b : Burst), s.arb.inFlight = some b →
    let f : State := { s with arb := { s.arb with inFlight := none } }
    let pooled := fun rest : List PoolRequest => ({ s.arb with inFlight := none, pool := rest } : Arb)
    let bytes := fun a n : Nat => (List.range n).map (fun j => s.mem.read (a + j))
    (∀ c addr data, b = .lane c addr data true → exec .burstDone s = .next f.grant)
    ∧ (∀ addr, b = .fetch addr true → exec .burstDone s = .next f.grant)
    ∧ (∀ c addr data, b = .lane c addr data false →
      let m : State := { f with mem := s.mem.writeBytes addr data }
      ((∀ y w ws, (s.lane c).busy = some y → y.writes = w :: ws → y.granted < 40) → exec .burstDone s = .next m.grant)
      ∧ ∀ (y : Consumption) (w : LineWrite) (ws : List LineWrite),
        (s.lane c).busy = some y → y.writes = w :: ws → 40 ≤ y.granted →
        let ln : Lane := { s.lane c with busy := some { y with writes := ws, granted := 0 } }
        (w.kind = .own → exec .burstDone s = .next
          ({ m with
            lanes := s.lanes.set c.idx
              { ln with busy := some { y with writes := ws, granted := 0, ownDone := true } } } : State).grant)
        ∧ (w.kind = .repair → (s.lane c).frame = none → exec .burstDone s = .next
          ({ m with lanes := s.lanes.set c.idx ln } : State).grant)
        ∧ ∀ p : FrameProgress, w.kind = .repair → (s.lane c).frame = some p → exec .burstDone s = .next
          ({ m with
            capture := s.capture.report c p.tag .repaired
            lanes := s.lanes.set c.idx { ln with frame := some { p with repaired := p.repaired + 1 } } } : State).grant)
    ∧ (∀ p id left rest unit i rec r, b = .pool (.write unit i rec) →
      s.arb.pool = { owner := .meshes p id, left := left } :: rest → (s.ports.get p).executing = some r →
      let hold := match (s.plan id).hold with
        | .loading c at0 ab =>
          if c.opener = p then .loading { c with meshWritten := c.meshWritten.set i true } at0 ab
          else .loading c at0 ab
        | h => h
      let m : State :=
        { f with
          mem := s.mem.writeBytes (Config.unitAddr unit) rec
          plans := { s.plans with slots := s.plans.slots.set id { s.plan id with hold := hold } } }
      (left ≠ [] → exec .burstDone s = .next m.grant)
      ∧ (left = [] → exec .burstDone s = .next
        (({ m with arb := pooled rest } : State).answered p r .ok
          (be2 ((hold.content.map (fun c => c.meshWritten.countP (fun w => w))).getD 0))).grant))
    ∧ (∀ p marks got left rest unit r, b = .pool (.read unit) →
      s.arb.pool = { owner := .read p marks got, left := left } :: rest → (s.ports.get p).executing = some r →
      let all := got ++ bytes (Config.unitAddr unit) 36 ++ mark (marks.head?.getD false)
      (left ≠ [] → exec .burstDone s = .next
        ({ s with arb := pooled ({ owner := .read p marks.tail all, left := left } :: rest) } : State).grant)
      ∧ (left = [] → exec .burstDone s = .next
        (({ s with arb := pooled rest } : State).answered p r .ok all).grant))
    ∧ (∀ left rest unit, b = .pool (.read unit) → s.arb.pool = { owner := .walk, left := left } :: rest →
      exec .burstDone s = .next
        ({ s with
          arb := pooled rest
          plans := { s.plans with
            walk := s.plans.walk.map (fun w => { w with record := some (bytes (Config.unitAddr unit) 36) }) } } :
          State).grant)
    ∧ ∀ addr x, b = .fetch addr false → s.composer = some x →
      let went := fun (cur : Option Cursor) (y : Context) =>
        ({ s with arb := { s.arb with inFlight := none, cursor := cur }, composer := some y } : State).grant
      (∀ k, x.phase = .fetching (.meshRead k) → exec .burstDone s = .next
        (went none
          { x with
            phase := .fetching (.meshDone k)
            draws := x.draws.modify k (fun d => { d with record := bytes addr 36 }) }))
      ∧ ∀ k, x.phase = .fetching (.boxRead k) →
        let y := { x with draws := x.draws.modify k (fun d => { d with data := d.data ++ bytes addr 64 }) }
        ((∀ j, s.arb.cursor ≠ some (.granted j)) → exec .burstDone s = .next (went s.arb.cursor y))
        ∧ ∀ j, s.arb.cursor = some (.granted j) →
          (x.draws[k + 1]? = none → exec .burstDone s = .next (went none { y with phase := .fetching .fetched }))
          ∧ ∀ d, x.draws[k + 1]? = some d → exec .burstDone s = .next
            (went (some (.mesh (k + 1) (((s.viewPlan x).map PlanContent.base).getD 0 + d.mesh)))
              { y with phase := .fetching (.meshRead (k + 1)) })

/-- The Arbiter, while FREE, grants the first pending lane from the lane after the pointer and names it: the next burst of
the lane's current write, 64 bytes at their place in the line, with one burst more granted. With no lane pending it
grants the pool requester's next burst, and without one the Composer fetch's: a mesh read's one unit, or the box line by
line; while BUSY, or with nothing pending, it grants nothing. The addresses of slots and units are the model's choice
(log 8). -/
def Obligations.LanesAreGrantedFirstInTurn : Prop :=
  ∀ s : State,
    (s.arb.inFlight ≠ none → s.grant = s)
    ∧ (∀ (c : Camera) (b : Consumption) (w : LineWrite) (ws : List LineWrite), s.arb.inFlight = none →
      (s.lane c).busy = some b → b.writes = w :: ws → b.granted < 40 →
      (∀ d, (s.lanes.get (Camera.idx d)).pending = true →
        (c.number + 3 - s.arb.pointer.number) % 4 ≤ (d.number + 3 - s.arb.pointer.number) % 4) →
      s.grant =
        { s with
          lanes := s.lanes.set c.idx { s.lane c with busy := some { b with granted := b.granted + 1 } }
          arb := { s.arb with
            pointer := c
            inFlight := some
              (.lane c (Config.slotBase c.idx.val w.slot.val + w.line * 2560 + b.granted * 64)
                ((w.data.drop (b.granted * 64)).take 64) false) } })
    ∧ (s.arb.inFlight = none → (∀ d, (s.lanes.get (Camera.idx d)).pending = false) →
      (∀ o b left rest, s.arb.pool = { owner := o, left := b :: left } :: rest →
        s.grant = { s with
          arb := { s.arb with inFlight := some (.pool b), pool := { owner := o, left := left } :: rest } })
      ∧ (s.arb.pool = [] →
        (∀ k unit, s.arb.cursor = some (.mesh k unit) →
          s.grant = { s with
            arb := { s.arb with inFlight := some (.fetch (Config.unitAddr unit) false), cursor := some (.granted k) } })
        ∧ (∀ k sc line burst, s.arb.cursor = some (.box k sc line burst) →
          s.grant = { s with
            arb := { s.arb with
              inFlight := some (.fetch (sc.base + line * 2560 + burst * 64) false)
              cursor := some
                (if burst < sc.last then .box k sc line (burst + 1)
                else if line < sc.bottom then .box k sc (line + 1) sc.first else .granted k) } })
        ∧ (s.arb.cursor = none ∨ (∃ k, s.arb.cursor = some (.granted k)) → s.grant = s)))
    ∧ ∀ c : Camera, (s.lanes.get c.idx).pending = true ↔
      ∃ b w ws, (s.lane c).busy = some b ∧ b.writes = w :: ws ∧ b.granted < 40

/-- The update of the gains: with the enable off nothing changes. With it on, the anchor's gain, that of a camera with no
valid pair and that of a camera whose own sum is 0 stay; every other becomes the old gain plus the rounded raw change,
clamped to the step limit, and clamped to 128 to 512; and the report names each pair and each camera's case. A pair is
valid when both its cameras were FRESH and it has 4096 samples. The raw change is 128 × d / M of the camera's one or two
valid pairs, rounded to the nearest, halves away from 0. -/
def Obligations.BalanceUpdateMovesWithinTheStep : Prop :=
  (∀ (x : Balance) (frame : Nat) (sources : Quad Source) (seams : Quad SeamAcc),
    let y := x.update frame sources seams
    let valid := fun i : Fin 4 => sources.get (pairCams i).1.idx = .fresh ∧ sources.get (pairCams i).2.idx = .fresh
      ∧ 4096 ≤ (seams.get i).count
    (x.enable = false → y = x)
    ∧ y.gains.get x.anchor.idx = x.gains.get x.anchor.idx
    ∧ (∀ c : Camera, (∀ i : Fin 4, (pairCams i).1 = c ∨ (pairCams i).2 = c → ¬valid i) →
      y.gains.get c.idx = x.gains.get c.idx)
    ∧ ((∀ g ∈ x.gains.toList, 128 ≤ g ∧ g ≤ 512) → ∀ c : Camera,
      128 ≤ y.gains.get c.idx ∧ y.gains.get c.idx ≤ 512
      ∧ y.gains.get c.idx ≤ x.gains.get c.idx + x.step ∧ x.gains.get c.idx ≤ y.gains.get c.idx + x.step)
    ∧ (x.enable = true →
      ∃ rep, y = { x with gains := y.gains, report := some rep } ∧ rep.frame = frame
        ∧ (∀ i : Fin 4, ((rep.pairs.get i).valid = true ↔ valid i) ∧ (rep.pairs.get i).count = (seams.get i).count
          ∧ (valid i →
            let a := seams.get i
            let r := rep.pairs.get i
            2 * a.count * r.meanA ≤ 32 * a.sumA + a.count ∧ 32 * a.sumA + a.count < 2 * a.count * (r.meanA + 1)
            ∧ 2 * a.count * r.meanB ≤ 32 * a.sumB + a.count ∧ 32 * a.sumB + a.count < 2 * a.count * (r.meanB + 1)))
        ∧ ∀ c : Camera,
          let ps := validPairs sources seams c
          (c = x.anchor → rep.cams.get c.idx = .anchor)
          ∧ (c ≠ x.anchor → ps = [] → rep.cams.get c.idx = .noPair)
          ∧ (c ≠ x.anchor → ps ≠ [] → (ps.map Prod.fst).sum = 0 →
            rep.cams.get c.idx = .zeroMean ∧ y.gains.get c.idx = x.gains.get c.idx)
          ∧ (c ≠ x.anchor → (ps.map Prod.fst).sum ≠ 0 →
            let d : Int := max (-(x.step : Int)) (min (x.step : Int) (rawChange ps))
            let g : Int := max 128 (min 512 ((x.gains.get c.idx : Int) + d))
            rep.cams.get c.idx = .moved (rawChange ps) d g.toNat ∧ y.gains.get c.idx = g.toNat))
    ∧ ∀ (c : Camera) (own other count : Nat), (own, other, count) ∈ validPairs sources seams c ↔
      ∃ i : Fin 4, valid i ∧ count = (seams.get i).count
        ∧ (((pairCams i).1 = c ∧ own = (seams.get i).sumA ∧ other = (seams.get i).sumB)
          ∨ ((pairCams i).2 = c ∧ own = (seams.get i).sumB ∧ other = (seams.get i).sumA)))
  ∧ (∀ a b n : Nat, 0 < n → 0 < a → rawChange [(a, b, n)] = roundAway (128 * ((b : Int) - a)) a)
  ∧ (∀ a b n c d m : Nat, 0 < n → 0 < m → 0 < a + c → rawChange [(a, b, n), (c, d, m)] =
    roundAway (128 * (((b : Int) - a) * m + ((d : Int) - c) * n) * (n + m)) (2 * n * m * (a + c)))
  ∧ ∀ (num : Int) (den : Nat), 0 < den →
    2 * den * (roundAway num den).natAbs ≤ 2 * num.natAbs + den
    ∧ 2 * num.natAbs + den < 2 * den * ((roundAway num den).natAbs + 1)
    ∧ (0 ≤ num → 0 ≤ roundAway num den) ∧ (num ≤ 0 → roundAway num den ≤ 0)

/-! ### The view lane and the records -/

/-- VIEW_FRAME_START: the head of the waiting pictures, its row 0 COMPLETE or itself aborted, starts its frame with
its stamp line at the end of the quiet time, a pending interval coming into force. LINE_DUE sends the line from its
COMPLETE row, or a fill line counted as underrun; at the first line of rows 1 to 24 the row before it has left the
buffer, and a Composer in ROW_WAIT takes the row test, its row's first tile beginning where it goes on. VIEW_FRAME_END
after line 799 leaves the lane QUIET for 4 intervals. A line carries the stamp content and zeros to 1440 bytes, or its
pixels, three bytes each. The timebase runs on to the due time, and the line pointer's values are the model's (log 4,
log 23). -/
def Obligations.FramesAreSentLineByLine : Prop :=
  (∀ (s : State) (w : Waiting) (rest : List Waiting), s.view.sending = none → s.view.waiting = w :: rest →
    w.aborted = true ∨ s.view.holdsRow w.frame 0 = true →
    ∃ t, exec .viewFrameStart s = .next t ∧ t.now = max s.now (s.view.quietUntil.getD 0)
      ∧ t = { s.runTo (s.view.quietUntil.getD 0) with view := t.view }
      ∧ t.view = { s.view with
        waiting := rest, interval := s.view.pendingInterval.getD s.view.interval, pendingInterval := none
        sending := some
          { frame := w.frame, stamp := w.stamp, fill := w.fill, underrun := 0, aborted := w.aborted
            startAt := t.now, pointer := .stamp }
        out := some (.stamp w.stamp) })
  ∧ (∀ (s : State) (x : Transmission) (n : Nat), s.view.sending = some x → x.pointer.next = n → n < 800 →
    (n % 32 ≠ 0 ∨ n = 0) →
    (∀ tiles, s.view.rowTiles x.frame (n / 32) = some tiles →
      exec .lineDue s = .next
        { s.runTo (x.startAt + (n + 1) * s.view.interval) with
          view := { s.view with
            sending := some { x with pointer := .line (n + 1) }
            out := some (.picture n (rowLine tiles (n % 32))) } })
    ∧ (s.view.rowTiles x.frame (n / 32) = none →
      exec .lineDue s = .next
        { s.runTo (x.startAt + (n + 1) * s.view.interval) with
          view := { s.view with
            sending := some { x with pointer := .line (n + 1), underrun := x.underrun + 1 }
            out := some (.fill n x.fill) } }))
  ∧ (∀ (s : State) (x : Transmission) (n : Nat), s.view.sending = some x → x.pointer.next = n → n < 800 →
    n % 32 = 0 → 0 < n →
    ∃ t, exec .lineDue s = .next t ∧ t.now = max s.now (x.startAt + (n + 1) * s.view.interval)
      ∧ (∀ tiles, s.view.rowTiles x.frame (n / 32) = some tiles →
        t.view.sending = some { x with pointer := .line (n + 1) }
        ∧ t.view.out = some (.picture n (rowLine tiles 0))
        ∧ t.view.rowTiles x.frame (n / 32) = some tiles)
      ∧ (s.view.rowTiles x.frame (n / 32) = none →
        t.view.sending = some { x with pointer := .line (n + 1), underrun := x.underrun + 1 }
        ∧ t.view.out = some (.fill n x.fill))
      ∧ t.view.holdsRow x.frame (n / 32 - 1) = false
      ∧ t.view = { s.view with
        placeA := t.view.placeA, placeB := t.view.placeB, sending := t.view.sending, out := t.view.out }
      ∧ t = { s.runTo (x.startAt + (n + 1) * s.view.interval) with
        view := t.view, composer := t.composer, lanes := t.lanes, arb := t.arb }
      ∧ (s.view.holdsRow x.frame (n / 32 - 1) = false ∨ (∀ y, s.composer = some y → y.phase ≠ .rowWait) →
        t.composer = s.composer ∧ t.lanes = s.lanes ∧ t.arb = s.arb)
      ∧ (∀ y, s.composer = some y → y.phase = .rowWait → s.view.holdsRow x.frame (n / 32 - 1) = true →
        t.view.completeCount < 2 → ∃ z, t.composer = some z ∧ z.phase ≠ .rowWait
          ∧ z = { y with phase := z.phase, draws := z.draws }
          ∧ ({ t with composer := s.composer, lanes := s.lanes, arb := s.arb } : State).tileBegun y t))
  ∧ (∀ (s : State) (x : Transmission), s.view.sending = some x → x.pointer = .line 800 →
    ∃ t, exec .viewFrameEnd s = .next t ∧ t.now = max s.now (x.startAt + 801 * s.view.interval)
      ∧ t.view.sending = none
      ∧ t.view.quietUntil = some (x.startAt + 801 * s.view.interval + 4 * s.view.interval)
      ∧ t.view.holdsRow x.frame 24 = false ∧ t.view.waiting = s.view.waiting
      ∧ t = { s.runTo (x.startAt + 801 * s.view.interval) with
        view := t.view, composer := t.composer, lanes := t.lanes, arb := t.arb }
      ∧ (s.view.holdsRow x.frame 24 = false ∨ (∀ y, s.composer = some y → y.phase ≠ .rowWait) →
        t.composer = s.composer ∧ t.lanes = s.lanes ∧ t.arb = s.arb)
      ∧ (∀ y, s.composer = some y → y.phase = .rowWait → s.view.holdsRow x.frame 24 = true →
        t.view.completeCount < 2 →
        ({ t with composer := s.composer, lanes := s.lanes, arb := s.arb } : State).tileBegun y t))
  ∧ (∀ x : Stamp, (SentLine.stamp x).bytes =
    be4 x.frame ++ [x.tag] ++ opt1 (x.plan.map Fin.val) ++ [byte x.holder.value]
      ++ Camera.all.map (fun c => (x.sources.get c.idx).byte) ++ [byte x.divisor] ++ List.replicate 1428 0)
  ∧ (∀ n pixels, (SentLine.picture n pixels).bytes = pixels.flatMap (fun q => [q.y, q.u, q.v]))
  ∧ ∀ n colour, (SentLine.fill n colour).bytes = (List.replicate 480 [colour.y, colour.u, colour.v]).flatten

/-- The outcome of a record is the first of ABORTED, UNDERRUN, NO_VIEW, DEGRADED and COMPLETE that applies. An append adds
the record, with the drop count, which becomes 0, at the newest end of the ring, the oldest of 32 leaving first, and
advances the next frame number; after the record carrying 4,294,967,295 the ring is empty and the number and both
cursors are 1. It raises FRAME on both ports, and DEGRADED exactly where the outcome is other than COMPLETE. A record's
24 bytes give its fields in their order, each named value by its code. -/
def Obligations.RecordOutcomeFollowsItsOrder : Prop :=
  (∀ (aborted : Bool) (underrun : Nat) (holder : Holder) (sources : Quad Source) (degraded : Nat),
    (aborted = true → outcomeOf aborted underrun holder sources degraded = .aborted)
    ∧ (aborted = false → 1 ≤ underrun → outcomeOf aborted underrun holder sources degraded = .underrun)
    ∧ (aborted = false → underrun = 0 → holder = .none →
      outcomeOf aborted underrun holder sources degraded = .noView)
    ∧ (aborted = false → underrun = 0 → holder ≠ .none →
      ((∃ c : Camera, sources.get c.idx ≠ .fresh) ∨ 1 ≤ degraded →
        outcomeOf aborted underrun holder sources degraded = .degraded)
      ∧ ((∀ c : Camera, sources.get c.idx = .fresh) → degraded = 0 →
        outcomeOf aborted underrun holder sources degraded = .complete)))
  ∧ (∀ (s : State) (x : Context) (underrun : Nat) (aborted : Bool),
    let o := outcomeOf aborted underrun x.view.holder x.sources x.degraded
    let r := recordOf x underrun s.capture.drops aborted
    let t := s.appendRecord x underrun aborted
    t.log = s.log.append r ∧ t.capture = { s.capture with drops := 0 }
    ∧ r = { frame := x.frame, tag := x.setTag, plan := x.view.plan, holder := x.view.holder, lease := x.view.lease
            sources := x.sources, repaired := x.repaired, degraded := x.degraded, underrun := underrun
            dropped := s.capture.drops, divisor := x.divisor, outcome := o }
    ∧ (x.frame ≠ 4294967295 →
      t.log.next = s.log.next + 1 ∧ t.log.cursors = s.log.cursors
      ∧ (s.log.ring.length < 32 → t.log.ring = s.log.ring ++ [r])
      ∧ (32 ≤ s.log.ring.length → t.log.ring = s.log.ring.tail ++ [r]))
    ∧ (x.frame = 4294967295 → t.log.ring = [] ∧ t.log.next = 1 ∧ ∀ p, t.log.cursors.get p = 1)
    ∧ t.bothRaised .frame ∧ (o ≠ .complete → t.bothRaised .degraded)
    ∧ (o = .complete → ∀ p, (t.ports.get p).raised = (s.ports.get p).raised ||| NoticeKind.frame.mask))
  ∧ (∀ r : FrameRecord, recordBytes r =
    be4 r.frame ++ [r.tag] ++ opt1 (r.plan.map Fin.val) ++ [byte r.holder.value]
      ++ (match r.lease with
        | some (level, handle) => [byte level, byte handle]
        | none => [0xFF, 0])
      ++ Camera.all.map (fun c => (r.sources.get c.idx).byte) ++ Camera.all.map (fun c => byte (r.repaired.get c.idx))
      ++ be2 r.degraded ++ be2 r.underrun ++ [byte r.dropped, byte r.divisor, byte r.outcome.value])
  ∧ [.cp, .mp, .line, .fallback, .none].map Holder.value = List.range 5
  ∧ [.complete, .degraded, .underrun, .aborted, .noView].map FrameOutcome.value = List.range 5
  ∧ (∀ age, age ≤ 7 → [.fresh, .stale age, .blind, .mismatch, .excluded].map (fun x : Source => x.byte.toNat) =
    [0, 16 + age, 32, 48, 64])

/-- RECORD_READ, RECORD_LATEST and RECORD_REWIND on a ring of consecutive records: a read starts at the cursor, or at the
oldest record with the lost ones counted as skipped, returns up to n records and moves the port's cursor past them; the
latest is answered without moving it; a rewind sets it to the oldest record. -/
def Obligations.CursorsReadTheRing : Prop :=
  ∀ (p : Port) (s : State) (r : Request) (rest : List Request), s.recordsOk →
    (s.Ready p .recordRead r rest →
      (byteAt r.payload 0 = 0 ∨ 4 < byteAt r.payload 0 →
        exec (.recordRead p) s = .next (s.replied p r rest .range []))
      ∧ (1 ≤ byteAt r.payload 0 → byteAt r.payload 0 ≤ 4 →
        ∃ got : List FrameRecord,
          let c := s.log.cursors.get p
          let oldest := s.log.next - s.log.ring.length
          let start := max c oldest
          got = (s.log.ring.drop (start - oldest)).take (byteAt r.payload 0)
          ∧ exec (.recordRead p) s = .next
            (({ s with log := { s.log with cursors := s.log.cursors.set p (start + got.length) } } : State).replied
              p r rest .ok
              ([if c < oldest then 1 else 0] ++ be4 (oldest - c) ++ be4 (s.log.next - (start + got.length))
                ++ [byte got.length] ++ got.flatMap recordBytes))))
    ∧ (s.Ready p .recordLatest r rest →
      (s.log.ring = [] → exec (.recordLatest p) s = .next (s.replied p r rest .ok ([0] ++ be4 0 ++ be4 0 ++ [0])))
      ∧ ∀ x, s.log.ring.getLast? = some x →
        exec (.recordLatest p) s = .next
          (s.replied p r rest .ok
            ([0] ++ be4 0 ++ be4 (s.log.next - s.log.cursors.get p) ++ [1] ++ recordBytes x)))
    ∧ (s.Ready p .recordRewind r rest →
      exec (.recordRewind p) s = .next
        (({ s with
          log := { s.log with
            cursors := s.log.cursors.set p (s.log.next - s.log.ring.length) } } : State).replied p r rest .ok
          (be4 (s.log.next - s.log.ring.length) ++ be4 s.log.ring.length)))

/-! ### Power, heat and the reverse line -/

/-- STANDBY is refused STATE in STANDBY, answered OK with no effect during a standby wait, refused IN_USE while a
level-0 lease or the line lease lives, and else begins standby entry, which is taken at once with the Composer IDLE and
waits for a composition in flight. WAKE wakes the part, cancels a standby wait, or changes nothing else.
PIPELINE_RESTART is refused STATE in STANDBY and else clears lanes, sets, slots and gains, a composition in flight being
aborted first with its record: its rows leave the buffer, its frame waiting or in transmission is marked aborted, its
plan is unpinned and its fetch withdrawn, as the lanes' writes are; during a standby wait the entry follows at once. The
model's choices here: the mark of the wait means no more than the wait (log 14), a withdrawn burst stays in flight, its
data discarded (log 18, log 44), the count of a frame that has ended is kept for the record (log 22), the outputs hold no
strobe and command word from standby entry on (log 30), and the strobe interval in progress is dropped at it (log 47). -/
def Obligations.PowerRequestsActByThePowerState : Prop :=
  ∀ (p : Port) (s : State) (r : Request) (rest : List Request),
    (s.Ready p .standby r rest →
      (s.power.state = .standby → exec (.standby p) s = .next (s.replied p r rest .state []))
      ∧ (s.power.state ≠ .standby → s.power.entry = true → exec (.standby p) s = .next (s.replied p r rest .ok []))
      ∧ (s.power.state ≠ .standby → s.power.entry = false →
        (∃ l ∈ s.leases.table, l.level = 0 ∨ l.holder = .line) →
        exec (.standby p) s = .next (s.replied p r rest .inUse []))
      ∧ (s.power.state ≠ .standby → s.power.entry = false →
        (∀ l ∈ s.leases.table, l.level ≠ 0 ∧ l.holder ≠ .line) →
        (s.composer ≠ none →
          exec (.standby p) s = .next
            (({ s with power := { s.power with entry := true } } : State).replied p r rest .ok []))
        ∧ (s.composer = none →
          ∃ t, exec (.standby p) s = .next t ∧ (s.replied p r rest .ok []).sleepsTo t)))
    ∧ (s.Ready p .wake r rest →
      (s.power.state = .run →
        exec (.wake p) s = .next
          (({ s with power := { s.power with entry := false } } : State).replied p r rest .ok []))
      ∧ (s.power.state = .standby →
        ∃ t, exec (.wake p) s = .next t ∧ t.power.state = .run ∧ t.bothRaised .power ∧ t.chain.cameraPower = true
          ∧ t.chain.phase = .settling ∧ t.chain.settleAt = some (s.now + 200000)
          ∧ t.chain.lastTag = some s.chain.tag ∧ t.chain.tag = s.chain.tag + 1
          ∧ t = { s with
            chain := t.chain, lanes := t.lanes, capture := t.capture, arb := t.arb, ports := t.ports, power := t.power
            leases := t.leases, plans := { s.plans with slots := t.plans.slots } }
          ∧ (∀ id, (t.plan id).hold = (s.plan id).hold)
          ∧ quietPorts t.ports = quietPorts (s.replied p r rest .ok []).ports))
    ∧ (s.Ready p .pipelineRestart r rest →
      (s.power.state = .standby → exec (.pipelineRestart p) s = .next (s.replied p r rest .state []))
      ∧ (s.power.state ≠ .standby →
        ∃ t u, exec (.pipelineRestart p) s = .next t ∧ u.composer = none
          ∧ (∀ c, u.lane c = Lane.reset)
          ∧ u.capture.sets = [] ∧ u.capture.credit = 0
          ∧ (∀ c k, (u.capture.slot c k).hold = .free ∧ (u.capture.slot c k).pinned = false)
          ∧ (∀ c : Camera, u.capture.fresh.get c.idx = none)
          ∧ u.capture.timing = s.capture.timing ∧ u.capture.pendingTiming = s.capture.pendingTiming
          ∧ u = { s with
            composer := none, lanes := u.lanes, capture := u.capture, balance := { s.balance with gains := Quad.all 256 }
            arb := u.arb, view := u.view, log := u.log, ports := u.ports, power := s.power.reloadIdle
            plans := { s.plans with slots := u.plans.slots } }
          ∧ (∀ id, (u.plan id).hold = (s.plan id).hold)
          ∧ quietPorts u.ports = quietPorts (s.replied p r rest .ok []).ports
          ∧ u.arb = { s.arb with
            cursor := if s.composer.isSome then none else s.arb.cursor
            inFlight := match s.arb.inFlight with
              | some (.lane c addr data _) => some (.lane c addr data true)
              | some (.fetch addr w) => some (.fetch addr (w || s.composer.isSome))
              | other => other }
          ∧ (s.composer = none →
            u.log = s.log ∧ u.capture.drops = s.capture.drops ∧ u.view = s.view ∧ u.plans = s.plans)
          ∧ (∀ x, s.composer = some x →
            u.log = s.log.append (recordOf x (s.view.underrunOf x.frame) s.capture.drops true)
            ∧ u.capture.drops = 0 ∧ u.bothRaised .frame ∧ u.bothRaised .degraded ∧ u.arb.cursor = none
            ∧ (let left := fun a : Place => match a with
                | .drawing frame _ _ | .complete frame _ _ => if frame = x.frame then Place.free else a
                | .free => .free
              u.view = { s.view with
                placeA := left s.view.placeA
                placeB := left s.view.placeB
                sending := s.view.sending.map (fun y => if y.frame = x.frame then { y with aborted := true } else y)
                waiting := s.view.waiting.map (fun y => if y.frame = x.frame then { y with aborted := true } else y)
                endedCount := none })
            ∧ ∀ id, (u.plan id).refs = { (s.plan id).refs with
              pinned := if x.view.plan = some id then false else (s.plan id).refs.pinned })
          ∧ (s.power.entry = false → t = u) ∧ (s.power.entry = true → u.sleepsTo t)))

/-- REVERSE_LINE_SAMPLE: a sample equal to the debounced level clears the count, one that differs adds 1.
REVERSE_LEVEL_CHANGE at a count of 5: the level changes; in RUN it is handed to the Lease Arbiter. An activation creates
the line lease on the reverse plan, none without one, or makes a HOLDING one ACTIVE again with unlimited time; an
inactivation makes an ACTIVE one HOLDING for the hold time, or with a hold time of 0 removes it; and nothing else of the
leases changes. In STARTING, and in STANDBY with LINE wake off, the change is not handed over; in STANDBY with LINE wake
on an activation wakes the part.
TEMPERATURE_SAMPLE: the thermal state moves by at most one step, by the thresholds, and a change raises HEAT. That
the change of level is an event of its own is the model's choice (log 4, log 12). -/
def Obligations.SamplesMoveLevelAndHeat : Prop :=
  (∀ (active : Bool) (s : State), s.power.count < 5 →
    exec (.reverseLineSample active) s = .next
      { s.runTo s.power.nextReverse with
        power := { (s.runTo s.power.nextReverse).power with
          nextReverse := max s.now s.power.nextReverse + 2000
          count := if active = s.power.level then 0 else s.power.count + 1 } })
  ∧ (∀ s : State, s.power.count = 5 →
    (s.power.state = .starting ∨ (s.power.state = .standby ∧ (s.power.level = true ∨ s.power.lineWake = false)) →
      exec .reverseLevelChange s = .next { s with power := { s.power with level := !s.power.level, count := 0 } })
    ∧ (s.power.state = .standby → s.power.level = false → s.power.lineWake = true →
      ∃ t, exec .reverseLevelChange s = .next t ∧ t.power.state = .run ∧ t.power.level = true ∧ t.power.count = 0
        ∧ t.leases.handed = true ∧ t.bothRaised .power ∧ t.chain.lastTag = some s.chain.tag
          ∧ t = { s with
            chain := t.chain, lanes := t.lanes, capture := t.capture, arb := t.arb, ports := t.ports, power := t.power
            leases := t.leases, plans := { s.plans with slots := t.plans.slots } }
          ∧ (∀ id, (t.plan id).hold = (s.plan id).hold)
          ∧ quietPorts t.ports = quietPorts s.ports)
    ∧ (s.power.state = .run →
      ∃ t, exec .reverseLevelChange s = .next t ∧ t.power.state = .run ∧ t.power.level = !s.power.level
        ∧ t.power.count = 0 ∧ t.leases.handed = !s.power.level ∧ s.leasesOnly { t with power := s.power }
        ∧ t.power.entry = (s.power.entry && (s.power.level || !s.power.lineWake))
        ∧ (let handed : Leases := { s.leases with handed := !s.power.level }
          (s.power.level = false →
            (s.leases.lineLease = none →
              (s.leases.settings.reverse = none → t.leases = handed ∧ t.plans = s.plans)
              ∧ ∀ id, s.leases.settings.reverse = some id →
                t.leases = { handed with
                  table := s.leases.table ++
                    [{ handle := s.leases.nextHandle, holder := .line, level := s.leases.settings.lineLevel, plan := id
                       duration := 0, remaining := none, seq := s.leases.seqCtr, shown := false, phase := some .active }]
                  handleCtr := s.leases.nextHandle % 255 + 1
                  seqCtr := s.leases.seqCtr + 1 }
                ∧ (t.plan id).refs = { (s.plan id).refs with leases := (s.plan id).refs.leases + 1 }
                ∧ ∀ j, j ≠ id → t.plan j = s.plan j)
            ∧ ∀ l, s.leases.lineLease = some l → t.plans = s.plans
              ∧ (l.phase = some .holding →
                t.leases = { handed with
                  table := s.leases.table.map (fun m =>
                    if m.handle = l.handle then { m with phase := some .active, remaining := none } else m) })
              ∧ (l.phase ≠ some .holding → t.leases = handed))
          ∧ (s.power.level = true →
            (s.leases.lineLease = none → t.leases = handed ∧ t.plans = s.plans)
            ∧ ∀ l, s.leases.lineLease = some l →
              (l.phase ≠ some .active → t.leases = handed ∧ t.plans = s.plans)
              ∧ (l.phase = some .active → 0 < s.leases.settings.holdTime →
                t.plans = s.plans
                ∧ t.leases = { handed with
                  table := s.leases.table.map (fun m =>
                    if m.handle = l.handle then
                      { m with phase := some .holding, remaining := some (s.leases.settings.holdTime * 1000000) }
                    else m) })
              ∧ (l.phase = some .active → s.leases.settings.holdTime = 0 →
                t.leases = { handed with table := s.leases.table.filter (fun m => m.handle ≠ l.handle) }
                ∧ (t.plan l.plan).refs = { (s.plan l.plan).refs with leases := (s.plan l.plan).refs.leases - 1 }
                ∧ ∀ j, j ≠ l.plan → t.plan j = s.plan j)))))
  ∧ ∀ (d : Int) (s : State),
    let new : Thermal := match s.power.thermal with
      | .normal => if 95 ≤ d then .warm else .normal
      | .warm => if 105 ≤ d then .hot else if d < 90 then .normal else .warm
      | .hot => if 115 ≤ d then .critical else if d < 100 then .warm else .hot
      | .critical => if d < 110 then .hot else .critical
    ∃ t, exec (.temperatureSample d) s = .next t ∧ t.power.thermal = new
      ∧ t.power.nextTemp = max s.now s.power.nextTemp + 100000
      ∧ (new ≠ s.power.thermal → t.bothRaised .heat) ∧ (new = s.power.thermal → t.ports = s.ports)
      ∧ t = { s.runTo s.power.nextTemp with power := t.power, ports := t.ports } ∧ quietPorts t.ports = quietPorts s.ports

/-- STARTING_END enters RUN: POWER raised, camera power on with power settle of 200 ms, the first strobe sent.
IDLE_TIMER_EXPIRY with no lease live begins standby entry, which is taken at once with the Composer IDLE and waits for a
composition in flight. STANDBY_ENTRY takes an entry that is due: no lease is left, camera power is off and strobes have
stopped, every record is ABSENT, lanes, sets and slots are cleared, and POWER is raised. That the timebase runs on by
the idle time left, held in µs, is the model's choice (log 4, log 9), and so is that the commands which make an entry
due take it themselves (log 14), that the outputs hold no strobe and command word from the entry on (log 30), that a lane
burst granted before the entry stays in flight, its data discarded (log 18, log 44), and that the strobe interval in
progress is dropped (log 47). -/
def Obligations.RunIsEnteredAndLeftWhole : Prop :=
  (∀ s : State, s.power.state = .starting →
    ∃ t, exec .startingEnd s = .next t ∧ t.power.state = .run ∧ t.bothRaised .power ∧ t.chain.cameraPower = true
      ∧ t.chain.phase = .settling ∧ t.chain.settleAt = some (s.now + 200000) ∧ t.chain.lastTag = some s.chain.tag
      ∧ t.chain.strobeWord = some (strobeWordOf s.chain.tag) ∧ t.leases.handed = (s.power.level || s.leases.handed)
          ∧ t = { s with
            chain := t.chain, lanes := t.lanes, capture := t.capture, arb := t.arb, ports := t.ports, power := t.power
            leases := t.leases, plans := { s.plans with slots := t.plans.slots } }
          ∧ (∀ id, (t.plan id).hold = (s.plan id).hold)
          ∧ quietPorts t.ports = quietPorts s.ports)
  ∧ (∀ (s : State) (left : Nat), s.power.idle = some left → s.power.state = .run → s.power.entry = false →
    s.leases.table = [] →
    (s.composer ≠ none →
      exec .idleTimerExpiry s = .next
        { s.elapse left with power := { (s.elapse left).power with entry := true, idle := none } })
    ∧ (s.composer = none → ∃ t, exec .idleTimerExpiry s = .next t ∧ (s.elapse left).sleepsTo t))
  ∧ ∀ s : State, s.power.entry = true → s.composer = none →
    ∃ t, exec .standbyEntry s = .next t ∧ s.sleepsTo t

/-! ### Invariants -/

/-- Every step keeps the canonical form of DDR memory, which is how the model says that equal memories are equal
data; and no command but BURST_DONE and POWER_ON_RESET changes memory at all. The form, and what an unwritten byte
reads as, are the model's (log 7). -/
def Obligations.EveryStepKeepsMemoryCanonical : Prop :=
  ∀ s t : State, s.mem.wf → step s = .next t →
    t.mem.wf ∧ (s.pending.head? ≠ some .burstDone → s.pending.head? ≠ some .powerOnReset → t.mem = s.mem)

/-- Every step keeps each port's open items accounted for: they are its requests queued, in execution and answered but not
yet wholly shifted out, and never more than 4. -/
def Obligations.EveryStepKeepsOpenItemsAccounted : Prop :=
  ∀ s t : State, s.itemsOk → step s = .next t → t.itemsOk

/-- Every step keeps the records consecutive up to the next frame number, 32 at most, the cursors at most the next frame
number, and the composition in flight numbered with it. -/
def Obligations.EveryStepKeepsRecordsConsecutive : Prop :=
  ∀ s t : State, s.recordsOk → step s = .next t → t.recordsOk

/-- Every step keeps the gains within 128 to 512, the line buffers at two lines, the command queue at eight entries, and the
capture set table at four sets of different tags with one COMPOSING exactly while a composition is in flight; and a
standby wait lasts only while a composition is in flight. It keeps an entry outstanding in every OPEN set. -/
def Obligations.EveryStepKeepsTablesWithinBounds : Prop :=
  ∀ s t : State, s.gainsOk → s.queuesOk → s.setsOk → s.waitOk → step s = .next t →
    t.gainsOk ∧ t.queuesOk ∧ t.setsOk ∧ t.waitOk ∧ (s.openOk → t.openOk)

/-- Every step keeps every referenced plan VERIFIED, with the reference records following the leases, the view settings and
the composition in flight, and the lease table in order; and it keeps the plans' runs within the pool, a record long at
least, and apart from each other. -/
def Obligations.EveryStepKeepsPlansInUseVerified : Prop :=
  ∀ s t : State, step s = .next t → (s.plansOk → t.plansOk) ∧ (s.runsOk → t.runsOk)

/-- The state after power-on reset has the invariants. -/
def Obligations.ResetHasTheInvariants : Prop :=
  State.reset.mem.wf ∧ State.reset.itemsOk ∧ State.reset.recordsOk ∧ State.reset.gainsOk ∧ State.reset.queuesOk
    ∧ State.reset.setsOk ∧ State.reset.waitOk ∧ State.reset.plansOk ∧ State.reset.runsOk ∧ State.reset.openOk
end

