-- ==== Sys2Proof/Laws/State.lean ====
section
/-! SUPPORT. Updates of the state read field by field, and what taking and answering a request does to each field. -/

namespace Sys2Proof

namespace Quad
variable {α β : Type}

@[simp] theorem get_set_same (q : Quad α) (i : Fin 4) (x : α) : (q.set i x).get i = x := by
  match i with
  | 0 | 1 | 2 | 3 => rfl

theorem get_set (q : Quad α) (i j : Fin 4) (x : α) : (q.set i x).get j = if j = i then x else q.get j := by
  match i, j with
  | 0, 0 | 0, 1 | 0, 2 | 0, 3 | 1, 0 | 1, 1 | 1, 2 | 1, 3 | 2, 0 | 2, 1 | 2, 2 | 2, 3 | 3, 0 | 3, 1 | 3, 2 | 3, 3 =>
    rfl

@[simp] theorem get_map (f : α → β) (q : Quad α) (i : Fin 4) : (q.map f).get i = f (q.get i) := by
  match i with
  | 0 | 1 | 2 | 3 => rfl

@[simp] theorem get_all (x : α) (i : Fin 4) : (Quad.all x).get i = x := by
  match i with
  | 0 | 1 | 2 | 3 => rfl

@[simp] theorem set_get (q : Quad α) (i : Fin 4) : q.set i (q.get i) = q := by
  match i with
  | 0 | 1 | 2 | 3 => rfl

@[simp] theorem set_set (q : Quad α) (i : Fin 4) (x y : α) : (q.set i x).set i y = q.set i y := by
  match i with
  | 0 | 1 | 2 | 3 => rfl

theorem mem_toList (q : Quad α) (x : α) : x ∈ q.toList ↔ ∃ i, q.get i = x := by
  simp only [toList, List.mem_cons, List.not_mem_nil, or_false]
  constructor
  · rintro (h | h | h | h)
    · exact ⟨0, h.symm⟩
    · exact ⟨1, h.symm⟩
    · exact ⟨2, h.symm⟩
    · exact ⟨3, h.symm⟩
  · rintro ⟨i, h⟩
    match i with
    | 0 => exact Or.inl h.symm
    | 1 => exact Or.inr (Or.inl h.symm)
    | 2 => exact Or.inr (Or.inr (Or.inl h.symm))
    | 3 => exact Or.inr (Or.inr (Or.inr h.symm))

end Quad

namespace Trio
variable {α : Type}

@[simp] theorem get_set_same (q : Trio α) (i : SlotNo) (x : α) : (q.set i x).get i = x := by
  match i with
  | 0 | 1 | 2 => rfl

theorem get_set (q : Trio α) (i j : SlotNo) (x : α) : (q.set i x).get j = if j = i then x else q.get j := by
  match i, j with
  | 0, 0 | 0, 1 | 0, 2 | 1, 0 | 1, 1 | 1, 2 | 2, 0 | 2, 1 | 2, 2 => rfl

end Trio

namespace Duo
variable {α : Type}

@[simp] theorem get_set_same (q : Duo α) (p : Port) (x : α) : (q.set p x).get p = x := by
  cases p <;> rfl

theorem get_set (q : Duo α) (p r : Port) (x : α) : (q.set p x).get r = if r = p then x else q.get r := by
  cases p <;> cases r <;> rfl

@[simp] theorem set_get (q : Duo α) (p : Port) : q.set p (q.get p) = q := by
  cases p <;> rfl

@[simp] theorem set_set (q : Duo α) (p : Port) (x y : α) : (q.set p x).set p y = q.set p y := by
  cases p <;> rfl

end Duo

theorem Camera.idx_injective : ∀ {c d : Camera}, c.idx = d.idx → c = d := by
  intro c d
  cases c <;> cases d <;> decide

namespace Machine
variable (s : State) (p : Port)

/-! ### Time -/

@[simp] theorem elapse_mem (dt : Nat) : (s.elapse dt).mem = s.mem := rfl
@[simp] theorem elapse_now (dt : Nat) : (s.elapse dt).now = s.now + dt := rfl
@[simp] theorem elapse_pending (dt : Nat) : (s.elapse dt).pending = s.pending := rfl
@[simp] theorem elapse_chain (dt : Nat) : (s.elapse dt).chain = s.chain := rfl
@[simp] theorem elapse_lanes (dt : Nat) : (s.elapse dt).lanes = s.lanes := rfl
@[simp] theorem elapse_capture (dt : Nat) : (s.elapse dt).capture = s.capture := rfl
@[simp] theorem elapse_plans (dt : Nat) : (s.elapse dt).plans = s.plans := rfl
@[simp] theorem elapse_composer (dt : Nat) : (s.elapse dt).composer = s.composer := rfl
@[simp] theorem elapse_balance (dt : Nat) : (s.elapse dt).balance = s.balance := rfl
@[simp] theorem elapse_arb (dt : Nat) : (s.elapse dt).arb = s.arb := rfl
@[simp] theorem elapse_view (dt : Nat) : (s.elapse dt).view = s.view := rfl
@[simp] theorem elapse_log (dt : Nat) : (s.elapse dt).log = s.log := rfl
@[simp] theorem elapse_ports (dt : Nat) : (s.elapse dt).ports = s.ports := rfl

@[simp] theorem runTo_mem (t : Nat) : (s.runTo t).mem = s.mem := rfl
@[simp] theorem runTo_pending (t : Nat) : (s.runTo t).pending = s.pending := rfl
@[simp] theorem runTo_chain (t : Nat) : (s.runTo t).chain = s.chain := rfl
@[simp] theorem runTo_lanes (t : Nat) : (s.runTo t).lanes = s.lanes := rfl
@[simp] theorem runTo_capture (t : Nat) : (s.runTo t).capture = s.capture := rfl
@[simp] theorem runTo_plans (t : Nat) : (s.runTo t).plans = s.plans := rfl
@[simp] theorem runTo_composer (t : Nat) : (s.runTo t).composer = s.composer := rfl
@[simp] theorem runTo_balance (t : Nat) : (s.runTo t).balance = s.balance := rfl
@[simp] theorem runTo_arb (t : Nat) : (s.runTo t).arb = s.arb := rfl
@[simp] theorem runTo_view (t : Nat) : (s.runTo t).view = s.view := rfl
@[simp] theorem runTo_log (t : Nat) : (s.runTo t).log = s.log := rfl
@[simp] theorem runTo_ports (t : Nat) : (s.runTo t).ports = s.ports := rfl

/-- Running on to a due time leaves the timebase there, or where it already is. -/
@[simp] theorem runTo_now (t : Nat) : (s.runTo t).now = max s.now t := by
  simp only [State.runTo, elapse_now]
  omega

/-! ### Requests -/

@[simp] theorem reloadIdle_state (x : Power) : x.reloadIdle.state = x.state := rfl
@[simp] theorem reloadIdle_entry (x : Power) : x.reloadIdle.entry = x.entry := rfl
@[simp] theorem reloadIdle_thermal (x : Power) : x.reloadIdle.thermal = x.thermal := rfl
@[simp] theorem reloadIdle_rateCap (x : Power) : x.reloadIdle.rateCap = x.rateCap := rfl
@[simp] theorem reloadIdle_level (x : Power) : x.reloadIdle.level = x.level := rfl
@[simp] theorem reloadIdle_claimWake (x : Power) : x.reloadIdle.claimWake = x.claimWake := rfl
@[simp] theorem reloadIdle_lineWake (x : Power) : x.reloadIdle.lineWake = x.lineWake := rfl

theorem beginRequest_eq_taken (r : Request) (rest : List Request) : s.beginRequest p r rest = s.taken p r rest := rfl

/-- A request ready on its port runs its own rule on the state in which it is taken. -/
theorem serve_of_ready {s : State} {p : Port} {k : RequestKind} {r : Request} {rest : List Request}
    (h : s.Ready p k r rest) (body : List Byte → State → State) :
    s.serve p k body = body r.payload (s.taken p r rest) := by
  obtain ⟨he, hr, hk⟩ := h
  have hx : (s.ports.get p).ready = some (r, rest) := by simp [PortState.ready, he, hr]
  simp [State.serve, hx, hk, beginRequest_eq_taken]

/-- Without such a request nothing changes. -/
theorem serve_cases (k : RequestKind) (body : List Byte → State → State) :
    s.serve p k body = s ∨ ∃ r rest, s.Ready p k r rest ∧ s.serve p k body = body r.payload (s.taken p r rest) := by
  by_cases h : ∃ r rest, s.Ready p k r rest
  · obtain ⟨r, rest, h⟩ := h
    exact Or.inr ⟨r, rest, h, serve_of_ready h body⟩
  · refine Or.inl ?_
    unfold State.serve
    split
    · rfl
    · rename_i r rest hx
      split
      · rename_i hk
        exfalso
        apply h
        refine ⟨r, rest, ?_, ?_, hk⟩ <;> unfold PortState.ready at hx <;> split at hx <;> simp_all
      · rfl

/-- The answer of the request in execution. -/
@[simp] theorem taken_answer (r : Request) (rest : List Request) (c : Code) (bs : List Byte) :
    (s.taken p r rest).answer p c bs = s.replied p r rest c bs := by
  cases p <;> rfl

@[simp] theorem taken_refuse (r : Request) (rest : List Request) (c : Code) :
    (s.taken p r rest).refuse p c = s.replied p r rest c [] := taken_answer s p r rest c []

@[simp] theorem taken_mem (r : Request) (rest : List Request) : (s.taken p r rest).mem = s.mem := rfl
@[simp] theorem taken_now (r : Request) (rest : List Request) : (s.taken p r rest).now = s.now := rfl
@[simp] theorem taken_pending (r : Request) (rest : List Request) : (s.taken p r rest).pending = s.pending := rfl
@[simp] theorem taken_chain (r : Request) (rest : List Request) : (s.taken p r rest).chain = s.chain := rfl
@[simp] theorem taken_lanes (r : Request) (rest : List Request) : (s.taken p r rest).lanes = s.lanes := rfl
@[simp] theorem taken_capture (r : Request) (rest : List Request) : (s.taken p r rest).capture = s.capture := rfl
@[simp] theorem taken_plans (r : Request) (rest : List Request) : (s.taken p r rest).plans = s.plans := rfl
@[simp] theorem taken_leases (r : Request) (rest : List Request) : (s.taken p r rest).leases = s.leases := rfl
@[simp] theorem taken_composer (r : Request) (rest : List Request) : (s.taken p r rest).composer = s.composer := rfl
@[simp] theorem taken_balance (r : Request) (rest : List Request) : (s.taken p r rest).balance = s.balance := rfl
@[simp] theorem taken_arb (r : Request) (rest : List Request) : (s.taken p r rest).arb = s.arb := rfl
@[simp] theorem taken_view (r : Request) (rest : List Request) : (s.taken p r rest).view = s.view := rfl
@[simp] theorem taken_log (r : Request) (rest : List Request) : (s.taken p r rest).log = s.log := rfl
@[simp] theorem taken_power (r : Request) (rest : List Request) : (s.taken p r rest).power = s.power.reloadIdle := rfl

/-- An answer leaves every field but the ports alone. -/
theorem answer_frame (c : Code) (bs : List Byte) :
    ∃ x, s.answer p c bs = { s with ports := s.ports.set p x } := by
  unfold State.answer
  dsimp only
  split
  · exact ⟨s.ports.get p, by simp⟩
  · exact ⟨_, rfl⟩

theorem answer_mem (c : Code) (bs : List Byte) : (s.answer p c bs).mem = s.mem := by
  obtain ⟨x, h⟩ := answer_frame s p c bs
  rw [h]

end Machine
end Sys2Proof
end

