-- ==== Sys2Proof/Laws/Capture.lean ====
section
/-! SUPPORT. The Capture Sequencer: what a line report changes, what pins change, what a finalisation and a departure change,
and the OPEN sets that keep an entry outstanding. -/

namespace Sys2Proof.Machine

/-! ### Line reports and pins -/

/-- A change of an entry's counts alone leaves an OPEN set with an entry outstanding as it is otherwise. -/
theorem report_entry_keep (st : CaptureSet) (c : Camera) (kind : LineReport)
    (h : st.openOk) :
    st.change (fun s => s.onEntry c (fun e => e.count kind)) = st.onEntry c (fun e => e.count kind) := by
  unfold CaptureSet.change
  split
  · rfl
  · unfold CaptureSet.settle
    rw [if_neg]
    rintro ⟨ho, ha⟩
    obtain ⟨d, hd⟩ := h ho
    rw [List.all_eq_true] at ha
    have := ha ((st.onEntry c (fun e => e.count kind)).entries.get d.idx) ((Quad.mem_toList _ _).2 ⟨_, rfl⟩)
    have hs : ((st.onEntry c (fun e => e.count kind)).entries.get d.idx).status = (st.entries.get d.idx).status := by
      simp only [CaptureSet.onEntry, Quad.get_set]
      split
      · rename_i hh; rw [hh]; cases kind <;> rfl
      · rfl
    rw [hs, hd] at this
    simp at this

/-- A line report changes the counts of the entries of its camera in the sets its tag names, and nothing else (R58). -/
theorem report_eq (x : Capture) (c : Camera) (tag : Tag) (kind : LineReport) (hc : x.credit ≤ 255)
    (ho : ∀ st ∈ x.sets, st.openOk) :
    x.report c tag kind =
      { x with sets := x.sets.map (fun st => if st.tag = tag then st.onEntry c (fun e => e.count kind) else st) } := by
  have key : ∀ st ∈ x.sets, st.change (fun st => if st.tag = tag then st.onEntry c (fun e => e.count kind) else st)
      = if st.tag = tag then st.onEntry c (fun e => e.count kind) else st := by
    intro st hst
    by_cases ht : st.tag = tag
    · have := report_entry_keep st c kind (ho st hst)
      simpa [CaptureSet.change, ht] using this
    · simp [CaptureSet.change, ht]
  have hcr : x.sets.countP (fun st => closedBy st (st.change (fun st => if st.tag = tag then st.onEntry c (fun e => e.count kind) else st))) = 0 := by
    rw [List.countP_eq_zero]
    intro st hst
    rw [key st hst]
    split <;> simp [closedBy, CaptureSet.onEntry]
    all_goals intro h; simp_all
  unfold Capture.report Capture.onEntry Capture.change
  rw [hcr]
  have h1 : satAdd 255 x.credit 0 = x.credit := by unfold satAdd; omega
  rw [h1]
  congr 1
  apply List.map_congr_left
  intro st hst
  exact key st hst

/-- One camera's slot pinned. -/
def pinOne (q : Quad (Option SlotNo)) (y : Capture) (c : Camera) : Capture :=
  match q.get c.idx with
  | some k => y.setSlot c k { y.slot c k with pinned := true }
  | none => y

/-- A pin marks the one slot it names. -/
theorem pinOne_slot (q : Quad (Option SlotNo)) (y : Capture) (d c : Camera) (k : SlotNo) :
    (pinOne q y d).slot c k =
      { y.slot c k with pinned := (y.slot c k).pinned || (decide (c = d) && decide (q.get c.idx = some k)) } := by
  unfold pinOne
  cases h : q.get d.idx with
  | none =>
    by_cases hc : c = d
    · subst hc; simp [h]
    · simp [hc]
  | some j =>
    simp only [Capture.setSlot, Capture.slot, Quad.get_set]
    by_cases hc : c = d
    · subst hc
      simp only [if_true, Trio.get_set, decide_true, Bool.true_and, h]
      by_cases hk : k = j
      · subst hk; simp
      · have : ¬ j = k := fun e => hk e.symm
        simp [hk, this]
    · have : ¬ c.idx = d.idx := fun e => hc (Camera.idx_injective e)
      simp [this, hc]

/-- The slots named are pinned, and every slot keeps the rest (R47). -/
theorem pin_slot (x : Capture) (q : Quad (Option SlotNo)) (c : Camera) (k : SlotNo) :
    (x.pin q).slot c k =
      { x.slot c k with pinned := (x.slot c k).pinned || decide (q.get c.idx = some k) } := by
  have : x.pin q = pinOne q (pinOne q (pinOne q (pinOne q x .fl) .fr) .rr) .rl := rfl
  rw [this]
  simp only [pinOne_slot]
  cases c <;> simp

/-! ### Entries settled -/

/-- A change that leaves a camera's entry as it is leaves the set as it is. -/
theorem onEntry_self (st : CaptureSet) (c : Camera) (f : SetEntry → SetEntry)
    (h : f (st.entries.get c.idx) = st.entries.get c.idx) : st.onEntry c f = st := by
  unfold CaptureSet.onEntry
  rw [h, Quad.set_get]

/-- The entries after camera `c`'s takes a status that is not outstanding: none is outstanding exactly where no other
camera's is. -/
theorem all_settled (q : Quad SetEntry) (c : Camera) (e : SetEntry) (he : e.status.outstanding = false) :
    ((q.set c.idx e).toList.all (fun x => !x.status.outstanding))
      = Camera.all.all (fun d => decide (d = c) || !(q.get d.idx).status.outstanding) := by
  cases c <;> simp [Quad.toList, Quad.set, Quad.get, Camera.idx, Camera.all, he]

/-- A change of camera `c`'s entry, in the sets that `hit` names, to another status that is not outstanding: each OPEN set it
leaves with none outstanding closes COMPLETE and adds to the credit (R60, R62). -/
theorem change_hit (x : Capture) (c : Camera) (hit : CaptureSet → Bool) (v : EntryStatus) (f : CaptureSet → CaptureSet)
    (hv : v.outstanding = false) (hn : ∀ st, hit st = true → (st.entries.get c.idx).status ≠ v)
    (hf : ∀ st, f st = if hit st then st.onEntry c (fun e => { e with status := v }) else st) :
    let closes := fun st : CaptureSet => hit st && decide (st.state = .opened)
      && Camera.all.all (fun d => decide (d = c) || !(st.entries.get d.idx).status.outstanding)
    x.change f =
      { x with
        sets := x.sets.map (fun st =>
          if hit st then
            { st with
              entries := st.entries.set c.idx { st.entries.get c.idx with status := v }
              state := if closes st then .closed else st.state
              closure := if closes st then some .complete else st.closure }
          else st)
        credit := min 255 (x.credit + x.sets.countP closes) } := by
  intro closes
  have key : ∀ st : CaptureSet, st.change f =
      if hit st then
        { st with
          entries := st.entries.set c.idx { st.entries.get c.idx with status := v }
          state := if closes st then .closed else st.state
          closure := if closes st then some .complete else st.closure }
      else st := by
    intro st
    unfold CaptureSet.change
    rw [hf]
    by_cases hh : hit st = true
    · have hne : (st.onEntry c (fun e => { e with status := v })).entries ≠ st.entries := by
        intro h
        have h2 := congrArg (fun q : Quad SetEntry => (q.get c.idx).status) h
        simp [CaptureSet.onEntry] at h2
        exact hn st hh h2.symm
      simp only [hh, if_true]
      rw [if_neg hne]
      have ha := all_settled st.entries c { st.entries.get c.idx with status := v } hv
      unfold CaptureSet.settle
      simp only [CaptureSet.onEntry, ha]
      by_cases ho : st.state = .opened <;>
        cases hc : Camera.all.all (fun d => decide (d = c) || !(st.entries.get d.idx).status.outstanding) <;>
        simp [closes, hh, ho, hc]
    · simp [hh]
  have hcl : (fun st => closedBy st (st.change f)) = closes := by
    funext st
    rw [key]
    by_cases hh : hit st = true
    · by_cases ho : st.state = .opened
      · by_cases hc : closes st = true <;> simp [closedBy, hh, ho, hc]
      · have : closes st = false := by simp [closes, ho]
        simp [closedBy, ho, this]
    · have : closes st = false := by simp [closes, hh]
      simp only [hh, this]
      cases st.state <;> simp_all [closedBy]
  unfold Capture.change
  rw [hcl]
  unfold satAdd
  congr 1
  exact List.map_congr_left (fun st _ => key st)

/-- A finalisation: the slot HELD, the freshness record of a frame that is not torn, the ARRIVING entry that names the slot
settled, and the set closed COMPLETE with credit where none is outstanding then (R50, R57, R60). -/
theorem finalised_eq (x : Capture) (c : Camera) (k : SlotNo) (tag : Tag) (q : Quality) :
    let hit := fun st : CaptureSet => decide (st.tag = tag ∧ (st.entries.get c.idx).status = .arriving k)
    let closes := fun st : CaptureSet => hit st && decide (st.state = .opened)
      && Camera.all.all (fun d => decide (d = c) || !(st.entries.get d.idx).status.outstanding)
    x.finalised c k tag q =
      { x with
        slots := x.slots.set c.idx ((x.slots.get c.idx).set k { x.slot c k with hold := .held tag q })
        fresh := if q = .torn then x.fresh else x.fresh.set c.idx (some (k, tag))
        sets := x.sets.map (fun st =>
          if hit st then
            { st with
              entries := st.entries.set c.idx
                { st.entries.get c.idx with status := if q = .torn then .torn k else .present k }
              state := if closes st then .closed else st.state
              closure := if closes st then some .complete else st.closure }
          else st)
        credit := min 255 (x.credit + x.sets.countP closes) } := by
  intro hit closes
  have hf : ∀ st : CaptureSet, (if st.tag = tag then st.onEntry c (fun e =>
      if e.status = .arriving k then { e with status := if q = .torn then .torn k else .present k } else e) else st)
      = if hit st then st.onEntry c (fun e => { e with status := if q = .torn then .torn k else .present k }) else st := by
    intro st
    by_cases ht : st.tag = tag
    · by_cases ha : (st.entries.get c.idx).status = .arriving k
      · simp [hit, ht, ha, CaptureSet.onEntry]
      · rw [onEntry_self _ _ _ (by simp [ha])]; simp [hit, ha]
    · simp [hit, ht]
  unfold Capture.finalised Capture.onEntry
  dsimp only
  rw [change_hit _ c hit (if q = .torn then .torn k else .present k) _ (by split <;> rfl) (by
    intro st h
    simp only [hit, decide_eq_true_eq] at h
    rw [h.2]; split <;> simp) hf]
  by_cases hq : q = .torn <;> simp [hq, Capture.setSlot, closes]

/-- A departure: the camera's AWAITED entry of each OPEN set becomes MISSING, and the sets that leaves with none outstanding
close COMPLETE with credit (R59, R60). -/
theorem departure_eq (x : Capture) (c : Camera) :
    let hit := fun st : CaptureSet => decide (st.state = .opened ∧ (st.entries.get c.idx).status = .awaited)
    let closes := fun st : CaptureSet =>
      hit st && Camera.all.all (fun d => decide (d = c) || !(st.entries.get d.idx).status.outstanding)
    x.departure c =
      { x with
        sets := x.sets.map (fun st =>
          if hit st then
            { st with
              entries := st.entries.set c.idx { st.entries.get c.idx with status := .missing }
              state := if closes st then .closed else st.state
              closure := if closes st then some .complete else st.closure }
          else st)
        credit := min 255 (x.credit + x.sets.countP closes) } := by
  intro hit closes
  have hf : ∀ st : CaptureSet, (if st.state = .opened then
      st.onEntry c (fun e => if e.status = .awaited then { e with status := .missing } else e) else st)
      = if hit st then st.onEntry c (fun e => { e with status := .missing }) else st := by
    intro st
    by_cases ht : st.state = .opened
    · by_cases ha : (st.entries.get c.idx).status = .awaited
      · simp [hit, ht, ha, CaptureSet.onEntry]
      · rw [onEntry_self _ _ _ (by simp [ha])]; simp [hit, ha]
    · simp [hit, ht]
  unfold Capture.departure
  rw [change_hit x c hit .missing _ rfl (by
    intro st h
    simp only [hit, decide_eq_true_eq] at h
    rw [h.2]; simp) hf]
  have hc : (fun st : CaptureSet => hit st && decide (st.state = .opened)
      && Camera.all.all (fun d => decide (d = c) || !(st.entries.get d.idx).status.outstanding)) = closes := by
    funext st
    by_cases ht : st.state = .opened <;> simp [closes, hit, ht]
  have hp : ∀ st, (hit st && decide (st.state = .opened)
      && Camera.all.all (fun d => decide (d = c) || !(st.entries.get d.idx).status.outstanding)) = closes st :=
    fun st => congrFun hc st
  simp only [hp]

/-! ### OPEN sets -/

/-- After the closure test a set is OPEN only with an entry outstanding (R60). -/
theorem settle_openOk (x : CaptureSet) : x.settle.openOk := by
  unfold CaptureSet.settle CaptureSet.openOk
  split
  · intro h
    cases h
  · rename_i h
    intro ho
    simp only [ho, true_and, List.all_eq_true, not_forall] at h
    obtain ⟨e, he, hn⟩ := h
    obtain ⟨i, rfl⟩ := (Quad.mem_toList _ _).1 he
    have hi : ∃ c : Camera, c.idx = i := by
      match i with
      | 0 => exact ⟨.fl, rfl⟩
      | 1 => exact ⟨.fr, rfl⟩
      | 2 => exact ⟨.rr, rfl⟩
      | 3 => exact ⟨.rl, rfl⟩
    obtain ⟨c, rfl⟩ := hi
    exact ⟨c, by simpa using hn⟩

/-- A change of a set that opens none keeps an entry outstanding in it while it is OPEN. -/
theorem change_openOk (x : CaptureSet) (f : CaptureSet → CaptureSet) (hf : (f x).state = .opened → x.state = .opened)
    (h : x.openOk) : (x.change f).openOk := by
  unfold CaptureSet.change
  split
  · rename_i he
    intro ho
    rw [he]
    exact h (hf ho)
  · exact settle_openOk _

/-- Changes of entries keep the OPEN sets of the table so. -/
theorem onEntry_openOk (x : Capture) (c : Camera) (t : Tag) (f : SetEntry → SetEntry) (h : ∀ st ∈ x.sets, st.openOk) :
    ∀ st ∈ (x.onEntry c t f).sets, st.openOk := by
  intro st hst
  simp only [Capture.onEntry, Capture.change, List.mem_map] at hst
  obtain ⟨z, hz, rfl⟩ := hst
  refine change_openOk z _ ?_ (h z hz)
  intro ho
  by_cases ht : z.tag = t <;> simpa [ht, CaptureSet.onEntry] using ho

/-- A line report keeps the OPEN sets so. -/
theorem report_openOk (x : Capture) (c : Camera) (t : Tag) (r : LineReport) (h : ∀ st ∈ x.sets, st.openOk) :
    ∀ st ∈ (x.report c t r).sets, st.openOk := onEntry_openOk x c t _ h

/-- A new frame keeps the OPEN sets so. -/
theorem newFrame_openOk (x : Capture) (c : Camera) (t : Tag) (h : ∀ st ∈ x.sets, st.openOk) :
    ∀ st ∈ (x.newFrame c t).2.sets, st.openOk := by
  unfold Capture.newFrame
  refine onEntry_openOk _ c t _ ?_
  show ∀ st ∈ (if (x.slot c (x.choose c)).isHeld then _ else x : Capture).sets, st.openOk
  split
  · intro st hst
    simp only [Capture.change, List.mem_map] at hst
    obtain ⟨z, hz, rfl⟩ := hst
    exact change_openOk z _ (fun ho => ho) (h z hz)
  · exact h

/-- A finalisation keeps the OPEN sets so. -/
theorem finalised_openOk (x : Capture) (c : Camera) (k : SlotNo) (t : Tag) (q : Quality) (h : ∀ st ∈ x.sets, st.openOk) :
    ∀ st ∈ (x.finalised c k t q).sets, st.openOk := by
  unfold Capture.finalised
  refine onEntry_openOk _ c t _ ?_
  dsimp only
  split <;> exact h

/-- A departure keeps the OPEN sets so. -/
theorem departure_openOk (x : Capture) (c : Camera) (h : ∀ st ∈ x.sets, st.openOk) :
    ∀ st ∈ (x.departure c).sets, st.openOk := by
  intro st hst
  simp only [Capture.departure, Capture.change, List.mem_map] at hst
  obtain ⟨z, hz, rfl⟩ := hst
  refine change_openOk z _ ?_ (h z hz)
  intro ho
  by_cases hz2 : z.state = .opened
  · exact hz2
  · simp [hz2] at ho

/-- The sets a strobe keeps are sets of the table before it. -/
theorem makeRoom_mem (x : Capture) (t : Tag) : ∀ st ∈ (x.makeRoom t).1.sets, st ∈ x.sets := by
  have hd : ∀ l : List CaptureSet, ∀ st ∈ dropOldest l, st ∈ l := by
    intro l
    induction l with
    | nil => simp [dropOldest]
    | cons a r ih =>
      intro st hst
      unfold dropOldest at hst
      split at hst
      · rcases List.mem_cons.1 hst with rfl | hst
        · exact List.mem_cons_self ..
        · exact List.mem_cons_of_mem _ (ih st hst)
      · exact List.mem_cons_of_mem _ hst
  intro st hst
  unfold Capture.makeRoom at hst
  dsimp only at hst
  split at hst
  · split at hst
    · exact hst
    · split at hst
      · exact (List.mem_filter.1 (hd _ st hst)).1
      · exact (List.mem_filter.1 hst).1
  · split at hst
    · exact hd _ st hst
    · exact hst

/-- A strobe keeps the OPEN sets so, and opens one with an entry outstanding or closes it at once (R54, R60). -/
theorem strobe_openOk (x : Capture) (t : Tag) (now : Nat) (on : Quad Bool) (h : ∀ st ∈ x.sets, st.openOk) :
    ∀ st ∈ (x.strobe t now on).sets, st.openOk := by
  have hs : (x.bringTiming.ageFresh t).sets = x.sets := by
    unfold Capture.bringTiming Capture.ageFresh
    dsimp only
    split <;> rfl
  have hm := makeRoom_mem (x.bringTiming.ageFresh t) t
  rw [hs] at hm
  intro st hst
  unfold Capture.strobe at hst
  dsimp only at hst
  split at hst
  · rename_i z hz
    rw [hz] at hm
    simp only [Capture.openSet, List.mem_append, List.mem_singleton] at hst
    rcases hst with hst | rfl
    · exact h st (hm st hst)
    · exact settle_openOk _
  · rename_i z hz
    rw [hz] at hm
    exact h st (hm st hst)

/-- A window expiry keeps the OPEN sets so (R61). -/
theorem expire_openOk (x : Capture) (t : Tag) (h : ∀ st ∈ x.sets, st.openOk) :
    ∀ st ∈ (x.expire t).sets, st.openOk := by
  intro st hst
  simp only [Capture.expire, List.mem_map] at hst
  obtain ⟨z, hz, rfl⟩ := hst
  split
  · intro ho
    cases ho
  · exact h z hz

end Sys2Proof.Machine
end

