-- ==== Sys2Proof/Laws/Frames.lean ====
section
/-! SUPPORT. What the shared operations leave alone: each group of operations has a view of the state with the parts it may
change set aside, and one lemma per operation says that the view is unchanged. A field of the view is read off by congrArg. -/

namespace Sys2Proof.Machine

/-- The state with the chain, the lanes, the capture sets, the Arbiter and the raised flags set aside: what the
operations of Chain.lean and Lanes.lean leave alone. -/
def State.sansPipe (s : State) : State :=
  { s with
    chain := Chain.reset, lanes := Quad.all Lane.reset, capture := Capture.reset, arb := Arb.reset
    ports := quietPorts s.ports }

section pipe
variable (s : State) (c : Camera)

@[simp] theorem raise_sansPipe (p : Port) (k : NoticeKind) : (s.raise p k).sansPipe = s.sansPipe := by
  cases p <;> rfl

@[simp] theorem raiseBoth_sansPipe (k : NoticeKind) : (s.raiseBoth k).sansPipe = s.sansPipe := rfl

@[simp] theorem withPipe_sansPipe (a : Chain) (b : Quad Lane) (d : Capture) (e : Arb) :
    ({ s with chain := a, lanes := b, capture := d, arb := e } : State).sansPipe = s.sansPipe := rfl

@[simp] theorem grantLane_sansPipe : (s.grantLane c).sansPipe = s.sansPipe := by
  unfold State.grantLane
  dsimp only
  repeat' split
  all_goals rfl

@[simp] theorem grant_sansPipe : s.grant.sansPipe = s.sansPipe := by
  unfold State.grant
  repeat' split
  all_goals first | rfl | exact grantLane_sansPipe ..

@[simp] theorem setLane_sansPipe (x : Lane) : (s.setLane c x).sansPipe = s.sansPipe := rfl

@[simp] theorem reportError_sansPipe : (s.reportError c).sansPipe = s.sansPipe := by
  unfold State.reportError
  split <;> rfl

@[simp] theorem dropLine_sansPipe (k : TotalKind) : (s.dropLine c k).sansPipe = s.sansPipe := rfl

@[simp] theorem finaliseFrame_sansPipe (f : FrameProgress) (q : Quality) :
    (s.finaliseFrame c f q).sansPipe = s.sansPipe := rfl

@[simp] theorem takeTail_sansPipe (f : FrameProgress) (k : ConsumeKind) : (s.takeTail c f k).sansPipe = s.sansPipe := rfl

@[simp] theorem startFrame_sansPipe (t : Tag) : (s.startFrame c t).sansPipe = s.sansPipe := rfl

@[simp] theorem consumeInFrame_sansPipe (n : Nat) (payload : List Byte) :
    (s.consumeInFrame c n payload).sansPipe = s.sansPipe := by
  unfold State.consumeInFrame
  dsimp only
  repeat' split
  all_goals first | rfl | simp

@[simp] theorem beginFrame_sansPipe (t : Tag) (n : Nat) (payload : List Byte) :
    (s.beginFrame c t n payload).sansPipe = s.sansPipe := by
  unfold State.beginFrame
  dsimp only
  split <;> simp

@[simp] theorem newerLine_sansPipe (t : Tag) (n : Nat) (payload : List Byte) :
    (s.newerLine c t n payload).sansPipe = s.sansPipe := by
  unfold State.newerLine
  dsimp only
  repeat' split
  all_goals simp

@[simp] theorem assess_sansPipe (addr : Nat) (t : Tag) (n : Nat) (payload : List Byte) :
    (s.assess c addr t n payload).sansPipe = s.sansPipe := by
  unfold State.assess
  dsimp only
  repeat' split
  all_goals simp

@[simp] theorem laneBurstDone_sansPipe : (s.laneBurstDone c).sansPipe = s.sansPipe := by
  unfold State.laneBurstDone
  dsimp only
  repeat' split
  all_goals rfl

@[simp] theorem withdrawLane_sansPipe : (s.withdrawLane c).sansPipe = s.sansPipe := by
  unfold State.withdrawLane
  dsimp only
  split <;> rfl

@[simp] theorem laneDeparture_sansPipe : (s.laneDeparture c).sansPipe = s.sansPipe := by
  unfold State.laneDeparture
  dsimp only
  split <;> simp

@[simp] theorem leaveStreaming_sansPipe : (s.leaveStreaming c).sansPipe = s.sansPipe := by
  have h := laneDeparture_sansPipe s c
  simpa [State.leaveStreaming, State.sansPipe] using h

@[simp] theorem restartLanes_sansPipe : s.restartLanes.sansPipe = s.sansPipe := rfl

@[simp] theorem setCam_sansPipe (r : CamRecord) : (s.setCam c r).sansPipe = s.sansPipe := by
  unfold State.setCam
  dsimp only
  repeat' split
  all_goals simp

@[simp] theorem enqueue_sansPipe (e : ChainEntry) : (s.enqueue e).sansPipe = s.sansPipe := rfl

@[simp] theorem popCommand_sansPipe : s.popCommand.sansPipe = s.sansPipe := rfl

@[simp] theorem camFault_sansPipe (f : FaultCode) : (s.camFault c f).sansPipe = s.sansPipe := by
  unfold State.camFault
  dsimp only
  split <;> simp

@[simp] theorem camTemporary_sansPipe (f : FaultCode) : (s.camTemporary c f).sansPipe = s.sansPipe := by
  simp [State.camTemporary]

@[simp] theorem camFaultCode_sansPipe (f : FaultCode) : (s.camFaultCode c f).sansPipe = s.sansPipe := by
  unfold State.camFaultCode
  repeat' split
  all_goals simp

@[simp] theorem camLost_sansPipe : (s.camLost c).sansPipe = s.sansPipe := by
  unfold State.camLost
  simp

@[simp] theorem chainSettle_sansPipe : s.chainSettle.sansPipe = s.sansPipe := by
  unfold State.chainSettle
  split <;> rfl

@[simp] theorem unaddressAll_sansPipe : s.unaddressAll.sansPipe = s.sansPipe := by
  simp [State.unaddressAll, Camera.all]

theorem withChain_sansPipe (x : Chain) : ({ s with chain := x } : State).sansPipe = s.sansPipe := rfl

@[simp] theorem rebuild_sansPipe : s.rebuild.sansPipe = s.sansPipe := by
  unfold State.rebuild
  rw [withChain_sansPipe]
  simp

@[simp] theorem breakTest_sansPipe : s.breakTest.sansPipe = s.sansPipe := by
  unfold State.breakTest
  dsimp only
  repeat' split
  all_goals simp

@[simp] theorem streamStarts_sansPipe : s.streamStarts.sansPipe = s.sansPipe := by
  have one : ∀ (t : State) (d : Camera),
      (if (t.cam d).startPending then
        t.setCam d { t.cam d with state := .streaming, startPending := false, test := none } else t).sansPipe
        = t.sansPipe := by
    intro t d
    split <;> simp
  simp only [State.streamStarts, Camera.all, List.foldl_cons, List.foldl_nil, one]

@[simp] theorem sendStrobe_sansPipe : s.sendStrobe.sansPipe = s.sansPipe :=
  (rfl : s.sendStrobe.sansPipe = s.streamStarts.sansPipe).trans (streamStarts_sansPipe s)

@[simp] theorem camerasOn_sansPipe : s.camerasOn.sansPipe = s.sansPipe := rfl

@[simp] theorem addressingDone_sansPipe : s.addressingDone.sansPipe = s.sansPipe := by
  have one : ∀ (t : State) (d : Camera),
      (if (t.cam d).state = .addressed then t.enqueue (entryFor .identStart d .bringUp) else t).sansPipe
        = t.sansPipe := by
    intro t d
    split <;> simp
  simp only [State.addressingDone, Camera.all, List.foldl_cons, List.foldl_nil, one]

@[simp] theorem commandDone_sansPipe (f : ChainFunc) : (s.commandDone c f).sansPipe = s.sansPipe := by
  unfold State.commandDone
  dsimp only
  repeat' split
  all_goals simp

@[simp] theorem commandFailed_sansPipe (f : ChainFunc) : (s.commandFailed c f).sansPipe = s.sansPipe := by
  have fold : ∀ (l : List Camera) (t : State),
      (l.foldl (fun u d => u.setCam d { u.cam d with state := .absent }) t).sansPipe = t.sansPipe := by
    intro l
    induction l with
    | nil => intro t; rfl
    | cons d l ih => intro t; simp [ih]
  unfold State.commandFailed
  split <;> simp only [addressingDone_sansPipe, camFault_sansPipe, fold]

@[simp] theorem settleCommand_sansPipe (r : SlotResult) : (s.settleCommand c r).sansPipe = s.sansPipe := by
  unfold State.settleCommand
  repeat' split
  all_goals simp

@[simp] theorem identityCheck_sansPipe (x : List (Option Byte)) : (s.identityCheck c x).sansPipe = s.sansPipe := by
  unfold State.identityCheck
  dsimp only
  split <;> simp

@[simp] theorem identClose_sansPipe (x : IdentProgress) : (s.identClose c x).sansPipe = s.sansPipe := by
  unfold State.identClose
  dsimp only
  repeat' split
  all_goals simp

@[simp] theorem identSlot_sansPipe (x : IdentProgress) (r : SlotResult) :
    (s.identSlot c x r).sansPipe = s.sansPipe := by
  unfold State.identSlot
  dsimp only
  repeat' split
  all_goals simp

@[simp] theorem testSlot_sansPipe (k : StateCode) (f : FaultCode) : (s.testSlot c k f).sansPipe = s.sansPipe := by
  unfold State.testSlot
  dsimp only
  repeat' split
  all_goals simp

@[simp] theorem takeReply_sansPipe (r : SlotResult) : (s.takeReply c r).sansPipe = s.sansPipe := by
  unfold State.takeReply
  dsimp only
  repeat' split
  all_goals simp

@[simp] theorem countSlot_sansPipe (r : SlotResult) : (s.countSlot c r).sansPipe = s.sansPipe := by
  unfold State.countSlot
  dsimp only
  split <;> simp

@[simp] theorem slotResult_sansPipe (r : SlotResult) : (s.slotResult c r).sansPipe = s.sansPipe := by
  unfold State.slotResult
  dsimp only
  repeat' split
  all_goals simp

@[simp] theorem afterSlot_sansPipe : (s.afterSlot c).sansPipe = s.sansPipe := by
  unfold State.afterSlot
  dsimp only
  split <;> simp

@[simp] theorem restartCamera_sansPipe (p : Port) : (s.restartCamera p c).sansPipe = s.sansPipe := by
  simp [State.restartCamera]

@[simp] theorem reportAll_sansPipe : s.reportAll.sansPipe = s.sansPipe := by
  have one : ∀ (t : State) (d : Camera),
      (if (t.cam d).state = .streaming then t.leaveStreaming d else t).sansPipe = t.sansPipe := by
    intro t d
    split <;> simp
  simp only [State.reportAll, Camera.all, List.foldl_cons, List.foldl_nil, one]

end pipe

/-! ### The Lease Arbiter -/

/-- The state with the Lease Arbiter, the Plan Store's slots and the raised flags set aside: what the operations of
Leases.lean leave alone. -/
def State.sansLeases (s : State) : State :=
  { s with leases := Leases.reset, plans := { s.plans with slots := Quad.all PlanSlot.reset }, ports := quietPorts s.ports }

section leases
variable (s : State)

@[simp] theorem raise_sansLeases (p : Port) (k : NoticeKind) : (s.raise p k).sansLeases = s.sansLeases := by
  cases p <;> rfl

@[simp] theorem raiseBoth_sansLeases (k : NoticeKind) : (s.raiseBoth k).sansLeases = s.sansLeases := rfl

@[simp] theorem onRefs_sansLeases (id : PlanId) (f : PlanRefs → PlanRefs) :
    (s.onRefs id f).sansLeases = s.sansLeases := rfl

@[simp] theorem withLeases_sansLeases (x : Leases) : ({ s with leases := x } : State).sansLeases = s.sansLeases := rfl

@[simp] theorem joinLease_sansLeases (h : LeaseHolder) (level : Nat) (plan : PlanId) (d : Nat) (r : Option Nat)
    (ph : Option LinePhase) : (s.joinLease h level plan d r ph).sansLeases = s.sansLeases := rfl

@[simp] theorem removeLease_sansLeases (l : Lease) : (s.removeLease l).sansLeases = s.sansLeases := rfl

@[simp] theorem raiseLease_sansLeases (h : LeaseHolder) : (s.raiseLease h).sansLeases = s.sansLeases := by
  unfold State.raiseLease
  split <;> simp

@[simp] theorem activate_sansLeases : s.activate.sansLeases = s.sansLeases := by
  unfold State.activate
  dsimp only
  repeat' split
  all_goals rfl

@[simp] theorem inactivate_sansLeases : s.inactivate.sansLeases = s.sansLeases := by
  unfold State.inactivate
  dsimp only
  repeat' split
  all_goals rfl

@[simp] theorem showView_sansLeases : s.showView.sansLeases = s.sansLeases := by
  unfold State.showView
  dsimp only
  split <;> rfl

@[simp] theorem removeLeases_sansLeases : s.removeLeases.sansLeases = s.sansLeases := by
  have fold : ∀ (ls : List Lease) (t : State),
      (ls.foldl (fun u l => (u.removeLease l).raiseLease l.holder) t).sansLeases = t.sansLeases := by
    intro ls
    induction ls with
    | nil => intro t; rfl
    | cons l ls ih => intro t; simp [ih]
  exact fold _ _

@[simp] theorem moveFallback_sansLeases (a b : Option PlanId) : (s.moveFallback a b).sansLeases = s.sansLeases := by
  unfold State.moveFallback
  dsimp only
  repeat' split
  all_goals rfl

@[simp] theorem moveReverse_sansLeases (a b : Option PlanId) : (s.moveReverse a b).sansLeases = s.sansLeases := by
  unfold State.moveReverse
  dsimp only
  repeat' split
  all_goals rfl

@[simp] theorem setViews_sansLeases (v : ViewSettings) : (s.setViews v).sansLeases = s.sansLeases := by
  simp [State.setViews]

end leases

/-! ### The Composer's walk -/

/-- A composition context with the place of its walk set aside. -/
def Context.still (x : Context) : Context := { x with row := 0, col := 0, phase := .drawing, draws := [] }

/-- The state with the place of the walk, the View Lane, the lanes and the Arbiter set aside: what the operations of
Walk.lean leave alone. -/
def State.sansWalk (s : State) : State :=
  { s with
    composer := s.composer.map Context.still, view := ViewLane.reset, lanes := Quad.all Lane.reset, arb := Arb.reset }

section walk
variable (s : State)

@[simp] theorem grantLane_sansWalk (c : Camera) : (s.grantLane c).sansWalk = s.sansWalk := by
  unfold State.grantLane
  dsimp only
  repeat' split
  all_goals rfl

@[simp] theorem grant_sansWalk : s.grant.sansWalk = s.sansWalk := by
  unfold State.grant
  repeat' split
  all_goals first | rfl | exact grantLane_sansWalk ..

@[simp] theorem withView_sansWalk (v : ViewLane) : ({ s with view := v } : State).sansWalk = s.sansWalk := rfl

theorem onDraw_still (x : Context) (k : Nat) (f : Draw → Draw) : (x.onDraw k f).still = x.still := rfl

theorem handMesh_sansWalk (x : Context) (k : Nat) (d : Draw) :
    (s.handMesh x k d).sansWalk = ({ s with composer := some x } : State).sansWalk := by
  simp only [State.handMesh, grant_sansWalk]
  rfl

theorem handBox_sansWalk (x : Context) (k : Nat) (d : Draw) (b : Box) :
    (s.handBox x k d b).sansWalk = ({ s with composer := some x } : State).sansWalk := by
  simp only [State.handBox, grant_sansWalk]
  rfl

theorem beginTile_sansWalk (x : Context) :
    (s.beginTile x).sansWalk = ({ s with composer := some x } : State).sansWalk := by
  unfold State.beginTile
  split
  · rfl
  · rw [handMesh_sansWalk]
    rfl

theorem beginRow_sansWalk (x : Context) :
    (s.beginRow x).sansWalk = ({ s with composer := some x } : State).sansWalk := by
  unfold State.beginRow
  split
  · rfl
  · rw [beginTile_sansWalk]
    rfl

@[simp] theorem rowLeft_sansWalk : s.rowLeft.sansWalk = s.sansWalk := by
  unfold State.rowLeft
  split
  · rename_i x hx
    split
    · rw [beginRow_sansWalk]
      simp [State.sansWalk, hx]
    · rfl
  · rfl

theorem areaFetched_sansWalk (x : Context) (k : Nat) :
    (s.areaFetched x k).sansWalk = ({ s with composer := some x } : State).sansWalk := by
  unfold State.areaFetched
  split
  · exact handMesh_sansWalk ..
  · rfl

@[simp] theorem fetchBurstDone_sansWalk (addr : Nat) : (s.fetchBurstDone addr).sansWalk = s.sansWalk := by
  unfold State.fetchBurstDone
  split
  · rfl
  · rename_i x hx
    dsimp only
    split
    · simp [State.sansWalk, State.dropCursor, hx, Context.still, Context.onDraw]
    · split
      · rw [areaFetched_sansWalk]
        simp [State.sansWalk, State.dropCursor, hx, Context.still, Context.onDraw]
      · simp [State.sansWalk, hx, Context.still, Context.onDraw]
    · rfl

@[simp] theorem leaveBuffer_sansWalk (frame row : Nat) : (s.leaveBuffer frame row).sansWalk = s.sansWalk := by
  unfold State.leaveBuffer
  split <;> simp

end walk

end Sys2Proof.Machine
end

