-- ==== Sys2Proof/Laws/Chain.lean ====
section
/-! SUPPORT. What the operations of the chain do to the camera table, the queue and the interval: each is said of `chain`
alone, and `pipeOnly` gives the rest of the frame. -/

namespace Sys2Proof.Machine

/-! ### From a view to a frame -/

/-- Two states with one view differ in the chain, the lanes, the capture sets, the Arbiter and raised flags alone. -/
theorem pipeOnly_of_sansPipe {s t : State} (h : t.sansPipe = s.sansPipe) : s.pipeOnly t := by
  cases s
  cases t
  simp only [State.sansPipe, State.mk.injEq, State.pipeOnly] at h ⊢
  tauto

theorem sansPipe_of_pipeOnly {s t : State} (h : s.pipeOnly t) : t.sansPipe = s.sansPipe := by
  obtain ⟨h1, h2⟩ := h
  rw [h1]
  simp only [State.sansPipe]
  rw [h2]

/-- The answer of a request is the same up to raised flags in two states of one view. -/
theorem answer_sansPipe {a b : State} (p : Port) (c : Code) (bs : List Byte) (h : a.sansPipe = b.sansPipe) :
    (a.answer p c bs).sansPipe = (b.answer p c bs).sansPipe := by
  have hq : quietPorts a.ports = quietPorts b.ports := congrArg State.ports h
  have hx : (a.ports.get p).quiet = (b.ports.get p).quiet := by
    cases p
    · exact congrArg Duo.cp hq
    · exact congrArg Duo.mp hq
  have he : (a.ports.get p).executing = (b.ports.get p).executing :=
    (rfl : _ = (a.ports.get p).quiet.executing).trans (hx ▸ rfl)
  unfold State.answer
  dsimp only
  rw [he]
  split
  · exact h
  · cases a
    cases b
    simp only [State.sansPipe, State.mk.injEq] at h hx ⊢
    refine ⟨h.1, h.2.1, h.2.2.1, trivial, trivial, trivial, h.2.2.2.2.2.2.1, h.2.2.2.2.2.2.2.1, h.2.2.2.2.2.2.2.2.1,
      h.2.2.2.2.2.2.2.2.2.1, trivial, h.2.2.2.2.2.2.2.2.2.2.2.1, h.2.2.2.2.2.2.2.2.2.2.2.2.1, ?_,
      h.2.2.2.2.2.2.2.2.2.2.2.2.2.2⟩
    simp only [PortState.quiet, PortState.mk.injEq] at hx
    cases p <;>
      simp only [Duo.set, Duo.get, quietPorts, PortState.quiet, Duo.mk.injEq, PortState.mk.injEq] at hq hx ⊢ <;>
      tauto

/-- An operation of one view, run on a request that is taken and then answered, answers like a plain reply. -/
theorem answered_pipeOnly {s u : State} {p : Port} {r : Request} {rest : List Request} (c : Code) (bs : List Byte)
    (h : u.sansPipe = (s.taken p r rest).sansPipe) : (s.replied p r rest c bs).pipeOnly (u.answer p c bs) := by
  apply pipeOnly_of_sansPipe
  rw [← taken_answer]
  exact answer_sansPipe p c bs h

@[simp] theorem answer_chain (s : State) (p : Port) (c : Code) (bs : List Byte) : (s.answer p c bs).chain = s.chain := by
  obtain ⟨x, h⟩ := answer_frame s p c bs
  rw [h]

@[simp] theorem answer_cam (s : State) (p : Port) (c : Code) (bs : List Byte) (d : Camera) :
    (s.answer p c bs).cam d = s.cam d := by
  simp [State.cam]

/-! ### Camera records -/

@[simp] theorem raiseBoth_chain (s : State) (k : NoticeKind) : (s.raiseBoth k).chain = s.chain := rfl

@[simp] theorem leaveStreaming_chain (s : State) (c : Camera) : (s.leaveStreaming c).chain = s.chain := by
  unfold State.leaveStreaming State.laneDeparture State.withdrawLane
  dsimp only
  repeat' split
  all_goals rfl

/-- A record written changes the camera table at its place, and nothing else of the chain. -/
@[simp] theorem setCam_chain (s : State) (c : Camera) (r : CamRecord) :
    (s.setCam c r).chain = { s.chain with table := s.chain.table.set c.idx r } := by
  unfold State.setCam
  dsimp only
  repeat' split
  all_goals simp

@[simp] theorem cam_setCam_same (s : State) (c : Camera) (r : CamRecord) : (s.setCam c r).cam c = r := by
  simp [State.cam]

theorem cam_setCam_other (s : State) {c d : Camera} (r : CamRecord) (h : d ≠ c) : (s.setCam c r).cam d = s.cam d := by
  have : d.idx ≠ c.idx := fun e => h (Camera.idx_injective e)
  simp [State.cam, Quad.get_set, this]

theorem cam_setCam (s : State) (c d : Camera) (r : CamRecord) :
    (s.setCam c r).cam d = if d = c then r else s.cam d := by
  split
  · rename_i h
    rw [h, cam_setCam_same]
  · rename_i h
    exact cam_setCam_other s r h

@[simp] theorem enqueue_table (x : Chain) (e : ChainEntry) : (x.enqueue e).table = x.table := by
  unfold Chain.enqueue
  split <;> rfl

@[simp] theorem enqueue_interval (x : Chain) (e : ChainEntry) : (x.enqueue e).interval = x.interval := by
  unfold Chain.enqueue
  split <;> rfl

@[simp] theorem cam_enqueue (s : State) (e : ChainEntry) (d : Camera) : (s.enqueue e).cam d = s.cam d := by
  simp [State.cam, State.enqueue]

/-- A write that keeps a record's state touches the chain alone. -/
theorem setCam_of_state {s : State} {c : Camera} {r : CamRecord} (h : r.state = (s.cam c).state) :
    s.setCam c r = { s with chain := { s.chain with table := s.chain.table.set c.idx r } } := by
  unfold State.setCam
  dsimp only
  rw [if_pos h, if_neg]
  rintro ⟨h1, h2⟩
  exact h2 (h.trans h1)

/-- The chain queue never grows past eight entries by an entry that joins. -/
theorem enqueue_length_le (x : Chain) (e : ChainEntry) (h : x.queue.length ≤ 8) : (x.enqueue e).queue.length ≤ 8 := by
  unfold Chain.enqueue
  split
  · simp only [List.length_append, List.length_cons, List.length_nil]
    omega
  · exact h

/-- The settling of a bring-up changes the phase alone. -/
theorem chainSettle_chain (s : State) : ∃ f, s.chainSettle.chain = { s.chain with phase := f } := by
  unfold State.chainSettle
  split
  · exact ⟨_, rfl⟩
  · exact ⟨s.chain.phase, rfl⟩

theorem chainSettle_parts (s : State) :
    s.chainSettle.lanes = s.lanes ∧ s.chainSettle.capture = s.capture ∧ s.chainSettle.arb = s.arb := by
  unfold State.chainSettle
  split <;> exact ⟨rfl, rfl, rfl⟩

@[simp] theorem cam_chainSettle (s : State) (d : Camera) : s.chainSettle.cam d = s.cam d := by
  obtain ⟨f, h⟩ := chainSettle_chain s
  simp [State.cam, h]

/-! ### Notices -/

theorem raiseBoth_bothRaised (s : State) (k : NoticeKind) : (s.raiseBoth k).bothRaised k := by
  have hm : ∀ (x : BitVec 10), (x ||| k.mask) &&& k.mask ≠ 0 := by
    intro x h
    have h1 : k.mask &&& ((x ||| k.mask) &&& k.mask) = k.mask := by
      ext i
      simp
      cases k.mask[i] <;> simp
    rw [h] at h1
    cases k <;> simp [NoticeKind.mask] at h1
  intro q
  cases q
  · exact hm _
  · exact hm _

end Sys2Proof.Machine
end

