-- ==== Sys2Proof/Laws/Walk.lean ====
section
/-! SUPPORT. What a grant, the start of a tile and the start of a row do, each as an update of the fields it touches. -/

namespace Sys2Proof.Machine

/-- Lanes that differ in what they are busy with alone. -/
def sameButBusy (x y : Quad Lane) : Prop := ∀ i, y.get i = { x.get i with busy := (y.get i).busy }

theorem sameButBusy_refl (x : Quad Lane) : sameButBusy x x := fun _ => rfl

/-- A grant changes the Arbiter, and of the lanes only what they are busy with. -/
theorem grant_frame (s : State) : ∃ l a, s.grant = { s with lanes := l, arb := a } ∧ sameButBusy s.lanes l := by
  unfold State.grant State.grantLane
  dsimp only
  repeat' split
  all_goals refine ⟨_, _, rfl, ?_⟩
  all_goals first
    | exact sameButBusy_refl _
    | intro i
      rw [Quad.get_set]
      split
      · rename_i h
        rw [h]
      · rfl

/-- A grant to a pending lane puts its burst in flight. -/
theorem grantLane_busy (s : State) (c : Camera) (h : (s.lanes.get c.idx).pending = true) :
    (s.grantLane c).arb.inFlight ≠ none := by
  unfold Lane.pending at h
  unfold State.grantLane
  dsimp only
  split at h
  · rename_i b hb
    rw [hb]
    unfold Consumption.nextBurst
    cases hw : b.writes with
    | nil => simp [hw] at h
    | cons w ws =>
      have : b.granted < Config.lineBursts := by simpa [hw] using h
      simp only [hw, this, if_true]
      exact Option.some_ne_none _
  · simp at h

/-- A second grant at once grants nothing more (R149). -/
theorem grant_grant (s : State) : s.grant.grant = s.grant := by
  have key : s.grant.arb.inFlight ≠ none ∨ s.grant = s := by
    unfold State.grant
    split
    · exact Or.inr rfl
    · split
      · rename_i c hc
        have := List.find?_some hc
        exact Or.inl (grantLane_busy s c (by simpa using this))
      · split
        · rename_i a ha
          left
          unfold Arb.grantPool at ha
          split at ha
          · simp at ha
          · split at ha
            · simp at ha
            · simp at ha; subst ha; simp
        · split
          · rename_i a ha
            left
            unfold Arb.grantFetch at ha
            split at ha
            · simp at ha
            · simp at ha; subst ha; simp
          · exact Or.inr rfl
  rcases key with h | h
  · cases hi : s.grant.arb.inFlight with
    | none => exact absurd hi h
    | some b =>
      generalize s.grant = u at hi
      unfold State.grant
      simp only [hi]
  · rw [h, h]

/-- A mesh read handed over changes the composition's place, the Arbiter, and what lanes are busy with. -/
theorem handMesh_frame (s : State) (x : Context) (k : Nat) (d : Draw) :
    ∃ l a, s.handMesh x k d =
      { s with composer := some { x with phase := .fetching (.meshRead k) }, lanes := l, arb := a }
      ∧ sameButBusy s.lanes l := by
  unfold State.handMesh
  obtain ⟨l, a, h, hl⟩ := grant_frame
    { s with
      composer := some { x with phase := .fetching (.meshRead k) }
      arb := { s.arb with cursor := some (.mesh k (s.viewBase x + d.mesh)) } }
  exact ⟨l, a, h, hl⟩

/-- A tile begun changes the composition's phase and boxes, the Arbiter, and what lanes are busy with. -/
theorem beginTile_frame (s : State) (x : Context) :
    ∃ l a ph ds, s.beginTile x =
      { s with composer := some { x with phase := ph, draws := ds }, lanes := l, arb := a }
      ∧ sameButBusy s.lanes l := by
  unfold State.beginTile
  split
  · exact ⟨s.lanes, s.arb, _, _, rfl, sameButBusy_refl _⟩
  · rename_i d ds _
    obtain ⟨l, a, h, hl⟩ := handMesh_frame s { x with draws := d :: ds } 0 d
    exact ⟨l, a, _, _, h, hl⟩

/-- A tile begun is begun as the statements say. -/
theorem beginTile_begun (u : State) (y : Context) : u.tileBegun y (u.beginTile y) :=
  ⟨fun h => by unfold State.beginTile; rw [h], fun d ds h => by unfold State.beginTile; rw [h]; rfl⟩

/-- A grant does not look at the view lane. -/
theorem grant_view (s : State) (v : ViewLane) : ({ s with view := v } : State).grant = { s.grant with view := v } := by
  unfold State.grant State.grantLane
  dsimp only
  repeat' split
  all_goals rfl

/-- The beginning of a tile does not look at the view lane. -/
theorem tileBegun_view (u : State) (y : Context) (t : State) (v : ViewLane) (h : u.tileBegun y t) :
    ({ u with view := v } : State).tileBegun y { t with view := v } :=
  ⟨fun h0 => by rw [h.1 h0], fun d ds h0 => by rw [h.2 d ds h0]; exact (grant_view _ _).symm⟩

/-- A row begun in the row buffer changes its two places alone. -/
theorem view_beginRow_frame (v : ViewLane) (frame row : Nat) :
    ∃ a b, v.beginRow frame row = { v with placeA := a, placeB := b } := by
  unfold ViewLane.beginRow
  repeat' split
  all_goals exact ⟨_, _, rfl⟩

/-- The row test changes the composition's phase and boxes, the places, the Arbiter, and what lanes are busy with. -/
theorem beginRow_frame (s : State) (x : Context) :
    ∃ l a ph ds pa pb, s.beginRow x =
      { s with
        composer := some { x with phase := ph, draws := ds }
        view := { s.view with placeA := pa, placeB := pb }
        lanes := l, arb := a }
      ∧ sameButBusy s.lanes l := by
  unfold State.beginRow
  split
  · exact ⟨s.lanes, s.arb, _, x.draws, s.view.placeA, s.view.placeB, rfl, sameButBusy_refl _⟩
  · obtain ⟨l, a, ph, ds, h, hl⟩ := beginTile_frame { s with view := s.view.beginRow x.frame x.row } x
    obtain ⟨pa, pb, hv⟩ := view_beginRow_frame s.view x.frame x.row
    rw [hv] at h
    rw [hv]
    exact ⟨l, a, ph, ds, pa, pb, h, hl⟩

/-- The newest CLOSED set is the last one that is CLOSED. -/
theorem newestClosed_append (older newer : List CaptureSet) (st : CaptureSet) (h : st.state = .closed)
    (hn : ∀ z ∈ newer, z.state ≠ .closed) : newestClosed (older ++ st :: newer) = some (st, newer) := by
  have h0 : newestClosed newer = none := by
    clear h
    induction newer with
    | nil => rfl
    | cons a t ih =>
      simp only [List.mem_cons, forall_eq_or_imp] at hn
      simp [newestClosed, ih hn.2, hn.1]
  induction older with
  | nil => simp [newestClosed, h0, h]
  | cons a t ih => simp [newestClosed, ih]

end Sys2Proof.Machine
end

