-- ==== Sys2Proof/Laws/Compose.lean ====
section
/-! SUPPORT. What a record appended, a composition released and an abort do, each as an update of the fields it touches. -/

namespace Sys2Proof.Machine

/-- A flag set stays set through a raise of any kind. -/
theorem raiseBoth_keeps {s : State} {j : NoticeKind} (k : NoticeKind) (h : s.bothRaised j) : (s.raiseBoth k).bothRaised j := by
  have hm : ∀ x y m : BitVec 10, x &&& m ≠ 0 → (x ||| y) &&& m ≠ 0 := by
    intro x y m hx hy
    apply hx
    have h1 : x &&& m = x &&& ((x ||| y) &&& m) := by
      ext i
      simp
      cases x[i] <;> simp
    rw [h1, hy]
    simp
  intro q
  cases q
  · exact hm _ _ _ (h .cp)
  · exact hm _ _ _ (h .mp)

/-- An append writes the log, clears the drop count and raises notices; FRAME is raised on both ports. -/
theorem appendRecord_frame (s : State) (x : Context) (n : Nat) (ab : Bool) :
    (∃ pp, s.appendRecord x n ab =
      { s with
        log := s.log.append (recordOf x n s.capture.drops ab), capture := { s.capture with drops := 0 }, ports := pp })
    ∧ (s.appendRecord x n ab).bothRaised .frame
    ∧ quietPorts (s.appendRecord x n ab).ports = quietPorts s.ports := by
  unfold State.appendRecord
  dsimp only
  split
  · exact ⟨⟨_, rfl⟩, raiseBoth_bothRaised _ _, rfl⟩
  · exact ⟨⟨_, rfl⟩, raiseBoth_keeps _ (raiseBoth_bothRaised _ _), rfl⟩

/-- The release of a composition drops the context and the kept count, retires the set, and unpins the slots and the plan. -/
theorem releaseComposition_frame (s : State) (x : Context) :
    (∃ pl, s.releaseComposition x =
      { s with
        composer := none, capture := s.capture.endComposition, view := s.view.countTaken, plans := pl })
    ∧ ∀ id, x.view.plan = some id → ((s.releaseComposition x).plan id).refs.pinned = false := by
  constructor
  · unfold State.releaseComposition
    dsimp only
    split <;> exact ⟨_, rfl⟩
  · intro id h
    unfold State.releaseComposition
    simp only [h]
    simp [State.plan, State.onRefs, State.setPlan]

/-- An abort withdraws the fetch, takes the picture out of the View Lane's buffer and marks it, appends the record, and
unpins the plan (R136, R156). -/
theorem abortComposition_spec (s : State) (x : Context) (h : s.composer = some x) :
    let t := s.abortComposition
    (∃ pp pl, t =
      { s with
        composer := none, arb := s.arb.withdrawFetch, view := (s.view.abort x.frame).countTaken
        log := s.log.append (recordOf x ((s.view.abort x.frame).underrunOf x.frame) s.capture.drops true)
        capture := ({ s.capture with drops := 0 } : Capture).endComposition, ports := pp, plans := pl })
    ∧ t.bothRaised .frame ∧ quietPorts t.ports = quietPorts s.ports
    ∧ ∀ id, t.plan id = { s.plan id with refs := { (s.plan id).refs with
        pinned := if x.view.plan = some id then false else (s.plan id).refs.pinned } } := by
  intro t
  let a : State := { s with arb := s.arb.withdrawFetch, view := s.view.abort x.frame }
  let n := a.view.underrunOf x.frame
  have ht : t = (a.appendRecord x n true).releaseComposition x := by
    simp only [t, State.abortComposition, h]
    rfl
  obtain ⟨⟨pp, ha⟩, hf, hq⟩ := appendRecord_frame a x n true
  obtain ⟨⟨pl, hr⟩, _⟩ := releaseComposition_frame (a.appendRecord x n true) x
  have hp : t.ports = (a.appendRecord x n true).ports := by rw [ht, hr]
  refine ⟨⟨pp, pl, ?_⟩, ?_, ?_, ?_⟩
  · rw [ht, hr, ha]
  · unfold State.bothRaised
    rw [hp]
    exact hf
  · rw [hp]
    exact hq
  · intro id
    rw [ht, ha]
    unfold State.releaseComposition
    dsimp only
    cases hv : x.view.plan with
    | none => simp; rfl
    | some j =>
      simp only [State.plan, State.onRefs, State.setPlan, Quad.get_set]
      by_cases e : id = j
      · subst e
        simp
        exact ⟨rfl, rfl, rfl, rfl⟩
      · have : ¬j = id := fun k => e k.symm
        simp [e, this]
        rfl

end Sys2Proof.Machine
end

