-- ==== Sys2Proof/Laws/Departs.lean ====
section
/-! SUPPORT. Departures from STREAMING: they depend on the lanes, the capture sets and the Arbiter alone, and a record written
is a departure exactly where it leaves STREAMING. -/

namespace Sys2Proof.Machine

/-- The blocks a departure reads and changes. -/
def State.intake (s : State) : Quad Lane × Capture × Arb := (s.lanes, s.capture, s.arb)

/-- A departure reads no other block. -/
theorem leaveStreaming_intake {s t : State} (c : Camera) (h : s.intake = t.intake) :
    (s.leaveStreaming c).intake = (t.leaveStreaming c).intake := by
  simp only [State.intake, Prod.mk.injEq] at h
  obtain ⟨h1, h2, h3⟩ := h
  have hw : (s.withdrawLane c).lanes = (t.withdrawLane c).lanes ∧ (s.withdrawLane c).capture = (t.withdrawLane c).capture
      ∧ (s.withdrawLane c).arb = (t.withdrawLane c).arb := by
    unfold State.withdrawLane State.lane
    rw [h1]
    dsimp only
    cases (t.lanes.get c.idx).busy with
    | none => exact ⟨h1, h2, h3⟩
    | some b => exact ⟨rfl, h2, by rw [h3]⟩
  obtain ⟨w1, w2, w3⟩ := hw
  unfold State.leaveStreaming State.laneDeparture State.lane State.intake
  dsimp only
  rw [w1]
  cases ((t.withdrawLane c).lanes.get c.idx).frame with
  | none => dsimp only; rw [w1, w2, w3]
  | some f => dsimp only [State.finaliseFrame, State.lane]; rw [w1, w2, w3]

/-- A record written is a departure where it leaves STREAMING, and else leaves these blocks as they are (R8). -/
theorem setCam_intake (s : State) (c : Camera) (r : CamRecord) :
    (s.setCam c r).intake =
      (if (s.cam c).state = .streaming ∧ r.state ≠ .streaming then s.leaveStreaming c else s).intake := by
  have key : ∀ u : State, u.intake = s.intake → (u.leaveStreaming c).intake = (s.leaveStreaming c).intake :=
    fun u h => leaveStreaming_intake c h
  unfold State.setCam
  dsimp only
  split
  · apply key
    split <;> rfl
  · split <;> rfl

theorem departs_iff (s : State) (gone : Camera → Bool) (t : State) :
    s.departs gone t ↔
      t.intake = (Camera.all.foldl (fun v c => if gone c then v.leaveStreaming c else v) s).intake := by
  simp [State.departs, State.intake]

/-- One position alone, or none, departs. -/
theorem departs_one (s : State) (c : Camera) (b : Bool) (t : State)
    (h : t.intake = (if b then s.leaveStreaming c else s).intake) : s.departs (fun d => decide (d = c) && b) t := by
  rw [departs_iff, h]
  cases c <;> cases b <;> simp [Camera.all]

end Sys2Proof.Machine
end

