-- ==== Sys2Proof/Laws/Lanes.lean ====
section
/-! SUPPORT. Lane Intake: the gap of missing lines, and the frame that begins when a line of a newer one has reached step 8. -/

namespace Sys2Proof.Machine

/-- A torn frame takes no repair, and no missing line changes nothing (R36). -/
theorem gap_none (f : FrameProgress) (copy : Option Retained) (e count : Nat) (h : f.torn = true ∨ count = 0) :
    f.gap copy e count = (f, []) := by
  unfold FrameProgress.gap
  rw [if_pos h.symm]

/-- The gap before a new frame's first line: there is no line of the frame to repair from, and any gap tears it (R34, R36). -/
theorem gap_of_new (f : FrameProgress) (copy : Option Retained) (n : Nat) (hf : f.torn = false) :
    f.gap (copy.map (fun r => { r with ofFrame := false })) 0 n = ({ f with torn := decide (0 < n) }, []) := by
  rcases Nat.eq_zero_or_pos n with rfl | h0
  · rw [gap_none f _ 0 0 (Or.inr rfl)]
    cases f
    simp_all
  · unfold FrameProgress.gap
    rw [if_neg (by simp [hf]; omega)]
    cases copy <;> simp [h0]

/-- The frame filling, if one is, is finalised, and the new frame is in the slot chosen for it with the line to write (R34). -/
theorem beginFrame_eq (s : State) (c : Camera) (tag : Tag) (n : Nat) (payload : List Byte) :
    s.beginFrame c tag n payload =
      let cap := match (s.lane c).frame with
        | none => s.capture
        | some f => s.capture.finalised c f.slot f.tag f.quality
      ({ s with
        capture := (cap.newFrame c tag).2
        lanes := s.lanes.set c.idx
          { s.lane c with
            closedTag := match (s.lane c).frame with
              | none => (s.lane c).closedTag
              | some f => some f.tag
            retained := (s.lane c).retained.map (fun r => { r with ofFrame := false })
            frame := some
              { slot := (cap.newFrame c tag).1, tag := tag, nextLine := n, limit := s.capture.timing.repair
                repaired := 0, torn := decide (0 < n), deadline := s.now + 2 * s.capture.timing.period * Config.ms }
            busy := some
              { kind := .line n payload
                writes := [{ slot := (cap.newFrame c tag).1, line := n, data := payload, kind := .own }]
                granted := 0, ownDone := false } } } : State).grant := by
  unfold State.beginFrame
  cases hf : (s.lane c).frame with
  | none =>
    simp only [State.startFrame, State.consumeInFrame, State.lane, Quad.get_set_same, Nat.not_lt_zero, if_false, Nat.sub_zero]
    rw [gap_of_new _ _ _ rfl]
    simp [State.setLane]
  | some f =>
    have ht : ∀ q, (s.capture.finalised c f.slot f.tag q).timing = s.capture.timing := fun q => by rw [finalised_eq]
    simp only [State.finaliseFrame, State.startFrame, State.consumeInFrame, State.lane, Quad.get_set_same, Nat.not_lt_zero,
      if_false, Nat.sub_zero]
    rw [gap_of_new _ _ _ rfl]
    simp [State.setLane, ht, Function.comp_def]

end Sys2Proof.Machine
end

