-- ==== Sys2Proof/Laws/Leases.lean ====
section
/-! SUPPORT. The line lease: what an activation and an inactivation change, and a change of the debounced level in RUN. -/

namespace Sys2Proof.Machine

/-- A change of one plan's reference record leaves the other plans, and what the plan holds. -/
theorem onRefs_plan (s : State) (id j : PlanId) (f : PlanRefs → PlanRefs) :
    ((s.onRefs id f).plan j) = if j = id then { s.plan id with refs := f (s.plan id).refs } else s.plan j := by
  simp only [State.onRefs, State.plan, State.setPlan, Quad.get_set]

/-- An activation: the line lease created on the reverse plan, or a HOLDING one ACTIVE again (R103). -/
theorem activate_spec (s : State) :
    let handed : Leases := { s.leases with handed := true }
    let t := s.activate
    (s.leases.lineLease = none →
      (s.leases.settings.reverse = none → t.leases = handed ∧ t.plans = s.plans)
      ∧ ∀ id, s.leases.settings.reverse = some id →
        t.leases = { handed with
          table := s.leases.table ++
            [{ handle := s.leases.nextHandle, holder := .line, level := s.leases.settings.lineLevel, plan := id
               duration := 0, remaining := none, seq := s.leases.seqCtr, shown := false, phase := some .active }]
          handleCtr := s.leases.nextHandle % 255 + 1
          seqCtr := s.leases.seqCtr + 1 }
        ∧ (t.plan id).refs = { (s.plan id).refs with leases := (s.plan id).refs.leases + 1 }
        ∧ ∀ j, j ≠ id → t.plan j = s.plan j)
    ∧ ∀ l, s.leases.lineLease = some l → t.plans = s.plans
      ∧ (l.phase = some .holding →
        t.leases = { handed with
          table := s.leases.table.map (fun m =>
            if m.handle = l.handle then { m with phase := some .active, remaining := none } else m) })
      ∧ (l.phase ≠ some .holding → t.leases = handed) := by
  intro handed t
  have hl : handed.lineLease = s.leases.lineLease := rfl
  have hh : 1 ≤ s.leases.nextHandle := by
    unfold Leases.nextHandle
    rcases hf : ((List.range 255).map (handleAfter s.leases.handleCtr)).find? (fun h => !s.leases.bears h) with _ | v
    · simp [handleAfter]
    · have := List.mem_of_find?_eq_some hf
      simp only [List.mem_map] at this
      obtain ⟨i, -, rfl⟩ := this
      simp [handleAfter]
  refine ⟨fun hn => ⟨fun hv => ?_, fun id hv => ?_⟩, fun l hn => ?_⟩
  · have : t = { s with leases := handed } := by
      show s.activate = _
      unfold State.activate
      simp only [show ({ s.leases with handed := true } : Leases).lineLease = none from hn]
      simp only [hv]; rfl
    rw [this]; exact ⟨rfl, rfl⟩
  · have : t = ({ s with leases := handed } : State).joinLease .line s.leases.settings.lineLevel id 0 none (some .active) := by
      show s.activate = _
      unfold State.activate
      simp only [show ({ s.leases with handed := true } : Leases).lineLease = none from hn]
      simp only [hv]; rfl
    rw [this]
    unfold State.joinLease
    refine ⟨?_, ?_, fun j hj => ?_⟩
    · have hx : handleAfter s.leases.nextHandle 1 = s.leases.nextHandle % 255 + 1 := by
        unfold handleAfter; congr 2; omega
      show Leases.join _ _ = _
      unfold Leases.join
      dsimp only
      show ({ handed with table := _, handleCtr := handleAfter s.leases.nextHandle 1, seqCtr := _ } : Leases) = _
      rw [hx]; rfl
    · rw [onRefs_plan]; simp [State.plan]
    · rw [onRefs_plan, if_neg hj]; rfl
  · by_cases hp : l.phase = some .holding
    · have : t = { s with leases := handed.update l.handle (fun m => { m with phase := some .active, remaining := none }) } := by
        show s.activate = _
        unfold State.activate
        simp only [show ({ s.leases with handed := true } : Leases).lineLease = some l from hn, hp, if_true]; rfl
      rw [this]; exact ⟨rfl, fun _ => rfl, fun h => absurd hp h⟩
    · have : t = { s with leases := handed } := by
        show s.activate = _
        unfold State.activate
        simp only [show ({ s.leases with handed := true } : Leases).lineLease = some l from hn, hp, if_false]; rfl
      rw [this]; exact ⟨rfl, fun h => absurd h hp, fun _ => rfl⟩

/-- An inactivation: an ACTIVE line lease HOLDING for the hold time, or removed with a hold time of 0 (R104). -/
theorem inactivate_spec (s : State) :
    let handed : Leases := { s.leases with handed := false }
    let t := s.inactivate
    (s.leases.lineLease = none → t.leases = handed ∧ t.plans = s.plans)
    ∧ ∀ l, s.leases.lineLease = some l →
      (l.phase ≠ some .active → t.leases = handed ∧ t.plans = s.plans)
      ∧ (l.phase = some .active → 0 < s.leases.settings.holdTime →
        t.plans = s.plans
        ∧ t.leases = { handed with
          table := s.leases.table.map (fun m =>
            if m.handle = l.handle then
              { m with phase := some .holding, remaining := some (s.leases.settings.holdTime * 1000000) }
            else m) })
      ∧ (l.phase = some .active → s.leases.settings.holdTime = 0 →
        t.leases = { handed with table := s.leases.table.filter (fun m => m.handle ≠ l.handle) }
        ∧ (t.plan l.plan).refs = { (s.plan l.plan).refs with leases := (s.plan l.plan).refs.leases - 1 }
        ∧ ∀ j, j ≠ l.plan → t.plan j = s.plan j) := by
  intro handed t
  refine ⟨fun hn => ?_, fun l hn => ⟨fun hp => ?_, fun hp hh => ?_, fun hp hh => ?_⟩⟩
  · have : t = { s with leases := handed } := by
      show s.inactivate = _
      unfold State.inactivate
      simp only [show ({ s.leases with handed := false } : Leases).lineLease = none from hn]; rfl
    rw [this]; exact ⟨rfl, rfl⟩
  · have : t = { s with leases := handed } := by
      show s.inactivate = _
      unfold State.inactivate
      simp only [show ({ s.leases with handed := false } : Leases).lineLease = some l from hn, hp, if_false]; rfl
    rw [this]; exact ⟨rfl, rfl⟩
  · have : t = { s with leases := handed.update l.handle (fun m =>
        { m with phase := some .holding, remaining := some (s.leases.settings.holdTime * 1000 * Config.ms) }) } := by
      show s.inactivate = _
      unfold State.inactivate
      simp only [show ({ s.leases with handed := false } : Leases).lineLease = some l from hn, hp, if_true]
      rw [if_neg (by omega)]
    rw [this]
    refine ⟨rfl, ?_⟩
    have : s.leases.settings.holdTime * 1000 * Config.ms = s.leases.settings.holdTime * 1000000 := by unfold Config.ms; omega
    simp only [Leases.update, this]; rfl
  · have : t = ({ s with leases := handed } : State).removeLease l := by
      show s.inactivate = _
      unfold State.inactivate
      simp only [show ({ s.leases with handed := false } : Leases).lineLease = some l from hn, hp, if_true]
      rw [if_pos hh]
    rw [this]
    unfold State.removeLease
    refine ⟨?_, ?_, fun j hj => ?_⟩
    · show ({ handed with table := _ } : Leases) = _
      congr 1
      apply List.filter_congr
      intro m _
      simp [Bool.beq_eq_decide_eq]
    · rw [onRefs_plan]; simp [State.plan]
    · rw [onRefs_plan, if_neg hj]; rfl

/-- The change of level in RUN, as far as the leases and the plans go. -/
theorem levelChange_leases (s : State) (h : s.power.state = .run) :
    ∃ u : State, u.leases = s.leases ∧ u.plans = s.plans ∧
      s.levelChange.leases = (if s.power.level then u.inactivate else u.activate).leases
      ∧ s.levelChange.plans = (if s.power.level then u.inactivate else u.activate).plans := by
  refine ⟨{ s with power := { s.power with level := !s.power.level, count := 0 } }, rfl, rfl, ?_⟩
  have hw : ∀ v : State, v.power.state = .run → v.wakeEvent.leases = v.leases ∧ v.wakeEvent.plans = v.plans := by
    intro v hv
    unfold State.wakeEvent
    rw [hv]; dsimp only
    split <;> exact ⟨rfl, rfl⟩
  have ha : ∀ v : State, v.activate.power = v.power := by
    intro v; unfold State.activate; dsimp only; repeat' split
    all_goals rfl
  unfold State.levelChange
  dsimp only
  rw [h]
  cases s.power.level
  · simp only [Bool.not_false, Bool.true_and, if_true]
    split
    · refine ⟨(hw _ ?_).1, (hw _ ?_).2⟩ <;> simp [ha]
    · exact ⟨rfl, rfl⟩
  · exact ⟨rfl, rfl⟩

end Sys2Proof.Machine
end

