-- ==== Sys2Proof/Laws/Memory.lean ====
section
/-! SUPPORT. DDR memory: reads after writes, and the canonical form that every write keeps. -/

namespace Sys2Proof.Machine.Memory

/-- Every listed address of a memory is above `a`. -/
def above (a : Nat) (m : Memory) : Prop := ∀ x ∈ m, a < x.1

theorem wf_nil : Memory.wf [] := ⟨List.Pairwise.nil, by simp⟩

theorem wf_cons {b : Nat} {x : Byte} {m : Memory} :
    Memory.wf ((b, x) :: m) ↔ above b m ∧ x ≠ Config.unwritten ∧ Memory.wf m := by
  simp only [wf, List.pairwise_cons, above, List.mem_cons, forall_eq_or_imp]
  tauto

theorem mem_write_addr (m : Memory) (a : Nat) (x : Byte) : ∀ z ∈ write m a x, z.1 = a ∨ z ∈ m := by
  induction m with
  | nil =>
    intro z
    simp only [write]
    split <;> simp_all
  | cons h m ih =>
    obtain ⟨b, y⟩ := h
    intro z
    simp only [write]
    repeat' split
    all_goals
      intro hz
      simp only [List.mem_cons] at hz ⊢
    · exact Or.inr hz
    · rcases hz with rfl | hz
      · exact Or.inl rfl
      · exact Or.inr hz
    · exact Or.inr (Or.inr hz)
    · rcases hz with rfl | hz
      · exact Or.inl rfl
      · exact Or.inr (Or.inr hz)
    · rcases hz with rfl | hz
      · exact Or.inr (Or.inl rfl)
      · rcases ih z hz with h | h
        · exact Or.inl h
        · exact Or.inr (Or.inr h)

theorem above_trans {a b : Nat} {m : Memory} (h : a < b) (k : above b m) : above a m := fun x hx => h.trans (k x hx)

/-- A write keeps the canonical form. -/
theorem wf_write (m : Memory) (a : Nat) (x : Byte) (h : m.wf) : (write m a x).wf := by
  induction m with
  | nil =>
    simp only [write]
    split
    · exact wf_nil
    · exact wf_cons.mpr ⟨by simp [above], by assumption, wf_nil⟩
  | cons hd m ih =>
    obtain ⟨b, y⟩ := hd
    obtain ⟨hb, hy, hm⟩ := wf_cons.mp h
    simp only [write]
    split
    · rename_i hab
      split
      · exact h
      · refine wf_cons.mpr ⟨?_, by assumption, h⟩
        intro z hz
        rcases List.mem_cons.mp hz with rfl | hz
        · exact hab
        · exact hab.trans (hb z hz)
    · split
      · rename_i hab
        subst hab
        split
        · exact hm
        · exact wf_cons.mpr ⟨hb, by assumption, hm⟩
      · rename_i hab hne
        refine wf_cons.mpr ⟨?_, hy, ih hm⟩
        intro z hz
        rcases mem_write_addr m a x z hz with h1 | h1
        · omega
        · exact hb z h1

/-- Writing a list of bytes keeps the canonical form. -/
theorem wf_writeBytes (bs : List Byte) : ∀ (m : Memory) (a : Nat), m.wf → (writeBytes m a bs).wf := by
  induction bs with
  | nil => intro m a h; exact h
  | cons x bs ih => intro m a h; exact ih _ _ (wf_write m a x h)

theorem read_of_above {m : Memory} {a : Nat} (h : above a m) : read m a = Config.unwritten := by
  cases m with
  | nil => rfl
  | cons hd m =>
    obtain ⟨b, y⟩ := hd
    have hab : a < b := h (b, y) (by simp)
    simp [read, hab, hab.ne]

/-- A byte written is read back. -/
theorem read_write_same (m : Memory) (a : Nat) (x : Byte) (h : m.wf) : read (write m a x) a = x := by
  induction m with
  | nil =>
    simp only [write]
    split
    · simp_all [read]
    · simp [read]
  | cons hd m ih =>
    obtain ⟨b, y⟩ := hd
    obtain ⟨hb, hy, hm⟩ := wf_cons.mp h
    simp only [write]
    split
    · rename_i hab
      split
      · rename_i hx
        simp [read, hab, hab.ne, hx]
      · simp [read]
    · split
      · rename_i hab
        subst hab
        split
        · rename_i hx
          rw [hx]
          exact read_of_above hb
        · simp [read]
      · rename_i h1 h2
        simp [read, h1, h2, ih hm]

/-- A write leaves every other byte as it was. -/
theorem read_write_other (m : Memory) (a c : Nat) (x : Byte) (h : m.wf) (hc : c ≠ a) :
    read (write m a x) c = read m c := by
  induction m with
  | nil =>
    simp only [write]
    split
    · rfl
    · simp [read, hc]
  | cons hd m ih =>
    obtain ⟨b, y⟩ := hd
    obtain ⟨hb, hy, hm⟩ := wf_cons.mp h
    simp only [write]
    split
    · rename_i hab
      split
      · rfl
      · simp only [read]
        by_cases h1 : c < a
        · simp [h1, hc, (h1.trans hab), (h1.trans hab).ne]
        · simp [h1, hc]
    · split
      · rename_i hab
        subst hab
        split
        · simp only [read, if_neg hc]
          split
          · exact read_of_above (above_trans (by assumption) hb)
          · rfl
        · simp [read, hc]
      · simp only [read, ih hm]

/-- A byte outside the bytes written is read as before. -/
theorem read_writeBytes_other (bs : List Byte) : ∀ (m : Memory) (a c : Nat), m.wf → (c < a ∨ a + bs.length ≤ c) →
    read (writeBytes m a bs) c = read m c := by
  induction bs with
  | nil => intro m a c _ _; rfl
  | cons x bs ih =>
    intro m a c h hc
    simp only [List.length_cons] at hc
    rw [writeBytes, ih _ _ _ (wf_write m a x h) (by omega), read_write_other m a c x h (by omega)]

/-- The bytes written are read back. -/
theorem read_writeBytes_in (bs : List Byte) : ∀ (m : Memory) (a i : Nat), m.wf → (hi : i < bs.length) →
    read (writeBytes m a bs) (a + i) = bs[i] := by
  induction bs with
  | nil => intro m a i _ hi; simp at hi
  | cons x bs ih =>
    intro m a i h hi
    cases i with
    | zero =>
      rw [writeBytes, read_writeBytes_other bs _ _ _ (wf_write m a x h) (by omega)]
      exact read_write_same m a x h
    | succ i =>
      have hi' : i < bs.length := by simpa using hi
      have := ih (write m a x) (a + 1) i (wf_write m a x h) hi'
      rw [writeBytes]
      simpa [Nat.add_assoc, Nat.add_comm, Nat.add_left_comm] using this

theorem length_readBytes (m : Memory) (a n : Nat) : (readBytes m a n).length = n := by simp [readBytes]

end Sys2Proof.Machine.Memory
end

