-- ==== Sys2Proof/Laws/Mesh.lean ====
section
/-! SUPPORT. Mesh records: the legal range, the fetch box and its clipping, each said of the nine points. -/

namespace Sys2Proof.Machine

/-- The nine points of a mesh record are those of its nine places. -/
theorem mem_meshPoints (rec : List Byte) (q : Int × Int) :
    q ∈ meshPoints rec ↔ ∃ i j, i ≤ 2 ∧ j ≤ 2 ∧ q = meshPoint rec i j := by
  unfold meshPoints
  rw [List.mem_map]
  constructor
  · rintro ⟨n, hn, rfl⟩
    rw [List.mem_range] at hn
    exact ⟨n % 3, n / 3, by omega, by omega, rfl⟩
  · rintro ⟨i, j, hi, hj, rfl⟩
    refine ⟨3 * j + i, by rw [List.mem_range]; omega, ?_⟩
    have h1 : (3 * j + i) % 3 = i := by omega
    have h2 : (3 * j + i) / 3 = j := by omega
    rw [h1, h2]

/-- The legal range, point by point (R74). -/
theorem meshInRange_iff (rec : List Byte) : meshInRange rec = true ↔ ∀ i j, i ≤ 2 → j ≤ 2 →
      -1024 ≤ (meshPoint rec i j).1 ∧ (meshPoint rec i j).1 ≤ 21488
        ∧ -1024 ≤ (meshPoint rec i j).2 ∧ (meshPoint rec i j).2 ≤ 15344 := by
  unfold meshInRange
  rw [List.all_eq_true]
  constructor
  · intro h i j hi hj
    simpa using h _ ((mem_meshPoints rec _).2 ⟨i, j, hi, hj, rfl⟩)
  · intro h q hq
    obtain ⟨i, j, hi, hj, rfl⟩ := (mem_meshPoints rec q).1 hq
    simpa using h i j hi hj

/-- The least of a list is at most each of its members, and one of them. -/
theorem leastOf_spec (xs : List Int) : ∀ x, (leastOf x xs ≤ x ∧ ∀ y ∈ xs, leastOf x xs ≤ y) ∧ leastOf x xs ∈ x :: xs := by
  induction xs with
  | nil => intro x; simp [leastOf]
  | cons a t ih =>
    intro x
    have := ih (min x a)
    have he : leastOf x (a :: t) = leastOf (min x a) t := rfl
    rw [he]
    obtain ⟨⟨h1, h2⟩, h3⟩ := this
    refine ⟨⟨by omega, ?_⟩, ?_⟩
    · intro y hy
      rcases List.mem_cons.1 hy with rfl | hy
      · omega
      · exact h2 y hy
    · rcases List.mem_cons.1 h3 with h | h
      · rw [h]; rcases min_choice x a with h | h <;> rw [h] <;> simp
      · simp [h]

/-- The largest of a list is at least each of its members, and one of them. -/
theorem mostOf_spec (xs : List Int) : ∀ x, (x ≤ mostOf x xs ∧ ∀ y ∈ xs, y ≤ mostOf x xs) ∧ mostOf x xs ∈ x :: xs := by
  induction xs with
  | nil => intro x; simp [mostOf]
  | cons a t ih =>
    intro x
    have := ih (max x a)
    have he : mostOf x (a :: t) = mostOf (max x a) t := rfl
    rw [he]
    obtain ⟨⟨h1, h2⟩, h3⟩ := this
    refine ⟨⟨by omega, ?_⟩, ?_⟩
    · intro y hy
      rcases List.mem_cons.1 hy with rfl | hy
      · omega
      · exact h2 y hy
    · rcases List.mem_cons.1 h3 with h | h
      · rw [h]; rcases max_choice x a with h | h <;> rw [h] <;> simp
      · simp [h]

/-- The least and the largest of a measure over the nine points bound it, and are taken at one of them. -/
theorem extremes (rec : List Byte) (f : Int × Int → Int) :
    let xs := (meshPoints rec).map f
    let x0 := f (meshPoint rec 0 0)
    (∀ i j, i ≤ 2 → j ≤ 2 → leastOf x0 xs ≤ f (meshPoint rec i j) ∧ f (meshPoint rec i j) ≤ mostOf x0 xs)
    ∧ (∃ i j, i ≤ 2 ∧ j ≤ 2 ∧ leastOf x0 xs = f (meshPoint rec i j))
    ∧ (∃ i j, i ≤ 2 ∧ j ≤ 2 ∧ mostOf x0 xs = f (meshPoint rec i j)) := by
  intro xs x0
  have hm : ∀ i j, i ≤ 2 → j ≤ 2 → f (meshPoint rec i j) ∈ xs := fun i j hi hj =>
    List.mem_map.2 ⟨_, (mem_meshPoints rec _).2 ⟨i, j, hi, hj, rfl⟩, rfl⟩
  have hx : ∀ y ∈ x0 :: xs, ∃ i j, i ≤ 2 ∧ j ≤ 2 ∧ y = f (meshPoint rec i j) := by
    intro y hy
    rcases List.mem_cons.1 hy with rfl | hy
    · exact ⟨0, 0, by omega, by omega, rfl⟩
    · obtain ⟨q, hq, rfl⟩ := List.mem_map.1 hy
      obtain ⟨i, j, hi, hj, rfl⟩ := (mem_meshPoints rec q).1 hq
      exact ⟨i, j, hi, hj, rfl⟩
  exact ⟨fun i j hi hj => ⟨(leastOf_spec xs x0).1.2 _ (hm i j hi hj), (mostOf_spec xs x0).1.2 _ (hm i j hi hj)⟩,
    hx _ (leastOf_spec xs x0).2, hx _ (mostOf_spec xs x0).2⟩

/-- The fetch box runs from the column of the least x to one past that of the largest, and likewise down (R85). -/
theorem fetchBounds_spec (rec : List Byte) : ∃ l r t b : Int, fetchBounds rec = (l, r, t, b)
    ∧ (∀ i j, i ≤ 2 → j ≤ 2 → l ≤ (meshPoint rec i j).1 / 16 ∧ (meshPoint rec i j).1 / 16 + 1 ≤ r
      ∧ t ≤ (meshPoint rec i j).2 / 16 ∧ (meshPoint rec i j).2 / 16 + 1 ≤ b)
    ∧ (∃ i j, i ≤ 2 ∧ j ≤ 2 ∧ l = (meshPoint rec i j).1 / 16)
    ∧ (∃ i j, i ≤ 2 ∧ j ≤ 2 ∧ r = (meshPoint rec i j).1 / 16 + 1)
    ∧ (∃ i j, i ≤ 2 ∧ j ≤ 2 ∧ t = (meshPoint rec i j).2 / 16)
    ∧ (∃ i j, i ≤ 2 ∧ j ≤ 2 ∧ b = (meshPoint rec i j).2 / 16 + 1) := by
  obtain ⟨hx, ⟨a1, a2, a3, a4, a5⟩, ⟨b1, b2, b3, b4, b5⟩⟩ := extremes rec (·.1)
  obtain ⟨hy, ⟨c1, c2, c3, c4, c5⟩, ⟨d1, d2, d3, d4, d5⟩⟩ := extremes rec (·.2)
  refine ⟨_, _, _, _, rfl, ?_, ⟨a1, a2, a3, a4, ?_⟩, ⟨b1, b2, b3, b4, ?_⟩, ⟨c1, c2, c3, c4, ?_⟩, ⟨d1, d2, d3, d4, ?_⟩⟩
  · intro i j hi hj
    have h1 := hx i j hi hj
    have h2 := hy i j hi hj
    refine ⟨?_, ?_, ?_, ?_⟩ <;> omega
  · rw [a5]
  · rw [b5]
  · rw [c5]
  · rw [d5]

/-- A fetch box is within bounds where no two points lie too far apart (R85). -/
theorem spreadOk_iff (rec : List Byte) : spreadOk rec = true ↔ ∀ i j k l, i ≤ 2 → j ≤ 2 → k ≤ 2 → l ≤ 2 →
      (meshPoint rec i j).1 / 16 - (meshPoint rec k l).1 / 16 + 2 ≤ 128
        ∧ (meshPoint rec i j).2 / 16 - (meshPoint rec k l).2 / 16 + 2 ≤ 96 := by
  obtain ⟨l, r, t, b, he, hall, ⟨a1, a2, a3, a4, a5⟩, ⟨b1, b2, b3, b4, b5⟩, ⟨c1, c2, c3, c4, c5⟩, ⟨d1, d2, d3, d4, d5⟩⟩ :=
    fetchBounds_spec rec
  unfold spreadOk
  rw [he]
  simp only [decide_eq_true_eq]
  constructor
  · intro h i j k m hi hj hk hm
    have h1 := hall i j hi hj
    have h2 := hall k m hk hm
    omega
  · intro h
    have h1 := h b1 b2 a1 a2 b3 b4 a3 a4
    have h2 := h d1 d2 c1 c2 d3 d4 c3 c4
    omega

/-- The clipped fetch box is what lies within the source frame (R130). -/
theorem clipBox_spec (rec : List Byte) (l r t b : Int) (he : fetchBounds rec = (l, r, t, b)) (hlr : l + 1 ≤ r) (htb : t + 1 ≤ b) :
    (clipBox rec = none ↔ 1279 < l ∨ r < 0 ∨ 959 < t ∨ b < 0)
    ∧ ∀ x, clipBox rec = some x → (x.left : Int) = max l 0 ∧ (x.right : Int) = min r 1279
      ∧ (x.top : Int) = max t 0 ∧ (x.bottom : Int) = min b 959 ∧ x.left ≤ x.right ∧ x.top ≤ x.bottom := by
  unfold clipBox
  rw [he]
  dsimp only
  split
  · rename_i h
    refine ⟨by simp; omega, ?_⟩
    intro x hx
    simp only [Option.some.injEq] at hx
    subst hx
    dsimp only
    omega
  · rename_i h
    refine ⟨by simp; omega, by simp⟩

end Sys2Proof.Machine
end

