-- ==== Sys2Proof/Laws/Plans.lean ====
section
/-! SUPPORT. The Plan Store: runs and gaps of the pool, and where the verification walk ends. -/

namespace Sys2Proof.Machine

/-! ### Runs and gaps -/

/-- A run inserted is a member beside those that were. -/
theorem mem_insertRun (r q : Run) (l : List Run) : q ∈ insertRun r l ↔ q = r ∨ q ∈ l := by
  induction l with
  | nil => simp [insertRun]
  | cons a t ih =>
    unfold insertRun
    split
    · simp
    · simp [ih]; tauto

/-- The runs are those of the plans. -/
theorem mem_runs (x : Plans) (q : Run) : q ∈ x.runs ↔ ∃ id, x.runOf id = some q := by
  have : ∀ l : List Run, q ∈ l.foldr insertRun [] ↔ q ∈ l := by
    intro l
    induction l with
    | nil => simp
    | cons a t ih => simp [mem_insertRun, ih]
  unfold Plans.runs
  rw [this, List.mem_filterMap]
  constructor
  · rintro ⟨a, _, h⟩; exact ⟨a, h⟩
  · rintro ⟨a, h⟩; exact ⟨a, by fin_cases a <;> simp [planIds], h⟩

/-- A run apart from the others keeps address order where it is inserted. -/
theorem insertRun_sorted (r : Run) (l : List Run) (h1 : 1 ≤ r.len) (hl : ∀ q ∈ l, 1 ≤ q.len)
    (hd : ∀ q ∈ l, r.base + r.len ≤ q.base ∨ q.base + q.len ≤ r.base)
    (hp : l.Pairwise (fun q u => q.base + q.len ≤ u.base)) :
    (insertRun r l).Pairwise (fun q u => q.base + q.len ≤ u.base) := by
  induction l with
  | nil => simp [insertRun]
  | cons a t ih =>
    rw [List.pairwise_cons] at hp
    have ha := hd a (by simp)
    have hla := hl a (by simp)
    unfold insertRun
    split
    · rename_i hlt
      rw [List.pairwise_cons, List.pairwise_cons]
      refine ⟨?_, hp⟩
      intro q hq
      rcases List.mem_cons.1 hq with rfl | hq
      · omega
      · have := hp.1 q hq; omega
    · rename_i hlt
      rw [List.pairwise_cons]
      refine ⟨?_, ih (fun q hq => hl q (by simp [hq])) (fun q hq => hd q (by simp [hq])) hp.2⟩
      intro q hq
      rw [mem_insertRun] at hq
      rcases hq with rfl | hq
      · omega
      · exact hp.1 q hq

/-- Runs within the pool and apart from each other stand in address order (R78). -/
theorem runs_sorted (x : Plans) (h1 : ∀ id q, x.runOf id = some q → 1 ≤ q.len ∧ q.base + q.len ≤ 2048)
    (h2 : ∀ i j q u, i ≠ j → x.runOf i = some q → x.runOf j = some u → q.base + q.len ≤ u.base ∨ u.base + u.len ≤ q.base) :
    x.runs.Pairwise (fun q u => q.base + q.len ≤ u.base) := by
  unfold Plans.runs
  have : ∀ ids : List PlanId, ids.Nodup →
      ((ids.filterMap x.runOf).foldr insertRun []).Pairwise (fun q u => q.base + q.len ≤ u.base) ∧
      ∀ q ∈ (ids.filterMap x.runOf).foldr insertRun [], ∃ id ∈ ids, x.runOf id = some q := by
    intro ids
    induction ids with
    | nil => simp
    | cons a t ih =>
      intro hn
      rw [List.nodup_cons] at hn
      obtain ⟨ihp, ihm⟩ := ih hn.2
      cases hr : x.runOf a with
      | none =>
        simp only [List.filterMap_cons, hr]
        exact ⟨ihp, fun q hq => by obtain ⟨i, hi, h⟩ := ihm q hq; exact ⟨i, by simp [hi], h⟩⟩
      | some r =>
        simp only [List.filterMap_cons, hr, List.foldr_cons]
        refine ⟨insertRun_sorted r _ (h1 a r hr).1 ?_ ?_ ihp, ?_⟩
        · intro q hq; obtain ⟨i, hi, h⟩ := ihm q hq; exact (h1 i q h).1
        · intro q hq; obtain ⟨i, hi, h⟩ := ihm q hq
          exact h2 a i r q (by rintro rfl; exact hn.1 hi) hr h
        · intro q hq
          rw [mem_insertRun] at hq
          rcases hq with rfl | hq
          · exact ⟨a, by simp, hr⟩
          · obtain ⟨i, hi, h⟩ := ihm q hq; exact ⟨i, by simp [hi], h⟩
  exact (this planIds (by decide)).1

/-- The gaps from an address up are the longest free stretches, in address order (04, The mesh pool). -/
theorem gapsFrom_spec (l : List Run) : ∀ at0, (∀ q ∈ l, 1 ≤ q.len ∧ at0 ≤ q.base ∧ q.base + q.len ≤ 2048) → at0 ≤ 2048 →
    l.Pairwise (fun q u => q.base + q.len ≤ u.base) →
    (∀ g ∈ gapsFrom at0 l, at0 ≤ g.1) ∧ (gapsFrom at0 l).Pairwise (fun g h => g.1 + g.2 < h.1)
    ∧ ∀ a n, (a, n) ∈ gapsFrom at0 l ↔ 1 ≤ n ∧ at0 ≤ a ∧ a + n ≤ 2048 ∧ (∀ q ∈ l, a + n ≤ q.base ∨ q.base + q.len ≤ a)
      ∧ (a = at0 ∨ ∃ q ∈ l, q.base + q.len = a) ∧ (a + n = 2048 ∨ ∃ q ∈ l, q.base = a + n) := by
  induction l with
  | nil =>
    intro at0 _ hat _
    unfold gapsFrom
    have : Config.poolRecords = 2048 := rfl
    rw [this]
    split
    · refine ⟨by simp, by simp, ?_⟩
      intro a n
      simp
      omega
    · refine ⟨by simp, by simp, ?_⟩
      intro a n
      simp
      omega
  | cons r t ih =>
    intro at0 hq hat hp
    rw [List.pairwise_cons] at hp
    have hr := hq r (by simp)
    have hm : max at0 (r.base + r.len) = r.base + r.len := by omega
    have hq' : ∀ q ∈ t, 1 ≤ q.len ∧ r.base + r.len ≤ q.base ∧ q.base + q.len ≤ 2048 := fun q hqt =>
      ⟨(hq q (by simp [hqt])).1, hp.1 q hqt, (hq q (by simp [hqt])).2.2⟩
    obtain ⟨i1, i2, i3⟩ := ih (r.base + r.len) hq' hr.2.2 hp.2
    unfold gapsFrom
    rw [hm]
    refine ⟨?_, ?_, ?_⟩
    · intro g hg
      rw [List.mem_append] at hg
      rcases hg with hg | hg
      · split at hg
        · simp at hg; subst hg; simp
        · simp at hg
      · have := i1 g hg; omega
    · rw [List.pairwise_append]
      refine ⟨by split <;> simp, i2, ?_⟩
      intro g hg h hh
      have := i1 h hh
      split at hg
      · simp at hg; subst hg; simp; omega
      · simp at hg
    · intro a n
      rw [List.mem_append, i3]
      have h0 : (a, n) ∈ (if at0 < r.base then [(at0, r.base - at0)] else []) ↔ (at0 < r.base ∧ a = at0 ∧ n = r.base - at0) := by
        split <;> simp_all
      rw [h0]
      simp only [List.mem_cons, forall_eq_or_imp, exists_eq_or_imp]
      constructor
      · rintro (⟨h1, rfl, rfl⟩ | ⟨h1, h2, h3, h4, h5, h6⟩)
        · refine ⟨by omega, by omega, by omega, ⟨by omega, ?_⟩, Or.inl rfl, Or.inr (Or.inl (by omega))⟩
          intro q hqt; have := hp.1 q hqt; omega
        · refine ⟨h1, by omega, h3, ⟨by omega, h4⟩, ?_, ?_⟩
          · rcases h5 with rfl | h5
            · exact Or.inr (Or.inl rfl)
            · exact Or.inr (Or.inr h5)
          · rcases h6 with h6 | h6
            · exact Or.inl h6
            · exact Or.inr (Or.inr h6)
      · rintro ⟨h1, h2, h3, ⟨h4, h5⟩, h6, h7⟩
        rcases h4 with h4 | h4
        · left
          have ha : a = at0 := by
            rcases h6 with h6 | h6 | ⟨q, hqt, h6⟩
            · exact h6
            · omega
            · have := hp.1 q hqt; omega
          have hn : a + n = r.base := by
            rcases h7 with h7 | h7 | ⟨q, hqt, h7⟩
            · omega
            · omega
            · have := hp.1 q hqt; omega
          omega
        · right
          refine ⟨h1, h4, h3, h5, ?_, ?_⟩
          · rcases h6 with h6 | h6 | h6
            · omega
            · exact Or.inl h6.symm
            · exact Or.inr h6
          · rcases h7 with h7 | h7 | h7
            · exact Or.inl h7
            · omega
            · exact Or.inr h7

/-! ### The verification walk -/

/-- The tile walk ends at the first tile that decides. -/
theorem scan_seen (c : PlanContent) (passed : List Nat) : ∀ (l : List (Option TileEntry)) (t k : Nat) (e : Option TileEntry) (n : WalkNext),
    l[k]? = some e → scanTile c passed (t + k) e = some n → (∀ j d, j < k → l[j]? = some d → scanTile c passed (t + j) d = none) →
    tileScan c passed t l = n := by
  intro l
  induction l with
  | nil => intro t k e n h; simp at h
  | cons a r ih =>
    intro t k e n h hs hb
    unfold tileScan
    cases k with
    | zero => simp at h; subst h; simp at hs; rw [hs]
    | succ k =>
      have h0 := hb 0 a (by omega) (by simp)
      simp at h0
      rw [h0]
      refine ih (t + 1) k e n (by simpa using h) (by rw [← hs]; congr 1; omega) ?_
      intro j d hj hd
      have := hb (j + 1) d (by omega) (by simpa using hd)
      rw [← this]; congr 1; omega

/-- The tile walk goes on to the mesh walk where no tile decides (R86). -/
theorem scan_none (c : PlanContent) (passed : List Nat) : ∀ (l : List (Option TileEntry)) (t : Nat),
    (∀ j d, l[j]? = some d → scanTile c passed (t + j) d = none) → tileScan c passed t l = c.meshesFrom passed 0 := by
  intro l
  induction l with
  | nil => intro t _; rfl
  | cons a r ih =>
    intro t h
    unfold tileScan
    have h0 := h 0 a (by simp)
    simp at h0
    rw [h0]
    refine ih (t + 1) ?_
    intro j d hd
    have := h (j + 1) d (by simpa using hd)
    rw [← this]; congr 1; omega

/-- The mesh walk ends at the first mesh of its indices that did not pass. -/
theorem meshScan_spec (c : PlanContent) (passed : List Nat) : ∀ (n t : Nat),
    (∀ m, t ≤ m → m < t + n → m ∉ passed → (∀ j, t ≤ j → j < m → j ∈ passed) →
      meshScan c passed (List.range' t n) = if c.isWritten m then .read (.mesh m) m else rangeFail none m)
    ∧ ((∀ j, t ≤ j → j < t + n → j ∈ passed) → meshScan c passed (List.range' t n) = .done) := by
  intro n
  induction n with
  | zero => intro t; exact ⟨fun m h1 h2 => by omega, fun _ => rfl⟩
  | succ n ih =>
    intro t
    rw [List.range'_succ]
    unfold meshScan
    refine ⟨?_, ?_⟩
    · intro m h1 h2 hm hj
      by_cases hmt : m = t
      · subst hmt
        rw [if_neg (by simpa using hm)]
      · rw [if_pos (by simpa using hj t (le_refl _) (by omega))]
        exact (ih (t + 1)).1 m (by omega) (by omega) hm (fun j hj1 hj2 => hj j (by omega) hj2)
    · intro hj
      rw [if_pos (by simpa using hj t (le_refl _) (by omega))]
      exact (ih (t + 1)).2 (fun j hj1 hj2 => hj j (by omega) (by omega))

/-- The mesh walk from an index ends at the first mesh that did not pass, or at the end of the run (R86). -/
theorem meshesFrom_spec (c : PlanContent) (passed : List Nat) (t : Nat) :
    (∀ m, t ≤ m → m < c.header.meshCount → m ∉ passed → (∀ j, t ≤ j → j < m → j ∈ passed) →
      c.meshesFrom passed t = if c.isWritten m then .read (.mesh m) m else rangeFail none m)
    ∧ ((∀ j, t ≤ j → j < c.header.meshCount → j ∈ passed) → c.meshesFrom passed t = .done) := by
  have := meshScan_spec c passed (c.header.meshCount - t) t
  unfold PlanContent.meshesFrom
  exact ⟨fun m h1 h2 => this.1 m h1 (by omega), fun h => this.2 (fun j h1 h2 => h j h1 (by omega))⟩

/-- A mesh is written where its mark says so. -/
theorem isWritten_eq (c : PlanContent) (m : Nat) : c.isWritten m = decide (c.meshWritten[m]? = some true) := by
  unfold PlanContent.isWritten
  cases c.meshWritten[m]? with
  | none => simp
  | some b => cases b <;> simp

/-- The meshes that passed, after one more. -/
theorem mem_addPassed (m n : Nat) (passed : List Nat) : n ∈ addPassed m passed ↔ n = m ∨ n ∈ passed := by
  unfold addPassed
  split
  · rename_i h
    have : m ∈ passed := by simpa using h
    constructor
    · exact Or.inr
    · rintro (rfl | h)
      · exact this
      · exact h
  · simp

/-- A camera field names no camera at 0 and above 4. -/
theorem camOfBits_none (b : BitVec 3) : (camOfBits b).isNone = decide (b.toNat = 0 ∨ 4 < b.toNat) := by
  revert b; decide

end Sys2Proof.Machine
end

