-- ==== Sys2Proof/Laws/Slots.lean ====
section
/-! SUPPORT. What the end of a reply slot does: the parts it is made of (a fault, the end of addressing, the count of missed
slots, the chain break test and the settling after it), each said once. -/

namespace Sys2Proof.Machine

/-! ### Notices kept -/

@[simp] theorem leaveStreaming_ports (s : State) (c : Camera) : (s.leaveStreaming c).ports = s.ports := by
  unfold State.leaveStreaming State.laneDeparture State.withdrawLane
  dsimp only
  repeat' split
  all_goals rfl

/-- A record whose state changes raises CAMERA. -/
theorem setCam_raises (s : State) (c : Camera) (r : CamRecord) (h : r.state ≠ (s.cam c).state) :
    (s.setCam c r).bothRaised .camera := by
  unfold State.setCam
  dsimp only
  rw [if_neg h]
  have hb := raiseBoth_bothRaised { s with chain := { s.chain with table := s.chain.table.set c.idx r } } .camera
  split
  · exact fun q => by
      rw [leaveStreaming_ports]
      exact hb q
  · exact hb

theorem setCam_keeps {s : State} (c : Camera) (r : CamRecord) {k : NoticeKind} (h : s.bothRaised k) :
    (s.setCam c r).bothRaised k := by
  unfold State.setCam
  dsimp only
  repeat' split
  · exact fun q => by
      rw [leaveStreaming_ports]
      exact h q
  · exact fun q => by
      rw [leaveStreaming_ports]
      exact raiseBoth_keeps (s := { s with chain := { s.chain with table := s.chain.table.set c.idx r } }) _ h q
  · exact h
  · exact raiseBoth_keeps (s := { s with chain := { s.chain with table := s.chain.table.set c.idx r } }) _ h

theorem chainSettle_keeps {s : State} {k : NoticeKind} (h : s.bothRaised k) : s.chainSettle.bothRaised k := by
  unfold State.chainSettle
  split
  · exact raiseBoth_keeps _ h
  · exact h

/-! ### The camera table and the queue -/

theorem cam_withTable (s : State) (x : Chain) (c d : Camera) (r : CamRecord) (h : x.table = s.chain.table.set c.idx r) :
    ({ s with chain := x } : State).cam d = if d = c then r else s.cam d := by
  have hd : d.idx = c.idx ↔ d = c := ⟨fun e => Camera.idx_injective e, fun e => by rw [e]⟩
  simp [State.cam, h, Quad.get_set, hd]

theorem enqueue_queue (s : State) (e : ChainEntry) (h : s.chain.queue.length < 8) :
    (s.enqueue e).chain = { s.chain with queue := s.chain.queue ++ [e] } := by
  simp [State.enqueue, Chain.enqueue, h]

/-- A fault: the record, its entries, and what it leaves alone (R18). -/
theorem camFault_spec (s : State) (c : Camera) (f : FaultCode) :
    (∀ d, (s.camFault c f).cam d = if d = c then
      { s.cam c with state := .faulted, lastFault := f, ident := none, test := none, startPending := false } else s.cam d)
    ∧ (s.camFault c f).chain.interval = s.chain.interval
    ∧ (s.chain.queue.length < 8 → (s.camFault c f).chain.queue = s.chain.queue.filter (fun e => e.target ≠ some c)
      ++ (if (s.cam c).state = .streaming then [entryFor .streamOff c .fault] else []))
    ∧ ((s.cam c).state ≠ .faulted → (s.camFault c f).bothRaised .camera) := by
  have hfil : s.chain.queue.filter (fun e => !(e.target == some c))
      = s.chain.queue.filter (fun e => e.target ≠ some c) := by
    apply List.filter_congr
    intro x _
    by_cases h : x.target = some c <;> simp [h]
  have hcam : ∀ d, ({ s with chain := s.chain.removeFor c } : State).cam d = s.cam d := fun _ => rfl
  unfold State.camFault
  dsimp only
  refine ⟨?_, ?_, ?_, ?_⟩
  · intro d
    split <;> simp [cam_setCam, hcam]
  · split <;> simp [State.enqueue, Chain.removeFor]
  · intro hl
    have hl2 := lt_of_le_of_lt (List.length_filter_le (fun e => e.target ≠ some c) s.chain.queue) hl
    split
    · rw [enqueue_queue]
      · simp only [setCam_chain, Chain.removeFor]
        rw [hfil]
      · simp only [setCam_chain, Chain.removeFor]
        rw [hfil]
        exact hl2
    · simp only [setCam_chain, Chain.removeFor]
      rw [hfil, List.append_nil]
  · intro hne
    have := setCam_raises { s with chain := s.chain.removeFor c } c
      { s.cam c with state := .faulted, lastFault := f, ident := none, test := none, startPending := false }
      (fun h => hne h.symm)
    split
    · exact this
    · exact this

/-- Where addressing ends, IDENT_START joins the queue for each ADDRESSED position, and nothing else changes (R10). -/
theorem addressingDone_chain (s : State) (h : s.chain.queue.length ≤ 4) :
    s.addressingDone.chain = { s.chain with
      queue := s.chain.queue
        ++ (Camera.all.filter (fun d => (s.cam d).state = .addressed)).map (fun d => entryFor .identStart d .bringUp) } := by
  have fold : ∀ (l : List Camera) (t : State), t.chain.queue.length + l.length ≤ 8 →
      (l.foldl (fun t c =>
        if (t.cam c).state = .addressed then t.enqueue (entryFor .identStart c .bringUp) else t) t).chain
      = { t.chain with
        queue := t.chain.queue
          ++ (l.filter (fun d => (t.cam d).state = .addressed)).map (fun d => entryFor .identStart d .bringUp) } := by
    intro l
    induction l with
    | nil => intro t _; simp
    | cons c l ih =>
      intro t hl
      simp only [List.length_cons] at hl
      dsimp only [List.foldl_cons]
      by_cases hc : (t.cam c).state = .addressed
      · simp only [if_pos hc]
        have hq := enqueue_queue t (entryFor .identStart c .bringUp) (by omega)
        rw [ih _ (by rw [hq]; simp; omega), hq]
        simp [hc]
      · simp only [if_neg hc]
        rw [ih t (by omega)]
        simp [hc]
  exact fold Camera.all s (by simp [Camera.all]; omega)

/-- A slot's result is counted in the record's missed slots alone (R19). -/
theorem countSlot_eq (s : State) (c : Camera) (r : SlotResult) :
    s.countSlot c r = { s with
      chain := { s.chain with
        table := s.chain.table.set c.idx
          { s.cam c with
            missed := if (s.cam c).state.counted then (if r = .missed then (s.cam c).missed + 1 else 0)
              else (s.cam c).missed } } } := by
  unfold State.countSlot
  dsimp only
  split
  · rw [setCam_of_state (by rfl)]
  · have h : s.chain.table.set c.idx (s.cam c) = s.chain.table := Quad.set_get _ _
    change s = { s with chain := { s.chain with table := s.chain.table.set c.idx (s.cam c) } }
    rw [h]

/-! ### The end of a slot -/

/-- After a slot of an interval that loses no position: the slot is over and the bring-up may settle (R3, R15). -/
theorem afterSlot_spec (s : State) (c : Camera) (i : Interval) (hi : s.chain.interval = some i)
    (hl : i.lostNow = Quad.all false) :
    (s.afterSlot c).chain.interval = some { i with slotsLeft := i.slotsLeft.tail }
    ∧ (∀ d, (s.afterSlot c).cam d = s.cam d) ∧ (s.afterSlot c).chain.queue = s.chain.queue
    ∧ (s.afterSlot c).lanes = s.lanes ∧ (s.afterSlot c).capture = s.capture
    ∧ (∀ k, s.bothRaised k → (s.afterSlot c).bothRaised k) ∧ s.pipeOnly (s.afterSlot c) := by
  have hp := pipeOnly_of_sansPipe (afterSlot_sansPipe s c)
  have hb : ∀ t : State, t.chain.interval = some { i with slotsLeft := i.slotsLeft.tail } → t.breakTest = t := by
    intro t ht
    unfold State.breakTest
    have : ({ i with slotsLeft := i.slotsLeft.tail } : Interval).breakAt = none := by
      simp [Interval.breakAt, hl, Camera.all]
    simp [ht, this]
  have e : s.afterSlot c
      = ({ s with chain := { s.chain with interval := s.chain.interval.map Interval.slotOver } } : State).chainSettle := by
    unfold State.afterSlot
    dsimp only
    rw [hb]
    · simp
    · simp [hi, Interval.slotOver]
  rw [e] at hp ⊢
  obtain ⟨f, hf⟩ := chainSettle_chain
    ({ s with chain := { s.chain with interval := s.chain.interval.map Interval.slotOver } } : State)
  obtain ⟨h1, h2, _⟩ := chainSettle_parts
    ({ s with chain := { s.chain with interval := s.chain.interval.map Interval.slotOver } } : State)
  refine ⟨?_, ?_, ?_, h1, h2, fun k h => chainSettle_keeps h, hp⟩
  · rw [hf]
    simp [hi, Interval.slotOver]
  · intro d
    rw [cam_chainSettle]
    rfl
  · rw [hf]

/-- SLOT_END of a slot that is due: the slot's result, then what `afterSlot_spec` says (R3). -/
theorem slotEnd_spec (c : Camera) (reply : Option (BitVec 14)) (s w : State) (i : Interval) (h : s.slotDue c i)
    (hw : (s.runTo (i.strobeAt + 500 + 600 * c.number)).slotResult c (slotResultOf reply) = w)
    (hwi : w.chain.interval = s.chain.interval) :
    ∃ t, exec (.slotEnd c reply) s = .next t ∧ s.slotDone c i t ∧ (∀ d, t.cam d = w.cam d)
      ∧ t.chain.queue = w.chain.queue ∧ t.lanes = w.lanes ∧ t.capture = w.capture
      ∧ (∀ k, w.bothRaised k → t.bothRaised k) ∧ t.now = w.now := by
  obtain ⟨h1, h2, h3⟩ := h
  obtain ⟨a1, a2, a3, a4, a5, a6, a7⟩ := afterSlot_spec w c i (hwi.trans h1) h3
  refine ⟨w.afterSlot c, ?_, ⟨?_, a1⟩, a2, a3, a4, a5, a6, ?_⟩
  · simp only [exec, execSlotEnd, State.endSlot, h1, h2, if_true, Interval.slotTime, hw]
  · apply pipeOnly_of_sansPipe
    rw [sansPipe_of_pipeOnly a7, ← hw]
    simp
  · rw [a7.1]

theorem thirdMiss_of_reply (r : CamRecord) (x : SlotResult) (h : x ≠ .missed) : r.thirdMiss x = false := by
  simp [CamRecord.thirdMiss, h]

theorem sentTo_of_queue {x y : Chain} (h : x.queue = y.queue) (c : Camera) : x.sentTo c = y.sentTo c := by
  simp [Chain.sentTo, h]

/-- A result for a position no command was sent to is counted and taken by the record's state (R11, R13, R16). -/
theorem slotResult_unsent (s : State) (c : Camera) (res : SlotResult) (h : s.chain.sentTo c = none)
    (h3 : (s.cam c).thirdMiss res = false) : s.slotResult c res = (s.countSlot c res).takeReply c res := by
  unfold State.slotResult
  simp only [h3]
  have : (s.countSlot c res).chain.sentTo c = none := by
    rw [← h]
    apply sentTo_of_queue
    rw [countSlot_eq]
  simp [Chain.settles, this, State.settleCommand]

/-- A reply that settles the command sent to the position does no more (R4, log 13). -/
theorem slotResult_sent (s : State) (c : Camera) (res : SlotResult) (e : ChainEntry) (h : s.chain.sentTo c = some e)
    (hr : res = .reply .ack ∨ res = .reply .nack) :
    s.slotResult c res = (if res = .reply .ack then (s.countSlot c res).popCommand.commandDone c e.func
      else (s.countSlot c res).popCommand.commandFailed c e.func) := by
  have h3 : (s.cam c).thirdMiss res = false := thirdMiss_of_reply _ _ (by rcases hr with h | h <;> rw [h] <;> simp)
  have hs : (s.countSlot c res).chain.sentTo c = some e := by
    rw [← h]
    apply sentTo_of_queue
    rw [countSlot_eq]
  unfold State.slotResult
  rcases hr with h | h <;> subst h <;> simp [h3, Chain.settles, hs, State.settleCommand]

end Sys2Proof.Machine
end

