-- ==== Sys2Proof/Laws/Standby.lean ====
section
/-! SUPPORT. What standby entry does, field by field: the cameras' departures, the leases removed, and the entry whole. -/

namespace Sys2Proof.Machine

/-! ### Departures -/

/-- A departure leaves its own lane with no frame filling, and the other lanes as they are. -/
theorem leaveStreaming_lanes (s : State) (c : Camera) :
    ((s.leaveStreaming c).lane c).frame = none ∧ ∀ d, d ≠ c → (s.leaveStreaming c).lane d = s.lane d := by
  have ne : ∀ d, d ≠ c → d.idx ≠ c.idx := fun d h e => h (Camera.idx_injective e)
  unfold State.leaveStreaming State.laneDeparture State.withdrawLane State.finaliseFrame State.lane
  dsimp only
  constructor
  · repeat' split
    all_goals simp_all
  · intro d h
    repeat' split
    all_goals simp [Quad.get_set, ne d h]

/-- What departures keep of the capture sets' settings: the timing and the drop count. -/
def Capture.settings (x : Capture) : Timing × Option Timing × Nat := (x.timing, x.pendingTiming, x.drops)

theorem leaveStreaming_settings (s : State) (c : Camera) :
    (s.leaveStreaming c).capture.settings = s.capture.settings := by
  unfold State.leaveStreaming State.laneDeparture State.withdrawLane State.finaliseFrame
  dsimp only
  repeat' split
  all_goals rfl

/-- One camera's report at standby entry. -/
def State.reportOne (s : State) (c : Camera) : State := if (s.cam c).state = .streaming then s.leaveStreaming c else s

theorem reportAll_eq (s : State) :
    s.reportAll = (((s.reportOne .fl).reportOne .fr).reportOne .rr).reportOne .rl := rfl

@[simp] theorem reportOne_chain (s : State) (c : Camera) : (s.reportOne c).chain = s.chain := by
  unfold State.reportOne
  split <;> simp

@[simp] theorem reportOne_settings (s : State) (c : Camera) :
    (s.reportOne c).capture.settings = s.capture.settings := by
  unfold State.reportOne
  split
  · exact leaveStreaming_settings s c
  · rfl

theorem reportOne_frame (s : State) (c d : Camera) :
    ((s.reportOne c).lane d).frame =
      if d = c ∧ (s.cam c).state = .streaming then none else (s.lane d).frame := by
  unfold State.reportOne
  by_cases h : (s.cam c).state = .streaming
  · by_cases hd : d = c
    · simp [h, hd, (leaveStreaming_lanes s c).1]
    · simp [h, hd, (leaveStreaming_lanes s c).2 d hd]
  · simp [h]

@[simp] theorem reportAll_chain (s : State) : s.reportAll.chain = s.chain := by simp [reportAll_eq]

@[simp] theorem reportAll_settings (s : State) : s.reportAll.capture.settings = s.capture.settings := by
  simp [reportAll_eq]

/-- After the reports no STREAMING camera's lane has a frame filling. -/
theorem reportAll_frame (s : State) (d : Camera) (h : (s.cam d).state = .streaming ∨ (s.lane d).frame = none) :
    (s.reportAll.lane d).frame = none := by
  have hc : ∀ (t : State) (c e : Camera), (t.reportOne c).cam e = t.cam e := fun t c e => by simp [State.cam]
  rw [reportAll_eq]
  simp only [reportOne_frame, hc]
  cases d <;> rcases h with h | h <;> simp [h]

/-- A departure withdraws the lane's write where it has one, and leaves its lane READY; its totals stay. -/
theorem leaveStreaming_arb (s : State) (c : Camera) :
    (s.leaveStreaming c).arb = (if (s.lane c).busy.isSome then s.arb.withdrawLane c else s.arb)
      ∧ ((s.leaveStreaming c).lane c).busy = none ∧ ((s.leaveStreaming c).lane c).totals = (s.lane c).totals := by
  unfold State.leaveStreaming State.laneDeparture State.withdrawLane State.finaliseFrame State.lane
  dsimp only
  cases hb : (s.lanes.get c.idx).busy with
  | none =>
    dsimp only
    split
    · simp [hb]
    · simp [hb]
  | some b =>
    dsimp only
    split <;> simp

/-- The withdrawn mark that the reports of standby entry set on a lane's burst in flight (R151). -/
def Arb.withMark (x : Arb) (m : Camera → Bool) : Arb :=
  { x with
    inFlight := match x.inFlight with
      | some (.lane c addr data w) => some (.lane c addr data (w || m c))
      | other => other }

theorem withdrawLane_withMark (x : Arb) (m : Camera → Bool) (c : Camera) :
    (x.withMark m).withdrawLane c = x.withMark (fun d => m d || decide (d = c)) := by
  obtain ⟨i, p, q, r⟩ := x
  cases i with
  | none => rfl
  | some b => cases b <;> simp [Arb.withMark, Arb.withdrawLane, Bool.or_assoc]

/-- PIPELINE_RESTART withdraws every lane's write (R44, R151). -/
theorem restartLanes_arb (s : State) : s.restartLanes.arb = s.arb.withMark (fun _ => true) := by
  unfold State.restartLanes
  obtain ⟨i, p, q, r⟩ := s.arb
  cases i with
  | none => rfl
  | some b =>
    cases b with
    | lane d addr data w => cases d <;> cases w <;> rfl
    | pool b => rfl
    | fetch a w => rfl

/-- The lanes whose write a report of standby entry withdraws. -/
def State.leaves (s : State) (c : Camera) : Bool := decide ((s.cam c).state = .streaming) && (s.lane c).busy.isSome

theorem reportOne_lane (s : State) (c : Camera) :
    (∀ d, d ≠ c → (s.reportOne c).lane d = s.lane d) ∧ ((s.reportOne c).lane c).totals = (s.lane c).totals
      ∧ ((s.cam c).state = .streaming ∨ (s.lane c).busy = none → ((s.reportOne c).lane c).busy = none) := by
  unfold State.reportOne
  by_cases h : (s.cam c).state = .streaming
  · rw [if_pos h]
    exact ⟨(leaveStreaming_lanes s c).2, (leaveStreaming_arb s c).2.2, fun _ => (leaveStreaming_arb s c).2.1⟩
  · rw [if_neg h]
    exact ⟨fun _ _ => rfl, rfl, fun g => g.resolve_left h⟩

theorem reportOne_arb (s : State) (x : Arb) (m : Camera → Bool) (c : Camera) (h : s.arb = x.withMark m) :
    (s.reportOne c).arb = x.withMark (fun d => m d || (decide (d = c) && s.leaves c)) := by
  unfold State.reportOne State.leaves
  by_cases hs : (s.cam c).state = .streaming
  · rw [if_pos hs, (leaveStreaming_arb s c).1, h]
    cases hb : (s.lane c).busy <;> simp [hs, withdrawLane_withMark]
  · rw [if_neg hs, h]
    simp [hs]

/-- The reports leave the Arbiter as it is but for the mark of a STREAMING lane's burst in flight, and each lane READY where
its camera was STREAMING. -/
theorem reportAll_arb (s : State) :
    s.reportAll.arb = s.arb.withMark s.leaves
    ∧ ∀ d, (s.reportAll.lane d).totals = (s.lane d).totals
      ∧ ((s.cam d).state = .streaming ∨ (s.lane d).busy = none → (s.reportAll.lane d).busy = none) := by
  have h0 : s.arb = s.arb.withMark (fun _ => false) := by
    obtain ⟨i, p, q, r⟩ := s.arb
    cases i with
    | none => rfl
    | some b => cases b <;> simp [Arb.withMark]
  have hc : ∀ (t : State) (c e : Camera), (t.reportOne c).cam e = t.cam e := fun t c e => by simp [State.cam]
  have hl : ∀ (t : State) (c d : Camera), d ≠ c → (t.reportOne c).leaves d = t.leaves d := fun t c d h => by
    unfold State.leaves
    rw [hc, (reportOne_lane t c).1 d h]
  have h1 := reportOne_arb s _ _ .fl h0
  have h2 := reportOne_arb _ _ _ .fr h1
  have h3 := reportOne_arb _ _ _ .rr h2
  have h4 := reportOne_arb _ _ _ .rl h3
  rw [reportAll_eq]
  refine ⟨?_, ?_⟩
  · rw [h4]
    congr 1
    funext d
    rw [hl s .fl .fr (by decide), hl _ .fr .rr (by decide), hl s .fl .rr (by decide), hl _ .rr .rl (by decide),
      hl _ .fr .rl (by decide), hl s .fl .rl (by decide)]
    cases d <;> simp
  · intro d
    have a := reportOne_lane s .fl
    have b := reportOne_lane (s.reportOne .fl) .fr
    have c := reportOne_lane ((s.reportOne .fl).reportOne .fr) .rr
    have e := reportOne_lane (((s.reportOne .fl).reportOne .fr).reportOne .rr) .rl
    simp only [hc] at a b c e
    cases d
    · rw [e.1 .fl (by decide), c.1 .fl (by decide), b.1 .fl (by decide)]; exact a.2
    · rw [e.1 .fr (by decide), c.1 .fr (by decide)]
      rw [← a.1 .fr (by decide)]; exact b.2
    · rw [e.1 .rr (by decide)]
      rw [← a.1 .rr (by decide), ← b.1 .rr (by decide)]; exact c.2
    · rw [← a.1 .rl (by decide), ← b.1 .rl (by decide), ← c.1 .rl (by decide)]; exact e.2

/-! ### Flags kept -/

/-- A flag that a mask shows stays shown when flags are set. -/
theorem keep_or {x y m : BitVec 10} (h : x &&& m ≠ 0) : (x ||| y) &&& m ≠ 0 := by
  intro hy
  apply h
  have h1 : x &&& m = x &&& ((x ||| y) &&& m) := by
    ext i
    simp
    cases x[i] <;> simp
  rw [h1, hy]
  simp

/-! ### Leases removed -/

/-- A lease's removal and notice, as standby entry makes them. -/
def State.dropLease (s : State) (l : Lease) : State := (s.removeLease l).raiseLease l.holder

theorem raiseLease_leases (s : State) (h : LeaseHolder) :
    (s.raiseLease h).leases = s.leases ∧ (s.raiseLease h).plans = s.plans := by
  unfold State.raiseLease
  split <;> exact ⟨rfl, rfl⟩

theorem dropLease_leases (s : State) (l : Lease) :
    (s.dropLease l).leases = { s.leases with table := s.leases.table.filter (fun m => !(m.handle == l.handle)) } := by
  rw [State.dropLease, (raiseLease_leases _ _).1]
  rfl

theorem onRefs_hold (s : State) (id j : PlanId) (f : PlanRefs → PlanRefs) :
    ((s.onRefs id f).plan j).hold = (s.plan j).hold := by
  simp only [State.plan, State.onRefs, State.setPlan, Quad.get_set]
  split
  · rename_i h
    rw [h]
  · rfl

theorem dropLease_hold (s : State) (l : Lease) (j : PlanId) : ((s.dropLease l).plan j).hold = (s.plan j).hold := by
  have h : (s.dropLease l).plan j = (s.removeLease l).plan j := by
    rw [State.dropLease, State.plan, (raiseLease_leases _ _).2]
    rfl
  rw [h]
  exact onRefs_hold ..

/-- A flag set stays set through a lease's removal. -/
theorem dropLease_keeps (s : State) (l : Lease) (p : Port) (k : NoticeKind)
    (h : (s.ports.get p).raised &&& k.mask ≠ 0) : ((s.dropLease l).ports.get p).raised &&& k.mask ≠ 0 := by
  have hp : (s.removeLease l).ports = s.ports := rfl
  unfold State.dropLease State.raiseLease
  split
  · simp only [State.raise, Duo.get_set, hp]
    split
    · rename_i q _ e
      exact keep_or (e ▸ h)
    · exact h
  · exact h

theorem dropLease_raises (s : State) (l : Lease) (p : Port) (h : l.holder = .port p) :
    ((s.dropLease l).ports.get p).raised &&& NoticeKind.lease.mask ≠ 0 := by
  have hm : ∀ x : BitVec 10, (x ||| NoticeKind.lease.mask) &&& NoticeKind.lease.mask ≠ 0 := by
    intro x hx
    have h1 : NoticeKind.lease.mask &&& ((x ||| NoticeKind.lease.mask) &&& NoticeKind.lease.mask)
        = NoticeKind.lease.mask := by
      ext i
      simp
      cases NoticeKind.lease.mask[i] <;> simp
    rw [hx] at h1
    simp [NoticeKind.mask] at h1
  unfold State.dropLease State.raiseLease
  rw [h]
  simp only [State.raise, Duo.get_set_same]
  exact hm _

/-- Leases removed one after another: the table keeps those of other handles, every plan keeps its content, LEASE is
raised for every lease of a port, and a flag set stays set. -/
theorem dropLeases (ls : List Lease) : ∀ s : State,
    let t := ls.foldl State.dropLease s
    t.leases = { s.leases with table := s.leases.table.filter (fun m => ls.all (fun l => !(m.handle == l.handle))) }
    ∧ (∀ j, (t.plan j).hold = (s.plan j).hold)
    ∧ (∀ p k, (s.ports.get p).raised &&& NoticeKind.mask k ≠ 0 → (t.ports.get p).raised &&& k.mask ≠ 0)
    ∧ ∀ l ∈ ls, ∀ p, l.holder = .port p → (t.ports.get p).raised &&& NoticeKind.lease.mask ≠ 0 := by
  induction ls with
  | nil =>
    intro s
    refine ⟨?_, fun _ => rfl, fun _ _ h => h, ?_⟩
    · simp
    · intro l hl
      cases hl
  | cons a ls ih =>
    intro s
    obtain ⟨h1, h2, h3, h4⟩ := ih (s.dropLease a)
    refine ⟨?_, ?_, ?_, ?_⟩
    · simp only [List.foldl_cons]
      rw [h1, dropLease_leases]
      simp only [List.filter_filter, List.all_cons]
      congr 1
      apply List.filter_congr
      intro x _
      exact Bool.and_comm _ _
    · intro j
      simp only [List.foldl_cons]
      rw [h2, dropLease_hold]
    · intro p k h
      exact h3 p k (dropLease_keeps s a p k h)
    · intro l hl p hp
      rcases List.mem_cons.mp hl with rfl | hl
      · exact h3 p .lease (dropLease_raises s l p hp)
      · exact h4 l hl p hp

/-! ### The entry -/

/-- Two states with one view of the leases differ in the leases, the plan slots and raised flags alone. -/
theorem eq_of_sansLeases {s t : State} (h : t.sansLeases = s.sansLeases) :
    t = { s with leases := t.leases, plans := { s.plans with slots := t.plans.slots }, ports := t.ports }
      ∧ quietPorts t.ports = quietPorts s.ports := by
  obtain ⟨⟩ := s
  obtain ⟨_, _, _, _, _, _, ⟨_, _⟩, _, _, _, _, _, _, _, _⟩ := t
  simp only [State.sansLeases, State.mk.injEq, Plans.mk.injEq] at h ⊢
  tauto

/-- Two states that differ in the pipeline alone agree in the rest. -/
theorem pipeOnly_rest {s t : State} (h : s.pipeOnly t) :
    t.power = s.power ∧ t.leases = s.leases ∧ t.plans = s.plans ∧ quietPorts t.ports = quietPorts s.ports := by
  obtain ⟨h1, h2⟩ := h
  rw [h1]
  exact ⟨rfl, rfl, rfl, by rw [← h2]⟩

/-- Standby entry takes the part to sleep. -/
theorem enterStandby_sleepsTo (s : State) : s.sleepsTo s.enterStandby := by
  have hr := pipeOnly_of_sansPipe (reportAll_sansPipe s)
  obtain ⟨hpow, hleases, hplans, hports⟩ := pipeOnly_rest hr
  have hset := reportAll_settings s
  have hfr := reportAll_frame s
  obtain ⟨harb, hlane⟩ := reportAll_arb s
  have hchain := reportAll_chain s
  unfold State.enterStandby
  generalize s.reportAll = w at *
  simp only [Capture.settings, Prod.mk.injEq] at hset
  dsimp only
  generalize ha : ({ w with lanes := w.lanes.map Lane.standby, capture := w.capture.clear } : State) = a
  obtain ⟨hb, hq⟩ := eq_of_sansLeases (removeLeases_sansLeases a)
  obtain ⟨d1, d2, d3, d4⟩ := dropLeases a.leases.table a
  have hrem : a.leases.table.foldl State.dropLease a = a.removeLeases := rfl
  rw [hrem] at d1 d2 d4
  generalize a.removeLeases = b at *
  have hal : a.leases = s.leases := by rw [← ha]; exact hleases
  have hap : a.plans = s.plans := by rw [← ha]; exact hplans
  refine ⟨?_, raiseBoth_bothRaised _ _, ?_, ?_, ?_, ?_, ?_, ?_, ?_, ?_, ?_, ?_⟩
  · show { b.power with state := .standby, entry := false, idle := none } = _
    rw [hb, ← ha]
    dsimp only
    rw [hpow]
  · show b.leases = _
    have h0 : s.leases.table.filter (fun m => s.leases.table.all (fun l => !(m.handle == l.handle))) = [] := by
      rw [List.filter_eq_nil_iff]
      intro m hm
      simp only [List.all_eq_true]
      intro h
      simpa using h m hm
    rw [d1, hal]
    dsimp only
    rw [h0]
  · intro l hm p hpo
    have h := d4 l (hal ▸ hm) p hpo
    cases p <;> exact keep_or h
  · show b.chain.standby = _
    rw [hb, ← ha]
    dsimp only
    rw [hchain]
    rfl
  · intro c
    show (b.chain.standby.table).get c.idx = _
    rw [hb, ← ha]
    dsimp only
    rw [hchain]
    simp [Chain.standby, CamRecord.standby, State.cam]
  · intro c
    have e : b.lanes.get c.idx = (w.lane c).standby := by
      rw [hb, ← ha]
      exact Quad.get_map ..
    show (b.lanes.get c.idx).buffer = [] ∧ (b.lanes.get c.idx).retained = none
      ∧ (b.lanes.get c.idx).closedTag = none ∧ (b.lanes.get c.idx).totals = _
      ∧ (_ → (b.lanes.get c.idx).frame = none) ∧ (_ → (b.lanes.get c.idx).busy = none)
    rw [e]
    exact ⟨rfl, rfl, rfl, (hlane c).1, fun h => hfr c h, fun h => (hlane c).2 h⟩
  · show b.arb = _
    rw [hb, ← ha]
    exact harb
  · show b.capture = _
    rw [hb, ← ha]
    simp only [Capture.clear, hset.1, hset.2.1, hset.2.2]
  · intro id
    show (b.plan id).hold = _
    rw [d2, State.plan, hap]
    rfl
  · rw [hb, ← ha, hr.1]
    simp only [State.raiseBoth]
  · show quietPorts b.ports = _
    rw [hq, ← ha]
    exact hports

/-- An entry that is due is taken, and otherwise nothing changes. -/
theorem takeEntry_cases (s : State) :
    (s.power.entry = true ∧ s.composer = none ∧ s.sleepsTo s.takeEntry)
      ∨ (¬(s.power.entry = true ∧ s.composer = none) ∧ s.takeEntry = s) := by
  unfold State.takeEntry
  split
  · rename_i h
    exact Or.inl ⟨h.1, h.2, enterStandby_sleepsTo s⟩
  · rename_i h
    exact Or.inr ⟨h, rfl⟩

end Sys2Proof.Machine
end

