-- ==== Sys2Proof/Tests/Slice0.lean ====
section
/-! SUPPORT. Tests: ill-formed commands that WellFormed refuses, worked examples of the manual, and for each statement a
state and operands that meet its hypotheses. -/

namespace Sys2Proof.Tests
open Sys2Proof Sys2Proof.Machine

/-! ### Small states -/

/-- The part in RUN with everything else as after power-on reset. -/
def running : State := { State.reset with power := { Power.reset with state := .run } }

/-- The part in STANDBY. -/
def asleep : State := { State.reset with power := { Power.reset with state := .standby } }

/-- The part in RUN during a standby wait. -/
def waiting : State := { State.reset with power := { Power.reset with state := .run, entry := true } }

/-- A request with a good check. -/
def req (code : Byte) (payload : List Byte) : Request :=
  { seq := 7, code := code, len := payload.length, payload := payload, badCheck := false }

/-- A request alone in a port's queue. -/
def ask (s : State) (p : Port) (r : Request) : State :=
  { s with ports := s.ports.set p { s.ports.get p with requests := [r], openItems := 1 } }

/-- The state after a command. -/
def after (c : Instr) (s : State) : State :=
  match exec c s with
  | .next t => t
  | _ => s

/-- A request that passes the port's checks, alone in the queue of a port with none in execution, is ready. -/
theorem ready_ask (s : State) (p : Port) (k : RequestKind) (r : Request) (he : (s.ports.get p).executing = none)
    (hk : r.screen = .inr k) : (ask s p r).Ready p k r [] := by
  refine ⟨?_, ?_, hk⟩ <;> simp [ask, he]

/-- The last answer posted on a port: its outcome and payload. -/
def lastAnswer (s : State) (p : Port) : Option (Code × List Byte) :=
  (s.ports.get p).answers.getLast?.map (fun a => (a.outcome, a.payload))

/-! ### Well-formedness: each check refuses an ill-formed command -/

theorem test_wf_arrival_cut : (Instr.requestArrival .cp [1, 1]).wf = false := by decide
theorem test_wf_arrival_too_long : (Instr.requestArrival .cp [1, 1, 0, 0, 0, 0]).wf = false := by decide
theorem test_wf_arrival_good : (Instr.requestArrival .cp [1, 1, 0, 0, 0]).wf = true := by decide
theorem test_wf_overlength_short : (Instr.packetArrival .fl .overlength [1]).wf = false := by decide
theorem test_wf_end_marker_long (bytes : List Byte) (h : bytes.length = 2567) :
    (Instr.packetArrival .fl .endMarker bytes).wf = false := by
  simp [Instr.wf, packetBytes, h]
theorem test_wf_start_marker_long (bytes : List Byte) (h : bytes.length = 2567) :
    (Instr.packetArrival .fl .startMarker bytes).wf = false := by
  simp [Instr.wf, packetBytes, h]
theorem test_wf_handle_low : (Instr.leaseExpiry 0).wf = false := by decide
theorem test_wf_handle_high : (Instr.leaseExpiry 256).wf = false := by decide

/-! ### Steps -/

theorem test_step_takes_the_front : ({ State.reset with pending := [.burstDone, .strobe] } : State).pending
    = .burstDone :: [.strobe] := by decide
theorem test_idle_passes_one_us : step State.reset = .next { State.reset with now := 1 } := by rfl

/-! ### Formats -/

/-- The check of the byte 0x00: sixteen steps of the generator 0x8005 from all ones. -/
theorem test_crc16 : crc16 [] = 0xFFFF#16 ∧ crc16 [0] = 0xFD02#16 := by decide
theorem test_slot_words :
    slotResultOf (some 0xC00#14) = .reply (.status .streaming .none) ∧ slotResultOf (some 0xC01#14) = .missed
      ∧ slotResultOf (some (0b11#2 ++ 0b100#3 ++ 0x55#8 ++ 1#1)) = .reply (.ident 4 0x55) ∧ slotResultOf none = .missed
      ∧ slotResultOf (some 0xF00#14) = .reply (.status .streaming .none) := by decide

/-! ### Worked examples of the manual -/

theorem test_seam_weight : seamWeight .e 10 20 = 43 := by decide
theorem test_seam_weight_ends :
    seamWeight .n 0 31 = 64 ∧ seamWeight .n 5 0 = 0 ∧ seamWeight .sw 31 0 = 64 ∧ seamWeight .sw 0 31 = 0
      ∧ seamWeight .se 0 0 = 64 ∧ seamWeight .se 31 31 = 0 := by decide
theorem test_gained_luma : gainedY 110 262 = 113 ∧ gainedY 96 250 = 94 ∧ gainedY 200 512 = 255 := by decide
theorem test_blend : blend 43 120 113 = 118 := by decide
theorem test_bilinear : bilinear 13 6 90 94 98 102 = 96 := by decide

/-- A point of a mesh record in its 4 bytes. -/
def pointBytes (x y : Nat) : List Byte := be2 x ++ be2 y

/-- The mesh of tile 355. -/
def mesh355 : List Byte :=
  pointBytes 8000 12000 ++ pointBytes 8400 12040 ++ pointBytes 8800 12080
    ++ pointBytes 8080 12320 ++ pointBytes 8480 12360 ++ pointBytes 8880 12400
    ++ pointBytes 8160 12640 ++ pointBytes 8560 12680 ++ pointBytes 8960 12720

theorem test_source_position : sourcePos mesh355 20 5 = (8525, 12150) := by decide
theorem test_fetch_box : clipBox mesh355 = some { left := 500, right := 561, top := 750, bottom := 796 } := by decide
theorem test_mesh_in_range : meshInRange mesh355 = true ∧ spreadOk mesh355 = true := by decide

/-- The accumulators of composition 5300. -/
def seams5300 : Quad SeamAcc :=
  ⟨⟨737280, 688128, 6144⟩, ⟨712704, 761856, 6144⟩, ⟨360000, 330000, 3000⟩, ⟨638976, 724992, 6144⟩⟩

def balance5300 : Balance := { Balance.reset with gains := ⟨256, 262, 250, 244⟩ }

theorem test_balance_update : (balance5300.update 5300 (Quad.all .fresh) seams5300).gains = ⟨256, 270, 242, 252⟩ := by
  decide
theorem test_balance_report :
    (balance5300.update 5300 (Quad.all .fresh) seams5300).report.map BalanceReport.cams
      = some ⟨.anchor, .moved 9 8 270, .moved (-8) (-8) 242, .moved 17 8 252⟩ := by decide

/-- The four plans of the pool's worked sequence before PLAN_DISCARD 1. -/
def planWith (base n : Nat) : PlanSlot :=
  { PlanSlot.reset with
    hold := .verified
      { header := { headerOf [] with meshCount := n }, tiles := [], meshWritten := [], opener := .cp, base := base } }

def fourPlans : Plans :=
  { slots := ⟨planWith 0 600, planWith 600 400, planWith 1000 700, planWith 1700 300⟩, walk := none }

def threePlans : Plans := { fourPlans with slots := fourPlans.slots.set 1 PlanSlot.reset }

theorem test_pool_gaps : gapsFrom 0 fourPlans.runs = [(2000, 48)] ∧ gapsFrom 0 threePlans.runs = [(600, 400), (2000, 48)] := by
  decide
theorem test_pool_no_space : threePlans.placeRun 1 420 = none ∧ threePlans.placeRun 3 420 = none
    ∧ fourPlans.runOf 2 = some { plan := 2, base := 1000, len := 700 } ∧ 1 ≤ 700 ∧ 1000 + 700 ≤ 2048 := by decide
theorem test_pool_grows_in_place : threePlans.placeRun 0 650 = some 0 := by decide

theorem test_tile_discards_bits : tileBytes (tileOfBytes [0xFB, 0xFC, 0xFF, 0x01, 0x03, 0xFF])
    = [0x73, 0x74, 0x03, 0x01, 0x03, 0xFF] := by decide
theorem test_source_bytes : Source.byte (.stale 1) = 0x11 ∧ Source.byte .mismatch = 0x30 := by decide
theorem test_outcomes :
    outcomeOf false 16 .cp ⟨.fresh, .fresh, .stale 2, .fresh⟩ 3 = .underrun
      ∧ outcomeOf false 0 .fallback ⟨.fresh, .fresh, .fresh, .excluded⟩ 0 = .degraded
      ∧ outcomeOf false 0 .cp (Quad.all .fresh) 0 = .complete := by decide

/-- A record numbered `n`, its other fields plain. -/
def plainRecord (n : Nat) : FrameRecord :=
  { frame := n, tag := 0, plan := none, holder := .none, lease := none, sources := Quad.all .fresh, repaired := Quad.all 0
    degraded := 0, underrun := 0, dropped := 0, divisor := 1, outcome := .complete }

/-- The ring of the worked sequence of two cursors. -/
def fullRing : RecordLog :=
  { ring := (List.range' 101 32).map plainRecord, next := 133, cursors := ⟨120, 95⟩ }

theorem test_read_past_a_full_ring : fullRing.read 95 4 = (6, (List.range' 101 4).map plainRecord, 105) := by
  decide +kernel
theorem test_append_drops_the_oldest :
    (fullRing.append (plainRecord 133)).ring = (List.range' 102 32).map plainRecord
      ∧ (fullRing.append (plainRecord 133)).next = 134 ∧ 32 ≤ fullRing.ring.length
      ∧ ({ fullRing with next := 4294967295 }.append (plainRecord 4294967295)).next = 1
      ∧ ({ fullRing with next := 4294967295 }.append (plainRecord 4294967295)).ring = [] := by decide +kernel
theorem test_empty_answer_frame : answerFrame none false false = [0, 0, 0, 0, 0] ++ be2 (crc16 [0, 0, 0, 0, 0]).toNat := by
  decide +kernel

/-! ### Hypotheses met: request ports -/

/-- A select period in progress on CP. -/
def selected (s : State) (sel : Select) (open0 : Nat) : State :=
  { s with ports := s.ports.set .cp { s.ports.get .cp with select := some sel, openItems := open0 } }

def freshSelect : Select :=
  { out := none, overflow := false, notice := false, shifted := false, taken := false, dropped := false, starting := false }

/-- An ECHO of no bytes as a frame, and the request it carries. -/
def echoFrame : List Byte := [7, 1, 0] ++ be2 (crc16 [7, 1, 0]).toNat

theorem test_witness_select_period :
    (State.reset.ports.get .cp).select = none
      ∧ ((selected running freshSelect 0).ports.get .cp).select = some freshSelect ∧ freshSelect.shifted = false := by decide
/-- The frame goes out from its first byte, and filler after it, and nothing with select not asserted (R170). -/
theorem test_filler_follows_the_frame :
    (selected running freshSelect 0).shiftsOut .cp 10 = some (freshSelect.frameBytes ++ [0, 0, 0])
      ∧ (selected running { freshSelect with shifted := true } 0).shiftsOut .cp 3 = some [0, 0, 0]
      ∧ running.shiftsOut .cp 3 = none := by decide +kernel
theorem test_witness_frame : (1 : Byte) ≠ 0 ∧ ([] : List Byte).length ≤ 255 ∧ (List.replicate 255 (0 : Byte)).length ≤ 255 :=
  ⟨by decide, by decide, Nat.le_of_eq List.length_replicate⟩
theorem test_witness_arrival :
    requestOfFrame echoFrame = some (req 1 [])
      ∧ ((selected running freshSelect 3).ports.get .cp).select = some freshSelect ∧ freshSelect.taken = false
      ∧ ((selected running freshSelect 3).ports.get .cp).openItems = 3
      ∧ ((selected running freshSelect 4).ports.get .cp).openItems = 4
      ∧ ((selected running { freshSelect with starting := true } 0).ports.get .cp).select
        = some { freshSelect with starting := true }
      ∧ ([0, 0, 0, 0, 0] : List Byte)[1]? = some 0
      ∧ ((selected running { freshSelect with taken := true } 0).ports.get .cp).select
        = some { freshSelect with taken := true } := by decide +kernel
theorem test_arrival_overflows :
    ((after (.requestArrival .cp echoFrame) (selected running freshSelect 4)).ports.get .cp).overflow = true
      ∧ ((after (.requestArrival .cp echoFrame) (selected running freshSelect 3)).ports.get .cp).requests = [req 1 []]
      ∧ ((after (.requestArrival .cp echoFrame) (after (.requestArrival .cp [0, 0, 0, 0, 0])
        (selected running freshSelect 3))).ports.get .cp).requests = [] := by
  decide +kernel
theorem test_witness_port_checks :
    ((ask running .cp { req 1 [] with badCheck := true }).ports.get .cp).executing = none
      ∧ ((ask running .cp (req 0x05 [])).ports.get .cp).requests = [req 0x05 []]
      ∧ RequestKind.ofCode (req 0x05 []).code.toNat = none
      ∧ RequestKind.ofCode (req 0x02 [1]).code.toNat = some .statusRead
      ∧ RequestKind.statusRead.lengthOk (req 0x02 [1]).len = false := by decide
theorem test_unknown_request_is_answered :
    lastAnswer (after (.unknownRequest .cp) (ask running .cp (req 0x05 []))) .cp = some (.unknown, []) := by decide
theorem test_witness_echo : (ask running .cp (req 0x01 [1, 2])).Ready .cp .echo (req 0x01 [1, 2]) [] :=
  ready_ask _ _ _ _ (by decide) (by decide)
theorem test_echo : lastAnswer (after (.echo .cp) (ask running .cp (req 0x01 [1, 2]))) .cp = some (.ok, [1, 2]) := by decide
theorem test_witness_status :
    (ask running .cp (req 0x02 [])).Ready .cp .statusRead (req 0x02 []) [] ∧ Port.mp ≠ Port.cp :=
  ⟨ready_ask _ _ _ _ (by decide) (by decide), by decide⟩
theorem test_status_read : lastAnswer (after (.statusRead .cp) (ask running .cp (req 0x02 []))) .cp
    = some (.ok, [1, 0, 1, 1, 0, 0, 0, 0, 0, 0, 0, 1, 1, 0, 0, 0, 2, 1, 0]) := by decide
theorem test_witness_notices :
    (ask running .cp (req 0x03 [0x03, 0xFF])).Ready .cp .noticeEnable (req 0x03 [0x03, 0xFF]) []
      ∧ halfAt (req 0x03 [0x03, 0xFF]).payload 0 = 1023
      ∧ (ask running .cp (req 0x03 [0x04, 0])).Ready .cp .noticeEnable (req 0x03 [0x04, 0]) []
      ∧ halfAt (req 0x03 [0x04, 0]).payload 0 = 1024
      ∧ (ask running .mp (req 0x04 [0x03, 0xFF])).Ready .mp .noticeTake (req 0x04 [0x03, 0xFF]) []
      ∧ (ask running .mp (req 0x04 [0x04, 0])).Ready .mp .noticeTake (req 0x04 [0x04, 0]) [] :=
  ⟨ready_ask _ _ _ _ (by decide) (by decide), by decide, ready_ask _ _ _ _ (by decide) (by decide), by decide,
    ready_ask _ _ _ _ (by decide) (by decide), ready_ask _ _ _ _ (by decide) (by decide)⟩
theorem test_notice_take_clears :
    lastAnswer (after (.noticeTake .cp) (ask (running.raise .cp .frame) .cp (req 0x04 [0, 0x40]))) .cp = some (.ok, [0, 0x40])
      ∧ ((after (.noticeTake .cp) (ask (running.raise .cp .frame) .cp (req 0x04 [0, 0x40]))).ports.get .cp).raised = 0 := by
  decide
theorem test_witness_reads :
    (ask running .cp (req 0x11 [4])).Ready .cp .cameraRead (req 0x11 [4]) [] ∧ byteAt [4] 0 = Camera.rl.number
      ∧ (ask running .cp (req 0x11 [5])).Ready .cp .cameraRead (req 0x11 [5]) []
      ∧ (ask running .cp (req 0x21 [0])).Ready .cp .captureRead (req 0x21 [0]) []
      ∧ (ask running .cp (req 0x21 [1])).Ready .cp .captureRead (req 0x21 [1]) []
      ∧ (ask running .cp (req 0x21 [2])).Ready .cp .captureRead (req 0x21 [2]) []
      ∧ (ask running .cp (req 0x21 [3])).Ready .cp .captureRead (req 0x21 [3]) []
      ∧ (ask running .cp (req 0x36 [])).Ready .cp .poolRead (req 0x36 []) []
      ∧ (ask running .cp (req 0x43 [])).Ready .cp .viewRead (req 0x43 []) []
      ∧ (ask running .cp (req 0x51 [])).Ready .cp .balanceRead (req 0x51 []) [] :=
  ⟨ready_ask _ _ _ _ (by decide) (by decide), by decide, ready_ask _ _ _ _ (by decide) (by decide),
    ready_ask _ _ _ _ (by decide) (by decide), ready_ask _ _ _ _ (by decide) (by decide),
    ready_ask _ _ _ _ (by decide) (by decide), ready_ask _ _ _ _ (by decide) (by decide),
    ready_ask _ _ _ _ (by decide) (by decide), ready_ask _ _ _ _ (by decide) (by decide),
    ready_ask _ _ _ _ (by decide) (by decide)⟩
theorem test_pool_read : lastAnswer (after (.poolRead .cp) (ask running .cp (req 0x36 []))) .cp
    = some (.ok, [0, 1, 0, 0, 8, 0, 8, 0, 8, 0]) := by decide

/-! ### Hypotheses met: the camera chain -/

/-- The part in RUN with one camera record set, a command queue, and a reply slot of that camera next. -/
def slotQueue (c : Camera) (r : CamRecord) (q : List ChainEntry) : State :=
  { running with
    chain := { Chain.reset with
      table := (Quad.all CamRecord.reset).set c.idx r
      queue := q
      interval := some { strobeAt := 0, slotsLeft := [c], counted := Quad.all true, lostNow := Quad.all false } } }

/-- The same with no command queued. -/
def slotState (c : Camera) (r : CamRecord) : State := slotQueue c r []

/-- The interval of these states. -/
def slotOf (c : Camera) : Interval :=
  { strobeAt := 0, slotsLeft := [c], counted := Quad.all true, lostNow := Quad.all false }

theorem slotQueue_due (c : Camera) (r : CamRecord) (q : List ChainEntry) : (slotQueue c r q).slotDue c (slotOf c) :=
  ⟨rfl, rfl, rfl⟩

/-- An entry that has been sent. -/
def sent (e : ChainEntry) (n : Nat) : ChainEntry := { e with attempts := n }

def recordIn (x : CamState) : CamRecord := { CamRecord.reset with state := x }

/-- The part with a chain phase. -/
def phased (s : State) (f : ChainPhase) : State := { s with chain := { s.chain with phase := f } }

theorem test_witness_rebuild :
    (ask asleep .cp (req 0x10 [])).Ready .cp .chainRebuild (req 0x10 []) [] ∧ asleep.power.state = .standby
      ∧ (ask (phased running .settling) .cp (req 0x10 [])).Ready .cp .chainRebuild (req 0x10 []) []
      ∧ (phased running .settling).chain.phase.inFlight = true
      ∧ (ask (phased running .steady) .cp (req 0x10 [])).Ready .cp .chainRebuild (req 0x10 []) []
      ∧ (phased running .steady).power.state ≠ .standby ∧ (phased running .steady).chain.phase.inFlight = false :=
  ⟨ready_ask _ _ _ _ (by decide) (by decide), by decide, ready_ask _ _ _ _ (by decide) (by decide), by decide,
    ready_ask _ _ _ _ (by decide) (by decide), by decide, by decide⟩
theorem test_witness_restart :
    (ask (slotState .rl (recordIn .faulted)) .cp (req 0x12 [4])).Ready .cp .cameraRestart (req 0x12 [4]) []
      ∧ byteAt (req 0x12 [4]).payload 0 = Camera.rl.number
      ∧ ((slotState .rl (recordIn .faulted)).cam .rl).state = .faulted
      ∧ (slotState .rl (recordIn .faulted)).chain.queue.all (fun e => !(e.target == some .rl)) = true
      ∧ (slotState .rl (recordIn .faulted)).chain.queue.length < 8
      ∧ (ask (slotState .rl (recordIn .unaddressed)) .cp (req 0x12 [4])).Ready .cp .cameraRestart (req 0x12 [4]) []
      ∧ ((slotState .rl (recordIn .unaddressed)).cam .rl).state = .unaddressed :=
  ⟨ready_ask _ _ _ _ (by decide) (by decide), by decide, by decide, by decide, by decide,
    ready_ask _ _ _ _ (by decide) (by decide), by decide⟩

/-- The part in RUN with a strobe due. -/
def strobeDue : State :=
  { running with chain := { Chain.reset with
      nextStrobe := some 33000, table := Quad.all { recordIn .testing with startPending := true } } }

theorem test_witness_strobe : strobeDue.power.state = .run ∧ strobeDue.chain.nextStrobe = some 33000
    ∧ (strobeDue.cam .rl).startPending = true ∧ strobeDue.chain.queue = []
    ∧ ((running.cam .rl).startPending = false ∧ running.lanes = strobeDue.lanes)
    ∧ chainResetEntry.func = .chainReset ∧ chainResetEntry.origin = .bringUp
    ∧ { chainResetEntry with origin := .request .cp }.origin ≠ .bringUp
    ∧ (assignEntry .fl).func ≠ .chainReset := by decide
theorem test_strobe :
    (after .strobe strobeDue).now = 33000 ∧ (after .strobe strobeDue).chain.nextStrobe = some 66000
      ∧ (after .strobe strobeDue).capture.sets.length = 1 ∧ ((after .strobe strobeDue).cam .fr).state = .streaming
      ∧ (after .strobe strobeDue).chain.commandWord = none
      ∧ (after .strobe { strobeDue with chain := { strobeDue.chain with queue := [chainResetEntry] } }).chain.queue
        = [assignEntry .fl]
      ∧ (after .strobe { strobeDue with chain := { strobeDue.chain with queue := [assignEntry .fr] } }).chain.queue
        = [sent (assignEntry .fr) 1] := by decide

/-- A capture set with a tag, OPEN, every camera awaited. -/
def setOf (t : Tag) : CaptureSet := newSet t 0 25 (Quad.all true)

/-- The Capture Sequencer with sets of the tags 1 to 3. -/
def threeSets : Capture := { Capture.reset with sets := [setOf 1, setOf 2, setOf 3] }

theorem test_witness_open_set : threeSets.find 4 = none ∧ threeSets.sets.length < 4 ∧ threeSets.credit ≤ 255
    ∧ (Quad.all true : Quad Bool) ≠ Quad.all false ∧ threeSets.find 2 = some (setOf 2) ∧ (setOf 2).state ≠ .composing
    ∧ (∃ st, ({ threeSets with sets := [{ setOf 1 with state := .composing }] } : Capture).find 1 = some st
      ∧ st.state = .composing)
    ∧ ({ threeSets with sets := threeSets.sets ++ [setOf 4] } : Capture).sets = [] ++ setOf 1 :: [setOf 2, setOf 3, setOf 4]
    ∧ ({ threeSets with sets := threeSets.sets ++ [setOf 4] } : Capture).find 5 = none := by
  refine ⟨by decide, by decide, by decide, by decide, by decide, by decide, ⟨_, rfl, rfl⟩, by decide, by decide⟩
theorem test_no_camera_closes_at_once : (Capture.reset.strobe 0 0 (Quad.all false)).credit = 1 := by decide
theorem test_fifth_set_drops_the_oldest :
    (((threeSets.strobe 4 0 (Quad.all true)).strobe 5 0 (Quad.all true)).sets.map CaptureSet.tag) = [2, 3, 4, 5]
      ∧ ((threeSets.strobe 4 0 (Quad.all true)).strobe 5 0 (Quad.all true)).drops = 1
      ∧ (threeSets.strobe 2 0 (Quad.all true)).sets.map CaptureSet.tag = [1, 3, 2]
      ∧ ({ threeSets with sets := [{ setOf 1 with state := .composing }] }.strobe 1 0 (Quad.all true)).sets.length = 1 := by
  decide

theorem test_witness_slot :
    (slotState .fl (recordIn .streaming)).slotDue .fl (slotOf .fl)
      ∧ ((slotState .fl (recordIn .streaming)).chain.sentTo .fl = none
      ∧ ((slotState .fl (recordIn .streaming)).cam .fl).state = .streaming
      ∧ slotResultOf (some 0xC00#14) = .reply (.status .streaming .none)
      ∧ ((slotState .rl { recordIn .faulted with missed := 1 }).cam .rl).state.counted = true
      ∧ ((slotState .rl { recordIn .faulted with missed := 1 }).cam .rl).ident = none
      ∧ ((slotState .rl { recordIn .faulted with missed := 1 }).cam .rl).missed < 2
      ∧ (slotQueue .rl (recordIn .unaddressed) [sent (assignEntry .rl) 3]).chain.sentTo .rl = some (sent (assignEntry .rl) 3)
      ∧ (slotQueue .fl (recordIn .testing) [sent (entryFor .streamOn .fl .bringUp) 1]).chain.sentTo .fl
        = some (sent (entryFor .streamOn .fl .bringUp) 1)
      ∧ slotResultOf (some 0x1001#14) = .reply .ack ∧ slotResultOf (some 0x2001#14) = .reply .nack
      ∧ ((slotQueue .fl (recordIn .faulted) [sent (entryFor .streamOff .fl .fault) 1]).cam .fl).state = .faulted) :=
  ⟨slotQueue_due _ _ _, by decide⟩
theorem test_witness_desync :
    (slotState .rr (recordIn .streaming)).slotDue .rr (slotOf .rr)
      ∧ slotResultOf (some 0x800#14) = .missed ∧ slotResultOf (some 0x801#14) = .reply (.status .ready .none)
      ∧ StateCode.ready ≠ .streaming ∧ (slotState .rr (recordIn .streaming)).chain.queue.length < 8
      ∧ (slotState .rr (recordIn .streaming)).chain.sentTo .rr = none
      ∧ (∃ w : BitVec 14, slotResultOf (some w) = .reply (.status .streaming .sensorHot))
      ∧ (∃ w : BitVec 14, slotResultOf (some w) = .reply (.status .idle .memory))
      ∧ ((slotState .rr { recordIn .testing with test := some ⟨0, false⟩ }).cam .rr).test = some ⟨0, false⟩
      ∧ [some (0 : Byte), some 0, some 0, some 0, some 0x80, some 0, some 0, none].all Option.isSome = false :=
  ⟨slotQueue_due _ _ _, by decide, by decide, by decide, by decide, by decide, ⟨0xD80#14, by decide⟩, ⟨0x101#14, by decide⟩,
    by decide, by decide⟩
/-- An identification that lacks its last chunk, whose reply has come once; chunk 4 names the corner. -/
def nearIdent (corner : Byte) : CamRecord :=
  { recordIn .identifying with
    ident := some
      { chunks := [some 0, some 0, some 0, some 0, some corner, some 0, some 0, none], prev := some (7, 0x55)
        elapsed := 20 } }

theorem test_desync :
    ((after (.slotEnd .rr (some 0x801#14)) (slotState .rr (recordIn .streaming))).cam .rr).lastFault = .desync
      ∧ ((after (.slotEnd .rr (some 0xD80#14)) (slotState .rr (recordIn .streaming))).cam .rr).lastFault = .sensorHot
      ∧ (after (.slotEnd .rr (some (0b11#2 ++ 7#3 ++ 0x55#8 ++ 1#1))) (slotState .rr (nearIdent 0x80))).chain.queue
        = [entryFor .testStart .rr .bringUp]
      ∧ ((after (.slotEnd .rr (some (0b11#2 ++ 7#3 ++ 0x55#8 ++ 1#1))) (slotState .rr (nearIdent 0x40))).cam .rr).lastFault
        = .misplaced
      ∧ (after (.slotEnd .rr (some 0x801#14))
        (slotState .rr { recordIn .testing with test := some ⟨0, false⟩ })).chain.queue
        = [entryFor .streamOn .rr .bringUp] := by decide +kernel
theorem test_witness_loss :
    ((slotState .fl { recordIn .addressed with missed := 2 }).cam .fl).state.counted = true
      ∧ ((slotState .fl { recordIn .addressed with missed := 2 }).cam .fl).missed = 2 ∧ Camera.fl ≠ Camera.rl := by decide
theorem test_loss :
    ((after (.cameraLost .fl) (slotState .fl { recordIn .addressed with missed := 2 })).cam .fl).state = .lost
      ∧ (after (.slotEnd .rl (some 0x1001#14))
        (slotQueue .rl (recordIn .unaddressed) [sent (assignEntry .rl) 1])).chain.queue
        = [entryFor .identStart .rl .bringUp]
      ∧ ((after (.slotEnd .fr none) (slotQueue .fr (recordIn .unaddressed) [sent (assignEntry .fr) 3])).cam .fr).state
        = .absent
      ∧ ((after (.slotEnd .fl (some 0x2001#14))
        (slotQueue .fl (recordIn .testing) [sent (entryFor .streamOn .fl .bringUp) 1])).cam .fl).lastFault = .noAck := by
  decide +kernel
theorem test_witness_settle : ({ running.chain with settleAt := some 200000 } : Chain).queue.length < 8
    ∧ ({ running.chain with settleAt := some 200000 } : Chain).settleAt = some 200000 := by decide

/-- An identification one interval from its end. -/
def lateIdent : CamRecord :=
  { recordIn .identifying with ident := some { chunks := List.replicate 8 none, prev := none, elapsed := 63 } }

theorem test_witness_timeouts :
    ((slotState .rl lateIdent).cam .rl).state = .identifying
      ∧ (((slotState .rl lateIdent).cam .rl).ident.map IdentProgress.elapsed) = some 63
      ∧ ((slotState .rl lateIdent).cam .rl).missed < 2 ∧ slotResultOf none = .missed
      ∧ ((slotState .fl { recordIn .testing with test := some ⟨0, false⟩ }).cam .fl).test = some ⟨0, false⟩
      ∧ ((slotState .fl { recordIn .testing with test := some ⟨0, true⟩ }).cam .fl).test = some ⟨0, true⟩ := by decide
theorem test_ident_timeout : ((after (.identTimeout .rl none) (slotState .rl lateIdent)).cam .rl).lastFault = .identTimeout := by
  decide
theorem test_chain_break :
    ({ slotOf .rl with counted := ⟨true, true, false, true⟩, lostNow := ⟨false, true, false, true⟩ } : Interval).breakAt
      = some .fr
      ∧ ({ slotOf .rl with lostNow := ⟨false, true, false, true⟩ } : Interval).breakAt = none
      ∧ (slotOf .rl).slotsLeft.head? = some .rl
      ∧ ((slotState .rl { recordIn .addressed with missed := 2 }).cam .rl).thirdMiss (slotResultOf none) = true
      ∧ ({ slotOf .rl with lostNow := (slotOf .rl).lostNow.set Camera.rl.idx true } : Interval).breakAt = some .rl
      ∧ (slotState .rl { recordIn .addressed with missed := 2 }).chain.autoRebuild = true
      ∧ (slotState .rl { recordIn .addressed with missed := 2 }).chain.phase.inFlight = false
      ∧ (slotState .rl { recordIn .addressed with missed := 2 }).chain.lastAuto = none
      ∧ (after (.slotEnd .rl none) (slotState .rl { recordIn .addressed with missed := 2 })).chain.lastBreak = some .rl
      ∧ (after (.slotEnd .rl none) (slotState .rl { recordIn .addressed with missed := 2 })).chain.queue
        = [chainResetEntry] := by decide +kernel

/-! ### Hypotheses met: lanes and capture sets -/

/-- The part in RUN with one lane as given and its camera STREAMING. -/
def laneState (c : Camera) (x : Lane) : State :=
  { running with
    lanes := running.lanes.set c.idx x
    chain := { Chain.reset with table := Quad.all (recordIn .streaming) } }

/-- A frame of tag 5 filling slot 0, next line 3, repair limit 4. -/
def filling : FrameProgress :=
  { slot := 0, tag := 5, nextLine := 3, limit := 4, repaired := 2, torn := false, deadline := 66000 }

def lineOf (a : Nat) (t : Tag) (n : Nat) : Line := .intact a t n []

theorem test_witness_packet :
    ((State.reset.lane .fl).buffer.length < 2) ∧ ((laneState .fl { Lane.reset with
      buffer := [lineOf 1 5 3, lineOf 1 5 4], frame := some filling }).lane .fl).buffer.length = 2
    ∧ threeSets.credit ≤ 255
    ∧ (∀ st ∈ threeSets.sets, st.state = .opened → ∃ d : Camera, (st.entries.get d.idx).status.outstanding = true)
    ∧ ((threeSets.report .fr 2 .error).sets.map (fun st => st.entries.b.errors) = [0, 1, 0]) := by
  refine ⟨by decide, by decide, by decide, ?_, by decide⟩
  intro st h _
  simp only [threeSets, List.mem_cons, List.not_mem_nil, or_false] at h
  rcases h with rfl | rfl | rfl <;> exact ⟨.fl, by decide⟩
theorem test_witness_packet_checks :
    ([] : List Byte).length ≠ 2566 ∧ lineOfPacket .endMarker [1] = .bad .length [1]
      ∧ (List.replicate 2566 (0 : Byte)).length = 2566 :=
  ⟨by decide, by decide, List.length_replicate⟩
theorem test_overrun_is_counted :
    ((after (.packetArrival .fl .endMarker []) (laneState .fl { Lane.reset with
      buffer := [lineOf 1 5 3, lineOf 1 5 4] })).lane .fl).totals.overrun = 1 := by decide +kernel
/-- Lane FL with a line of a new tag and no frame filling, a live set of the tag, and every slot of the camera HELD. -/
def newTag : State :=
  let s := laneState .fl { Lane.reset with buffer := [lineOf 1 2 4], frame := some filling }
  { s with
    capture := { threeSets with
      slots := Quad.all ⟨⟨.held 9 .torn, true⟩, ⟨.held 8 .torn, false⟩, ⟨.held 7 .complete, false⟩⟩
      fillOrder := Quad.all [2, 1, 0], fresh := Quad.all (some (2, 7)) } }

theorem test_witness_unusable :
    ((laneState .fl { Lane.reset with buffer := [.bad .check []] }).lane .fl).busy = none
      ∧ ((laneState .fl { Lane.reset with buffer := [lineOf 2 5 3] }).lane .fl).buffer = .intact 2 5 3 [] :: []
      ∧ 2 ≠ Camera.fl.number
      ∧ ((laneState .fl { Lane.reset with buffer := [lineOf 1 5 960] }).cam .fl).state = .streaming
      ∧ ((laneState .fl { Lane.reset with closedTag := some 5, buffer := [lineOf 1 5 959] }).lane .fl).closedTag = some 5
      ∧ (laneState .fl { Lane.reset with buffer := [lineOf 1 5 959] }).capture.find 5 = none
      ∧ (running.cam .fl).state ≠ .streaming := by decide
theorem test_stray_line :
    ((after (.lineConsume .fl) (laneState .fl { Lane.reset with buffer := [lineOf 1 5 959] })).lane .fl).totals.stray = 1
      ∧ ((after (.lineConsume .fl)
        (laneState .fl { Lane.reset with buffer := [lineOf 1 5 2], frame := some filling })).lane .fl).totals.order = 1
      ∧ ((after (.lineConsume .fl) newTag).lane .fl).frame.map (fun f => (f.slot, f.tag, f.nextLine, f.torn))
        = some (1, 2, 4, true)
      ∧ ((after (.lineConsume .fl) newTag).lane .fl).closedTag = some 5 := by
  decide +kernel
theorem test_witness_next_line :
    ((laneState .fl { Lane.reset with buffer := [lineOf 1 5 7], frame := some filling }).lane .fl).buffer
      = .intact Camera.fl.number filling.tag 7 [] :: []
      ∧ ((laneState .fl { Lane.reset with buffer := [lineOf 1 5 7], frame := some filling }).lane .fl).closedTag
        ≠ some filling.tag
      ∧ filling.nextLine ≤ 7
      ∧ ((newTag.lane .fl).frame.map FrameProgress.tag ≠ some 2 ∧ newTag.capture.find 2 ≠ none
        ∧ (newTag.lane .fl).busy = none ∧ (newTag.lane .fl).closedTag ≠ some 2)
      ∧ (∀ k, ¬((newTag.capture.slot .fl k).pinned = false ∧ (newTag.capture.slot .fl k).hold = .free))
      ∧ newTag.capture.fillOrder.get Camera.fl.idx = [2] ++ 1 :: [0]
      ∧ newTag.capture.choose .fl = 1 ∧ ({ newTag.capture with fresh := Quad.all none }).choose .fl = 2 := by
  refine ⟨by decide, by decide, by decide, by decide, ?_, by decide, by decide, by decide⟩
  intro k
  match k with
  | 0 | 1 | 2 => decide
theorem test_witness_gap :
    filling.torn = false ∧ (0 < 3)
      ∧ (filling.gap (some ⟨2, [], true⟩) 3 3).2.length = 2
      ∧ (filling.gap (some ⟨2, [], true⟩) 3 3).1.torn = true
      ∧ (filling.gap (some ⟨2, [], true⟩) 3 2).1.torn = false
      ∧ (filling.gap (some ⟨2, [], false⟩) 3 1).1.torn = true
      ∧ ({ filling with torn := true } : FrameProgress).gap (some ⟨2, [], true⟩) 3 3 = ({ filling with torn := true }, [])
    := by decide

/-- Lane FL with a line of a new tag, and a frame whose last two lines are missing and can be repaired, its slot FILLING. -/
def tailMissing : State :=
  let s := laneState .fl { Lane.reset with
    buffer := [lineOf 1 2 4], frame := some { filling with nextLine := 958 }, retained := some ⟨957, [9], true⟩ }
  { s with capture := threeSets.setSlot .fl 0 ⟨.filling 5, false⟩ }

/-- The same lane with the two repairs written and counted. -/
def tailWritten : State :=
  let t := after (.lineConsume .fl) tailMissing
  t.setLane .fl { t.lane .fl with
    frame := some { filling with nextLine := 960, repaired := 4 }
    busy := some { kind := .tail 2 4 [], writes := [], granted := 0, ownDone := false } }

/-- The tail of a frame is repaired first, its slot still FILLING; the next LINE_CONSUME finalises it and begins the new one. -/
theorem test_tail_repairs_come_first :
    (({ filling with nextLine := 958 } : FrameProgress).gap (some ⟨957, [9], true⟩) 958 2).2.map LineWrite.line = [958, 959]
      ∧ ((after (.lineConsume .fl) tailMissing).lane .fl).busy.map (fun b => (b.kind, b.writes.map LineWrite.line))
        = some (.tail 2 4 [], [958, 959])
      ∧ ((after (.lineConsume .fl) tailMissing).capture.slot .fl 0).hold = .filling 5
      ∧ ((tailWritten.lane .fl).frame.map FrameProgress.tag = some 5)
      ∧ ((after (.lineConsume .fl) tailWritten).capture.slot .fl 0).hold = .held 5 (.repaired 4)
      ∧ ((after (.lineConsume .fl) tailWritten).lane .fl).frame.map (fun f => (f.slot, f.tag, f.torn)) = some (1, 2, true)
      ∧ ((after (.lineConsume .fl) tailWritten).lane .fl).closedTag = some 5
      ∧ ((tailWritten.leaveStreaming .fl).lane .fl).buffer = [] := by decide +kernel

/-- Lane FL with line `n` written. -/
def wroteLine (n : Nat) : Lane :=
  { Lane.reset with
    buffer := [lineOf 1 5 n], frame := some filling
    busy := some { kind := .line n [], writes := [], granted := 0, ownDone := true } }

theorem test_witness_written :
    ((laneState .fl (wroteLine 958)).lane .fl).busy = some { kind := .line 958 [], writes := [], granted := 0, ownDone := true }
      ∧ ((laneState .fl (wroteLine 959)).lane .fl).busy = some { kind := .line 959 [], writes := [], granted := 0, ownDone := true }
      ∧ ((laneState .fl (wroteLine 959)).lane .fl).frame = some filling := by decide
theorem test_last_line_finalises :
    ((after (.lineWriteComplete .fl) (laneState .fl (wroteLine 959))).capture.slot .fl 0).hold = .held 5 (.repaired 2) := by
  decide
theorem test_witness_abandon :
    ((laneState .fl { Lane.reset with frame := some filling }).lane .fl).busy = none
      ∧ ((laneState .fl { Lane.reset with frame := some filling }).lane .fl).frame = some filling
      ∧ ((laneState .fl { Lane.reset with
        frame := some filling, busy := some { kind := .abandon, writes := [], granted := 0, ownDone := false } }).lane .fl).busy
        = some { kind := .abandon, writes := [], granted := 0, ownDone := false } := by decide
theorem test_abandon_without_a_copy_tears :
    (((after (.frameAbandon .fl) (laneState .fl { Lane.reset with frame := some filling })).lane .fl).frame.map
      (fun f => (f.torn, f.nextLine))) = some (true, 960) := by decide
theorem test_witness_departure :
    ((laneState .fl { Lane.reset with frame := some filling }).lane .fl).frame = some filling
      ∧ threeSets.sets[0]? = some (setOf 1) ∧ (setOf 1).state = .opened
      ∧ ((setOf 1).entries.get Camera.fl.idx).status = .awaited
      ∧ (({ running with capture := threeSets } : State).leaveStreaming .fl).capture.sets.map
        (fun st => ((st.entries.get 0).status, st.state)) = List.replicate 3 (.missing, .opened)
      ∧ (({ laneState .fl (wroteLine 5) with
          arb := { running.arb with inFlight := some (.lane .fl 0 [] false) } } : State).leaveStreaming .fl).arb.inFlight
        = some (.lane .fl 0 [] true) := by decide +kernel
/-- An entry ARRIVING with the frame: PRESENT at a good end and TORN at a departure, the set closing where it was the last. -/
theorem test_finalisation_settles_the_entry :
    let st : CaptureSet := { setOf 5 with
      entries := (Quad.all { status := .excluded, written := 0, repaired := 0, errors := 0 }).set 0
        { status := .arriving 0, written := 3, repaired := 2, errors := 0 } }
    let x : Capture := { Capture.reset with sets := [st, setOf 1] }
    (x.finalised .fl 0 5 .complete).sets.map (fun z => ((z.entries.get 0).status, z.state))
        = [(.present 0, .closed), (.awaited, .opened)]
      ∧ (x.finalised .fl 0 5 .complete).credit = 1 ∧ (x.finalised .fl 0 5 .torn).fresh = x.fresh
      ∧ (({ laneState .fl { Lane.reset with frame := some filling } with capture := x } : State).leaveStreaming .fl
        ).capture.sets.map (fun z => ((z.entries.get 0).status, z.state)) = [(.torn 0, .closed), (.missing, .opened)]
      ∧ (x.sets[0]?).map (fun z => (z.tag, (z.entries.get 0).status)) = some (filling.tag, .arriving filling.slot) := by
  decide
theorem test_witness_window :
    ({ running with capture := threeSets } : State).capture.find 2 = some (setOf 2) ∧ (setOf 2).state = .opened := by decide
theorem test_window_expiry :
    (after (.windowExpiry 2) { running with capture := threeSets }).now = 25000
      ∧ (after (.windowExpiry 2) { running with capture := threeSets }).capture.credit = 1 := by decide

/-! ### Hypotheses met: settings -/

theorem test_witness_settings :
    (ask running .cp (req 0x13 [1])).Ready .cp .chainSet (req 0x13 [1]) []
      ∧ (ask running .cp (req 0x13 [2])).Ready .cp .chainSet (req 0x13 [2]) []
      ∧ (ask running .cp (req 0x20 [20, 20, 7, 15])).Ready .cp .timingSet (req 0x20 [20, 20, 7, 15]) []
      ∧ (ask running .cp (req 0x20 [20, 21, 7, 15])).Ready .cp .timingSet (req 0x20 [20, 21, 7, 15]) []
      ∧ (ask running .cp (req 0x50 [1, 4, 16])).Ready .cp .balanceSet (req 0x50 [1, 4, 16]) []
      ∧ (ask running .cp (req 0x50 [1, 4, 17])).Ready .cp .balanceSet (req 0x50 [1, 4, 17]) []
      ∧ (ask running .cp (req 0x58 [15])).Ready .cp .outputSet (req 0x58 [15]) []
      ∧ (ask running .cp (req 0x58 [41])).Ready .cp .outputSet (req 0x58 [41]) []
      ∧ (ask running .cp (req 0x70 [4])).Ready .cp .rateCap (req 0x70 [4]) []
      ∧ (ask running .cp (req 0x70 [5])).Ready .cp .rateCap (req 0x70 [5]) []
      ∧ (ask running .cp (req 0x73 [0x02, 0x58, 1, 1])).Ready .cp .powerSet (req 0x73 [0x02, 0x58, 1, 1]) []
      ∧ (ask running .cp (req 0x73 [0, 9, 1, 1])).Ready .cp .powerSet (req 0x73 [0, 9, 1, 1]) [] := by
  refine ⟨?_, ?_, ?_, ?_, ?_, ?_, ?_, ?_, ?_, ?_, ?_, ?_⟩ <;> exact ready_ask _ _ _ _ (by decide) (by decide)
theorem test_witness_setting_ranges :
    halfAt (req 0x73 [0x02, 0x58, 1, 1]).payload 0 = 600 ∧ (timingOf [20, 20, 7, 15]).ok = true
      ∧ (timingOf [20, 21, 7, 15]).ok = false ∧ (timingOf [100, 5, 0, 0]).ok = true := by decide
theorem test_balance_set_moves_the_anchor :
    (after (.balanceSet .cp) (ask { running with balance := balance5300 } .cp (req 0x50 [1, 2, 16]))).balance.gains
      = ⟨256, 256, 250, 244⟩ := by decide

/-! ### Hypotheses met: plans -/

/-- A plan's content: CP's, one mesh, tiles unwritten. -/
def oneMesh : PlanContent :=
  { header := { headerOf [] with meshCount := 1 }, tiles := List.replicate 375 none, meshWritten := [false], opener := .cp
    base := 0 }

/-- The part in RUN with plan 0 as given. -/
def withPlan (h : PlanHold) (r : PlanRefs) : State :=
  { running with plans := { running.plans with slots := running.plans.slots.set 0 { hold := h, refs := r } } }

def noRefs : PlanRefs := { leases := 0, fallback := false, reverse := false, pinned := false }

/-- A PLAN_OPEN payload of plan 0 with a mesh count. -/
def openBytes (hi lo : Byte) : List Byte := List.replicate 17 0 ++ [hi, lo]

theorem test_witness_open :
    (ask running .cp (req 0x30 (openBytes 2 0xEE))).Ready .cp .planOpen (req 0x30 (openBytes 2 0xEE)) []
      ∧ planOf (openBytes 2 0xEE) = some 0 ∧ (headerOf (openBytes 2 0xEE)).meshCount = 750
      ∧ (headerOf (openBytes 2 0xEF)).meshCount = 751 ∧ (headerOf (openBytes 0 0)).meshCount = 0
      ∧ running.plans.placeRun 0 750 = some 0 ∧ (running.plan 0).hold.isVerifying = false
      ∧ fourPlans.placeRun 0 750 = none := by
  refine ⟨ready_ask _ _ _ _ (by decide) (by decide), ?_⟩
  decide
theorem test_witness_open_refused :
    ((withPlan (.verifying oneMesh) noRefs).plan 0).hold.isVerifying = true
      ∧ ((withPlan (.loading { oneMesh with opener := .mp } 0 false) noRefs).plan 0).hold
        = .loading { oneMesh with opener := .mp } 0 false
      ∧ ((withPlan (.verified oneMesh) { noRefs with leases := 1 }).plan 0).refs.referenced = true := by decide +kernel
theorem test_open_answers_its_run :
    lastAnswer (after (.planOpen .cp) (ask running .cp (req 0x30 (openBytes 2 0xEE)))) .cp = some (.ok, [0, 0, 2, 0xEE]) := by
  decide +kernel
theorem test_witness_tiles :
    (ask (withPlan (.loading oneMesh 0 false) noRefs) .cp (req 0x31 ([0, 1, 0x76, 1] ++ List.replicate 6 0))).Ready .cp .planTiles
      (req 0x31 ([0, 1, 0x76, 1] ++ List.replicate 6 0)) []
      ∧ planOf ([0, 1, 0x76, 1] ++ List.replicate 6 0) = some 0
      ∧ halfAt ([0, 1, 0x76, 1] ++ List.replicate 6 0) 1 + 1 = 375 ∧ oneMesh.tiles.length = 375
      ∧ oneMesh.opener = .cp := by
  refine ⟨ready_ask _ _ _ _ (by decide) (by decide), by decide, by decide, List.length_replicate, rfl⟩
theorem test_tile_is_written :
    lastAnswer (after (.planTiles .cp) (ask (withPlan (.loading oneMesh 0 false) noRefs) .cp
      (req 0x31 ([0, 1, 0x76, 1] ++ List.replicate 6 0)))) .cp = some (.ok, [0, 1]) := by decide +kernel
theorem test_witness_discard :
    (ask (withPlan (.verified oneMesh) noRefs) .cp (req 0x34 [0])).Ready .cp .planDiscard (req 0x34 [0]) []
      ∧ ((withPlan (.verified oneMesh) noRefs).plan 0).hold ≠ .empty := by
  refine ⟨ready_ask _ _ _ _ (by decide) (by decide), ?_⟩
  decide +kernel
theorem test_witness_meshes :
    (ask (withPlan (.loading oneMesh 0 false) noRefs) .cp (req 0x32 ([0, 0, 0, 1] ++ mesh355))).Ready .cp .planMeshes
      (req 0x32 ([0, 0, 0, 1] ++ mesh355)) []
      ∧ ([0, 0, 0, 1] ++ mesh355).length = 4 + 36 * 1 ∧ oneMesh.header.meshCount = 1
      ∧ (ask (withPlan (.loading oneMesh 0 false) noRefs) .cp (req 0x35 [0, 2, 0, 0, 1])).Ready .cp .planRead
        (req 0x35 [0, 2, 0, 0, 1]) []
      ∧ (ask (withPlan (.loading oneMesh 0 false) noRefs) .cp (req 0x35 [0, 0, 0, 0, 0])).Ready .cp .planRead
        (req 0x35 [0, 0, 0, 0, 0]) []
      ∧ (ask (withPlan (.loading oneMesh 0 false) noRefs) .cp (req 0x35 [0, 1, 1, 0x67, 16])).Ready .cp .planRead
        (req 0x35 [0, 1, 1, 0x67, 16]) [] ∧ halfAt [0, 1, 1, 0x67, 16] 2 + 16 = 375 := by
  refine ⟨ready_ask _ _ _ _ (by decide) (by decide), by decide, rfl, ready_ask _ _ _ _ (by decide) (by decide),
    ready_ask _ _ _ _ (by decide) (by decide), ready_ask _ _ _ _ (by decide) (by decide), by decide⟩
/-- A mesh record stored through the pool is answered and read back. -/
theorem test_mesh_is_stored :
    let s := after .burstDone (after (.planMeshes .cp) (ask (withPlan (.loading oneMesh 0 false) noRefs) .cp
      (req 0x32 ([0, 0, 0, 1] ++ mesh355))))
    lastAnswer s .cp = some (.ok, [0, 1]) ∧ s.mem.readBytes (Config.unitAddr 0) 36 = mesh355 ∧ s.mem.wf := by
  decide +kernel
theorem test_witness_verify :
    (ask (withPlan (.loading oneMesh 0 false) noRefs) .cp (req 0x33 [0])).Ready .cp .planVerify (req 0x33 [0]) []
      ∧ oneMesh.tiles.head? = some none ∧ running.plans.walk = none
      ∧ meshInRange mesh355 = true ∧ meshInRange (List.replicate 36 0x80) = false ∧ 0 + 1 = oneMesh.header.meshCount := by
  refine ⟨ready_ask _ _ _ _ (by decide) (by decide), rfl, rfl, by decide, by decide, rfl⟩
theorem test_verify_rejects_unwritten :
    lastAnswer (after (.planVerify .cp) (ask (withPlan (.loading oneMesh 0 false) noRefs) .cp (req 0x33 [0]))) .cp
      = some (.ok, [1, 0, 0, 0, 0xFF, 0xFF]) := by decide +kernel

/-- A walk that has read the last mesh of its plan. -/
def walkDone (rec : List Byte) : State :=
  { withPlan (.verifying oneMesh) noRefs with
    plans := { (withPlan (.verifying oneMesh) noRefs).plans with
      walk := some { plan := 0, place := .mesh 0, passed := [], record := some rec } } }

theorem test_witness_walk : (walkDone mesh355).plans.walk = some { plan := 0, place := .mesh 0, passed := [], record := some mesh355 }
    ∧ ((walkDone mesh355).plan 0).hold = .verifying oneMesh := ⟨rfl, rfl⟩
theorem test_walk_verdicts :
    ((after .verifyMeshRead (walkDone mesh355)).plan 0).hold.isVerified = true
      ∧ ((after .verifyMeshRead (walkDone (List.replicate 36 0x80))).plan 0).hold.value = 4
      ∧ (({ walkDone mesh355 with ports := (Duo.set running.ports .cp { running.ports.cp with executing := some (req 0x33 [0]) }) } :
        State).ports.get oneMesh.opener).executing = some (req 0x33 [0]) := by decide +kernel

/-- A plan of two meshes, tile 0 SINGLE of mesh 0 and tile 1 SEAM of meshes 0 and 1. -/
def twoTiles : PlanContent :=
  { oneMesh with
    header := { oneMesh.header with meshCount := 2 }, meshWritten := [true, true]
    tiles := [some (tileOfBytes [1, 1, 0, 0, 0, 0]), some (tileOfBytes [2, 0x21, 0, 0, 0, 1])] }

/-- A mesh record whose points span from 0 to `w` across and 0 to `h` down, in 1/16 pixel. -/
def spanning (w h : Nat) : List Byte := pointBytes w h ++ List.replicate 32 0

/-- The walk of the two tiles, and a tile that fails each check. -/
theorem test_walk_checks :
    twoTiles.tilesFrom [] 0 = .read (.primary 0 0) 0
      ∧ walkResume twoTiles (.primary 0 0) [] mesh355 = ([0], .read (.secondary 1 1 none) 1)
      ∧ walkResume twoTiles (.primary 1 0) [] mesh355 = ([], .read (.secondary 1 1 (some mesh355)) 1)
      ∧ walkResume twoTiles (.primary 1 0) [1] mesh355 = ([0, 1], .done)
      ∧ walkResume twoTiles (.secondary 1 1 none) [0] mesh355 = ([1, 0], .done)
      ∧ walkResume twoTiles (.secondary 1 1 (some (spanning 2040 0))) [] mesh355
        = ([], .fail { reason := .spread, tile := some 1, mesh := some 0 })
      ∧ walkResume twoTiles (.secondary 1 1 none) [0] (spanning 0 2040)
        = ([0], .fail { reason := .spread, tile := some 1, mesh := some 1 })
      ∧ spreadOk (spanning 2000 0) = true ∧ spreadOk (spanning 2031 1519) = true ∧ spreadOk (spanning 0 1520) = false
      ∧ meshInRange (spanning 21488 15344) = true ∧ meshInRange (spanning 21489 0) = false
      ∧ twoTiles.tilesFrom [1, 0] 0 = .done ∧ twoTiles.meshesFrom [1] 0 = .read (.mesh 0) 0
      ∧ ({ twoTiles with meshWritten := [true, false] } : PlanContent).meshesFrom [0] 0
        = .fail { reason := .meshRange, tile := none, mesh := some 1 }
      ∧ ([[4, 1, 0, 0, 0, 0], [1, 5, 0, 0, 0, 0], [2, 0x01, 0, 0, 0, 1], [2, 0x11, 0, 0, 0, 1], [1, 1, 0, 2, 0, 0],
          [2, 0x21, 0, 0, 0, 2], [0, 0, 0, 0, 0, 0], [1, 1, 0, 1, 0, 0]] : List (List Byte)).map (fun bs =>
        scanTile { twoTiles with meshWritten := [true, false] } [] 7 (some (tileOfBytes bs)))
        = [some (.fail { reason := .cls, tile := some 7, mesh := none }),
          some (.fail { reason := .camera, tile := some 7, mesh := none }),
          some (.fail { reason := .camera, tile := some 7, mesh := none }),
          some (.fail { reason := .sameCamera, tile := some 7, mesh := none }),
          some (.fail { reason := .meshIndex, tile := some 7, mesh := some 2 }),
          some (.fail { reason := .meshIndex, tile := some 7, mesh := some 2 }), none,
          some (.fail { reason := .meshRange, tile := some 7, mesh := some 1 })] := by decide +kernel
theorem test_witness_abandoned :
    ((withPlan (.loading oneMesh 0 false) noRefs).plan 0).hold = .loading oneMesh 0 false ∧ planOf [0] = some 0
      ∧ (after (.planAbandoned 0) (withPlan (.loading oneMesh 0 false) noRefs)).now = 10000000 := ⟨rfl, by decide, by decide⟩

/-! ### Hypotheses met: view leases -/

/-- A lease of CP on plan 0, unlimited. -/
def cpLease (handle level : Nat) : Lease :=
  { handle := handle, holder := .port .cp, level := level, plan := 0, duration := 0, remaining := none, seq := 0
    shown := false, phase := none }

/-- A state with a lease table. -/
def withLeases (s : State) (ls : List Lease) : State := { s with leases := { s.leases with table := ls } }

/-- Plan 0 VERIFIED, in a state of the part. -/
def viewing (s : State) : State :=
  { s with plans := (withPlan (.verified oneMesh) noRefs).plans }

theorem test_witness_claim :
    (ask (viewing running) .mp (req 0x40 [0, 0, 20])).Ready .mp .viewClaim (req 0x40 [0, 0, 20]) []
      ∧ (ask (viewing running) .cp (req 0x40 [3, 0, 0])).Ready .cp .viewClaim (req 0x40 [3, 0, 0]) []
      ∧ (ask (viewing running) .cp (req 0x40 [1, 0, 0])).Ready .cp .viewClaim (req 0x40 [1, 0, 0]) []
      ∧ (ask (viewing waiting) .cp (req 0x40 [2, 0, 1])).Ready .cp .viewClaim (req 0x40 [2, 0, 1]) []
      ∧ (ask (viewing asleep) .cp (req 0x40 [2, 0, 1])).Ready .cp .viewClaim (req 0x40 [2, 0, 1]) [] := by
  refine ⟨?_, ?_, ?_, ?_, ?_⟩ <;> exact ready_ask _ _ _ _ (by decide) (by decide)
theorem test_witness_claim_states :
    ((viewing running).plan 0).hold.isVerified = true ∧ (3 : Byte).toNat ≤ 3 ∧ (20 : Byte).toNat ≤ 20
      ∧ waiting.power.entry = true ∧ waiting.power.state = .run
      ∧ asleep.power.state = .standby ∧ asleep.power.claimWake = true ∧ asleep.power.level = false
      ∧ (withLeases (viewing running) [cpLease 1 3]).leases.table.any (fun l => l.holder == .port .cp && l.level == 3) = true := by
  decide +kernel
theorem test_claim_answers :
    lastAnswer (after (.viewClaim .cp) (ask (viewing running) .cp (req 0x40 [3, 0, 0]))) .cp = some (.ok, [1, 0, 0, 0, 0])
      ∧ lastAnswer (after (.viewClaim .cp) (ask (viewing running) .cp (req 0x40 [0, 0, 5]))) .cp = some (.level, []) := by
  decide +kernel
theorem test_claim_wakes :
    (after (.viewClaim .cp) (ask (viewing asleep) .cp (req 0x40 [2, 0, 1]))).power.state = .run := by decide +kernel
theorem test_witness_renew :
    (ask (withLeases running [cpLease 255 2]) .cp (req 0x41 [255])).Ready .cp .viewRenew (req 0x41 [255]) []
      ∧ (withLeases running [cpLease 255 2]).leases.find 255 = some (cpLease 255 2)
      ∧ (cpLease 255 2).holder = .port .cp
      ∧ (ask (withLeases running [cpLease 255 2]) .mp (req 0x41 [255])).Ready .mp .viewRenew (req 0x41 [255]) []
      ∧ (cpLease 255 2).holder ≠ .port .mp
      ∧ (ask running .cp (req 0x41 [0])).Ready .cp .viewRenew (req 0x41 [0]) [] ∧ running.leases.find 1 = none := by
  refine ⟨ready_ask _ _ _ _ (by decide) (by decide), by decide, by decide, ready_ask _ _ _ _ (by decide) (by decide),
    by decide, ready_ask _ _ _ _ (by decide) (by decide), by decide⟩
theorem test_witness_release :
    (ask (withLeases running [cpLease 255 2]) .cp (req 0x42 [255])).Ready .cp .viewRelease (req 0x42 [255]) []
      ∧ (ask running .cp (req 0x42 [1])).Ready .cp .viewRelease (req 0x42 [1]) [] := by
  refine ⟨?_, ?_⟩ <;> exact ready_ask _ _ _ _ (by decide) (by decide)
theorem test_witness_expiry :
    (withLeases running [{ cpLease 9 2 with remaining := some 100000 }]).leases.find 9
      = some { cpLease 9 2 with remaining := some 100000 } := by decide
theorem test_lease_expiry :
    (after (.leaseExpiry 9) (withLeases running [{ cpLease 9 2 with remaining := some 100000 }])).now = 100000
      ∧ (after (.leaseExpiry 9) (withLeases running [{ cpLease 9 2 with remaining := some 100000 }])).leases.table = []
      ∧ ((after (.leaseExpiry 9) (withLeases running [{ cpLease 9 2 with remaining := some 100000 }])).ports.get .cp).raised
        = 0x20 := by decide
theorem test_witness_views :
    (ask (viewing running) .cp (req 0x44 [0, 0xFF, 3, 10])).Ready .cp .viewsSet (req 0x44 [0, 0xFF, 3, 10]) []
      ∧ planOrNone 0 = some (some 0) ∧ planOrNone 0xFF = some none ∧ ((viewing running).plan 0).hold.isVerified = true
      ∧ (ask running .cp (req 0x44 [3, 0xFF, 1, 0])).Ready .cp .viewsSet (req 0x44 [3, 0xFF, 1, 0]) []
      ∧ planOrNone 3 = some (some 3) ∧ (running.plan 3).hold.isVerified = false
      ∧ (ask running .cp (req 0x44 [3, 0xFF, 4, 0])).Ready .cp .viewsSet (req 0x44 [3, 0xFF, 4, 0]) [] := by
  refine ⟨ready_ask _ _ _ _ (by decide) (by decide), by decide, by decide, by decide +kernel,
    ready_ask _ _ _ _ (by decide) (by decide), by decide, by decide, ready_ask _ _ _ _ (by decide) (by decide)⟩
theorem test_ranking :
    (withLeases running [cpLease 1 3, cpLease 2 1, cpLease 3 1]).leases.top = some (cpLease 2 1)
      ∧ running.leases.top = none := by decide

/-! ### Hypotheses met: composition -/

/-- The part in RUN with sets 1 to 3, the first two CLOSED, and a credit of 1. -/
def startable : State :=
  { running with
    capture := { threeSets with
      sets := [{ setOf 1 with state := .closed }, { setOf 2 with state := .closed }, setOf 3], credit := 1 } }

theorem test_witness_start :
    startable.capture.sets = [{ setOf 1 with state := .closed }] ++ { setOf 2 with state := .closed } :: [setOf 3]
      ∧ (setOf 3).state ≠ .closed ∧ startable.composer = none ∧ startable.power.state = .run
      ∧ startable.power.entry = false ∧ startable.power.thermal ≠ .critical
      ∧ max startable.power.rateCap startable.power.thermal.divisor ≤ startable.capture.credit
      ∧ (0 < max startable.power.rateCap startable.power.thermal.divisor)
      ∧ startable.view.completeCount = 0
      ∧ ({ startable.view with placeA := .complete 0 1 [], placeB := .complete 0 2 [] } : ViewLane).completeCount = 2 := by
  decide
theorem test_start_with_no_view :
    (after .compositionStart startable).composer.map (fun x => (x.frame, x.setTag, x.phase)) = some (1, 2, .drawing)
      ∧ (after .compositionStart startable).capture.sets.map CaptureSet.state = [.composing, .opened] := by decide

/-- The same with a fallback plan, and camera FR PRESENT in slot 1 with three lines repaired. -/
def sourced : State :=
  { startable with
    plans := fourPlans
    leases := { running.leases with settings := { running.leases.settings with fallback := some 2 } }
    capture := ({ startable.capture with
      sets := [{ setOf 2 with
        state := .closed, entries := (setOf 2).entries.set 1 { status := .present 1, written := 957, repaired := 3, errors := 0 } }] } :
      Capture).setSlot .fr 1 { hold := .held 2 (.repaired 3), pinned := false } }

theorem test_start_pins_its_sources :
    let t := after .compositionStart sourced
    t.composer.map (fun x => (x.sources.get 1, x.srcSlots, x.repaired)) = some (.fresh, ⟨none, some 1, none, none⟩, ⟨0, 3, 0, 0⟩)
      ∧ (t.capture.slot .fr 1).pinned = true ∧ (t.capture.slot .fr 0).pinned = false ∧ (t.plan 2).refs.pinned = true
      ∧ (t.plan 1).refs.pinned = false := by decide +kernel

/-- A context at a place of the picture, in a phase. -/
def contextAt (row col : Nat) (ph : WalkPhase) (ds : List Draw) : Context :=
  { frame := 1, setTag := 2, view := { plan := none, holder := .none, lease := none }, divisor := 1
    sources := Quad.all .blind, srcSlots := Quad.all none, repaired := Quad.all 0, gains := Quad.all 256
    row := row, col := col, phase := ph, draws := ds, seams := Quad.all { sumA := 0, sumB := 0, count := 0 }, degraded := 0 }

/-- The part in RUN with a composition in flight. -/
def composing (x : Context) : State :=
  { running with
    composer := some x, capture := { Capture.reset with sets := [{ setOf 2 with state := .composing }] } }

def drawOf (rec : List Byte) : Draw := { cam := .rr, slot := 2, mesh := 0, record := rec, box := none, data := [] }

theorem test_witness_sources :
    mismatched { headerOf [] with stamps := ⟨1, 0, 0, 0⟩ } CamRecord.reset .fl = true
      ∧ mismatched (headerOf []) CamRecord.reset .fl = false
      ∧ ({ Capture.reset with fresh := Quad.all (some (1, 254)) } : Capture).usable .fl 0 = some (1, 2)
      ∧ ({ Capture.reset with fresh := Quad.all (some (1, 253)) } : Capture).usable .fl 0 = none
      ∧ ({ Capture.reset with fresh := Quad.all (some (1, 0)) } : Capture).usable .fl 0 = none := by decide
theorem test_witness_mesh_read :
    (contextAt 23 10 (.fetching (.meshDone 0)) [drawOf mesh355]).draws[0]? = some (drawOf mesh355)
      ∧ clipBox (drawOf mesh355).record = some { left := 500, right := 561, top := 750, bottom := 796 }
      ∧ clipBox (drawOf (List.replicate 18 [0xFF, 0]).flatten).record = none
      ∧ (contextAt 23 10 (.fetching (.meshDone 0)) [drawOf [], drawOf mesh355]).draws[0 + 1]? = some (drawOf mesh355)
      ∧ fetchBounds (drawOf mesh355).record = (500, 561, 750, 796)
      ∧ clipBox (spanning 20480 0) = some { left := 0, right := 1279, top := 0, bottom := 1 } := by decide
theorem test_box_fetch_is_handed_over :
    (after .meshReadComplete (composing (contextAt 23 10 (.fetching (.meshDone 0)) [drawOf mesh355]))).arb.inFlight
      = some (.fetch (8 * 2457600 + 750 * 2560 + 15 * 64) false) := by decide +kernel
theorem test_witness_fetching_end :
    (composing (contextAt 0 0 (.fetching .fetched) [])).composer = some (contextAt 0 0 (.fetching .fetched) [])
      ∧ ((after .fetchingEnd (composing (contextAt 0 0 (.fetching .fetched) []))).composer.map Context.phase)
        = some .drawing := by decide
/-- A plan whose tile 0 is of a class, ramp E. -/
def tiled (cls : Nat) : PlanContent :=
  { oneMesh with header := { oneMesh.header with body := ⟨1, 2, 3⟩, void := ⟨4, 5, 6⟩ }
                 tiles := [some { tileOfBytes [0, 0, 0, 0, 0, 0] with cls := cls }] }

/-- Drawing tile 0 from two FRESH cameras, RR from the mesh of tile 355 and FR from nowhere. -/
def seamContext : Context :=
  { contextAt 0 0 .drawing [drawOf mesh355, { drawOf (List.replicate 36 0x80) with cam := .fr }] with
    sources := Quad.all .fresh }

theorem test_witness_draw_classes :
    ((contextAt 0 0 .drawing []).drawTile none).pixels[1023]? = some ⟨128, 128, 128⟩
      ∧ (tiled 2).tiles[15 * seamContext.row + seamContext.col]? = some (some { tileOfBytes [0, 0, 0, 0, 0, 0] with cls := 2 })
      ∧ seamPair .rr .fr = some (1, false)
      ∧ ((contextAt 0 0 .drawing []).drawTile (some (tiled 0))).pixels[5]? = some ⟨1, 2, 3⟩
      ∧ ((contextAt 0 0 .drawing []).drawTile (some (tiled 1))).pixels[5]? = some ⟨4, 5, 6⟩
      ∧ ((contextAt 0 0 .drawing [drawOf mesh355]).drawTile (some (tiled 2))).degraded = true
      ∧ (seamContext.drawTile (some (tiled 2))).pixels[5]? = some ⟨0, 0, 0⟩
      ∧ 0 ≤ (sourcePos mesh355 20 5).1 ∧ (sourcePos mesh355 20 5).1 ≤ 20464 ∧ (sourcePos mesh355 20 5).2 ≤ 15344 := by
  decide +kernel

/-- The part at the last column of row 23, drawn into place A, with place B as given. -/
def rowEnding (b : Place) : State :=
  let s := composing (contextAt 23 14 .drawing [])
  { s with view := { s.view with placeA := .drawing 1 23 [], placeB := b } }

theorem test_witness_drawn :
    (composing (contextAt 0 13 .drawing [])).composer = some (contextAt 0 13 .drawing [])
      ∧ (contextAt 0 13 .drawing []).col < 14 ∧ (contextAt 24 14 .drawing []).col = 14
      ∧ (contextAt 24 14 .drawing []).row = 24 ∧ (contextAt 23 14 .drawing []).row < 24
      ∧ (rowEnding .free).view.placeA = .drawing 1 23 [] ∧ (rowEnding .free).view.passed 1 767 = false
      ∧ ((rowEnding .free).view.handOver 1 23).completeCount = 1
      ∧ ((rowEnding (.complete 1 22 [])).view.handOver 1 23).completeCount = 2
      ∧ (after .tileDrawn (rowEnding .free)).composer.map (fun x => (x.row, x.col, x.phase)) = some (24, 0, .drawing)
      ∧ (after .tileDrawn (rowEnding .free)).view.placeB = .drawing 1 24 []
      ∧ (after .tileDrawn (rowEnding (.complete 1 22 []))).composer.map (fun x => (x.row, x.phase)) = some (24, .rowWait) := by
  decide +kernel
/-- A composition of plan 0 drawing tile 0, tile 1 a SEAM of FR and RR; FR is FRESH from slot 2 and RR as given. -/
def seamNext (rr : Source) : State :=
  let s := withPlan (.verified { oneMesh with
    tiles := [none, some { cls := 2, ramp := 0, primCam := 2, secCam := 3, primMesh := 4, secMesh := 5 }] }) noRefs
  { s with
    composer := some { contextAt 0 0 .drawing [] with
      view := { plan := some 0, holder := .fallback, lease := none }
      sources := ⟨.blind, .fresh, rr, .blind⟩, srcSlots := ⟨none, some 2, some 1, none⟩ } }

/-- The next tile's areas are those of its usable cameras, the first one's mesh read granted at once; with none it is in
DRAWING. -/
theorem test_next_tile_begins :
    (after .tileDrawn (seamNext (.stale 1))).composer.map (fun x =>
        (x.phase, x.draws.map (fun d => (d.cam, d.slot, d.mesh))))
        = some (.fetching (.meshRead 0), [(.fr, 2, 4), (.rr, 1, 5)])
      ∧ (after .tileDrawn (seamNext .blind)).composer.map (fun x => x.draws.map Draw.cam) = some [.fr]
      ∧ (after .tileDrawn (seamNext .blind)).arb.inFlight = some (.fetch (Config.unitAddr 4) false)
      ∧ (after .tileDrawn (composing (contextAt 0 0 .drawing []))).composer.map Context.phase = some .drawing := by
  decide +kernel
theorem test_last_tile :
    (after .tileDrawn (composing (contextAt 24 14 .drawing []))).composer = none
      ∧ (after .tileDrawn (composing (contextAt 24 14 .drawing []))).log.next = 2
      ∧ (after .tileDrawn (composing (contextAt 24 14 .drawing []))).capture.sets = []
      ∧ (after .tileDrawn { composing (contextAt 24 14 .drawing []) with power := waiting.power }).power.state = .standby := by
  decide +kernel

/-- The part with a burst in flight. -/
def bursting (b : Burst) : State := { running with arb := { running.arb with inFlight := some b } }

theorem test_witness_burst :
    (bursting (.lane .fl 64 [1, 2] false)).arb.inFlight = some (.lane .fl 64 [1, 2] false)
      ∧ (bursting (.lane .fl 64 [1, 2] true)).mem.wf ∧ (0 < ([1, 2] : List Byte).length)
      ∧ (after .burstDone (bursting (.lane .fl 64 [1, 2] false))).mem = [(64, 1), (65, 2)]
      ∧ (after .burstDone (bursting (.lane .fl 64 [1, 2] true))).mem = []
      ∧ (after .burstDone (bursting (.fetch 64 true))).mem = [] := by decide

/-- A burst in flight with a pool request in hand, CP's request in execution. -/
def pooling (b : PoolBurst) (r : PoolRequest) : State :=
  let s := withPlan (.loading oneMesh 0 false) noRefs
  { s with
    arb := { s.arb with inFlight := some (.pool b), pool := [r] }
    ports := s.ports.set .cp { s.ports.cp with executing := some (req 0x32 []) } }

/-- Lane FL filling with a burst in flight: the first write of its consumption of a kind, `n` bursts of it granted. -/
def writing (k : WriteKind) (n : Nat) : State :=
  let s := laneState .fl { Lane.reset with
    frame := some filling
    busy := some { kind := .abandon, writes := [⟨0, 3, [], k⟩], granted := n, ownDone := false } }
  { s with arb := { s.arb with inFlight := some (.lane .fl 64 [1] false) } }

/-- A composition with a burst of its fetch in flight. -/
def fetching (st : FetchStage) (ds : List Draw) (cur : Cursor) : State :=
  let s := composing (contextAt 0 0 (.fetching st) ds)
  { s with arb := { s.arb with inFlight := some (.fetch 0 false), cursor := some cur } }

/-- What each kind of burst completes, each state meeting the hypotheses of its clause. -/
theorem test_bursts_complete :
    ((after .burstDone (writing .own 40)).lane .fl).busy.map Consumption.ownDone = some true
      ∧ ((after .burstDone (writing .own 39)).lane .fl).busy.map Consumption.ownDone = some false
      ∧ ((after .burstDone (writing .repair 40)).lane .fl).frame.map FrameProgress.repaired = some 3
      ∧ (let s := writing .repair 40
        ((after .burstDone (s.setLane .fl { s.lane .fl with frame := none })).lane .fl).frame = none)
      ∧ lastAnswer (after .burstDone (pooling (.write 0 0 mesh355) ⟨.meshes .cp 0, []⟩)) .cp = some (.ok, [0, 1])
      ∧ lastAnswer (after .burstDone (pooling (.write 0 0 mesh355) ⟨.meshes .cp 0, [.write 0 0 []]⟩)) .cp = none
      ∧ lastAnswer (after .burstDone (pooling (.read 0) ⟨.read .cp [true] [9], []⟩)) .cp
        = some (.ok, [9] ++ List.replicate 36 0 ++ [1])
      ∧ lastAnswer (after .burstDone (pooling (.read 0) ⟨.read .cp [true, false] [], [.read 1]⟩)) .cp = none
      ∧ (let s := pooling (.read 0) ⟨.walk, []⟩
        (after .burstDone { s with plans := { s.plans with walk := some ⟨0, .mesh 0, [], none⟩ } }).plans.walk
          = some ⟨0, .mesh 0, [], some (List.replicate 36 0)⟩)
      ∧ (after .burstDone (fetching (.meshRead 0) [drawOf []] (.granted 0))).composer.map Context.phase
        = some (.fetching (.meshDone 0))
      ∧ (after .burstDone (fetching (.boxRead 0) [drawOf []] (.granted 0))).composer.map Context.phase
        = some (.fetching .fetched)
      ∧ (after .burstDone (fetching (.boxRead 0) [drawOf [], drawOf []] (.granted 0))).composer.map Context.phase
        = some (.fetching (.meshRead 1))
      ∧ (after .burstDone (fetching (.boxRead 0) [drawOf []] (.box 0 ⟨0, 1, 0, 0⟩ 1 0))).composer.map (fun x =>
        (x.phase, x.draws.map (fun d => d.data.length))) = some (.fetching (.boxRead 0), [64]) := by decide +kernel

/-- Two lanes with a write in hand. -/
def pendingLane : Lane :=
  { Lane.reset with
    busy := some { kind := .abandon, writes := [⟨0, 0, [], .own⟩], granted := 39, ownDone := false } }

def twoPending : State := { running with lanes := ⟨pendingLane, Lane.reset, pendingLane, Lane.reset⟩ }

theorem test_witness_grant :
    twoPending.arb.inFlight = none ∧ (twoPending.lanes.get Camera.fl.idx).pending = true
      ∧ (∀ d, (twoPending.lanes.get (Camera.idx d)).pending = true →
        (Camera.fl.number + 3 - twoPending.arb.pointer.number) % 4 ≤ (d.number + 3 - twoPending.arb.pointer.number) % 4)
      ∧ twoPending.grant.arb.pointer = .fl
      ∧ ({ twoPending with arb := { twoPending.arb with pointer := .fl } } : State).grant.arb.pointer = .rr
      ∧ (∀ d, (running.lanes.get (Camera.idx d)).pending = false) ∧ (bursting (.fetch 0 true)).arb.inFlight ≠ none
      ∧ ({ running with arb := { running.arb with cursor := some (.mesh 0 5) } } : State).grant.arb.cursor
        = some (.granted 0)
      ∧ ({ running with arb := { running.arb with pool := [⟨.walk, [.read 3]⟩] } } : State).grant.arb.inFlight
        = some (.pool (.read 3)) := by
  refine ⟨by decide, by decide, ?_, by decide, by decide, ?_, by decide, by decide, by decide⟩ <;>
    (intro d; cases d <;> decide)
theorem test_witness_balance : (∀ g ∈ balance5300.gains.toList, 128 ≤ g ∧ g ≤ 512) ∧ balance5300.enable = true
    ∧ Camera.fr ≠ balance5300.anchor ∧ ((validPairs (Quad.all .fresh) seams5300 .fr).map Prod.fst).sum ≠ 0
    ∧ validPairs (Quad.all .blind) seams5300 .fr = []
    ∧ ((validPairs (Quad.all .fresh) (Quad.all ⟨0, 0, 4096⟩) .fr).map Prod.fst).sum = 0 := by decide

/-! ### Hypotheses met: the view lane and the records -/

def pictureOne : Waiting := { frame := 1, stamp := (contextAt 0 0 .drawing []).stamp, fill := midGrey, aborted := false }

/-- The part with picture 1 waiting and its row 0 COMPLETE. -/
def pictureReady : State :=
  { running with
    view := { ViewLane.reset with waiting := [pictureOne], placeA := .complete 1 0 [], quietUntil := some 500 } }

/-- The part with picture 1 in transmission at a line. -/
def sendingAt (n : LinePtr) : State :=
  { running with
    view := { ViewLane.reset with
      placeA := .complete 1 0 []
      sending := some ⟨1, pictureOne.stamp, midGrey, 0, false, 100, n⟩ } }

theorem test_witness_frame_start :
    pictureReady.view.sending = none ∧ pictureReady.view.waiting = pictureOne :: []
      ∧ pictureReady.view.holdsRow 1 0 = true ∧ (after .viewFrameStart pictureReady).now = 500 := by decide
theorem test_witness_line_due :
    LinePtr.stamp.next = 0 ∧ (LinePtr.line 799).next = 799 ∧ 799 % 32 ≠ 0 ∧ (LinePtr.line 32).next % 32 = 0
      ∧ ((sendingAt .stamp).view.rowTiles 1 (0 / 32)).isSome = true
      ∧ (sendingAt (.line 33)).view.rowTiles 1 (33 / 32) = none
      ∧ (sendingAt (.line 32)).view.rowTiles 1 (32 / 32) = none
      ∧ (sendingAt (.line 32)).view.holdsRow 1 (32 / 32 - 1) = true
      ∧ (({ (sendingAt (.line 32)).view with placeB := .complete 1 1 [] }).rowTiles 1 (32 / 32)).isSome = true := by decide
theorem test_line_due :
    (after .lineDue (sendingAt .stamp)).now = 125
      ∧ ((after .lineDue (sendingAt (.line 32))).view.sending.map Transmission.underrun) = some 1
      ∧ (after .lineDue (sendingAt (.line 32))).view.placeA = .free
      ∧ (after .lineDue { sendingAt (.line 32) with composer := some (contextAt 2 0 .rowWait []) }).composer.map
        (fun x => decide (x.phase = .rowWait)) = some false := by decide +kernel
theorem test_witness_frame_end :
    ((sendingAt (.line 800)).view.sending.map Transmission.pointer) = some (.line 800)
      ∧ (after .viewFrameEnd (sendingAt (.line 800))).view.quietUntil = some 20225 := by decide

/-- The part with the ring of the worked sequence. -/
def logged : State := { running with log := fullRing }

theorem logged_recordsOk : logged.recordsOk := by
  refine ⟨?_, by decide, by decide, by decide, by decide, by decide, by decide, by decide, ?_⟩
  · decide +kernel
  · intro x h
    cases h
theorem test_witness_cursors :
    (ask logged .mp (req 0x60 [4])).Ready .mp .recordRead (req 0x60 [4]) []
      ∧ (ask logged .mp (req 0x60 [5])).Ready .mp .recordRead (req 0x60 [5]) []
      ∧ (ask logged .mp (req 0x61 [])).Ready .mp .recordLatest (req 0x61 []) []
      ∧ (ask logged .mp (req 0x62 [])).Ready .mp .recordRewind (req 0x62 []) []
      ∧ (ask logged .mp (req 0x60 [4])).recordsOk :=
  ⟨ready_ask _ _ _ _ (by decide) (by decide), ready_ask _ _ _ _ (by decide) (by decide),
    ready_ask _ _ _ _ (by decide) (by decide), ready_ask _ _ _ _ (by decide) (by decide), logged_recordsOk⟩
theorem test_record_read :
    (lastAnswer (after (.recordRead .mp) (ask logged .mp (req 0x60 [4]))) .mp).map (fun a => a.2.take 10)
      = some [1, 0, 0, 0, 6, 0, 0, 0, 28, 4] := by decide +kernel
theorem test_record_rewind :
    lastAnswer (after (.recordRewind .mp) (ask logged .mp (req 0x62 []))) .mp = some (.ok, [0, 0, 0, 101, 0, 0, 0, 32]) := by
  decide +kernel

/-! ### Hypotheses met: power, heat and the reverse line -/

theorem test_witness_power_requests :
    (ask asleep .cp (req 0x71 [])).Ready .cp .standby (req 0x71 []) []
      ∧ (ask waiting .cp (req 0x71 [])).Ready .cp .standby (req 0x71 []) []
      ∧ (ask (withLeases running [{ cpLease 1 0 with holder := .port .mp }]) .cp (req 0x71 [])).Ready .cp .standby (req 0x71 []) []
      ∧ (ask (withLeases running [cpLease 1 2]) .cp (req 0x71 [])).Ready .cp .standby (req 0x71 []) []
      ∧ (ask (composing (contextAt 0 0 .drawing [])) .cp (req 0x71 [])).Ready .cp .standby (req 0x71 []) []
      ∧ (ask waiting .cp (req 0x72 [])).Ready .cp .wake (req 0x72 []) []
      ∧ (ask asleep .cp (req 0x72 [])).Ready .cp .wake (req 0x72 []) []
      ∧ (ask asleep .cp (req 0x74 [])).Ready .cp .pipelineRestart (req 0x74 []) []
      ∧ (ask (composing (contextAt 0 0 .drawing [])) .cp (req 0x74 [])).Ready .cp .pipelineRestart (req 0x74 []) []
      ∧ (ask waiting .cp (req 0x74 [])).Ready .cp .pipelineRestart (req 0x74 []) [] := by
  refine ⟨?_, ?_, ?_, ?_, ?_, ?_, ?_, ?_, ?_, ?_⟩ <;> exact ready_ask _ _ _ _ (by decide) (by decide)
/-- STANDBY with the Composer IDLE is in STANDBY at once, and a WAKE after it wakes; with a composition in flight it waits. -/
theorem test_standby_is_taken_or_waits :
    (after (.standby .cp) (ask running .cp (req 0x71 []))).power.state = .standby
      ∧ (after (.wake .cp) (ask (after (.standby .cp) (ask running .cp (req 0x71 []))) .cp (req 0x72 []))).power.state = .run
      ∧ (after (.standby .cp) (ask (composing (contextAt 0 0 .drawing [])) .cp (req 0x71 []))).power.state = .run
      ∧ (after (.standby .cp) (ask (composing (contextAt 0 0 .drawing [])) .cp (req 0x71 []))).power.entry = true := by
  decide +kernel
theorem test_restart_appends_aborted :
    ((after (.pipelineRestart .cp) (ask (composing (contextAt 0 0 .drawing [])) .cp (req 0x74 []))).log.ring.map
      FrameRecord.outcome) = [.aborted]
      ∧ (after (.pipelineRestart .cp) (ask { composing (contextAt 0 0 .drawing []) with power := waiting.power } .cp
        (req 0x74 []))).power.state = .standby
      ∧ (let s := composing (contextAt 0 0 .drawing [])
        let x : Transmission :=
          { frame := 1, stamp := (contextAt 0 0 .drawing []).stamp, fill := midGrey, underrun := 0, aborted := false
            startAt := 0, pointer := .stamp }
        let t := after (.pipelineRestart .cp) (ask { s with
          view := { s.view with sending := some x, placeA := .drawing 1 0 [], placeB := .complete 0 24 [] }
          arb := { s.arb with inFlight := some (.fetch 0 false), cursor := some (.granted 0) } } .cp (req 0x74 []))
        t.view.sending.map Transmission.aborted = some true ∧ t.view.placeA = .free ∧ t.view.placeB = .complete 0 24 []
          ∧ t.arb.inFlight = some (.fetch 0 true) ∧ t.arb.cursor = none) := by decide +kernel
theorem test_witness_samples :
    running.power.count < 5
      ∧ ({ running.power with count := 4 } : Power).count < 5
      ∧ ({ asleep.power with count := 5 } : Power).lineWake = true ∧ ({ asleep.power with count := 5 } : Power).level = false
      ∧ running.leases.lineLease = none
      ∧ ({ running.leases with settings := ⟨none, some 0, 1, 3⟩ } : Leases).settings.reverse = some 0 := by decide
theorem test_level_changes_at_five :
    (after .reverseLevelChange (after (.reverseLineSample true)
      { running with power := { running.power with count := 4 } })).power.level = true := by decide
theorem test_hold_time_runs :
    ((after .reverseLevelChange
      { withLeases running [{ cpLease 1 1 with holder := .line, phase := some .active }] with
        power := { running.power with count := 5, level := true } }).leases.table.map Lease.remaining)
      = [some 3000000] := by decide
/-- A line lease, ACTIVE or HOLDING, with the level about to change; the hold time is in seconds. -/
def lineAt (ph : LinePhase) (level : Bool) (hold : Nat) : State :=
  let s := withLeases running [cpLease 1 1, { cpLease 2 1 with holder := .line, phase := some ph, remaining := some 7 }]
  { s with
    leases := { s.leases with settings := { s.leases.settings with holdTime := hold } }
    power := { s.power with count := 5, level := level } }
theorem test_line_lease_phases :
    ((lineAt .holding false 3).leases.lineLease.bind Lease.phase) = some .holding
      ∧ (after .reverseLevelChange (lineAt .holding false 3)).leases.table.map (fun l => (l.phase, l.remaining))
        = [(none, none), (some .active, none)]
      ∧ (after .reverseLevelChange (lineAt .active false 3)).leases.table = (lineAt .active false 3).leases.table
      ∧ (after .reverseLevelChange (lineAt .active true 0)).leases.table = [cpLease 1 1]
      ∧ (after .reverseLevelChange (lineAt .holding true 3)).leases.table = (lineAt .holding true 3).leases.table
      ∧ (after .reverseLevelChange { running with power := { running.power with count := 5 } }).leases.table = [] := by
  decide +kernel
theorem test_heat :
    (after (.temperatureSample 95) running).power.thermal = .warm
      ∧ (after (.temperatureSample 94) running).power.thermal = .normal
      ∧ (after (.temperatureSample 95) running).now = 100000 := by decide
theorem test_witness_run :
    State.reset.power.state = .starting
      ∧ ({ running.power with idleTimeout := 10, idle := some 10000000 } : Power).idle = some 10000000
      ∧ running.leases.table = [] ∧ running.power.entry = false ∧ running.composer = none
      ∧ (composing (contextAt 0 0 .drawing [])).composer ≠ none
      ∧ waiting.power.entry = true ∧ waiting.power.state = .run ∧ waiting.composer = none
      ∧ (after .idleTimerExpiry { running with power := { running.power with idleTimeout := 10, idle := some 9 } }).power.state
        = .standby := by
  decide +kernel
theorem test_starting_end :
    (after .startingEnd State.reset).power.state = .run ∧ (after .startingEnd State.reset).chain.settleAt = some 200000
      ∧ (after .startingEnd State.reset).chain.tag = 1 := by decide
theorem test_standby_entry :
    (after .standbyEntry waiting).power.state = .standby ∧ (after .standbyEntry waiting).chain.phase = .off := by decide

/-! ### Hypotheses met: invariants -/

theorem test_witness_invariants : State.reset.mem.wf ∧ State.reset.gainsOk ∧ State.reset.queuesOk ∧ State.reset.setsOk
    ∧ State.reset.waitOk ∧ State.reset.runsOk ∧ State.reset.openOk
    ∧ ({ composing (contextAt 0 0 .drawing []) with power := waiting.power } : State).waitOk := by
  refine ⟨Memory.wf_nil, ?_, ⟨?_, ?_⟩, ⟨List.Pairwise.nil, ?_, ?_, ?_⟩, ?_, ⟨?_, ?_⟩, (fun _ h => nomatch h), ?_⟩
  · unfold State.gainsOk
    decide
  · decide
  · decide
  · decide
  · decide
  · decide
  · exact fun h => nomatch h
  · intro id r h
    match id with
    | 0 | 1 | 2 | 3 => cases h
  · intro i j r q _ h _
    match i with
    | 0 | 1 | 2 | 3 => cases h
  · exact fun _ h => nomatch h
theorem test_witness_items : running.itemsOk := by
  constructor <;> exact ⟨by decide, by decide, fun _ h => nomatch h⟩
theorem test_witness_plans : running.plansOk := by
  refine ⟨⟨List.Pairwise.nil, by decide⟩, by decide, ?_, ?_⟩
  · intro id
    match id with
    | 0 | 1 | 2 | 3 => decide
  · intro id
    match id with
    | 0 | 1 | 2 | 3 => decide

end Sys2Proof.Tests
end

section
/-! SUPPORT and PROOFS. Requests that set or read: the settings they replace and the payloads they answer with. -/

namespace Sys2Proof.Machine

/-! ### Requests answered -/

/-- A request ready on its port, whose rule ends in an answer of a state that differs from `u` only by the taking. -/
theorem serve_replied {s : State} {p : Port} {k : RequestKind} {r : Request} {rest : List Request}
    (h : s.Ready p k r rest) {body : List Byte → State → State} (u : State) {c : Code} {bs : List Byte}
    (hb : body r.payload (s.taken p r rest) = (u.taken p r rest).answer p c bs) :
    s.serve p k body = u.replied p r rest c bs := by
  rw [serve_of_ready h, hb, taken_answer]

theorem camera_ofNumber_number (c : Camera) : Camera.ofNumber c.number = some c := by
  cases c <;> rfl

/-- A chain position outside 1 to 4 names no camera. -/
theorem camera_ofNumber_none {n : Nat} (h : n = 0 ∨ 4 < n) : Camera.ofNumber n = none := by
  match n, h with
  | 0, _ => rfl
  | 1, h | 2, h | 3, h | 4, h => omega
  | _ + 5, _ => rfl

/-! ### Settings -/

section settings
variable {p : Port} {s : State} {r : Request} {rest : List Request}

/-- CHAIN_SET replaces the automatic-rebuild enable (R27). -/
theorem chainSet_cases (h : s.Ready p .chainSet r rest) :
    (byteAt r.payload 0 ≤ 1 →
      exec (.chainSet p) s = .next
        (({ s with chain := { s.chain with autoRebuild := decide (byteAt r.payload 0 = 1) } } : State).replied
          p r rest .ok []))
    ∧ (1 < byteAt r.payload 0 → exec (.chainSet p) s = .next (s.replied p r rest .range [])) := by
  constructor
  · intro hv
    refine congrArg _ (serve_replied h _ ?_)
    have hn : byteAt r.payload 0 = 0 ∨ byteAt r.payload 0 = 1 := by omega
    rcases hn with hn | hn <;> simp only [hn] <;> rfl
  · intro hv
    refine congrArg _ (serve_replied h s ?_)
    obtain ⟨n, hn⟩ : ∃ n, byteAt r.payload 0 = n + 2 := ⟨byteAt r.payload 0 - 2, by omega⟩
    simp only [hn]
    rfl

/-- TIMING_SET makes the four operands the pending timing settings (R66). -/
theorem timingSet_cases (h : s.Ready p .timingSet r rest) {a b c d : Byte} (hp : r.payload = [a, b, c, d]) :
    let inRange := 20 ≤ a.toNat ∧ a.toNat ≤ 100 ∧ 5 ≤ b.toNat ∧ b.toNat ≤ a.toNat ∧ c.toNat ≤ 7 ∧ d.toNat ≤ 15
    (inRange → exec (.timingSet p) s = .next
      (({ s with
        capture := { s.capture with
          pendingTiming := some
            { period := a.toNat, window := b.toNat, stale := c.toNat, repair := d.toNat } } } : State).replied
        p r rest .ok []))
    ∧ (¬ inRange → exec (.timingSet p) s = .next (s.replied p r rest .range [])) := by
  have ht : timingOf r.payload = { period := a.toNat, window := b.toNat, stale := c.toNat, repair := d.toNat } := by
    rw [hp]
    rfl
  constructor
  · intro hv
    refine congrArg _ (serve_replied h _ ?_)
    rw [if_pos (by rw [ht]; exact decide_eq_true hv), ht]
    rfl
  · intro hv
    refine congrArg _ (serve_replied h s ?_)
    rw [if_neg (by rw [ht]; simpa [Timing.ok] using hv)]
    rfl

/-- The operands of BALANCE_SET in range: the settings, and the gains they put at 256 (R145). -/
theorem balanceSet_accepted (h : s.Ready p .balanceSet r rest) (c : Camera) (h0 : byteAt r.payload 0 ≤ 1)
    (h1 : byteAt r.payload 1 = c.number) (h2 : 1 ≤ byteAt r.payload 2) (h3 : byteAt r.payload 2 ≤ 16) :
    exec (.balanceSet p) s = .next
      (({ s with
        balance := { s.balance with
          enable := decide (byteAt r.payload 0 = 1), anchor := c, step := byteAt r.payload 2
          gains :=
            if byteAt r.payload 0 = 0 then Quad.all 256
            else if c = s.balance.anchor then s.balance.gains else s.balance.gains.set c.idx 256 } } : State).replied
        p r rest .ok []) := by
  refine congrArg _ (serve_replied h _ ?_)
  have hr : ¬ (1 < byteAt r.payload 0 ∨ byteAt r.payload 2 = 0 ∨ 16 < byteAt r.payload 2) := by omega
  have hn : byteAt r.payload 0 = 0 ∨ byteAt r.payload 0 = 1 := by omega
  simp only [h1, camera_ofNumber_number, hr, if_false]
  rcases hn with hn | hn <;> simp only [hn] <;> rfl

/-- An operand of BALANCE_SET out of its range. -/
theorem balanceSet_refused (h : s.Ready p .balanceSet r rest)
    (hv : 1 < byteAt r.payload 0 ∨ byteAt r.payload 1 = 0 ∨ 4 < byteAt r.payload 1
      ∨ byteAt r.payload 2 = 0 ∨ 16 < byteAt r.payload 2) :
    exec (.balanceSet p) s = .next (s.replied p r rest .range []) := by
  refine congrArg _ (serve_replied h s ?_)
  cases ha : Camera.ofNumber (byteAt r.payload 1) with
  | none => rfl
  | some a =>
    have h1 : ¬ (byteAt r.payload 1 = 0 ∨ 4 < byteAt r.payload 1) := fun h => by
      rw [camera_ofNumber_none h] at ha
      cases ha
    have hr : 1 < byteAt r.payload 0 ∨ byteAt r.payload 2 = 0 ∨ 16 < byteAt r.payload 2 := by omega
    simp only [hr, if_true]
    rfl

/-- OUTPUT_SET makes its operand the pending line interval (R158). -/
theorem outputSet_cases (h : s.Ready p .outputSet r rest) :
    (15 ≤ byteAt r.payload 0 → byteAt r.payload 0 ≤ 40 →
      exec (.outputSet p) s = .next
        (({ s with view := { s.view with pendingInterval := some (byteAt r.payload 0) } } : State).replied
          p r rest .ok []))
    ∧ (byteAt r.payload 0 < 15 ∨ 40 < byteAt r.payload 0 →
      exec (.outputSet p) s = .next (s.replied p r rest .range [])) := by
  constructor
  · intro h1 h2
    refine congrArg _ (serve_replied h _ ?_)
    have hr : ¬ (byteAt r.payload 0 < 15 ∨ 40 < byteAt r.payload 0) := by omega
    simp only [hr, if_false]
    rfl
  · intro hr
    refine congrArg _ (serve_replied h s ?_)
    simp only [hr, if_true]
    rfl

/-- RATE_CAP replaces the rate cap (R188). -/
theorem rateCap_cases (h : s.Ready p .rateCap r rest) :
    (1 ≤ byteAt r.payload 0 → byteAt r.payload 0 ≤ 4 →
      exec (.rateCap p) s = .next
        (({ s with power := { s.power with rateCap := byteAt r.payload 0 } } : State).replied p r rest .ok []))
    ∧ (byteAt r.payload 0 = 0 ∨ 4 < byteAt r.payload 0 →
      exec (.rateCap p) s = .next (s.replied p r rest .range [])) := by
  constructor
  · intro h1 h2
    refine congrArg _ (serve_replied h _ ?_)
    have hr : ¬ (byteAt r.payload 0 = 0 ∨ 4 < byteAt r.payload 0) := by omega
    simp only [hr, if_false]
    rfl
  · intro hr
    refine congrArg _ (serve_replied h s ?_)
    simp only [hr, if_true]
    rfl

/-- POWER_SET replaces the idle timeout and the two wake enables, and the idle timer is reloaded (R184, R191). -/
theorem powerSet_cases (h : s.Ready p .powerSet r rest) :
    (halfAt r.payload 0 = 0 ∨ (10 ≤ halfAt r.payload 0 ∧ halfAt r.payload 0 ≤ 600) →
      byteAt r.payload 2 ≤ 1 → byteAt r.payload 3 ≤ 1 →
      exec (.powerSet p) s = .next
        (({ s with
          power := { s.power with
            idleTimeout := halfAt r.payload 0
            lineWake := decide (byteAt r.payload 2 = 1)
            claimWake := decide (byteAt r.payload 3 = 1) } } : State).replied p r rest .ok []))
    ∧ ((0 < halfAt r.payload 0 ∧ halfAt r.payload 0 < 10) ∨ 600 < halfAt r.payload 0
        ∨ 1 < byteAt r.payload 2 ∨ 1 < byteAt r.payload 3 →
      exec (.powerSet p) s = .next (s.replied p r rest .range [])) := by
  constructor
  · intro h1 h2 h3
    refine congrArg _ (serve_replied h _ ?_)
    have hr : ¬ ((halfAt r.payload 0 ≠ 0 ∧ (halfAt r.payload 0 < 10 ∨ 600 < halfAt r.payload 0))
      ∨ 1 < byteAt r.payload 2 ∨ 1 < byteAt r.payload 3) := by omega
    simp only [hr, if_false]
    rfl
  · intro hv
    refine congrArg _ (serve_replied h s ?_)
    have hr : (halfAt r.payload 0 ≠ 0 ∧ (halfAt r.payload 0 < 10 ∨ 600 < halfAt r.payload 0))
      ∨ 1 < byteAt r.payload 2 ∨ 1 < byteAt r.payload 3 := by omega
    simp only [hr, if_true]
    rfl

end settings

/-- Settles O31: each setting request by its operands' range. -/
theorem settingRequestsReplaceTheirSettings : Obligations.SettingRequestsReplaceTheirSettings := by
  intro p s r rest
  exact ⟨chainSet_cases, fun h _ _ _ _ hp => timingSet_cases h hp,
    fun h => ⟨balanceSet_accepted h, balanceSet_refused h⟩, outputSet_cases, rateCap_cases, powerSet_cases⟩

end Sys2Proof.Machine
end

section
/-! PROOFS. The five read requests: each field of a payload that is not written as the model writes it, and the payloads. -/

namespace Sys2Proof.Machine

/-! ### CAMERA_READ -/

theorem identityBytes_eq (x : Option Identity) :
    identityBytes x = match x with
      | some i => [1] ++ be4 i.serial.toNat ++ [byte (i.corner.number - 1), byte i.lens.toNat, i.revision]
          ++ be2 i.stamp.toNat
      | none => List.replicate 10 0 := by
  cases x with
  | none => rfl
  | some i =>
    have hcorner : i.corner.idx.val = i.corner.number - 1 := by cases i.corner <;> rfl
    simp only [identityBytes, hcorner]

theorem chunksAccepted_byte (m : CamRecord) :
    opt1 m.chunksAccepted = [if m.state = .identifying then
        (match m.ident with
          | some q => byte (q.chunks.countP Option.isSome)
          | none => 8)
      else 0xFF] := by
  unfold CamRecord.chunksAccepted
  split
  · cases m.ident <;> rfl
  · rfl

theorem lastBreak_byte (x : Option Camera) :
    opt1 (x.map Camera.number) = [match x with
      | some d => byte d.number
      | none => 0xFF] := by
  cases x <;> rfl

theorem lastTag_bytes (x : Option Tag) :
    mark x.isSome ++ [x.getD 0] = match x with
      | some g => [1, g]
      | none => [0, 0] := by
  cases x <;> rfl

/-! ### CAPTURE_READ -/

/-- The last-good mark is the freshness record's slot (R50). -/
theorem lastGood_eq (x : Capture) (c : Camera) (k : SlotNo) :
    x.lastGood c k = decide ((x.fresh.get c.idx).map Prod.fst = some k) := by
  unfold Capture.lastGood
  cases x.fresh.get c.idx <;> simp

/-- One slot of part 1. -/
theorem slotBytes_eq (x : Capture) (c : Camera) (k : SlotNo) :
    x.slotBytes c k = (match (x.slot c k).hold with
        | .free => [0, 0, 0xFF, 0]
        | .filling g => [1, g, 0xFF, 0]
        | .held g .complete => [2, g, 0, 0]
        | .held g (.repaired n) => [2, g, 1, byte n]
        | .held g .torn => [2, g, 2, 0])
      ++ mark (x.slot c k).pinned ++ mark (decide ((x.fresh.get c.idx).map Prod.fst = some k))
      ++ opt1 (((x.fillOrder.get c.idx).findIdx? (fun j => j == k)).map (fun i => i + 1)) := by
  rw [← lastGood_eq]
  rfl

/-! ### POOL_READ -/

/-- The free records are the sum of the gaps, and the largest gap their maximum. -/
theorem gaps_totals (gaps : List (Nat × Nat)) :
    gaps.foldl (fun n g => n + g.2) 0 = (gaps.map Prod.snd).sum
      ∧ gaps.foldl (fun n g => max n g.2) 0 = (gaps.map Prod.snd).foldl max 0 := by
  rw [List.sum_eq_foldl, List.foldl_map, List.foldl_map]
  exact ⟨rfl, rfl⟩

/-! ### BALANCE_READ -/

/-- The rounded change: two's complement where 4 bytes hold it, else the free value (log 40). -/
theorem changeBytes_eq (n : Int) :
    changeBytes n = be4 (if -2147483648 ≤ n ∧ n < 2147483648 then (n % 4294967296).toNat
      else (Config.wideChange n).toNat) := by
  unfold changeBytes
  split
  · simp [signed4, BitVec.toNat_ofInt]
  · rfl

theorem camReport_bytes_eq (x : CamReport) :
    x.bytes = match x with
      | .anchor => [0] ++ List.replicate 7 0
      | .noPair => [1] ++ List.replicate 7 0
      | .zeroMean => [2] ++ List.replicate 7 0
      | .moved n d g =>
        [3]
          ++ be4 (if -2147483648 ≤ n ∧ n < 2147483648 then (n % 4294967296).toNat
            else (Config.wideChange n).toNat)
          ++ [BitVec.ofInt 8 d] ++ be2 g := by
  cases x with
  | moved n d g => simp only [CamReport.bytes, signed1, changeBytes_eq]
  | _ => rfl

/-- The last update report, its fields 0 when it is absent (R146). -/
theorem report_bytes_eq (x : Option BalanceReport) :
    (match x with
      | some r => [1] ++ r.bytes
      | none => [0] ++ List.replicate 72 0) = match x with
      | none => List.replicate 73 0
      | some x =>
        [(1 : Byte)] ++ be4 x.frame
          ++ ([0, 1, 2, 3] : List (Fin 4)).flatMap (fun i => (x.pairs.get i).bytes)
          ++ Camera.all.flatMap (fun c => (x.cams.get c.idx).bytes) := by
  cases x with
  | none => rfl
  | some r => exact List.append_assoc ([1] ++ be4 r.frame) _ _

/-- BALANCE_READ's payload after the three settings. -/
theorem balance_bytes_eq (x : Balance) :
    x.bytes = Camera.all.flatMap (fun c => be2 (x.gains.get c.idx))
      ++ [byte x.anchor.number, byte x.step] ++ mark x.enable
      ++ (match x.report with
        | none => List.replicate 73 0
        | some x =>
          [(1 : Byte)] ++ be4 x.frame
            ++ ([0, 1, 2, 3] : List (Fin 4)).flatMap (fun i => (x.pairs.get i).bytes)
            ++ Camera.all.flatMap (fun c => (x.cams.get c.idx).bytes)) := by
  rw [← report_bytes_eq]
  rfl

/-! ### The read requests -/

/-- A read request answers with a payload of the state it found. -/
theorem read_replied {s : State} {p : Port} {k : RequestKind} {r : Request} {rest : List Request}
    (h : s.Ready p k r rest) {body : List Byte → State → State} {bs bs' : List Byte}
    (hb : body r.payload (s.taken p r rest) = (s.taken p r rest).answer p .ok bs) (hbs : bs = bs') :
    s.serve p k body = s.replied p r rest .ok bs' := hbs ▸ serve_replied h s hb

/-- The runs of plans apart within the pool stand in address order, and the gaps are the longest free stretches (R78). -/
theorem pool_layout (x : Plans) (h1 : ∀ id q, x.runOf id = some q → 1 ≤ q.len ∧ q.base + q.len ≤ 2048)
    (h2 : ∀ i j q u, i ≠ j → x.runOf i = some q → x.runOf j = some u →
      q.base + q.len ≤ u.base ∨ u.base + u.len ≤ q.base) :
    x.runs.Pairwise (fun q u => q.base + q.len ≤ u.base)
    ∧ (∀ q, q ∈ x.runs ↔ ∃ id, x.runOf id = some q)
    ∧ (gapsFrom 0 x.runs).Pairwise (fun g h => g.1 + g.2 < h.1)
    ∧ ∀ a n, (a, n) ∈ gapsFrom 0 x.runs ↔
      1 ≤ n ∧ a + n ≤ 2048 ∧ (∀ q ∈ x.runs, a + n ≤ q.base ∨ q.base + q.len ≤ a)
      ∧ (a = 0 ∨ ∃ q ∈ x.runs, q.base + q.len = a) ∧ (a + n = 2048 ∨ ∃ q ∈ x.runs, q.base = a + n) := by
  have hsorted := runs_sorted x h1 h2
  have hin : ∀ q ∈ x.runs, 1 ≤ q.len ∧ 0 ≤ q.base ∧ q.base + q.len ≤ 2048 := fun q hm => by
    obtain ⟨id, hid⟩ := (mem_runs x q).1 hm
    exact ⟨(h1 id q hid).1, Nat.zero_le _, (h1 id q hid).2⟩
  obtain ⟨-, hapart, hgap⟩ := gapsFrom_spec x.runs 0 hin (Nat.zero_le _) hsorted
  exact ⟨hsorted, mem_runs x, hapart, fun a n => by simpa using hgap a n⟩

/-- Settles O11, one request after another: the rule's own payload, then the fields that the statement spells otherwise. -/
theorem readRequestsAnswerAndChangeNothing : Obligations.ReadRequestsAnswerAndChangeNothing := by
  refine ⟨fun p s r rest => ⟨?camera, ?capture, ?pool, ?view, ?balance⟩, pool_layout, ?places⟩
  case camera =>
    refine fun h => ⟨fun c hc => congrArg _ (read_replied h (bs := s.chain.bytes (s.cam c)) ?_ ?_),
      fun hv => congrArg _ (serve_replied h s ?_)⟩
    · simp only [hc, camera_ofNumber_number]
      rfl
    · simp only [Chain.bytes, identityBytes_eq, chunksAccepted_byte, lastBreak_byte]
      refine (List.append_assoc _ (mark s.chain.lastTag.isSome) _).trans ?_
      exact congrArg (_ ++ ·) (lastTag_bytes s.chain.lastTag)
    · simp only [camera_ofNumber_none hv]
      rfl
  case capture =>
    refine fun h => ⟨fun hv => congrArg _ (read_replied h (bs := s.capture.bytes0) ?_ rfl),
      fun hv => congrArg _ (read_replied h (bs := s.capture.bytes1) ?_ ?_),
      fun hv => congrArg _ (read_replied h (bs := s.lanes.toList.flatMap (fun ln => ln.totals.bytes)) ?_ rfl),
      fun hv => congrArg _ (serve_replied h s ?_)⟩
    · simp only [hv]
      rfl
    · simp only [hv]
      rfl
    · simp only [Capture.bytes1, slotBytes_eq]
      rfl
    · simp only [hv]
      rfl
    · obtain ⟨n, hn⟩ : ∃ n, byteAt r.payload 0 = n + 3 := ⟨byteAt r.payload 0 - 3, by omega⟩
      simp only [hn]
      rfl
  case pool =>
    refine fun h => congrArg _ (read_replied h (bs := s.plans.poolBytes) rfl ?_)
    simp only [Plans.poolBytes, (gaps_totals _).1, (gaps_totals _).2]
    rfl
  case view => exact fun h => congrArg _ (read_replied h (bs := s.leases.bytes) rfl rfl)
  case balance =>
    refine fun h => congrArg _ (read_replied h (bs := s.balance.bytes) rfl ?_)
    rw [balance_bytes_eq]
    simp only [camReport_bytes_eq]
    rfl
  case places => exact ⟨rfl, rfl, rfl, rfl, rfl, fun _ => rfl, fun _ _ _ _ => rfl, rfl, rfl⟩

end Sys2Proof.Machine
end

section
/-! SUPPORT. The chain's operations at one position: what they leave of the chain, of the other records, and of the blocks
that a departure from STREAMING reads. -/

namespace Sys2Proof.Machine

/-! ### The chain but for one record and the queue -/

/-- The chain with the record of one position and the command queue set aside: what an operation on that position leaves
alone. -/
def State.sansCam (s : State) (c : Camera) : Chain :=
  { s.chain with table := s.chain.table.set c.idx CamRecord.reset, queue := [] }

/-- The records of the other positions are read off the view. -/
theorem cam_of_sansCam {s t : State} {c d : Camera} (h : t.sansCam c = s.sansCam c) (hd : d ≠ c) :
    t.cam d = s.cam d := by
  have hi : d.idx ≠ c.idx := fun e => hd (Camera.idx_injective e)
  have hg := congrArg (fun x : Chain => x.table.get d.idx) h
  simpa [State.sansCam, State.cam, Quad.get_set, hi] using hg

theorem interval_of_sansCam {s t : State} {c : Camera} (h : t.sansCam c = s.sansCam c) :
    t.chain.interval = s.chain.interval := (congrArg Chain.interval h : _)

section sansCam
variable (s : State) (c : Camera)

@[simp] theorem setCam_sansCam (r : CamRecord) : (s.setCam c r).sansCam c = s.sansCam c := by
  simp [State.sansCam]

@[simp] theorem enqueue_sansCam (e : ChainEntry) : (s.enqueue e).sansCam c = s.sansCam c := by
  unfold State.enqueue Chain.enqueue
  split <;> rfl

@[simp] theorem raiseBoth_sansCam (k : NoticeKind) : (s.raiseBoth k).sansCam c = s.sansCam c := rfl

@[simp] theorem popCommand_sansCam : s.popCommand.sansCam c = s.sansCam c := rfl

@[simp] theorem camFault_sansCam (f : FaultCode) : (s.camFault c f).sansCam c = s.sansCam c := by
  unfold State.camFault
  dsimp only
  split
  · rw [enqueue_sansCam, setCam_sansCam]
    rfl
  · rw [setCam_sansCam]
    rfl

@[simp] theorem camTemporary_sansCam (f : FaultCode) : (s.camTemporary c f).sansCam c = s.sansCam c := by
  simp [State.camTemporary]

@[simp] theorem camFaultCode_sansCam (f : FaultCode) : (s.camFaultCode c f).sansCam c = s.sansCam c := by
  unfold State.camFaultCode
  repeat' split
  all_goals simp

@[simp] theorem countSlot_sansCam (r : SlotResult) : (s.countSlot c r).sansCam c = s.sansCam c := by
  unfold State.countSlot
  dsimp only
  split
  · exact setCam_sansCam s c _
  · rfl

@[simp] theorem addressingDone_sansCam : s.addressingDone.sansCam c = s.sansCam c := by
  have one : ∀ (t : State) (d : Camera),
      (if (t.cam d).state = .addressed then t.enqueue (entryFor .identStart d .bringUp) else t).sansCam c
        = t.sansCam c := by
    intro t d
    split <;> simp
  simp only [State.addressingDone, Camera.all, List.foldl_cons, List.foldl_nil, one]

@[simp] theorem commandDone_sansCam (f : ChainFunc) : (s.commandDone c f).sansCam c = s.sansCam c := by
  unfold State.commandDone
  dsimp only
  repeat' split
  all_goals simp

/-- A failed command leaves the other records alone, unless it is an ASSIGN with positions beyond its own (R10). -/
theorem commandFailed_sansCam (f : ChainFunc) (h : f ≠ .assign ∨ beyond c = []) :
    (s.commandFailed c f).sansCam c = s.sansCam c := by
  unfold State.commandFailed
  split
  · rw [h.resolve_left (fun h => h rfl)]
    simp
  all_goals simp

theorem settleCommand_sansCam (r : SlotResult) (h : ∀ e, s.chain.sentTo c = some e → e.func ≠ .assign ∨ beyond c = []) :
    (s.settleCommand c r).sansCam c = s.sansCam c := by
  unfold State.settleCommand
  split
  · rfl
  · rename_i e he
    have hf := commandFailed_sansCam s.popCommand c e.func (h e he)
    repeat' split
    · simp
    · simpa using hf
    · simpa using hf
    · rfl

@[simp] theorem identityCheck_sansCam (x : List (Option Byte)) :
    (s.identityCheck c x).sansCam c = s.sansCam c := by
  unfold State.identityCheck
  dsimp only
  split <;> simp

@[simp] theorem identClose_sansCam (x : IdentProgress) : (s.identClose c x).sansCam c = s.sansCam c := by
  unfold State.identClose
  dsimp only
  repeat' split
  all_goals simp

@[simp] theorem takeReply_sansCam (r : SlotResult) : (s.takeReply c r).sansCam c = s.sansCam c := by
  unfold State.takeReply State.identSlot State.testSlot
  dsimp only
  repeat' split
  all_goals simp

/-- A slot that is not a third miss leaves the rest of the chain alone, unless it settles an ASSIGN with positions beyond
its own. -/
theorem slotResult_sansCam (r : SlotResult) (h3 : (s.cam c).thirdMiss r = false)
    (h : ∀ e, s.chain.sentTo c = some e → e.func ≠ .assign ∨ beyond c = []) :
    (s.slotResult c r).sansCam c = s.sansCam c := by
  have hsent : (s.countSlot c r).chain.sentTo c = s.chain.sentTo c :=
    sentTo_of_queue (by rw [countSlot_eq]) c
  have hset := settleCommand_sansCam (s.countSlot c r) c r (by rwa [hsent])
  rw [countSlot_sansCam] at hset
  unfold State.slotResult
  simp only [h3]
  split
  · exact absurd ‹_› Bool.false_ne_true
  · split
    · exact hset
    · rw [takeReply_sansCam, hset]

end sansCam

/-! ### The blocks a departure reads -/

theorem now_of_sansPipe {s t : State} (h : t.sansPipe = s.sansPipe) : t.now = s.now :=
  (congrArg State.now h :)

theorem answer_intake (s : State) (p : Port) (c : Code) (bs : List Byte) : (s.answer p c bs).intake = s.intake := by
  obtain ⟨x, h⟩ := answer_frame s p c bs
  rw [h]
  rfl

theorem chainSettle_intake (s : State) : s.chainSettle.intake = s.intake := by
  unfold State.chainSettle
  split <;> rfl

/-- A write that keeps a record's state, or enters STREAMING, is no departure. -/
theorem setCam_intake_stays (s : State) (c : Camera) (r : CamRecord)
    (h : r.state = (s.cam c).state ∨ r.state = .streaming) : (s.setCam c r).intake = s.intake := by
  rw [setCam_intake, if_neg]
  rintro ⟨h1, h2⟩
  rcases h with h | h
  · exact h2 (h.trans h1)
  · exact h2 h

/-- A write of another state than STREAMING reports the position where it was STREAMING, and no other (R8). -/
theorem departs_of_setCam {s u t : State} {c : Camera} {r : CamRecord} (hu : u.intake = s.intake)
    (hstate : (u.cam c).state = (s.cam c).state) (hr : r.state ≠ .streaming) (ht : t.intake = (u.setCam c r).intake) :
    s.departs (fun d => decide (d = c ∧ (s.cam c).state = .streaming)) t := by
  have key := departs_one s c (decide ((s.cam c).state = .streaming)) t (by
    rw [ht, setCam_intake, hstate]
    by_cases h : (s.cam c).state = .streaming
    · simpa [h, hr] using leaveStreaming_intake c hu
    · simpa [h] using hu)
  simpa using key

/-- A fault reports the position as it writes the record (R18). -/
theorem camFault_intake (s : State) (c : Camera) (f : FaultCode) :
    (s.camFault c f).intake = (s.setCam c { s.cam c with state := .faulted }).intake := by
  have h : ∀ r : CamRecord, r.state = .faulted →
      (({ s with chain := s.chain.removeFor c } : State).setCam c r).intake
        = (s.setCam c { s.cam c with state := .faulted }).intake := by
    intro r hr
    have hl := leaveStreaming_intake (s := { s with chain := s.chain.removeFor c }) (t := s) c rfl
    rw [setCam_intake, setCam_intake, hr]
    change (if (s.cam c).state = .streaming ∧ _ then _ else _ : State).intake = _
    by_cases hs : (s.cam c).state = .streaming
    · simpa [hs] using hl
    · simp only [hs, false_and, if_false]
      rfl
  unfold State.camFault
  dsimp only
  split
  · exact h _ rfl
  · exact h _ rfl

theorem countSlot_intake (s : State) (c : Camera) (r : SlotResult) : (s.countSlot c r).intake = s.intake := by
  rw [countSlot_eq]
  rfl

/-! ### Every record taken back -/

/-- A record taken back to UNADDRESSED with the effects of bring-up start (R6, R9, R22). -/
def CamRecord.unaddress (r : CamRecord) : CamRecord :=
  { r.bringUpStart with state := .unaddressed, ident := none, test := none }

theorem unaddressAll_eq (s : State) :
    s.unaddressAll = Camera.all.foldl (fun t c => t.setCam c (t.cam c).unaddress) s := rfl

theorem unaddressAll_chain (s : State) :
    s.unaddressAll.chain = { s.chain with table := s.chain.table.map CamRecord.unaddress } := by
  simp only [unaddressAll_eq, Camera.all, List.foldl_cons, List.foldl_nil, setCam_chain, State.cam, Quad.get_set]
  rfl

/-- Each STREAMING position is reported, in position order (R8). -/
theorem unaddressAll_departs (s : State) :
    s.departs (fun c => decide ((s.cam c).state = .streaming)) s.unaddressAll := by
  have fold : ∀ (l : List Camera) (t v : State), l.Nodup → t.intake = v.intake →
      (∀ d ∈ l, (t.cam d).state = (s.cam d).state) →
      (l.foldl (fun t c => t.setCam c (t.cam c).unaddress) t).intake
        = (l.foldl (fun v c => if decide ((s.cam c).state = .streaming) then v.leaveStreaming c else v) v).intake := by
    intro l
    induction l with
    | nil => exact fun t v _ h _ => h
    | cons c l ih =>
      intro t v hn h hst
      obtain ⟨hc, hn⟩ := List.nodup_cons.1 hn
      refine ih _ _ hn ?_ ?_
      · rw [setCam_intake, hst c (List.mem_cons_self ..)]
        by_cases hs : (s.cam c).state = .streaming
        · simpa [hs, CamRecord.unaddress] using leaveStreaming_intake c h
        · simpa [hs] using h
      · intro d hd
        rw [cam_setCam_other t _ (by rintro rfl; exact hc hd)]
        exact hst d (List.mem_cons_of_mem _ hd)
  rw [departs_iff, unaddressAll_eq]
  exact fold Camera.all s s (by decide) rfl (fun _ _ => rfl)

/-- A departure of one state's positions, seen from a state with the same records and blocks. -/
theorem departs_congr {s u t v : State} {gone : Camera → Bool} (hs : u.intake = s.intake) (ht : v.intake = t.intake)
    (h : u.departs gone v) : s.departs gone t := by
  have fold : ∀ (l : List Camera) (a b : State), a.intake = b.intake →
      (l.foldl (fun v c => if gone c then v.leaveStreaming c else v) a).intake
        = (l.foldl (fun v c => if gone c then v.leaveStreaming c else v) b).intake := by
    intro l
    induction l with
    | nil => exact fun _ _ h => h
    | cons c l ih =>
      intro a b hab
      refine ih _ _ ?_
      dsimp only
      split
      · exact leaveStreaming_intake c hab
      · exact hab
  rw [departs_iff] at h ⊢
  rw [← ht, h]
  exact fold _ u s hs

/-- A rebuild: the queue with the CHAIN_RESET alone, the phase, and every record taken back (R22). -/
theorem rebuild_chain (s : State) :
    s.rebuild.chain = { s.chain with
      table := s.chain.table.map CamRecord.unaddress, queue := [chainResetEntry], phase := .bringingUp } := by
  simp [State.rebuild, State.enqueue, Chain.enqueue, unaddressAll_chain]

@[simp] theorem rebuild_cam (s : State) (c : Camera) : s.rebuild.cam c = (s.cam c).unaddress := by
  rw [State.cam, rebuild_chain, Quad.get_map]
  rfl

theorem rebuild_departs (s : State) : s.departs (fun c => decide ((s.cam c).state = .streaming)) s.rebuild := by
  have hs : ({ s with chain := { s.chain with queue := [] } } : State).intake = s.intake := rfl
  have ht : s.rebuild.intake = ({ s with chain := { s.chain with queue := [] } } : State).unaddressAll.intake := by
    unfold State.rebuild
    generalize State.unaddressAll _ = u
    rfl
  exact departs_congr hs ht.symm (unaddressAll_departs _)

end Sys2Proof.Machine
end

section
/-! PROOFS. The requests that take records back, the strobe, and the beginning of a bring-up. -/

namespace Sys2Proof.Machine

/-! ### CHAIN_REBUILD and CAMERA_RESTART -/

/-- Settles O12: the two refusals by R24's checks in order, and the rebuild by its effects on the chain. -/
theorem chainRebuildTakesEveryRecordBack : Obligations.ChainRebuildTakesEveryRecordBack := by
  intro p s r rest h
  refine ⟨fun hp => congrArg _ (serve_replied h s (if_pos hp)),
    fun hp hf => congrArg _ (serve_replied h s ((if_neg hp).trans (if_pos hf))), fun hp hf => ?accepted⟩
  case accepted =>
    have hrun : exec (.chainRebuild p) s = .next ((s.taken p r rest).rebuild.answer p .ok []) :=
      congrArg Host.Outcome.next ((serve_of_ready h _).trans ((if_neg hp).trans (if_neg (by simp [hf]))))
    refine ⟨_, hrun, answered_pipeOnly _ _ (rebuild_sansPipe _),
      departs_congr (u := s.taken p r rest) rfl (answer_intake _ _ _ _).symm (rebuild_departs _), ?_, ?_, fun c => ?_⟩
    · rw [answer_chain, rebuild_chain]
    · rw [answer_chain, rebuild_chain]
    · rw [answer_cam, rebuild_cam]
      exact ⟨rfl, rfl, rfl, rfl, rfl, rfl⟩

/-- Settles O13: the refusals by R26's checks in order, and the restart as one record written and one entry queued. -/
theorem cameraRestartTakesOneRecordBack : Obligations.CameraRestartTakesOneRecordBack := by
  intro p c s r rest h hc
  refine ⟨fun hp => ?standby, fun hp hf => ?inFlight, fun hp hf hst => ?noAddress, fun hp hf h1 h2 hq hl => ?accepted⟩
  case standby =>
    refine congrArg _ (serve_replied h s ?_)
    simp only [hc, camera_ofNumber_number]
    exact if_pos hp
  case inFlight =>
    refine congrArg _ (serve_replied h s ?_)
    simp only [hc, camera_ofNumber_number]
    exact (if_neg hp).trans (if_pos hf)
  case noAddress =>
    refine congrArg _ (serve_replied h s ?_)
    simp only [hc, camera_ofNumber_number]
    exact (if_neg hp).trans ((if_neg (by simp [hf])).trans (if_pos hst))
  case accepted =>
    have hnone : ¬ (s.chain.queue.any fun e => e.target == some c) = true := by
      rw [← List.not_any_eq_all_not] at hq
      simpa using hq
    have hst : ¬ ((s.cam c).state = .absent ∨ (s.cam c).state = .unaddressed) := not_or.2 ⟨h1, h2⟩
    have hrun : exec (.cameraRestart p) s = .next (((s.taken p r rest).restartCamera p c).answer p .ok []) := by
      refine congrArg Host.Outcome.next ((serve_of_ready h _).trans ?_)
      simp only [hc, camera_ofNumber_number]
      exact (if_neg hp).trans ((if_neg (by simp [hf])).trans ((if_neg hst).trans (if_neg hnone)))
    refine ⟨_, hrun, answered_pipeOnly _ _ (restartCamera_sansPipe _ _ _),
      departs_of_setCam (u := s.taken p r rest) rfl rfl (by simp) (answer_intake _ _ _ _), ?_⟩
    have hcam : ∀ d, (((s.taken p r rest).restartCamera p c).answer p .ok []).cam d =
        if d = c then { (s.cam c).bringUpStart with state := .addressed, ident := none, test := none } else s.cam d := by
      intro d
      rw [answer_cam, State.restartCamera, cam_enqueue, cam_setCam]
      rfl
    rw [hcam, if_pos rfl]
    refine ⟨rfl, rfl, rfl, rfl, rfl, fun d hd => (hcam d).trans (if_neg hd), ?_⟩
    rw [answer_chain, State.restartCamera, enqueue_queue _ _ (by simpa using hl)]
    simp [entryFor]

/-! ### The end of power settle -/

/-- Settles O19: the CHAIN_RESET queued and every record taken back, at the expiry. -/
theorem settleExpiryBeginsBringUp : Obligations.SettleExpiryBeginsBringUp := by
  intro s due hdue hl
  have hq : ((s.runTo due).enqueue chainResetEntry).chain = { s.chain with queue := s.chain.queue ++ [chainResetEntry] } :=
    enqueue_queue _ _ hl
  have hu := unaddressAll_chain ((s.runTo due).enqueue chainResetEntry)
  rw [hq] at hu
  generalize hw : ((s.runTo due).enqueue chainResetEntry).unaddressAll = u at hu
  refine ⟨{ u with chain := { u.chain with settleAt := none, phase := .bringingUp } }, ?_, ?_, ?_, rfl, rfl, fun c => ?_⟩
  · simp only [exec, execSettleTimerExpiry, hdue, hw]
  · apply pipeOnly_of_sansPipe
    rw [withChain_sansPipe, ← hw]
    simp
  · simp only [hu]
    rfl
  · have hc : ({ u with chain := { u.chain with settleAt := none, phase := .bringingUp } } : State).cam c
        = (s.cam c).unaddress := by
      simp only [State.cam, hu, Quad.get_map]
    rw [hc]
    exact ⟨rfl, rfl, rfl, rfl⟩

/-! ### STROBE -/

/-- A record at a strobe: with stream start pending it becomes STREAMING (R14). -/
def CamRecord.startStream (r : CamRecord) : CamRecord :=
  if r.startPending then { r with state := .streaming, startPending := false, test := none } else r

/-- One camera's stream start. -/
def State.startOne (s : State) (c : Camera) : State :=
  if (s.cam c).startPending then
    s.setCam c { s.cam c with state := .streaming, startPending := false, test := none } else s

theorem streamStarts_eq (s : State) :
    s.streamStarts = (((s.startOne .fl).startOne .fr).startOne .rr).startOne .rl := rfl

theorem startOne_chain (s : State) (c : Camera) :
    (s.startOne c).chain = { s.chain with table := s.chain.table.set c.idx (s.cam c).startStream } := by
  unfold State.startOne CamRecord.startStream
  split
  · exact setCam_chain ..
  · rw [State.cam, Quad.set_get]

/-- A stream start is no departure. -/
theorem startOne_intake (s : State) (c : Camera) : (s.startOne c).intake = s.intake := by
  unfold State.startOne
  split
  · exact setCam_intake_stays _ _ _ (Or.inr rfl)
  · rfl

theorem streamStarts_chain (s : State) :
    s.streamStarts.chain = { s.chain with table := s.chain.table.map CamRecord.startStream } := by
  simp only [streamStarts_eq, startOne_chain, State.cam]
  rfl

theorem streamStarts_intake (s : State) : s.streamStarts.intake = s.intake := by
  simp only [streamStarts_eq, startOne_intake]

/-- Sending a command word changes the queue and the word held alone. -/
theorem sendCommand_fixed (x : Chain) :
    ∃ q w, x.sendCommand = { x with queue := q, commandWord := w } := by
  unfold Chain.sendCommand
  split
  · exact ⟨x.queue, none, rfl⟩
  · dsimp only
    repeat' split
    · unfold Chain.enqueue
      split <;> exact ⟨_, _, rfl⟩
    · exact ⟨_, _, rfl⟩
    · exact ⟨_, _, rfl⟩

/-- With an empty queue no command word is held (log 30). -/
theorem sendCommand_nil {x : Chain} (h : x.queue = []) :
    x.sendCommand.queue = [] ∧ x.sendCommand.commandWord = none := by
  simp [Chain.sendCommand, h]

/-- The head's command word is sent: a CHAIN_RESET leaves the queue, and one of origin BRING_UP adds ASSIGN 1 (R4, R10). -/
theorem sendCommand_cons {x : Chain} {e : ChainEntry} {rest : List ChainEntry} (h : x.queue = e :: rest) :
    x.sendCommand.commandWord = some (commandWordOf { e with attempts := e.attempts + 1 })
    ∧ (e.func ≠ .chainReset → x.sendCommand.queue = { e with attempts := e.attempts + 1 } :: rest)
    ∧ (e.func = .chainReset → e.origin ≠ .bringUp → x.sendCommand.queue = rest)
    ∧ (e.func = .chainReset → e.origin = .bringUp → rest.length < 8 →
      x.sendCommand.queue = rest ++ [assignEntry .fl]) := by
  unfold Chain.sendCommand
  simp only [h]
  refine ⟨?_, fun hf => ?_, fun hf ho => ?_, fun hf ho hl => ?_⟩
  · unfold Chain.enqueue
    repeat' split
    all_goals rfl
  · simp [hf]
  · simp [hf, ho]
  · simp [hf, ho, Chain.enqueue, hl]

/-- The chain a strobe leaves before its command word is sent: the tag handed on, a new interval begun (R1, R3, R14). -/
def Chain.atStrobe (x : Chain) (now period : Nat) : Chain :=
  { x with
    table := x.table.map CamRecord.startStream
    tag := x.tag + 1
    lastTag := some x.tag
    strobeWord := some (strobeWordOf x.tag)
    nextStrobe := some (now + period * Config.ms)
    interval := some
      { strobeAt := now
        slotsLeft := Camera.all
        counted := (x.table.map CamRecord.startStream).map (fun (r : CamRecord) => r.state.counted)
        lostNow := Quad.all false } }

/-- A strobe: the chain with its command word sent, and the strobe handed to the Capture Sequencer and the lanes. -/
theorem sendStrobe_spec (s : State) :
    s.sendStrobe.chain = (s.chain.atStrobe s.now s.sendStrobe.capture.timing.period).sendCommand
    ∧ s.sendStrobe.capture = s.capture.strobe s.chain.tag s.now
      ((s.chain.table.map CamRecord.startStream).map (fun (r : CamRecord) => decide (r.state = .streaming)))
    ∧ s.sendStrobe.lanes = s.lanes.map (fun ln => ln.strobe s.chain.tag) := by
  have hchain := streamStarts_chain s
  have hintake := streamStarts_intake s
  have hnow : s.streamStarts.now = s.now := now_of_sansPipe (streamStarts_sansPipe s)
  simp only [State.intake, Prod.mk.injEq] at hintake
  obtain ⟨hlanes, hcapture, -⟩ := hintake
  unfold State.sendStrobe
  generalize s.streamStarts = t at *
  simp only [State.streaming, hchain, hlanes, hcapture, hnow]
  exact ⟨rfl, trivial, trivial⟩

/-- Settles O14: the strobe, its command word, and the settling of a bring-up after it, which changes the phase alone. -/
theorem strobeSendsTheTagAndStartsStreams : Obligations.StrobeSendsTheTagAndStartsStreams := by
  intro s due hrun hdue
  obtain ⟨hchain, hcapture, hlanes⟩ := sendStrobe_spec (s.runTo due)
  have hview : (s.runTo due).sendStrobe.chainSettle.sansPipe = (s.runTo due).sansPipe := by simp
  have hexec : exec .strobe s = .next (s.runTo due).sendStrobe.chainSettle := by
    simp only [exec, execStrobe, hdue, hrun, if_true]
  generalize (s.runTo due).sendStrobe = u at *
  obtain ⟨f, hphase⟩ := chainSettle_chain u
  obtain ⟨slanes, scapture, -⟩ := chainSettle_parts u
  have hnow : u.chainSettle.now = max s.now due := (now_of_sansPipe hview).trans (runTo_now s due)
  generalize u.chainSettle = t at *
  simp only [runTo_chain, runTo_capture, runTo_lanes] at hchain hcapture hlanes
  obtain ⟨q, w, hsend⟩ := sendCommand_fixed (s.chain.atStrobe (s.runTo due).now u.capture.timing.period)
  have htable : t.chain.table = s.chain.table.map CamRecord.startStream := by
    rw [hphase, hchain, hsend]
    rfl
  have hcam : ∀ c, t.cam c = (s.cam c).startStream := fun c => by
    rw [State.cam, htable, Quad.get_map]
    rfl
  have hqueue : t.chain.queue = u.chain.queue ∧ t.chain.commandWord = u.chain.commandWord := by
    rw [hphase]
    exact ⟨rfl, rfl⟩
  refine ⟨t, hexec, pipeOnly_of_sansPipe hview, hnow, ?_, ?_, ?_, ?_, ?_, fun c hc => ?_, fun c hc => ?_, ?_, fun c => ?_,
    fun c => ?_, fun h => ?_, fun e rest h => ?_⟩
  · rw [hphase, hchain, hsend]
    rfl
  · rw [hphase, hchain, hsend]
    rfl
  · rw [hphase, hchain, hsend]
    rfl
  · rw [hphase, hchain, hsend, scapture, hnow, ← runTo_now s due]
    rfl
  · rw [hphase, hchain, hsend]
    rfl
  · rw [hcam, CamRecord.startStream, if_pos hc]
  · rw [hcam, CamRecord.startStream, if_neg (by simp [hc])]
  · rw [scapture, hcapture, hnow, State.streaming, htable, runTo_now]
  · exact Quad.get_map ..
  · rw [State.lane, slanes, hlanes, Quad.get_map]
    rfl
  · rw [hqueue.1, hqueue.2, hchain]
    exact sendCommand_nil h
  · rw [hqueue.1, hqueue.2, hchain]
    exact sendCommand_cons h

end Sys2Proof.Machine
end

section
/-! SUPPORT. The end of a reply slot: the state a result finds, the state it leaves, and one equation for each way a reply
is taken. -/

namespace Sys2Proof.Machine

/-! ### The slot's result and the slot's end -/

/-- The state in which position `c`'s slot result is taken: the timebase at the slot's end, the result counted (R3, R19). -/
def State.atSlot (s : State) (c : Camera) (i : Interval) (res : SlotResult) : State :=
  (s.runTo (i.strobeAt + 500 + 600 * c.number)).countSlot c res

section atSlot
variable (s : State) (c : Camera) (i : Interval) (res : SlotResult)

theorem atSlot_sansCam : (s.atSlot c i res).sansCam c = s.sansCam c := countSlot_sansCam _ c res

@[simp] theorem atSlot_queue : (s.atSlot c i res).chain.queue = s.chain.queue := by
  rw [State.atSlot, countSlot_eq]
  rfl

@[simp] theorem atSlot_intake : (s.atSlot c i res).intake = s.intake := countSlot_intake _ c res

theorem atSlot_cam : (s.atSlot c i res).cam c =
    { s.cam c with
      missed := if (s.cam c).state.counted then (if res = .missed then (s.cam c).missed + 1 else 0)
        else (s.cam c).missed } := by
  rw [State.atSlot, countSlot_eq, State.cam, Quad.get_set_same]
  rfl

theorem atSlot_other {d : Camera} (hd : d ≠ c) : (s.atSlot c i res).cam d = s.cam d :=
  cam_of_sansCam (atSlot_sansCam s c i res) hd

@[simp] theorem atSlot_state : ((s.atSlot c i res).cam c).state = (s.cam c).state := by rw [atSlot_cam]

@[simp] theorem atSlot_ident : ((s.atSlot c i res).cam c).ident = (s.cam c).ident := by rw [atSlot_cam]

@[simp] theorem atSlot_test : ((s.atSlot c i res).cam c).test = (s.cam c).test := by rw [atSlot_cam]

/-- A reply in a counted state leaves no missed slot. -/
theorem atSlot_cam_reply (x : Reply) (h : (s.cam c).state.counted = true) :
    (s.atSlot c i (.reply x)).cam c = { s.cam c with missed := 0 } := by
  rw [atSlot_cam, if_pos h, if_neg (by simp)]

end atSlot

/-- `t` is `s` after position `c`'s slot, whose result left `w`: the slot is over, and the records, the queue, the blocks of
the pipeline and the notices are those of `w`. -/
structure State.SlotLeaves (s : State) (c : Camera) (i : Interval) (w t : State) : Prop where
  done : s.slotDone c i t
  cam : ∀ d, t.cam d = w.cam d
  queue : t.chain.queue = w.chain.queue
  intake : t.intake = w.intake
  raised : ∀ k, w.bothRaised k → t.bothRaised k
  now : t.now = w.now

theorem breakTest_none (s : State) (h : s.chain.interval.bind Interval.breakAt = none) : s.breakTest = s := by
  simp [State.breakTest, h]

/-- The end of a slot that loses no position reports none. -/
theorem afterSlot_intake (s : State) (c : Camera) (i : Interval) (hi : s.chain.interval = some i)
    (hl : i.lostNow = Quad.all false) : (s.afterSlot c).intake = s.intake := by
  have hb : i.slotOver.breakAt = none := by simp [Interval.breakAt, Interval.slotOver, hl, Camera.all]
  have hn := breakTest_none { s with chain := { s.chain with interval := s.chain.interval.map Interval.slotOver } }
    (by simp [hi, hb])
  unfold State.afterSlot
  dsimp only
  rw [hn, ite_self, chainSettle_intake]
  rfl

/-- SLOT_END of a slot that is due leaves what the slot's result leaves (R3). -/
theorem slotEnd_leaves {c : Camera} {reply : Option (BitVec 14)} {s w : State} {i : Interval} (h : s.slotDue c i)
    (hw : (s.runTo (i.strobeAt + 500 + 600 * c.number)).slotResult c (slotResultOf reply) = w)
    (hwi : w.sansCam c = s.sansCam c ∨ w.chain.interval = s.chain.interval) :
    ∃ t, exec (.slotEnd c reply) s = .next t ∧ s.SlotLeaves c i w t := by
  have hwi : w.chain.interval = s.chain.interval := hwi.elim interval_of_sansCam id
  obtain ⟨t, hexec, hdone, hcam, hqueue, -, -, hraised, hnow⟩ := slotEnd_spec c reply s w i h hw hwi
  refine ⟨t, hexec, hdone, hcam, hqueue, ?_, hraised, hnow⟩
  obtain ⟨hint, hhead, hlost⟩ := h
  have ht : t = w.afterSlot c := by
    simp only [exec, execSlotEnd, State.endSlot, hint, hhead, if_true, Interval.slotTime, hw] at hexec
    exact (Host.Outcome.next.inj hexec).symm
  rw [ht, afterSlot_intake w c i (hwi.trans hint) hlost]

/-- Where no command was sent to the position, the reply is taken by the record's state (R16). -/
theorem slotEnd_unsent {c : Camera} {reply : Option (BitVec 14)} {s : State} {i : Interval} {res : SlotResult}
    (h : s.slotDue c i) (hs : s.chain.sentTo c = none) (hr : slotResultOf reply = res)
    (h3 : (s.cam c).thirdMiss res = false) :
    ∃ t, exec (.slotEnd c reply) s = .next t ∧ s.SlotLeaves c i ((s.atSlot c i res).takeReply c res) t
      ∧ ∀ d, d ≠ c → t.cam d = s.cam d := by
  subst hr
  have hview : ((s.atSlot c i (slotResultOf reply)).takeReply c (slotResultOf reply)).sansCam c = s.sansCam c := by
    rw [takeReply_sansCam, atSlot_sansCam]
  obtain ⟨t, hexec, ht⟩ := slotEnd_leaves h (slotResult_unsent (s.runTo _) c _ hs h3) (Or.inl hview)
  exact ⟨t, hexec, ht, fun d hd => (ht.cam d).trans (cam_of_sansCam hview hd)⟩

/-! ### How a reply is taken -/

section takeReply
variable (s : State) (c : Camera)

/-- A missed slot is taken only by an identification in progress (R11). -/
theorem takeReply_missed (h : (s.cam c).state = .identifying → (s.cam c).ident = none) :
    s.takeReply c .missed = s := by
  unfold State.takeReply
  dsimp only
  split
  · rename_i hst hid
    rw [h hst] at hid
    cases hid
  all_goals first | rfl | contradiction

/-- In IDENTIFYING with the identification in progress (R11). -/
theorem takeReply_identifying {q : IdentProgress} (res : SlotResult) (h : (s.cam c).state = .identifying)
    (hq : (s.cam c).ident = some q) : s.takeReply c res = s.identSlot c q res := by
  simp only [State.takeReply, h, hq]

/-- In IDENTIFYING with the identity stored, and in ADDRESSED, a STATUS reply is taken for its fault code (R16). -/
theorem takeReply_faultCode (code : StateCode) (f : FaultCode)
    (h : (s.cam c).state = .addressed ∨ ((s.cam c).state = .identifying ∧ (s.cam c).ident = none)) :
    s.takeReply c (.reply (.status code f)) = s.camFaultCode c f := by
  rcases h with h | ⟨h, hn⟩
  · simp only [State.takeReply, h]
  · simp only [State.takeReply, h, hn]

/-- In TESTING (R13). -/
theorem takeReply_testing (code : StateCode) (f : FaultCode) (h : (s.cam c).state = .testing) :
    s.takeReply c (.reply (.status code f)) = s.testSlot c code f := by
  simp only [State.takeReply, h]

/-- In STREAMING (R16, R18). -/
theorem takeReply_streaming (code : StateCode) (f : FaultCode) (h : (s.cam c).state = .streaming) :
    s.takeReply c (.reply (.status code f))
      = if code ≠ .streaming then s.camFault c .desync else s.camFaultCode c f := by
  simp only [State.takeReply, h]

/-- A STATUS reply that faults the record: another state code in STREAMING, or a latched fault code (R16, R18). -/
theorem takeReply_fault (code : StateCode) (f g : FaultCode)
    (h : ((s.cam c).state = .streaming ∧ code ≠ .streaming ∧ g = .desync)
      ∨ (((s.cam c).state = .addressed ∨ (s.cam c).state = .identifying ∨ (s.cam c).state = .testing
          ∨ ((s.cam c).state = .streaming ∧ code = .streaming)) ∧ (f = .selftest ∨ f = .memory) ∧ g = f)) :
    s.takeReply c (.reply (.status code f)) = s.camFault c g := by
  rcases h with ⟨hst, hcode, rfl⟩ | ⟨hst, hf, rfl⟩
  · rw [takeReply_streaming s c code f hst, if_pos hcode]
  · have hl : g.latched = true := by rcases hf with rfl | rfl <;> rfl
    have hfc : s.camFaultCode c g = s.camFault c g := if_pos hl
    rcases hst with hst | hst | hst | ⟨hst, hcode⟩
    · rw [takeReply_faultCode s c code g (Or.inl hst), hfc]
    · cases hid : (s.cam c).ident with
      | none => rw [takeReply_faultCode s c code g (Or.inr ⟨hst, hid⟩), hfc]
      | some q =>
        rw [takeReply_identifying s c _ hst hid]
        exact if_pos hl
    · rw [takeReply_testing s c code g hst]
      exact if_pos hl
    · rw [takeReply_streaming s c code g hst, if_neg (not_not.2 hcode), hfc]

/-- A temporary fault code is kept as the last fault code, and nothing else changes but CAMERA (R17). -/
theorem camFaultCode_temporary (f : FaultCode) (hf : f = .sensorHot ∨ f = .supplyDip ∨ f = .cmdCheck) :
    (s.camFaultCode c f).cam c = { s.cam c with lastFault := f }
    ∧ (s.camFaultCode c f).chain.queue = s.chain.queue
    ∧ (s.camFaultCode c f).intake = s.intake ∧ (s.camFaultCode c f).bothRaised .camera := by
  have heq : s.camFaultCode c f = s.camTemporary c f := by rcases hf with rfl | rfl | rfl <;> rfl
  rw [heq]
  refine ⟨cam_setCam_same s c { s.cam c with lastFault := f }, ?_,
    setCam_intake_stays s c { s.cam c with lastFault := f } (Or.inl rfl), raiseBoth_bothRaised _ _⟩
  rw [State.camTemporary, raiseBoth_chain, setCam_chain]

/-- A fault code that is not latched is kept unless it is NONE (R16, R17). -/
theorem camFaultCode_kept (f : FaultCode) (hf : f = .none ∨ f = .sensorHot ∨ f = .supplyDip ∨ f = .cmdCheck) :
    (s.camFaultCode c f).cam c = { s.cam c with lastFault := if f = .none then (s.cam c).lastFault else f }
    ∧ (s.camFaultCode c f).chain.queue = s.chain.queue := by
  rcases hf with rfl | hf
  · exact ⟨rfl, rfl⟩
  · obtain ⟨hcam, hqueue, -⟩ := camFaultCode_temporary s c f hf
    have hn : f ≠ .none := by rcases hf with rfl | rfl | rfl <;> simp
    exact ⟨by rw [hcam, if_neg hn], hqueue⟩

/-- In TESTING a STATUS reply that is not READY is taken for its fault code alone (R13). -/
theorem testSlot_notReady (code : StateCode) (f : FaultCode) (hl : f.latched = false) (hcode : code ≠ .ready) :
    s.testSlot c code f = s.camFaultCode c f := by
  unfold State.testSlot
  simp only [hl, hcode, false_and, if_false, Bool.false_eq_true]
  split <;> rfl

/-- READY in TESTING asks for the stream once (R13). -/
theorem testSlot_ready (f : FaultCode) (hl : f.latched = false) {x : TestProgress}
    (hx : ((s.camFaultCode c f).cam c).test = some x) (hreq : x.requested = false) :
    s.testSlot c .ready f
      = ((s.camFaultCode c f).setCam c
        { (s.camFaultCode c f).cam c with test := some { x with requested := true } }).enqueue
          (entryFor .streamOn c .bringUp) := by
  unfold State.testSlot
  simp only [hl, hx, hreq, and_self, if_true, if_false, Bool.false_eq_true]

/-- An identification that goes on keeps its progress (R11). -/
theorem identClose_goesOn (q : IdentProgress) (h : q.chunks.all Option.isSome = false) (he : q.elapsed < 64) :
    s.identClose c q = s.setCam c { s.cam c with ident := some q } := by
  unfold State.identClose
  rw [if_neg (by simp [h])]
  exact if_neg (by omega)

/-- The 64th interval with a chunk missing faults the record (R11). -/
theorem identClose_timeout (q : IdentProgress) (h : q.chunks.all Option.isSome = false) (he : 64 ≤ q.elapsed) :
    s.identClose c q = (s.setCam c { s.cam c with ident := some q }).camFault c .identTimeout := by
  unfold State.identClose
  rw [if_neg (by simp [h])]
  exact if_pos he

/-- With the eighth chunk the identity is stored and checked (R12). -/
theorem identClose_complete (q : IdentProgress) (h : q.chunks.all Option.isSome = true) :
    s.identClose c q = s.identityCheck c q.chunks := if_pos h

/-- An IDENT reply in an identification (R11). -/
theorem identSlot_ident (q : IdentProgress) (k : Nat) (b : Byte) :
    s.identSlot c q (.reply (.ident k b)) = s.identClose c
      { chunks := if q.prev = some (k, b) ∧ q.chunks[k]? = some none then q.chunks.set k (some b) else q.chunks
        prev := some (k, b), elapsed := q.elapsed + 1 } := rfl

/-- The identity stored names the position's own corner: the test is asked for (R12, R13). -/
theorem identityCheck_own (chunks : List (Option Byte)) {x : Identity} (hx : identityOf (chunks.map (·.getD 0)) = x)
    (hc : x.corner = c) (hroom : s.chain.queue.length < 8) :
    (s.identityCheck c chunks).cam c = { s.cam c with identity := some x, ident := none }
    ∧ (s.identityCheck c chunks).chain.queue = s.chain.queue ++ [entryFor .testStart c .bringUp] := by
  subst hx
  have heq : s.identityCheck c chunks = _ := if_pos hc
  rw [heq, cam_enqueue, cam_setCam_same, enqueue_queue _ _ (by simpa using hroom), setCam_chain]
  exact ⟨rfl, rfl⟩

/-- The identity stored names another corner: the record is FAULTED (R12, R18). -/
theorem identityCheck_misplaced (chunks : List (Option Byte)) {x : Identity}
    (hx : identityOf (chunks.map (·.getD 0)) = x) (hc : x.corner ≠ c) (hroom : s.chain.queue.length < 8)
    (hst : (s.cam c).state = .identifying) :
    (s.identityCheck c chunks).cam c = { s.cam c with
      state := .faulted, lastFault := .misplaced, identity := some x, ident := none, test := none, startPending := false }
    ∧ (s.identityCheck c chunks).chain.queue = s.chain.queue.filter (fun e => e.target ≠ some c)
    ∧ (s.identityCheck c chunks).bothRaised .camera := by
  subst hx
  have heq : s.identityCheck c chunks = _ := if_neg hc
  rw [heq]
  have hcam := cam_setCam_same s c
    { s.cam c with identity := some (identityOf (chunks.map (·.getD 0))), ident := none }
  generalize hu : s.setCam c _ = u at hcam ⊢
  have hqueue : u.chain.queue = s.chain.queue := by rw [← hu, setCam_chain]
  have hstate : (u.cam c).state = .identifying := by rw [hcam]; exact hst
  obtain ⟨fcam, -, fqueue, fraised⟩ := camFault_spec u c .misplaced
  refine ⟨?_, ?_, fraised (by simp [hstate])⟩
  · rw [fcam, if_pos rfl, hcam]
  · rw [fqueue (by rwa [hqueue]), if_neg (by simp [hstate]), hqueue, List.append_nil]

/-- A temporary fault code where the reply does nothing else: the code is kept, and an identification in progress has one
more interval and no previous reply (R11, R17). -/
theorem takeReply_temporary (code : StateCode) (f : FaultCode) (hf : f = .sensorHot ∨ f = .supplyDip ∨ f = .cmdCheck)
    (hst : (s.cam c).state = .addressed
      ∨ ((s.cam c).state = .identifying
        ∧ ∀ q, (s.cam c).ident = some q → q.elapsed < 63 ∧ q.chunks.all Option.isSome = false)
      ∨ ((s.cam c).state = .testing ∧ code ≠ .ready) ∨ ((s.cam c).state = .streaming ∧ code = .streaming)) :
    (s.takeReply c (.reply (.status code f))).cam c = { s.cam c with
        lastFault := f
        ident := if (s.cam c).state = .identifying then
            (s.cam c).ident.map (fun q => { q with prev := none, elapsed := q.elapsed + 1 })
          else (s.cam c).ident }
    ∧ (s.takeReply c (.reply (.status code f))).chain.queue = s.chain.queue
    ∧ (s.takeReply c (.reply (.status code f))).intake = s.intake
    ∧ (s.takeReply c (.reply (.status code f))).bothRaised .camera := by
  have hl : f.latched = false := by rcases hf with rfl | rfl | rfl <;> rfl
  obtain ⟨kcam, kqueue, kintake, kraised⟩ := camFaultCode_temporary s c f hf
  have hcases : (s.takeReply c (.reply (.status code f)) = s.camFaultCode c f
        ∧ ((s.cam c).state = .identifying → (s.cam c).ident = none))
      ∨ ∃ q, (s.cam c).state = .identifying ∧ (s.cam c).ident = some q
        ∧ s.takeReply c (.reply (.status code f)) = (s.camFaultCode c f).setCam c { (s.camFaultCode c f).cam c with
            ident := some { q with prev := none, elapsed := q.elapsed + 1 } } := by
    rcases hst with hst | ⟨hst, hq⟩ | ⟨hst, hcode⟩ | ⟨hst, hcode⟩
    · exact Or.inl ⟨takeReply_faultCode s c code f (Or.inl hst), by simp [hst]⟩
    · cases hid : (s.cam c).ident with
      | none => exact Or.inl ⟨takeReply_faultCode s c code f (Or.inr ⟨hst, hid⟩), fun _ => rfl⟩
      | some q =>
        obtain ⟨helapsed, hchunks⟩ := hq q hid
        refine Or.inr ⟨q, hst, rfl, ?_⟩
        rw [takeReply_identifying s c _ hst hid,
          ← identClose_goesOn _ _ { q with prev := none, elapsed := q.elapsed + 1 } hchunks (Nat.succ_lt_succ helapsed)]
        exact if_neg (by simp [hl])
    · exact Or.inl ⟨(takeReply_testing s c code f hst).trans (testSlot_notReady s c code f hl hcode), by simp [hst]⟩
    · exact Or.inl ⟨(takeReply_streaming s c code f hst).trans (if_neg (not_not.2 hcode)), by simp [hst]⟩
  rcases hcases with ⟨heq, hid⟩ | ⟨q, hst, hid, heq⟩
  · rw [heq]
    refine ⟨?_, kqueue, kintake, kraised⟩
    rw [kcam]
    split
    · rename_i h
      simp only [hid h, Option.map_none]
    · rfl
  · rw [heq]
    refine ⟨?_, ?_, ?_, setCam_keeps _ _ kraised⟩
    · rw [cam_setCam_same, kcam, if_pos hst, hid]
      rfl
    · rw [setCam_chain]
      exact kqueue
    · exact (setCam_intake_stays (s.camFaultCode c f) c _ (Or.inl (by rfl))).trans kintake

end takeReply

/-- A fault reports the position where it was STREAMING, and no other. -/
theorem departs_of_camFault {s u t : State} {c : Camera} {f : FaultCode} (hu : u.intake = s.intake)
    (hstate : (u.cam c).state = (s.cam c).state) (ht : t.intake = (u.camFault c f).intake) :
    s.departs (fun d => decide (d = c ∧ (s.cam c).state = .streaming)) t :=
  departs_of_setCam (r := { u.cam c with state := .faulted }) hu hstate (by simp) (ht.trans (camFault_intake u c f))

/-- A position that a fault takes from STREAMING has its lane READY with no frame filling (R41). -/
theorem camFault_lane {u t : State} {c : Camera} {f : FaultCode} (hstate : (u.cam c).state = .streaming)
    (ht : t.intake = (u.camFault c f).intake) : (t.lane c).busy = none ∧ (t.lane c).frame = none := by
  rw [camFault_intake, setCam_intake, if_pos ⟨hstate, by simp⟩] at ht
  have hl : t.lane c = (u.leaveStreaming c).lane c := congrArg (fun x => x.1.get c.idx) ht
  rw [hl]
  exact ⟨(leaveStreaming_arb u c).2.1, (leaveStreaming_lanes u c).1⟩

end Sys2Proof.Machine
end

section
/-! PROOFS. Replies for a position no command was sent to (R11, R12, R13, R16, R17, R18). -/

namespace Sys2Proof.Machine

section unsent
variable {c : Camera} {reply : Option (BitVec 14)} {s : State} {i : Interval}

/-- The hypotheses a reply's statement has of the position: its slot is due, no command was sent to it, the queue has room. -/
structure State.Unsent (s : State) (c : Camera) (i : Interval) : Prop where
  due : s.slotDue c i
  sent : s.chain.sentTo c = none
  room : s.chain.queue.length < 8

/-- A reply is not a third miss. -/
theorem State.Unsent.slotEnd (h : s.Unsent c i) {x : Reply} (hr : slotResultOf reply = .reply x) :
    ∃ t, exec (.slotEnd c reply) s = .next t
      ∧ s.SlotLeaves c i ((s.atSlot c i (.reply x)).takeReply c (.reply x)) t ∧ ∀ d, d ≠ c → t.cam d = s.cam d :=
  slotEnd_unsent h.due h.sent hr (thirdMiss_of_reply _ _ (by simp))

/-- A STATUS reply that faults the record (R16, R18). -/
theorem slotEnd_fault (h : s.Unsent c i) {code : StateCode} {f g : FaultCode}
    (hr : slotResultOf reply = .reply (.status code f))
    (hf : ((s.cam c).state = .streaming ∧ code ≠ .streaming ∧ g = .desync)
      ∨ (((s.cam c).state = .addressed ∨ (s.cam c).state = .identifying ∨ (s.cam c).state = .testing
          ∨ ((s.cam c).state = .streaming ∧ code = .streaming)) ∧ (f = .selftest ∨ f = .memory) ∧ g = f)) :
    ∃ t, exec (.slotEnd c reply) s = .next t ∧ s.slotDone c i t
      ∧ t.cam c = { s.cam c with
        state := .faulted, lastFault := g, missed := 0, ident := none, test := none, startPending := false }
      ∧ (∀ d, d ≠ c → t.cam d = s.cam d) ∧ t.bothRaised .camera
      ∧ t.chain.queue = s.chain.queue.filter (fun e => e.target ≠ some c) ++
        (if (s.cam c).state = .streaming then [entryFor .streamOff c .fault] else [])
      ∧ ((s.cam c).state = .streaming → (t.lane c).busy = none ∧ (t.lane c).frame = none)
      ∧ s.departs (fun d => decide (d = c ∧ (s.cam c).state = .streaming)) t := by
  obtain ⟨t, hexec, ht, hother⟩ := h.slotEnd hr
  have hcounted : (s.cam c).state.counted = true := by
    rcases hf with ⟨hst, -⟩ | ⟨hst | hst | hst | ⟨hst, -⟩, -⟩ <;> rw [hst] <;> rfl
  have hfaulted : (s.cam c).state ≠ .faulted := by
    rcases hf with ⟨hst, -⟩ | ⟨hst | hst | hst | ⟨hst, -⟩, -⟩ <;> rw [hst] <;> simp
  rw [takeReply_fault _ c code f g (by simpa using hf)] at ht
  obtain ⟨fcam, -, fqueue, fraised⟩ := camFault_spec (s.atSlot c i (.reply (.status code f))) c g
  refine ⟨t, hexec, ht.done, ?_, hother, ht.raised _ (fraised (by simpa using hfaulted)), ?_, fun hst => ?_, ?_⟩
  · rw [ht.cam, fcam, if_pos rfl, atSlot_cam_reply _ _ _ _ hcounted]
  · rw [ht.queue, fqueue (by simpa using h.room), atSlot_queue, atSlot_state]
  · exact camFault_lane (by simpa using hst) ht.intake
  · exact departs_of_camFault (atSlot_intake ..) (atSlot_state ..) ht.intake

/-- A temporary fault code is kept, and changes no state (R17). -/
theorem slotEnd_temporary (h : s.Unsent c i) {code : StateCode} {f : FaultCode}
    (hr : slotResultOf reply = .reply (.status code f)) (hf : f = .sensorHot ∨ f = .supplyDip ∨ f = .cmdCheck)
    (hst : (s.cam c).state = .addressed
      ∨ ((s.cam c).state = .identifying
        ∧ ∀ q, (s.cam c).ident = some q → q.elapsed < 63 ∧ q.chunks.all Option.isSome = false)
      ∨ ((s.cam c).state = .testing ∧ code ≠ .ready) ∨ ((s.cam c).state = .streaming ∧ code = .streaming)) :
    ∃ t, exec (.slotEnd c reply) s = .next t ∧ s.slotDone c i t
      ∧ t.cam c = { s.cam c with
        lastFault := f, missed := 0
        ident := if (s.cam c).state = .identifying then
            (s.cam c).ident.map (fun q => { q with prev := none, elapsed := q.elapsed + 1 })
          else (s.cam c).ident }
      ∧ (∀ d, d ≠ c → t.cam d = s.cam d)
      ∧ t.bothRaised .camera ∧ t.chain.queue = s.chain.queue ∧ t.lanes = s.lanes ∧ t.capture = s.capture := by
  obtain ⟨t, hexec, ht, hother⟩ := h.slotEnd hr
  have hcounted : (s.cam c).state.counted = true := by
    rcases hst with hst | ⟨hst, -⟩ | ⟨hst, -⟩ | ⟨hst, -⟩ <;> rw [hst] <;> rfl
  obtain ⟨kcam, kqueue, kintake, kraised⟩ :=
    takeReply_temporary (s.atSlot c i (.reply (.status code f))) c code f hf (by simpa using hst)
  have hblocks : t.intake = s.intake := ht.intake.trans (kintake.trans (atSlot_intake ..))
  refine ⟨t, hexec, ht.done, ?_, hother, ht.raised _ kraised, ?_, congrArg Prod.fst hblocks,
    congrArg (fun x => x.2.1) hblocks⟩
  · rw [ht.cam, kcam, atSlot_cam_reply _ _ _ _ hcounted]
  · rw [ht.queue, kqueue, atSlot_queue]

/-- READY in TESTING asks for the stream once (R13). -/
theorem slotEnd_ready (h : s.Unsent c i) {f : FaultCode} {x : TestProgress}
    (hr : slotResultOf reply = .reply (.status .ready f))
    (hf : f = .none ∨ f = .sensorHot ∨ f = .supplyDip ∨ f = .cmdCheck) (hst : (s.cam c).state = .testing)
    (hx : (s.cam c).test = some x) (hreq : x.requested = false) :
    ∃ t, exec (.slotEnd c reply) s = .next t ∧ s.slotDone c i t
      ∧ t.cam c = { s.cam c with
        lastFault := if f = .none then (s.cam c).lastFault else f, missed := 0
        test := some { x with requested := true } }
      ∧ (∀ d, d ≠ c → t.cam d = s.cam d) ∧ t.chain.queue = s.chain.queue ++ [entryFor .streamOn c .bringUp] := by
  obtain ⟨t, hexec, ht, hother⟩ := h.slotEnd hr
  have hcounted : (s.cam c).state.counted = true := by rw [hst]; rfl
  have hl : f.latched = false := by rcases hf with rfl | rfl | rfl | rfl <;> rfl
  obtain ⟨kcam, kqueue⟩ := camFaultCode_kept (s.atSlot c i (.reply (.status .ready f))) c f hf
  rw [takeReply_testing _ c .ready f (by simpa using hst), testSlot_ready _ c f hl (x := x) (by
    rw [kcam]
    simpa using hx) hreq] at ht
  refine ⟨t, hexec, ht.done, ?_, hother, ?_⟩
  · rw [ht.cam, cam_enqueue, cam_setCam_same, kcam, atSlot_cam_reply _ _ _ _ hcounted]
  · rw [ht.queue, enqueue_queue _ _ (by simpa [kqueue] using h.room), setCam_chain, kqueue, atSlot_queue]

/-- An IDENT reply that leaves a chunk missing (R11). -/
theorem slotEnd_ident (h : s.Unsent c i) {k : Nat} {b : Byte} {q : IdentProgress}
    (hr : slotResultOf reply = .reply (.ident k b)) (hst : (s.cam c).state = .identifying)
    (hq : (s.cam c).ident = some q) {chunks : List (Option Byte)}
    (hc : chunks = if q.prev = some (k, b) ∧ q.chunks[k]? = some none then q.chunks.set k (some b) else q.chunks)
    (hmissing : chunks.all Option.isSome = false) (he : q.elapsed < 63) :
    ∃ t, exec (.slotEnd c reply) s = .next t ∧ s.slotDone c i t
      ∧ t.cam c = { s.cam c with
        missed := 0, ident := some { chunks := chunks, prev := some (k, b), elapsed := q.elapsed + 1 } }
      ∧ (∀ d, d ≠ c → t.cam d = s.cam d) ∧ t.chain.queue = s.chain.queue := by
  obtain ⟨t, hexec, ht, hother⟩ := h.slotEnd hr
  have hcounted : (s.cam c).state.counted = true := by rw [hst]; rfl
  rw [takeReply_identifying _ c _ (by simpa using hst) (by simpa using hq), identSlot_ident, ← hc,
    identClose_goesOn _ _ _ hmissing (Nat.succ_lt_succ he)] at ht
  refine ⟨t, hexec, ht.done, ?_, hother, ?_⟩
  · rw [ht.cam, cam_setCam_same, atSlot_cam_reply _ _ _ _ hcounted]
  · rw [ht.queue, setCam_chain, atSlot_queue]

theorem toNat_append_byte {n : Nat} (x : BitVec n) (b : Byte) : (x ++ b).toNat = x.toNat * 256 + b.toNat := by
  rw [BitVec.toNat_append, ← Nat.shiftLeft_add_eq_or_of_lt b.isLt, Nat.shiftLeft_eq]

/-- The identity that eight chunks carry, field by field (R12). -/
theorem identityOf_bytes (b0 b1 b2 b3 b4 b5 b6 b7 : Byte) :
    identityOf [b0, b1, b2, b3, b4, b5, b6, b7]
      = { serial := b0 ++ b1 ++ b2 ++ b3, corner := cornerOfBits (b4.extractLsb' 6 2)
          lens := b4.extractLsb' 0 3, revision := b5, stamp := b6 ++ b7 } := by
  have hserial : BitVec.ofNat 32 (ofBytes [b0, b1, b2, b3]) = b0 ++ b1 ++ b2 ++ b3 := by
    apply BitVec.eq_of_toNat_eq
    have h0 := b0.isLt
    have h1 := b1.isLt
    have h2 := b2.isLt
    have h3 := b3.isLt
    simp only [toNat_append_byte, BitVec.toNat_ofNat, ofBytes, List.foldl_cons, List.foldl_nil]
    omega
  have hstamp : BitVec.ofNat 16 (b6.toNat * 256 + b7.toNat) = b6 ++ b7 := by
    apply BitVec.eq_of_toNat_eq
    have h6 := b6.isLt
    have h7 := b7.isLt
    simp only [toNat_append_byte, BitVec.toNat_ofNat]
    omega
  rw [← hserial, ← hstamp]
  rfl

/-- The IDENT reply that brings the last chunk (R12, R18). -/
theorem slotEnd_identity (h : s.Unsent c i) {k : Nat} {b : Byte} {q : IdentProgress}
    (hr : slotResultOf reply = .reply (.ident k b)) (hst : (s.cam c).state = .identifying)
    (hq : (s.cam c).ident = some q) {b0 b1 b2 b3 b4 b5 b6 b7 : Byte}
    (hc : (if q.prev = some (k, b) ∧ q.chunks[k]? = some none then q.chunks.set k (some b) else q.chunks)
      = [some b0, some b1, some b2, some b3, some b4, some b5, some b6, some b7]) :
    ∃ t id, exec (.slotEnd c reply) s = .next t ∧ s.slotDone c i t ∧ (∀ d, d ≠ c → t.cam d = s.cam d)
      ∧ id = { serial := b0 ++ b1 ++ b2 ++ b3, corner := cornerOfBits (b4.extractLsb' 6 2)
               lens := b4.extractLsb' 0 3, revision := b5, stamp := b6 ++ b7 }
      ∧ (id.corner = c →
        t.cam c = { s.cam c with missed := 0, identity := some id, ident := none }
        ∧ t.chain.queue = s.chain.queue ++ [entryFor .testStart c .bringUp])
      ∧ (id.corner ≠ c →
        t.cam c = { s.cam c with
          state := .faulted, lastFault := .misplaced, missed := 0, identity := some id, ident := none, test := none
          startPending := false }
        ∧ t.chain.queue = s.chain.queue.filter (fun e => e.target ≠ some c) ∧ t.bothRaised .camera) := by
  obtain ⟨t, hexec, ht, hother⟩ := h.slotEnd hr
  have hcounted : (s.cam c).state.counted = true := by rw [hst]; rfl
  have hid := identityOf_bytes b0 b1 b2 b3 b4 b5 b6 b7
  have hx : identityOf ([some b0, some b1, some b2, some b3, some b4, some b5, some b6, some b7].map (·.getD 0))
    = identityOf [b0, b1, b2, b3, b4, b5, b6, b7] := congrArg identityOf rfl
  rw [takeReply_identifying _ c _ (by simpa using hst) (by simpa using hq), identSlot_ident, hc,
    identClose_complete _ _ _ rfl] at ht
  generalize hu : s.atSlot c i (.reply (.ident k b)) = u at ht
  have hcam : u.cam c = { s.cam c with missed := 0 } := by rw [← hu, atSlot_cam_reply _ _ _ _ hcounted]
  have hqueue : u.chain.queue = s.chain.queue := by rw [← hu, atSlot_queue]
  refine ⟨t, identityOf [b0, b1, b2, b3, b4, b5, b6, b7], hexec, ht.done, hother, hid, fun hok => ?own, fun hno => ?other⟩
  case own =>
    obtain ⟨wcam, wqueue⟩ := identityCheck_own u c _ hx hok (by rw [hqueue]; exact h.room)
    exact ⟨by rw [ht.cam, wcam, hcam], by rw [ht.queue, wqueue, hqueue]⟩
  case other =>
    obtain ⟨wcam, wqueue, wraised⟩ := identityCheck_misplaced u c _ hx hno (by rw [hqueue]; exact h.room)
      (by rw [hcam]; exact hst)
    exact ⟨by rw [ht.cam, wcam, hcam], by rw [ht.queue, wqueue, hqueue], ht.raised _ wraised⟩

end unsent

/-- Settles O17, one kind of reply after another. -/
theorem desyncFaultsTheRecord : Obligations.DesyncFaultsTheRecord := by
  intro c reply s i hdue hsent hroom
  have h : s.Unsent c i := ⟨hdue, hsent, hroom⟩
  exact ⟨fun _ _ _ => slotEnd_fault h, fun _ _ => slotEnd_temporary h, fun _ _ => slotEnd_ready h,
    fun _ _ _ hr hst hq => ⟨slotEnd_ident h hr hst hq rfl, fun _ _ _ _ _ _ _ _ => slotEnd_identity h hr hst hq⟩⟩

end Sys2Proof.Machine
end

section
/-! PROOFS. Missed slots, and the end of the slot of a position a command was sent to (R4, R5, R10, R19). -/

namespace Sys2Proof.Machine

/-! ### The command sent to the position -/

/-- The state in which the command sent to position `c` is settled: the result counted, the entry removed (R4). -/
def State.atSettle (s : State) (c : Camera) (i : Interval) (res : SlotResult) : State := (s.atSlot c i res).popCommand

section atSettle
variable (s : State) (c : Camera) (i : Interval) (res : SlotResult)

@[simp] theorem atSettle_queue : (s.atSettle c i res).chain.queue = s.chain.queue.tail :=
  congrArg List.tail (atSlot_queue s c i res)

theorem atSettle_sansCam : (s.atSettle c i res).sansCam c = s.sansCam c :=
  (popCommand_sansCam (s.atSlot c i res) c).trans (atSlot_sansCam s c i res)

@[simp] theorem atSettle_intake : (s.atSettle c i res).intake = s.intake := atSlot_intake s c i res

end atSettle

/-- A first or second missed slot loses nothing (R19). -/
theorem thirdMiss_early {r : CamRecord} {res : SlotResult} (h : r.state.counted = true → r.missed < 2) :
    r.thirdMiss res = false := by
  cases hc : r.state.counted with
  | false => simp [CamRecord.thirdMiss, hc]
  | true =>
    have hm : ¬ 2 ≤ r.missed := not_le.2 (h hc)
    simp [CamRecord.thirdMiss, hm]

/-- A missed slot fails the command at its third attempt, and is then taken by the record's state (R4, log 13). -/
theorem slotResult_missed (s : State) (c : Camera) (e : ChainEntry) (he : s.chain.sentTo c = some e)
    (h3 : (s.cam c).thirdMiss .missed = false) :
    s.slotResult c .missed =
      (if 3 ≤ e.attempts then (s.countSlot c .missed).popCommand.commandFailed c e.func
        else s.countSlot c .missed).takeReply c .missed := by
  have hsent : (s.countSlot c .missed).chain.sentTo c = some e := by
    rw [← he]
    apply sentTo_of_queue
    rw [countSlot_eq]
  unfold State.slotResult
  simp [h3, Chain.settles, hsent, State.settleCommand]

/-- Records made ABSENT one after another. -/
theorem foldAbsent_spec (l : List Camera) : ∀ s : State,
    let t := l.foldl (fun t d => t.setCam d { t.cam d with state := .absent }) s
    t.chain.queue = s.chain.queue ∧ t.chain.interval = s.chain.interval
      ∧ ∀ d, t.cam d = if d ∈ l then { s.cam d with state := .absent } else s.cam d := by
  induction l with
  | nil => exact fun s => ⟨rfl, rfl, fun d => by simp⟩
  | cons c l ih =>
    intro s
    obtain ⟨hqueue, hinterval, hcam⟩ := ih (s.setCam c { s.cam c with state := .absent })
    refine ⟨hqueue.trans (by rw [setCam_chain]), hinterval.trans (by rw [setCam_chain]), fun d => (hcam d).trans ?_⟩
    rw [cam_setCam]
    by_cases hd : d = c
    · simp [hd]
    · simp [hd]

theorem mem_from_position (c d : Camera) : d ∈ c :: beyond c ↔ c.number ≤ d.number := by
  cases c <;> cases d <;> decide

/-- Where addressing ends the records stay, and IDENT_START joins the queue for each ADDRESSED position (R10). -/
theorem addressingDone_spec (s : State) (hroom : s.chain.queue.length ≤ 4) :
    (∀ d, s.addressingDone.cam d = s.cam d)
    ∧ s.addressingDone.chain.queue = s.chain.queue ++
      (Camera.all.filter (fun d => (s.cam d).state = .addressed)).map (fun d => entryFor .identStart d .bringUp) := by
  have hdone := addressingDone_chain s hroom
  exact ⟨fun d => by rw [State.cam, hdone]; rfl, by rw [hdone]⟩

/-- A failed ASSIGN: its position and those beyond it are ABSENT, and addressing ends (R10). -/
theorem assignFailed_spec (s : State) (c : Camera) (hroom : s.chain.queue.length ≤ 4) :
    (∀ d, (s.commandFailed c .assign).cam d =
      if c.number ≤ d.number then { s.cam d with state := .absent } else s.cam d)
    ∧ (s.commandFailed c .assign).chain.interval = s.chain.interval
    ∧ (s.commandFailed c .assign).chain.queue = s.chain.queue ++
      (Camera.all.filter (fun d => ((s.commandFailed c .assign).cam d).state = .addressed)).map
        (fun d => entryFor .identStart d .bringUp) := by
  obtain ⟨hqueue, hinterval, hcam⟩ := foldAbsent_spec (c :: beyond c) s
  have heq : s.commandFailed c .assign = State.addressingDone _ := rfl
  rw [heq]
  generalize (c :: beyond c).foldl (fun t d => t.setCam d { t.cam d with state := .absent }) s = u at *
  obtain ⟨dcam, dqueue⟩ := addressingDone_spec u (by rwa [hqueue])
  refine ⟨fun d => ?_, ?_, ?_⟩
  · rw [dcam, hcam]
    simp only [mem_from_position]
  · rw [interval_of_sansCam (addressingDone_sansCam u c), hinterval]
  · simp only [dcam, dqueue, hqueue]

/-- A failed command of the other kinds that act on a record faults it (R5). -/
theorem commandFailed_fault (s : State) (c : Camera) {f : ChainFunc}
    (hf : f = .identStart ∨ f = .testStart ∨ f = .streamOn ∨ f = .camReset) :
    s.commandFailed c f = s.camFault c .noAck := by
  rcases hf with rfl | rfl | rfl | rfl <;> rfl

/-- A failed command keeps the interval. -/
theorem commandFailed_interval (s : State) (c : Camera) (f : ChainFunc) (hroom : s.chain.queue.length ≤ 4) :
    (s.commandFailed c f).chain.interval = s.chain.interval := by
  by_cases hf : f = .assign
  · rw [hf]
    exact (assignFailed_spec s c hroom).2.1
  · exact interval_of_sansCam (commandFailed_sansCam s c f (Or.inl hf))

/-! ### The end of its slot -/

section sent
variable {c : Camera} {reply : Option (BitVec 14)} {s : State} {i : Interval} {e : ChainEntry}

/-- ACK: the entry is removed, and the command has its effect (R4). -/
theorem slotEnd_ack (h : s.slotDue c i) (he : s.chain.sentTo c = some e) (hr : slotResultOf reply = .reply .ack) :
    ∃ t, exec (.slotEnd c reply) s = .next t
      ∧ s.SlotLeaves c i ((s.atSettle c i (.reply .ack)).commandDone c e.func) t ∧ ∀ d, d ≠ c → t.cam d = s.cam d := by
  have hview : ((s.atSettle c i (.reply .ack)).commandDone c e.func).sansCam c = s.sansCam c := by
    rw [commandDone_sansCam, atSettle_sansCam]
  obtain ⟨t, hexec, ht⟩ := slotEnd_leaves h
    ((congrArg _ hr).trans ((slotResult_sent (s.runTo _) c (.reply .ack) e he (Or.inl rfl)).trans (if_pos rfl)))
    (Or.inl hview)
  exact ⟨t, hexec, ht, fun d hd => (ht.cam d).trans (cam_of_sansCam hview hd)⟩

/-- NACK, or a missed slot at the third attempt: the entry is removed, and the command has failed (R4). A missed slot goes on
to an identification in progress, where one is left. -/
theorem slotEnd_failed (h : s.slotDue c i) (he : s.chain.sentTo c = some e) (hroom : s.chain.queue.length ≤ 5)
    (hr : slotResultOf reply = .reply .nack ∨ (slotResultOf reply = .missed ∧ 3 ≤ e.attempts
      ∧ ((s.cam c).state.counted = true → (s.cam c).missed < 2))) :
    ∃ t, exec (.slotEnd c reply) s = .next t ∧ s.slotDone c i t
      ∧ ((((s.atSettle c i (slotResultOf reply)).commandFailed c e.func).cam c).state ≠ .identifying →
        s.SlotLeaves c i ((s.atSettle c i (slotResultOf reply)).commandFailed c e.func) t) := by
  have htail : s.chain.queue.tail.length ≤ 4 := by
    rw [List.length_tail]
    omega
  have hint : ∀ res, ((s.atSettle c i res).commandFailed c e.func).chain.interval = s.chain.interval := fun res => by
    rw [commandFailed_interval _ _ _ (by rwa [atSettle_queue])]
    exact interval_of_sansCam (atSettle_sansCam s c i res)
  rcases hr with hr | ⟨hr, hattempts, hmissed⟩
  · rw [hr]
    obtain ⟨t, hexec, ht⟩ := slotEnd_leaves h
      ((congrArg _ hr).trans ((slotResult_sent (s.runTo _) c (.reply .nack) e he (Or.inr rfl)).trans (if_neg (by simp))))
      (Or.inr (hint (.reply .nack)))
    exact ⟨t, hexec, ht.done, fun _ => ht⟩
  · rw [hr]
    have hres := slotResult_missed (s.runTo (i.strobeAt + 500 + 600 * c.number)) c e he (thirdMiss_early hmissed)
    rw [if_pos hattempts] at hres
    obtain ⟨t, hexec, ht⟩ := slotEnd_leaves h ((congrArg _ hr).trans hres)
      (Or.inr ((interval_of_sansCam (takeReply_sansCam _ c _)).trans (hint .missed)))
    refine ⟨t, hexec, ht.done, fun hst => ?_⟩
    rw [← takeReply_missed ((s.atSettle c i .missed).commandFailed c e.func) c (fun h => absurd h hst)]
    exact ht

/-- A missed slot before the third attempt leaves the entry at the head, and the record but for its count (R4, R19). -/
theorem slotEnd_again (h : s.slotDue c i) (he : s.chain.sentTo c = some e) (hr : slotResultOf reply = .missed)
    (ha : e.attempts < 3) (hid : (s.cam c).ident = none)
    (hm : (s.cam c).state.counted = true → (s.cam c).missed < 2) :
    ∃ t, exec (.slotEnd c reply) s = .next t ∧ s.SlotLeaves c i (s.atSlot c i .missed) t := by
  have hres := slotResult_missed (s.runTo (i.strobeAt + 500 + 600 * c.number)) c e he (thirdMiss_early hm)
  rw [if_neg (not_le.2 ha)] at hres
  exact slotEnd_leaves h ((congrArg _ hr).trans (hres.trans (takeReply_missed (s.atSlot c i .missed) c (by simp [hid]))))
    (Or.inl (atSlot_sansCam s c i .missed))

end sent

/-! ### The statement -/

/-- An ASSIGN that succeeds: the record is ADDRESSED, and the next position's ASSIGN joins the queue, or addressing ends (R10). -/
theorem assignDone_spec (s : State) (c : Camera) (hroom : s.chain.queue.length ≤ 4) :
    (s.commandDone c .assign).cam c = { s.cam c with state := .addressed }
    ∧ (∀ d, nextPosition c = some d → (s.commandDone c .assign).chain.queue = s.chain.queue ++ [assignEntry d])
    ∧ (c = .rl → (s.commandDone c .assign).chain.queue = s.chain.queue ++
      (Camera.all.filter (fun d => ((s.commandDone c .assign).cam d).state = .addressed)).map
        (fun d => entryFor .identStart d .bringUp)) := by
  have hcam := cam_setCam_same s c { s.cam c with state := .addressed }
  have hqueue : (s.setCam c { s.cam c with state := .addressed }).chain.queue = s.chain.queue := by rw [setCam_chain]
  cases hn : nextPosition c with
  | some d =>
    have heq : s.commandDone c .assign = (s.setCam c { s.cam c with state := .addressed }).enqueue (assignEntry d) := by
      simp only [State.commandDone, hn]
    rw [heq]
    refine ⟨(cam_enqueue ..).trans hcam, fun a ha => ?_, fun hc => ?_⟩
    · rw [enqueue_queue _ _ (by rw [hqueue]; omega), hqueue, Option.some.inj ha]
    · rw [hc] at hn
      cases hn
  | none =>
    have heq : s.commandDone c .assign = (s.setCam c { s.cam c with state := .addressed }).addressingDone := by
      simp only [State.commandDone, hn]
    rw [heq]
    obtain ⟨dcam, dqueue⟩ := addressingDone_spec _ (hqueue.symm ▸ hroom)
    refine ⟨(dcam c).trans hcam, fun a ha => ?_, fun _ => ?_⟩
    · cases ha
    · simp only [dcam, dqueue, hqueue]

/-- `v` is `s` with the result `res` of position `c`'s slot counted and the entry sent to it removed, as far as a command's
effect depends on it (R4, R19). -/
structure State.Settling (s : State) (c : Camera) (res : SlotResult) (v : State) : Prop where
  cam : v.cam c = { s.cam c with
    missed := if (s.cam c).state.counted then (if res = .missed then (s.cam c).missed + 1 else 0)
      else (s.cam c).missed }
  other : ∀ d, d ≠ c → v.cam d = s.cam d
  queue : v.chain.queue = s.chain.queue.tail
  intake : v.intake = s.intake
  room : v.chain.queue.length ≤ 4

theorem atSettle_settling (s : State) (c : Camera) (i : Interval) (res : SlotResult)
    (hroom : s.chain.queue.length ≤ 5) : s.Settling c res (s.atSettle c i res) where
  cam := atSlot_cam s c i res
  other _ hd := atSlot_other s c i res hd
  queue := atSettle_queue s c i res
  intake := atSettle_intake s c i res
  room := by
    rw [atSettle_queue, List.length_tail]
    omega

section settling
variable {s v t : State} {c : Camera} {i : Interval} {res : SlotResult}

/-- The slot in which an ASSIGN fails (R10). -/
theorem State.Settling.assignFailed (hv : s.Settling c res v) (ht : s.SlotLeaves c i (v.commandFailed c .assign) t) :
    (∀ d : Camera, c.number ≤ d.number → (t.cam d).state = .absent)
    ∧ (∀ d : Camera, d.number < c.number → t.cam d = s.cam d)
    ∧ t.chain.queue = s.chain.queue.tail ++
      (Camera.all.filter (fun d => (t.cam d).state = .addressed)).map (fun d => entryFor .identStart d .bringUp) := by
  obtain ⟨fcam, -, fqueue⟩ := assignFailed_spec v c hv.room
  refine ⟨fun d hd => ?_, fun d hd => ?_, ?_⟩
  · rw [ht.cam, fcam, if_pos hd]
  · rw [ht.cam, fcam, if_neg (not_le.2 hd), hv.other d (by rintro rfl; exact lt_irrefl _ hd)]
  · simp only [ht.cam, ht.queue, fqueue, hv.queue]

/-- The slot in which a command's failure faults the record (R5, R18). -/
theorem State.Settling.fault (hv : s.Settling c res v) (ht : s.SlotLeaves c i (v.camFault c .noAck) t) :
    (t.cam c).state = .faulted ∧ (t.cam c).lastFault = .noAck ∧ (t.cam c).ident = none ∧ (t.cam c).test = none
    ∧ (t.cam c).startPending = false ∧ (t.cam c).identity = (s.cam c).identity
    ∧ (∀ d, d ≠ c → t.cam d = s.cam d) ∧ ((s.cam c).state ≠ .faulted → t.bothRaised .camera)
    ∧ s.departs (fun d => decide (d = c ∧ (s.cam c).state = .streaming)) t
    ∧ t.chain.queue = s.chain.queue.tail.filter (fun x => x.target ≠ some c) ++
      (if (s.cam c).state = .streaming then [entryFor .streamOff c .fault] else []) := by
  obtain ⟨fcam, -, fqueue, fraised⟩ := camFault_spec v c .noAck
  have hstate : (v.cam c).state = (s.cam c).state := by rw [hv.cam]
  have hrec : t.cam c = _ := (ht.cam c).trans ((fcam c).trans (if_pos rfl))
  refine ⟨by rw [hrec], by rw [hrec], by rw [hrec], by rw [hrec], by rw [hrec], by rw [hrec, hv.cam], fun d hd => ?_,
    fun hne => ht.raised _ (fraised (by rwa [hstate])), departs_of_camFault hv.intake hstate ht.intake, ?_⟩
  · rw [ht.cam, fcam, if_neg hd, hv.other d hd]
  · rw [ht.queue, fqueue (Nat.lt_of_le_of_lt hv.room (by decide)), hv.queue, hstate]

end settling

/-- A STREAM_ON that succeeds leaves its stream start pending in TESTING, and nothing else changes (R14). -/
theorem streamOnDone_spec (s : State) (c : Camera) :
    (s.commandDone c .streamOn).cam c = { s.cam c with
      startPending := if (s.cam c).state = .testing then true else (s.cam c).startPending }
    ∧ (s.commandDone c .streamOn).chain.queue = s.chain.queue := by
  unfold State.commandDone
  dsimp only
  split
  · exact ⟨cam_setCam_same .., by rw [setCam_chain]⟩
  · exact ⟨rfl, rfl⟩

/-- Settles O16: the two slots of a position no command was sent to, and the three ends of a command's slot. -/
theorem slotEndCountsMissedSlots : Obligations.SlotEndCountsMissedSlots := by
  intro c reply s i h
  refine ⟨fun hs => ⟨fun hst hr => ?status, fun hc hid hm hr => ?missed⟩,
    fun e he hroom => ⟨fun hr => ?ack, fun hr => ?failed, fun hr ha hid hm => ?again⟩⟩
  case status =>
    obtain ⟨t, hexec, ht, hother⟩ := slotEnd_unsent h hs hr (thirdMiss_of_reply _ _ (by simp))
    rw [takeReply_streaming _ c .streaming .none (by simpa using hst)] at ht
    have hblocks : t.intake = s.intake := ht.intake.trans (atSlot_intake ..)
    refine ⟨t, hexec, ht.done, ?_, hother, ht.queue.trans (atSlot_queue ..), congrArg Prod.fst hblocks,
      congrArg (fun x => x.2.1) hblocks⟩
    exact (ht.cam c).trans (atSlot_cam_reply _ _ _ _ (by rw [hst]; rfl))
  case missed =>
    obtain ⟨t, hexec, ht, hother⟩ := slotEnd_unsent h hs hr (thirdMiss_early (fun _ => hm))
    rw [takeReply_missed _ c (by simp [hid])] at ht
    have hblocks : t.intake = s.intake := ht.intake.trans (atSlot_intake ..)
    refine ⟨t, hexec, ht.done, ?_, hother, ht.queue.trans (atSlot_queue ..), congrArg Prod.fst hblocks,
      congrArg (fun x => x.2.1) hblocks⟩
    rw [ht.cam, atSlot_cam, if_pos hc, if_pos rfl]
  case again =>
    obtain ⟨t, hexec, ht⟩ := slotEnd_again h he hr ha hid hm
    refine ⟨t, hexec, ht.done, ?_, fun d hd => (ht.cam d).trans (atSlot_other s c i _ hd), ht.queue.trans (atSlot_queue ..)⟩
    rw [ht.cam, atSlot_cam, if_pos rfl]
  case ack =>
    obtain ⟨t, hexec, ht, hother⟩ := slotEnd_ack h he hr
    obtain ⟨hcam, -, hqueue, -, htail⟩ := atSettle_settling s c i (.reply .ack) hroom
    rw [if_neg (show ¬ SlotResult.reply .ack = .missed by simp)] at hcam
    refine ⟨t, hexec, ht.done, hother, ?_⟩
    obtain ⟨-, tcam, tqueue, -, -, tnow⟩ := ht
    generalize s.atSettle c i (.reply .ack) = v at *
    cases hf : e.func with
    | assign =>
      rw [hf] at tcam tqueue
      obtain ⟨dcam, dnext, dlast⟩ := assignDone_spec v c htail
      refine ⟨?_, fun d hd => ?_, fun hc => ?_⟩
      · rw [tcam, dcam, hcam]
      · rw [tqueue, dnext d hd, hqueue]
      · simp only [tcam, tqueue, dlast hc, hqueue]
    | identStart =>
      rw [hf] at tcam tqueue
      refine ⟨(tcam c).trans ((cam_setCam_same ..).trans (by rw [hcam])), tqueue.trans ?_⟩
      rw [State.commandDone, setCam_chain]
      exact hqueue
    | testStart =>
      rw [hf] at tcam tqueue tnow
      have hnow : t.now = v.now := tnow.trans (now_of_sansPipe (setCam_sansPipe ..))
      refine ⟨(tcam c).trans ((cam_setCam_same ..).trans (by rw [hcam, hnow])), tqueue.trans ?_⟩
      rw [State.commandDone, setCam_chain]
      exact hqueue
    | streamOn =>
      rw [hf] at tcam tqueue
      obtain ⟨dcam, dqueue⟩ := streamOnDone_spec v c
      refine ⟨?_, tqueue.trans (dqueue.trans hqueue)⟩
      rw [tcam, dcam, hcam]
    | camReset =>
      rw [hf] at tcam tqueue
      refine ⟨(tcam c).trans ((cam_enqueue ..).trans hcam), tqueue.trans ?_⟩
      rw [State.commandDone, enqueue_queue _ _ (by omega), hqueue]
    | streamOff =>
      rw [hf] at tcam tqueue
      exact ⟨(tcam c).trans hcam, tqueue.trans hqueue⟩
    | chainReset =>
      rw [hf] at tcam tqueue
      exact ⟨(tcam c).trans hcam, tqueue.trans hqueue⟩
  case failed =>
    obtain ⟨t, hexec, hdone, hleaves⟩ := slotEnd_failed h he hroom hr
    have hv := atSettle_settling s c i (slotResultOf reply) hroom
    refine ⟨t, hexec, hdone, fun hf => ?absent, fun hf => ?fault, fun hf hst => ?off⟩
    all_goals generalize s.atSettle c i (slotResultOf reply) = v at *
    case absent =>
      rw [hf] at hleaves
      exact hv.assignFailed (hleaves (by rw [(assignFailed_spec v c hv.room).1, if_pos le_rfl]; simp))
    case fault =>
      rw [commandFailed_fault v c hf] at hleaves
      exact hv.fault (hleaves (by rw [(camFault_spec v c .noAck).1, if_pos rfl]; simp))
    case off =>
      rw [hf] at hleaves
      have ht := hleaves (by rw [State.commandFailed, hv.cam]; simp [hst])
      refine ⟨?_, fun d hd => (ht.cam d).trans (hv.other d hd), ht.queue.trans hv.queue⟩
      rw [(ht.cam c).trans hv.cam, if_pos (show (s.cam c).state.counted = true by rw [hst]; rfl)]

end Sys2Proof.Machine
end

section
/-! PROOFS. Losses, the chain break test at the last slot, and the two timeouts (R11, R13, R19 to R22). -/

namespace Sys2Proof.Machine

@[simp] theorem cam_runTo (s : State) (n : Nat) (d : Camera) : (s.runTo n).cam d = s.cam d := rfl

/-! ### The third missed slot -/

/-- A loss: the record, the queue and the interval (R19, R20). -/
theorem camLost_chain (s : State) (c : Camera) :
    (s.camLost c).chain = { s.chain with
      table := s.chain.table.set c.idx
        { s.cam c with state := .lost, missed := 3, ident := none, test := none, startPending := false }
      queue := s.chain.queue.filter (fun e => !(e.target == some c))
      interval := s.chain.interval.map (fun i => i.lose c) } := by
  unfold State.camLost
  dsimp only
  rw [setCam_chain]
  rfl

theorem camLost_cam (s : State) (c d : Camera) :
    (s.camLost c).cam d = if d = c then
      { s.cam c with state := .lost, missed := 3, ident := none, test := none, startPending := false } else s.cam d := by
  unfold State.camLost
  dsimp only
  rw [cam_setCam]
  rfl

theorem camLost_raises (s : State) (c : Camera) (h : (s.cam c).state ≠ .lost) : (s.camLost c).bothRaised .camera :=
  setCam_raises _ c _ (fun e => h e.symm)

theorem camLost_departs (s : State) (c : Camera) {t : State} (ht : t.intake = (s.camLost c).intake) :
    s.departs (fun d => decide (d = c ∧ (s.cam c).state = .streaming)) t := by
  unfold State.camLost at ht
  refine departs_of_setCam ?_ ?_ ?_ ht
  · rfl
  · rfl
  · simp

theorem slotResult_third (s : State) (c : Camera) (res : SlotResult) (h : (s.cam c).thirdMiss res = true) :
    s.slotResult c res = s.camLost c := if_pos h

/-! ### The chain break test -/

/-- An automatic rebuild is allowed while its enable is on, no bring-up is in flight and none was recorded in the last
10,000 ms (R21). -/
theorem autoRebuildAllowed_iff (s : State) :
    s.autoRebuildAllowed = true ↔ s.chain.autoRebuild = true ∧ s.chain.phase.inFlight = false
      ∧ ∀ at0, s.chain.lastAuto = some at0 → at0 + 10000000 ≤ s.now := by
  unfold State.autoRebuildAllowed
  have hms : 10000 * Config.ms = 10000000 := rfl
  cases s.chain.lastAuto with
  | none => simp
  | some at0 => simp [hms, and_assoc]

/-- The state in which a chain break is recognised at a position: its record, and CHAIN raised (R20). -/
def State.broken (s : State) (k : Camera) : State :=
  { s with chain := { s.chain with lastBreak := some k } }.raiseBoth .chain

/-- The break test: without a break nothing changes; a break is recorded, and starts a rebuild where one is allowed. -/
theorem breakTest_cases (s : State) :
    (s.chain.interval.bind Interval.breakAt = none ∧ s.breakTest = s)
    ∨ ∃ k, s.chain.interval.bind Interval.breakAt = some k
      ∧ ((s.autoRebuildAllowed = true ∧ s.breakTest =
            ({ s.broken k with chain := { (s.broken k).chain with lastAuto := some s.now } } : State).rebuild)
        ∨ (s.autoRebuildAllowed = false ∧ s.breakTest = s.broken k)) := by
  cases hk : s.chain.interval.bind Interval.breakAt with
  | none => exact Or.inl ⟨rfl, breakTest_none s hk⟩
  | some k =>
    refine Or.inr ⟨k, rfl, ?_⟩
    have hallowed : (s.broken k).autoRebuildAllowed = s.autoRebuildAllowed := rfl
    have heq : s.breakTest = if (s.broken k).autoRebuildAllowed then
        ({ s.broken k with chain := { (s.broken k).chain with lastAuto := some s.now } } : State).rebuild
        else s.broken k := by
      unfold State.breakTest
      rw [hk]
      rfl
    rw [heq, hallowed]
    cases s.autoRebuildAllowed
    · exact Or.inr ⟨rfl, rfl⟩
    · exact Or.inl ⟨rfl, rfl⟩

/-- A slot that starts no rebuild leaves the records, the queue and the pipeline's blocks as its result leaves them. -/
theorem afterSlot_noRebuild (s : State) (c : Camera) (h : c ≠ .rl ∨ s.chain.autoRebuild = false) :
    (∀ d, (s.afterSlot c).cam d = s.cam d) ∧ (s.afterSlot c).chain.queue = s.chain.queue
    ∧ (s.afterSlot c).intake = s.intake ∧ ∀ k, s.bothRaised k → (s.afterSlot c).bothRaised k := by
  have settled : ∀ u : State, u.chain.table = s.chain.table → u.chain.queue = s.chain.queue → u.intake = s.intake →
      (∀ k, s.bothRaised k → u.bothRaised k) →
      (∀ d, u.chainSettle.cam d = s.cam d) ∧ u.chainSettle.chain.queue = s.chain.queue
      ∧ u.chainSettle.intake = s.intake ∧ ∀ k, s.bothRaised k → u.chainSettle.bothRaised k := by
    intro u htable hqueue hintake hraised
    obtain ⟨f, hf⟩ := chainSettle_chain u
    refine ⟨fun d => ?_, ?_, (chainSettle_intake u).trans hintake, fun k hk => chainSettle_keeps (hraised k hk)⟩
    · rw [cam_chainSettle, State.cam, htable]
      rfl
    · rw [hf]
      exact hqueue
  unfold State.afterSlot
  dsimp only
  split
  · rename_i hc
    have hoff : s.chain.autoRebuild = false := h.resolve_left (fun hn => hn hc)
    rcases breakTest_cases { s with chain := { s.chain with interval := s.chain.interval.map Interval.slotOver } }
      with ⟨-, heq⟩ | ⟨k, -, ⟨hallowed, -⟩ | ⟨-, heq⟩⟩
    · rw [heq]
      exact settled _ rfl rfl rfl (fun _ hk => hk)
    · rw [((autoRebuildAllowed_iff _).1 hallowed).1] at hoff
      cases hoff
    · rw [heq]
      exact settled _ rfl rfl rfl (fun _ hk => raiseBoth_keeps _ hk)
  · exact settled _ rfl rfl rfl (fun _ hk => hk)

theorem exec_cameraLost {c : Camera} {s : State} (h : (s.cam c).state.counted = true) (hm : 2 ≤ (s.cam c).missed) :
    exec (.cameraLost c) s = exec (.slotEnd c none) s := by
  have h3 : (s.cam c).thirdMiss .missed = true := by simp [CamRecord.thirdMiss, h, hm]
  exact if_pos h3

/-- SLOT_END of the next slot of the interval in progress. -/
theorem exec_slotEnd {c : Camera} {s : State} {i : Interval} (reply : Option (BitVec 14)) (hi : s.chain.interval = some i)
    (hc : i.slotsLeft.head? = some c) :
    exec (.slotEnd c reply) s
      = .next (((s.runTo (i.strobeAt + 500 + 600 * c.number)).slotResult c (slotResultOf reply)).afterSlot c) := by
  simp only [exec, execSlotEnd, State.endSlot, hi, hc, if_true, Interval.slotTime]

/-- Settles O18: the slot's result is the loss, and its end starts no rebuild. -/
theorem thirdMissedSlotLosesTheCamera : Obligations.ThirdMissedSlotLosesTheCamera := by
  intro c s i hi hc hcounted hmissed hrebuild
  have h3 : (s.cam c).thirdMiss .missed = true := by simp [CamRecord.thirdMiss, hcounted, hmissed]
  have hexec := (exec_cameraLost hcounted (le_of_eq hmissed.symm)).trans (exec_slotEnd none hi hc)
  rw [show slotResultOf none = .missed from rfl, slotResult_third (s.runTo _) c .missed h3] at hexec
  have hview : (((s.runTo (i.strobeAt + 500 + 600 * c.number)).camLost c).afterSlot c).sansPipe
      = (s.runTo (i.strobeAt + 500 + 600 * c.number)).sansPipe := by simp
  have hlost : ∀ d, ((s.runTo (i.strobeAt + 500 + 600 * c.number)).camLost c).cam d = _ := camLost_cam _ c
  have hqueue : ((s.runTo (i.strobeAt + 500 + 600 * c.number)).camLost c).chain.queue = _ :=
    congrArg Chain.queue (camLost_chain _ c)
  obtain ⟨acam, aqueue, aintake, araised⟩ := afterSlot_noRebuild
    ((s.runTo (i.strobeAt + 500 + 600 * c.number)).camLost c) c (by rw [camLost_chain]; exact hrebuild)
  have hrec := (acam c).trans ((hlost c).trans (if_pos rfl))
  refine ⟨_, hexec, pipeOnly_of_sansPipe hview, by rw [hrec], by rw [hrec], by rw [hrec]; rfl, fun d hd => ?_,
    araised _ (camLost_raises _ c ?_), ?_, ?_⟩
  · exact (acam d).trans ((hlost d).trans (if_neg hd))
  · intro hl
    rw [show (s.cam c).state = .lost from hl] at hcounted
    cases hcounted
  · exact departs_congr (u := s.runTo _) rfl rfl (camLost_departs (s.runTo _) c aintake)
  · intro e he
    rw [aqueue, hqueue] at he
    simpa using (List.mem_filter.1 he).2

/-! ### The timeouts -/

/-- The 64th interval of an identification with a chunk missing, whose slot is missed (R11). -/
theorem identTimeout_faults {c : Camera} {s : State} {reply : Option (BitVec 14)} {i : Interval} {q : IdentProgress}
    (h : s.slotDue c i) (hs : s.chain.sentTo c = none) (hst : (s.cam c).state = .identifying)
    (hq : (s.cam c).ident = some q) (he : q.elapsed = 63) (hchunks : q.chunks.all Option.isSome = false)
    (hm : (s.cam c).missed < 2) (hr : slotResultOf reply = .missed) :
    ∃ t, exec (.identTimeout c reply) s = .next t ∧ (s.runTo (i.strobeAt + 500 + 600 * c.number)).pipeOnly t
      ∧ (t.cam c).state = .faulted ∧ (t.cam c).lastFault = .identTimeout ∧ (t.cam c).ident = none
      ∧ (∀ d, d ≠ c → t.cam d = s.cam d) ∧ t.bothRaised .camera := by
  have hexec : exec (.identTimeout c reply) s = exec (.slotEnd c reply) s := by
    simp only [exec, execIdentTimeout, hst, hq, he, if_true, execSlotEnd]
  obtain ⟨t, hend, ht, hother⟩ := slotEnd_unsent h hs hr (thirdMiss_early (fun _ => hm))
  have hslot : (s.atSlot c i .missed).identSlot c q .missed
    = (s.atSlot c i .missed).identClose c { q with prev := none, elapsed := q.elapsed + 1 } := rfl
  have hclose := identClose_timeout (s.atSlot c i .missed) c { q with prev := none, elapsed := q.elapsed + 1 } hchunks
    (by rw [he])
  rw [takeReply_identifying _ c _ (by simpa using hst) (by simpa using hq), hslot, hclose] at ht
  have hstate := congrArg CamRecord.state (cam_setCam_same (s.atSlot c i .missed) c
    { (s.atSlot c i .missed).cam c with ident := some { q with prev := none, elapsed := q.elapsed + 1 } })
  generalize (s.atSlot c i .missed).setCam c _ = u at ht hstate
  obtain ⟨fcam, -, -, fraised⟩ := camFault_spec u c .identTimeout
  have hrec := (ht.cam c).trans ((fcam c).trans (if_pos rfl))
  refine ⟨t, hexec.trans hend, ht.done.1, by rw [hrec], by rw [hrec], by rw [hrec], hother, ht.raised _ (fraised ?_)⟩
  simp [hstate, hst]

/-- The test timer of a record in TESTING: a fault, unless the stream has been requested (R13). -/
theorem exec_testTimerExpiry {c : Camera} {s : State} {x : TestProgress} (hst : (s.cam c).state = .testing)
    (hx : (s.cam c).test = some x) :
    exec (.testTimerExpiry c) s = .next (if x.requested then s.runTo (x.start + 2000000)
      else ((s.runTo (x.start + 2000000)).camFault c .testTimeout).chainSettle) := by
  have hms : 2000 * Config.ms = 2000000 := rfl
  simp only [exec, execTestTimerExpiry, hst, hx, hms]
  split <;> rfl

theorem testTimeout_faults {c : Camera} {s : State} {x : TestProgress} (hst : (s.cam c).state = .testing)
    (hx : (s.cam c).test = some x) (hreq : x.requested = false) :
    ∃ t, exec (.testTimerExpiry c) s = .next t ∧ (s.runTo (x.start + 2000000)).pipeOnly t
      ∧ (t.cam c).state = .faulted ∧ (t.cam c).lastFault = .testTimeout ∧ (t.cam c).test = none
      ∧ (∀ d, d ≠ c → t.cam d = s.cam d) ∧ t.bothRaised .camera := by
  have hexec := exec_testTimerExpiry hst hx
  have hcam : ∀ d, (s.runTo (x.start + 2000000)).cam d = s.cam d := fun d => cam_runTo s _ d
  rw [hreq, if_neg Bool.false_ne_true] at hexec
  generalize s.runTo (x.start + 2000000) = u at *
  obtain ⟨fcam, -, -, fraised⟩ := camFault_spec u c .testTimeout
  have hrec := (cam_chainSettle _ c).trans ((fcam c).trans (if_pos rfl))
  refine ⟨_, hexec, pipeOnly_of_sansPipe (by simp), by rw [hrec], by rw [hrec], by rw [hrec], fun d hd => ?_,
    chainSettle_keeps (fraised ?_)⟩
  · exact (cam_chainSettle _ d).trans ((fcam d).trans ((if_neg hd).trans (hcam d)))
  · simp [hcam, hst]

/-- Settles O20: the 64th interval faults the record at the slot's end, and the test timer at its expiry. -/
theorem timeoutsFaultTheRecord : Obligations.TimeoutsFaultTheRecord := by
  intro c s
  refine ⟨fun reply i q hi hc hl => identTimeout_faults ⟨hi, hc, hl⟩, fun x => testTimeout_faults,
    fun x hst hx hreq => ?_⟩
  rw [exec_testTimerExpiry hst hx, if_pos hreq]

end Sys2Proof.Machine
end

section
/-! PROOFS. The last slot of an interval: which position a chain break is recognised at, and what it starts (R20 to R22). -/

namespace Sys2Proof.Machine

/-! ### The position of a break -/

theorem forall_camera {P : Camera → Prop} : (∀ c, P c) ↔ P .fl ∧ P .fr ∧ P .rr ∧ P .rl :=
  ⟨fun h => ⟨h .fl, h .fr, h .rr, h .rl⟩, fun ⟨h1, h2, h3, h4⟩ c => by cases c <;> assumption⟩

/-- The first camera of a kind in position order is the lowest. -/
theorem find_camera (f : Camera → Bool) (k : Camera) :
    Camera.all.find? f = some k ↔ f k = true ∧ ∀ c : Camera, c.number < k.number → f c = false := by
  rw [forall_camera]
  cases k <;> simp [Camera.all, Camera.number, List.find?_cons] <;> grind

/-- The positions beyond a position are those of higher number. -/
theorem mem_beyond (k c : Camera) : c ∈ beyond k ↔ k.number < c.number := by
  cases k <;> cases c <;> decide

/-- A chain break is recognised at the lowest position lost, where every counted position beyond it was lost too (R20). -/
theorem breakAt_iff (i : Interval) (k : Camera) :
    i.breakAt = some k ↔ i.lostNow.get k.idx = true
      ∧ (∀ c : Camera, c.number < k.number → i.lostNow.get c.idx = false)
      ∧ ∀ c : Camera, k.number < c.number → i.counted.get c.idx = true → i.lostNow.get c.idx = true := by
  have hbeyond : (beyond k).all (fun c => !i.counted.get c.idx || i.lostNow.get c.idx) = true
      ↔ ∀ c : Camera, k.number < c.number → i.counted.get c.idx = true → i.lostNow.get c.idx = true := by
    simp only [List.all_eq_true, mem_beyond, Bool.or_eq_true, Bool.not_eq_true', ← Bool.not_eq_true, imp_iff_not_or]
  rw [← hbeyond, ← and_assoc, ← find_camera (fun c => i.lostNow.get c.idx) k]
  unfold Interval.breakAt
  cases Camera.all.find? (fun c => i.lostNow.get c.idx) with
  | none => simp
  | some j =>
    dsimp only
    split
    · rename_i h
      constructor
      · intro hj
        exact ⟨hj, by rwa [← Option.some.inj hj]⟩
      · exact fun hj => hj.1
    · rename_i h
      constructor
      · intro hj
        cases hj
      · rintro ⟨hj, hall⟩
        rw [← Option.some.inj hj] at hall
        exact absurd hall h

/-! ### What follows the break test -/

/-- The bring-up settles only while it is in flight. -/
theorem chainSettle_idle (s : State) (h : s.chain.phase.inFlight = false) : s.chainSettle = s := by
  unfold State.chainSettle
  rw [if_neg]
  rintro ⟨hphase, -⟩
  rw [hphase] at h
  cases h

/-- A bring-up with a record unsettled does not settle (R15). -/
theorem chainSettle_unsettled (s : State) (c : Camera) (h : (s.cam c).state.settled = false) : s.chainSettle = s := by
  unfold State.chainSettle
  rw [if_neg]
  rintro ⟨-, hall, -⟩
  have hc := List.all_eq_true.1 hall (s.cam c) ((Quad.mem_toList _ _).2 ⟨c.idx, rfl⟩)
  rw [h] at hc
  cases hc

/-- A rebuild keeps the notices raised. -/
theorem rebuild_keeps {s : State} {k : NoticeKind} (h : s.bothRaised k) : s.rebuild.bothRaised k := by
  have fold : ∀ (l : List Camera) (t : State), t.bothRaised k →
      (l.foldl (fun t c => t.setCam c (t.cam c).unaddress) t).bothRaised k := by
    intro l
    induction l with
    | nil => exact fun _ h => h
    | cons c l ih => exact fun t h => ih _ (setCam_keeps _ _ h)
  have hall : ({ s with chain := { s.chain with queue := [] } } : State).unaddressAll.bothRaised k :=
    fold Camera.all _ h
  unfold State.rebuild
  generalize State.unaddressAll _ = u at hall ⊢
  exact hall

/-- The result of the last slot changes its own record, the queue and the losses of the interval, and nothing else of the
chain. -/
theorem slotResult_last (s : State) (res : SlotResult) {i j : Interval} (hi : s.chain.interval = some i)
    (hj : j = if (s.cam .rl).thirdMiss res then { i with lostNow := i.lostNow.set Camera.rl.idx true } else i) :
    (s.slotResult .rl res).sansCam .rl
      = ({ s with chain := { s.chain with interval := some j } } : State).sansCam .rl := by
  cases h3 : (s.cam .rl).thirdMiss res with
  | true =>
    rw [h3, if_pos rfl] at hj
    rw [slotResult_third s .rl res h3, State.sansCam, camLost_chain]
    simp [State.sansCam, hi, hj, Interval.lose]
  | false =>
    rw [h3, if_neg Bool.false_ne_true] at hj
    rw [slotResult_sansCam s .rl res h3 (fun _ _ => Or.inr rfl), hj, ← hi]

/-- The end of the last slot, after a result that leaves the interval `j` (R15, R20, R21). -/
theorem afterSlot_last (u : State) {j : Interval} (hj : u.chain.interval = some j) :
    (j.breakAt = none →
      (u.afterSlot .rl).chain.lastBreak = u.chain.lastBreak ∧ (u.afterSlot .rl).chain.lastAuto = u.chain.lastAuto
      ∧ (u.chain.phase.inFlight = false → (u.afterSlot .rl).chain.phase = u.chain.phase))
    ∧ ∀ k, j.breakAt = some k →
      (u.afterSlot .rl).chain.lastBreak = some k ∧ (u.afterSlot .rl).bothRaised .chain
      ∧ (u.autoRebuildAllowed = true →
        (u.afterSlot .rl).chain.lastAuto = some u.now ∧ (u.afterSlot .rl).chain.phase = .bringingUp
        ∧ (u.afterSlot .rl).chain.queue = [chainResetEntry] ∧ ∀ c, ((u.afterSlot .rl).cam c).state = .unaddressed)
      ∧ (u.autoRebuildAllowed = false →
        (u.afterSlot .rl).chain.lastAuto = u.chain.lastAuto
        ∧ (u.chain.phase.inFlight = false → (u.afterSlot .rl).chain.phase = u.chain.phase)
        ∧ ∀ c, (u.afterSlot .rl).cam c = u.cam c) := by
  have heq : u.afterSlot .rl
      = ({ u with chain := { u.chain with interval := some j.slotOver } } : State).breakTest.chainSettle := by
    unfold State.afterSlot
    rw [hj]
    rfl
  have hallowed : ({ u with chain := { u.chain with interval := some j.slotOver } } : State).autoRebuildAllowed
    = u.autoRebuildAllowed := rfl
  have hbreak : ({ u with chain := { u.chain with interval := some j.slotOver } } : State).chain.interval.bind
    Interval.breakAt = j.breakAt := rfl
  have settled : ∀ v : State, v.chainSettle.chain.lastBreak = v.chain.lastBreak
      ∧ v.chainSettle.chain.lastAuto = v.chain.lastAuto
      ∧ (v.chain.phase.inFlight = false → v.chainSettle.chain.phase = v.chain.phase) := fun v => by
    obtain ⟨f, hf⟩ := chainSettle_chain v
    exact ⟨by rw [hf], by rw [hf], fun h => by rw [chainSettle_idle v h]⟩
  rw [heq]
  rcases breakTest_cases ({ u with chain := { u.chain with interval := some j.slotOver } } : State)
    with ⟨hnone, htest⟩ | ⟨k, hk, hrest⟩
  · rw [hbreak] at hnone
    rw [htest]
    refine ⟨fun _ => settled _, fun k hk => ?_⟩
    rw [hnone] at hk
    cases hk
  · rw [hbreak] at hk
    refine ⟨fun hnone => ?_, fun k' hk' => ?_⟩
    · rw [hk] at hnone
      cases hnone
    · obtain rfl : k = k' := Option.some.inj (hk.symm.trans hk')
      rcases hrest with ⟨ha, htest⟩ | ⟨ha, htest⟩
      · rw [hallowed] at ha
        rw [htest, chainSettle_unsettled _ .fl (by rw [rebuild_cam]; rfl), rebuild_chain]
        refine ⟨rfl, rebuild_keeps (raiseBoth_bothRaised _ _), fun _ => ⟨rfl, rfl, rfl, fun c => ?_⟩, fun hn => ?_⟩
        · rw [rebuild_cam]
          rfl
        · rw [ha] at hn
          cases hn
      · rw [hallowed] at ha
        rw [htest]
        obtain ⟨hb, hauto, hphase⟩ :=
          settled (State.broken { u with chain := { u.chain with interval := some j.slotOver } } k)
        refine ⟨hb, chainSettle_keeps (raiseBoth_bothRaised _ _), fun hn => ?_, fun _ => ⟨hauto, hphase, fun c => ?_⟩⟩
        · rw [ha] at hn
          cases hn
        · exact cam_chainSettle _ c

/-- Settles O21: the position of a break, the last slot's end, and CAMERA_LOST as the slot itself. -/
theorem chainBreakIsTheLowestLoss : Obligations.ChainBreakIsTheLowestLoss := by
  refine ⟨breakAt_iff, fun reply s i hi hc => ?_, fun c s => exec_cameraLost⟩
  intro j
  have hexec := exec_slotEnd reply hi hc
  rw [show i.strobeAt + 500 + 600 * Camera.rl.number = i.strobeAt + 2900 from rfl] at hexec
  have hview : (((s.runTo (i.strobeAt + 2900)).slotResult .rl (slotResultOf reply)).afterSlot .rl).sansPipe
      = (s.runTo (i.strobeAt + 2900)).sansPipe := by simp
  have hchain := slotResult_last (s.runTo (i.strobeAt + 2900)) (slotResultOf reply) hi (j := j) rfl
  have hnow : ((s.runTo (i.strobeAt + 2900)).slotResult .rl (slotResultOf reply)).now
      = (((s.runTo (i.strobeAt + 2900)).slotResult .rl (slotResultOf reply)).afterSlot .rl).now :=
    (now_of_sansPipe (afterSlot_sansPipe _ .rl)).symm
  have hother : ∀ c, c ≠ .rl → ((s.runTo (i.strobeAt + 2900)).slotResult .rl (slotResultOf reply)).cam c = s.cam c :=
    fun c hc => (cam_of_sansCam hchain hc).trans (cam_runTo s _ c)
  generalize (s.runTo (i.strobeAt + 2900)).slotResult .rl (slotResultOf reply) = u at *
  have hbreak : u.chain.lastBreak = s.chain.lastBreak := (congrArg Chain.lastBreak hchain :)
  have hauto : u.chain.lastAuto = s.chain.lastAuto := (congrArg Chain.lastAuto hchain :)
  have hphase : u.chain.phase = s.chain.phase := (congrArg Chain.phase hchain :)
  have henable : u.chain.autoRebuild = s.chain.autoRebuild := (congrArg Chain.autoRebuild hchain :)
  obtain ⟨hnone, hsome⟩ := afterSlot_last u (congrArg Chain.interval hchain :)
  have hallowed := autoRebuildAllowed_iff u
  rw [hauto, hphase, henable, hnow] at hallowed
  rw [hbreak, hauto, hphase] at hnone
  refine ⟨u.afterSlot .rl, hexec, pipeOnly_of_sansPipe hview, hnone, fun k hk => ?_⟩
  obtain ⟨hlast, hraised, hrebuild, hstay⟩ := hsome k hk
  rw [hauto, hphase] at hstay
  rw [hnow] at hrebuild
  refine ⟨hlast, hraised, fun h1 h2 h3 => hrebuild (hallowed.2 ⟨h1, h2, h3⟩), fun hno => ?_⟩
  have hnot : u.autoRebuildAllowed = false := by
    rw [← Bool.not_eq_true, hallowed]
    rintro ⟨h1, h2, h3⟩
    rcases hno with h | h | ⟨at0, h, hlt⟩
    · rw [h1] at h
      cases h
    · rw [h2] at h
      cases h
    · exact absurd (h3 at0 h) (not_le.2 hlt)
  obtain ⟨ha, hp, hcam⟩ := hstay hnot
  exact ⟨ha, hp, fun c hc => (hcam c).trans (hother c hc)⟩

end Sys2Proof.Machine
end

section
/-! SUPPORT and PROOFS. Line packets and the line buffer: how a packet is checked, where its line goes, and what a line
report counts. -/

namespace Sys2Proof.Machine

/-! ### The packet -/

/-- The bytes behind a check of agreement are the packet's header and its line (Formats, Line packet). -/
theorem packet_fields {bytes payload : List Byte} {a t h l : Byte}
    (hb : bytes.take 2564 = [a, t, h, l] ++ payload) :
    byteAt bytes 0 = a.toNat ∧ (bytes[1]?).getD 0 = t ∧ halfAt bytes 2 = h.toNat * 256 + l.toNat
      ∧ (bytes.drop 4).take Config.lineBytes = payload := by
  have hat : ∀ i, i < 4 → bytes[i]? = ([a, t, h, l] ++ payload)[i]? := fun i hi => by
    rw [← hb, List.getElem?_take_of_lt (by omega)]
  refine ⟨?_, ?_, ?_, ?_⟩
  · simp [byteAt, hat 0 (by decide)]
  · simp [hat 1 (by decide)]
  · simp [halfAt, byteAt, hat 2 (by decide), hat 3 (by decide)]
  · calc (bytes.drop 4).take Config.lineBytes = (bytes.take 2564).drop 4 := by rw [List.drop_take]; rfl
      _ = payload := by rw [hb]; rfl

/-- Settles O22: the two ends taken with MARKER, and an end marker by the two checks in their order. -/
theorem packetIsCheckedMarkerLengthCheck : Obligations.PacketIsCheckedMarkerLengthCheck := by
  refine fun bytes => ⟨rfl, rfl, fun hlen => if_pos hlen, fun hlen hcrc => ?_,
    fun a t h l payload hb hlen hcrc => ?_⟩
  · exact (if_neg (not_not.2 hlen)).trans (if_pos hcrc)
  · obtain ⟨haddr, htag, hnumber, hpayload⟩ := packet_fields hb
    refine (if_neg (not_not.2 hlen)).trans ((if_neg (not_not.2 hcrc)).trans ?_)
    rw [haddr, htag, hnumber, hpayload]

/-! ### Lanes written -/

/-- A lane read where one lane of `s` has been replaced. -/
theorem lane_of_set {s t : State} {c : Camera} {x : Lane} (h : t.lanes = s.lanes.set c.idx x) (d : Camera) :
    t.lane d = if d = c then x else s.lane d := by
  have hd : d.idx = c.idx ↔ d = c := ⟨fun e => Camera.idx_injective e, fun e => by rw [e]⟩
  simp only [State.lane, h, Quad.get_set, hd]

@[simp] theorem lane_setLane (s : State) (c : Camera) (x : Lane) : (s.setLane c x).lane c = x :=
  Quad.get_set_same ..

/-- A line error is counted against the frame filling and leaves the rest as it is (R42). -/
theorem reportError_eq (s : State) (c : Camera) :
    s.reportError c = { s with
      capture := match (s.lane c).frame with
        | some f => s.capture.report c f.tag .error
        | none => s.capture } := by
  unfold State.reportError
  cases (s.lane c).frame <;> rfl

/-- Settles O23: the buffer's room decides a packet, and a report's effect on the sets is `report_eq`. -/
theorem packetJoinsTheBufferOrOverruns : Obligations.PacketJoinsTheBufferOrOverruns := by
  refine ⟨fun c how bytes s => ⟨fun hroom => if_pos hroom, fun hfull => ?_⟩, fun x c tag kind hcredit hopen => ?_⟩
  · refine (if_neg (not_lt.2 hfull)).trans (congrArg Host.Outcome.next ?_)
    rw [reportError_eq, lane_setLane]
    rfl
  · rw [report_eq x c tag kind hcredit hopen]
    cases kind <;> rfl

end Sys2Proof.Machine
end

section
/-! SUPPORT and PROOFS. LINE_CONSUME: the steps of R31 for the head of the buffer, and the lines it drops. -/

namespace Sys2Proof.Machine

/-! ### The line at the head -/

/-- The line at the head leaves the buffer and counts in its total. -/
theorem dropLine_cons {s : State} {c : Camera} {l : Line} {rest : List Line} (h : (s.lane c).buffer = l :: rest)
    (k : TotalKind) :
    s.dropLine c k = { s with
      lanes := s.lanes.set c.idx { s.lane c with buffer := rest, totals := (s.lane c).totals.add k } } := by
  simp only [State.dropLine, h]
  rfl

section head
variable {s : State} {c : Camera} {rest : List Line} (hready : (s.lane c).busy = none)
include hready

theorem exec_lineConsume_bad {e : LineError} {bytes : List Byte} (h : (s.lane c).buffer = .bad e bytes :: rest) :
    exec (.lineConsume c) s = .next ((s.reportError c).dropLine c e.total) := by
  change execLineConsume c s = _
  simp only [execLineConsume, hready, h]

theorem exec_lineConsume_intact {a : Nat} {t : Tag} {n : Nat} {payload : List Byte}
    (h : (s.lane c).buffer = .intact a t n payload :: rest) :
    exec (.lineConsume c) s = .next (s.assess c a t n payload) := by
  change execLineConsume c s = _
  simp only [execLineConsume, hready, h]

end head

/-! ### The steps of R31 -/

section assess
variable {s : State} {c : Camera} {a : Nat} {t : Tag} {n : Nat} {payload : List Byte}

theorem assess_miswired (ha : a ≠ c.number) : s.assess c a t n payload = s.dropLine c .miswired := if_pos ha

theorem assess_notStreaming (hs : (s.cam c).state ≠ .streaming) :
    s.assess c c.number t n payload = s.dropLine c .stray :=
  (if_neg (not_not.2 rfl)).trans (if_pos hs)

/-- A line of the lane's own STREAMING camera goes on to the test of its number and tag (R31 steps 4 to 7). -/
theorem assess_streaming (hs : (s.cam c).state = .streaming) :
    s.assess c c.number t n payload =
      if n > 959 then s.dropLine c .order
      else if (s.lane c).closedTag = some t then s.dropLine c .order
      else if (s.lane c).frame.map FrameProgress.tag = some t then s.consumeInFrame c n payload
      else if s.capture.find t = none then s.dropLine c .stray
      else s.newerLine c t n payload :=
  (if_neg (not_not.2 rfl)).trans (if_neg (not_not.2 hs))

/-- A line whose number and tag pass is of the frame filling, or of another tag (R31 steps 6 to 8). -/
theorem assess_passed (hs : (s.cam c).state = .streaming) (hn : n ≤ 959) (ht : (s.lane c).closedTag ≠ some t) :
    s.assess c c.number t n payload =
      if (s.lane c).frame.map FrameProgress.tag = some t then s.consumeInFrame c n payload
      else if s.capture.find t = none then s.dropLine c .stray
      else s.newerLine c t n payload := by
  rw [assess_streaming hs, if_neg (not_lt.2 hn), if_neg ht]

/-- A line before the next expected line of the frame filling is dropped (R31 step 9). -/
theorem consumeInFrame_early {f : FrameProgress} (hf : (s.lane c).frame = some f) (hn : n < f.nextLine) :
    s.consumeInFrame c n payload = s.dropLine c .order := by
  simp only [State.consumeInFrame, hf, hn, if_true]

/-- The three causes of ORDER (R31). -/
theorem assess_order (hs : (s.cam c).state = .streaming)
    (h : 959 < n ∨ (s.lane c).closedTag = some t ∨ ∃ f, (s.lane c).frame = some f ∧ f.tag = t ∧ n < f.nextLine) :
    s.assess c c.number t n payload = s.dropLine c .order := by
  by_cases hn : 959 < n
  · rw [assess_streaming hs, if_pos hn]
  by_cases ht : (s.lane c).closedTag = some t
  · rw [assess_streaming hs, if_neg hn, if_pos ht]
  obtain ⟨f, hf, htag, hlt⟩ := (h.resolve_left hn).resolve_left ht
  rw [assess_passed hs (not_lt.1 hn) ht, if_pos (by rw [hf, ← htag]; rfl), consumeInFrame_early hf hlt]

end assess

/-- Settles O24: each test of R31 that drops the line, then the line leaving the buffer. -/
theorem unusableLineIsCountedAndDropped : Obligations.UnusableLineIsCountedAndDropped := by
  refine fun c s rest hready => ⟨fun e bytes hbuf => ?bad, fun a t n payload hbuf => ?intact⟩
  case bad =>
    have hbuf' : ((s.reportError c).lane c).buffer = .bad e bytes :: rest := by rw [reportError_eq]; exact hbuf
    rw [exec_lineConsume_bad hready hbuf, dropLine_cons hbuf', reportError_eq]
    rfl
  case intact =>
    rw [exec_lineConsume_intact hready hbuf]
    simp only [← dropLine_cons hbuf]
    refine ⟨fun ha => ?_, ?_, ?_, ?_⟩
    · rw [assess_miswired ha]
    · rintro rfl hs
      rw [assess_notStreaming hs]
    · rintro rfl hs horder
      rw [assess_order hs horder]
    · rintro rfl hs hn ht hframe hfind
      rw [assess_passed hs hn ht, if_neg hframe, if_pos hfind]

end Sys2Proof.Machine
end

section
/-! SUPPORT and PROOFS. The ends of a frame: the gap of missing lines, the write completed, the abandon, and the
finalisation they lead to. -/

namespace Sys2Proof.Machine

/-! ### Gaps -/

/-- A gap of a frame with nothing to repair from tears it (R36). -/
theorem gap_without_copy (f : FrameProgress) {copy : Option Retained} (e : Nat) {count : Nat} (ht : f.torn = false)
    (hc : 0 < count) (hcopy : ∀ m, copy = some m → m.ofFrame = false) :
    f.gap copy e count = ({ f with torn := true }, []) := by
  have h : ¬(count = 0 ∨ f.torn = true) := by simp [ht]; omega
  unfold FrameProgress.gap
  rw [if_neg h]
  cases copy with
  | none => rfl
  | some m => simp [hcopy m rfl]

/-- A gap of a frame with a retained copy of it: the repairs the limit leaves (R36). -/
theorem gap_repaired (f : FrameProgress) {m : Retained} (e : Nat) {count : Nat} (ht : f.torn = false) (hc : 0 < count)
    (hm : m.ofFrame = true) :
    f.gap (some m) e count =
      ({ f with torn := decide (f.limit - f.repaired < count) },
        (List.range (min count (f.limit - f.repaired))).map (fun j =>
          { slot := f.slot, line := e + j, data := m.payload, kind := .repair })) := by
  have h : ¬(count = 0 ∨ f.torn = true) := by simp [ht]; omega
  have hk : min count (f.limit - f.repaired) < count ↔ f.limit - f.repaired < count := by omega
  unfold FrameProgress.gap
  simp only [if_neg h, hm, if_true, hk]

/-- Settles O26: a gap with no missing line or of a torn frame, one with a copy, and one without. -/
theorem gapIsRepairedUpToTheLimit : Obligations.GapIsRepairedUpToTheLimit := by
  refine fun f e count => ⟨fun copy h => gap_none f copy e count h, fun ht hc =>
    ⟨fun m hm => gap_repaired f e ht hc hm, fun m hm => ?_, ?_⟩⟩
  · exact gap_without_copy f e ht hc (by rintro _ ⟨⟩; exact hm)
  · exact gap_without_copy f e ht hc (by rintro _ ⟨⟩)

/-! ### A line written -/

/-- The state after the write of line `n` of the frame filling has completed (R37). -/
def State.lineWritten (s : State) (c : Camera) (f : FrameProgress) (n : Nat) (payload : List Byte) : State :=
  { s with
    capture := s.capture.report c f.tag .written
    lanes := s.lanes.set c.idx
      { s.lane c with
        busy := none
        buffer := (s.lane c).buffer.tail
        retained := some { number := n, payload := payload, ofFrame := true }
        frame := some { f with nextLine := n + 1, deadline := s.now + 2 * s.capture.timing.period * 1000 } } }

theorem exec_lineWriteComplete {s : State} {c : Camera} {f : FrameProgress} {n : Nat} {payload : List Byte}
    {ws : List LineWrite} {g : Nat}
    (hbusy : (s.lane c).busy = some { kind := .line n payload, writes := ws, granted := g, ownDone := true })
    (hf : (s.lane c).frame = some f) :
    exec (.lineWriteComplete c) s = .next
      (if n = 959 then
        (s.lineWritten c f n payload).finaliseFrame c
          { f with nextLine := n + 1, deadline := s.now + 2 * s.capture.timing.period * 1000 } f.quality
      else s.lineWritten c f n payload) := by
  change execLineWriteComplete c s = _
  simp only [execLineWriteComplete, hbusy, hf]
  rfl

/-- A finalisation: the frame goes to the Capture Sequencer with its quality, and the lane has none filling (R38). -/
theorem finaliseFrame_fields (s : State) (c : Camera) (f : FrameProgress) (q : Quality) :
    (s.finaliseFrame c f q).capture = s.capture.finalised c f.slot f.tag q
    ∧ (s.finaliseFrame c f q).lane c = { s.lane c with
        frame := none, closedTag := some f.tag
        retained := (s.lane c).retained.map (fun r => { r with ofFrame := false }) }
    ∧ ∀ d, d ≠ c → (s.finaliseFrame c f q).lane d = s.lane d :=
  ⟨rfl, Quad.get_set_same .., fun d hd => (lane_of_set rfl d).trans (if_neg hd)⟩

/-- Settles O27: the line written, and at line 959 its frame finalised. -/
theorem writtenLineMovesTheFrameOn : Obligations.WrittenLineMovesTheFrameOn := by
  intro c s f n payload ws g hbusy hf
  have hexec := exec_lineWriteComplete hbusy hf
  have hlane : (s.lineWritten c f n payload).lane c = _ := Quad.get_set_same ..
  refine ⟨fun hn => ?_, fun hn => ?_⟩
  · rw [hexec, if_neg hn]
    rfl
  · obtain ⟨hcapture, hown, hother⟩ := finaliseFrame_fields (s.lineWritten c f n payload) c
      { f with nextLine := n + 1, deadline := s.now + 2 * s.capture.timing.period * 1000 } f.quality
    rw [if_pos hn] at hexec
    refine ⟨_, _, hexec, pipeOnly_of_sansPipe (finaliseFrame_sansPipe ..), ?_, ?_, ?_, ?_, hcapture, rfl,
      fun d hd => ?_⟩
    · rw [hown, hlane]
    · rw [hown, hlane]
    · rw [hown]
    · rw [hown]
    · exact (hother d hd).trans ((lane_of_set rfl d).trans (if_neg hd))

/-! ### An abandon -/

/-- The tail of a frame taken as missing lines (R34 step 1, R40). -/
theorem takeTail_eq (s : State) (c : Camera) (f : FrameProgress) (kind : ConsumeKind) :
    s.takeTail c f kind = { s with
      lanes := s.lanes.set c.idx
        { s.lane c with
          frame := some { (f.gap (s.lane c).retained f.nextLine (960 - f.nextLine)).1 with nextLine := 960 }
          busy := some
            { kind := kind, writes := (f.gap (s.lane c).retained f.nextLine (960 - f.nextLine)).2
              granted := 0, ownDone := false } } } := rfl

/-- FRAME_ABANDON of a READY lane, at the frame's deadline or later (R40). -/
theorem exec_frameAbandon {s : State} {c : Camera} {f : FrameProgress} (hready : (s.lane c).busy = none)
    (hf : (s.lane c).frame = some f) :
    exec (.frameAbandon c) s = .next ((s.runTo f.deadline).takeTail c f .abandon).grant := by
  change execFrameAbandon c s = _
  simp only [execFrameAbandon, hready, hf]

/-- ABANDON_REPAIRS_COMPLETE once the repairs are written (R40). -/
theorem exec_abandonRepairsComplete {s : State} {c : Camera} {f : FrameProgress} {g : Nat} {o : Bool}
    (hbusy : (s.lane c).busy = some { kind := .abandon, writes := [], granted := g, ownDone := o })
    (hf : (s.lane c).frame = some f) :
    exec (.abandonRepairsComplete c) s = .next
      ((s.setLane c { s.lane c with busy := none }).finaliseFrame c f f.quality) := by
  change execAbandonRepairsComplete c s = _
  simp only [execAbandonRepairsComplete, hbusy, hf]

/-- The slot and the freshness record of a finalised frame (R50, R57). -/
theorem finalised_slot (x : Capture) (c : Camera) (k : SlotNo) (tag : Tag) (q : Quality) :
    ((x.finalised c k tag q).slot c k).hold = .held tag q
    ∧ (x.finalised c k tag q).fresh = if q = .torn then x.fresh else x.fresh.set c.idx (some (k, tag)) := by
  rw [finalised_eq]
  simp [Capture.slot]

/-- Settles O28: the tail taken, the frame finalised after its repairs, and a finalisation in the capture sets. -/
theorem abandonedFrameIsRepairedAndFinalised : Obligations.AbandonedFrameIsRepairedAndFinalised := by
  refine ⟨fun c s f hf => ⟨fun hready => ?_, fun g o hbusy => ?_⟩, finalised_eq⟩
  · rw [exec_frameAbandon hready hf, takeTail_eq]
    rfl
  · obtain ⟨hcapture, hown, hother⟩ :=
      finaliseFrame_fields (s.setLane c { s.lane c with busy := none }) c f f.quality
    obtain ⟨hhold, hfresh⟩ := finalised_slot s.capture c f.slot f.tag f.quality
    rw [lane_setLane] at hown
    refine ⟨_, f.quality, exec_abandonRepairsComplete hbusy hf, pipeOnly_of_sansPipe (finaliseFrame_sansPipe ..),
      rfl, rfl, ?_, ?_, ?_, ?_, fun d hd => ?_, hcapture, rfl, hhold, fun hq => ?_, fun hq => ?_⟩
    · rw [hown]
    · rw [hown]
    · rw [hown]
    · rw [hown]
    · exact (hother d hd).trans ((lane_of_set rfl d).trans (if_neg hd))
    · rw [hcapture]
      exact (congrArg (Quad.get · c.idx) (hfresh.trans (if_neg hq))).trans (Quad.get_set_same ..)
    · exact hfresh.trans (if_pos hq)

end Sys2Proof.Machine
end

section
/-! SUPPORT. A capture set whose entries change: what stays, and the closure test. -/

namespace Sys2Proof.Machine

@[simp] theorem settle_tag (st : CaptureSet) : st.settle.tag = st.tag := by
  unfold CaptureSet.settle
  split <;> rfl

@[simp] theorem settle_entries (st : CaptureSet) : st.settle.entries = st.entries := by
  unfold CaptureSet.settle
  split <;> rfl

@[simp] theorem change_tag (st : CaptureSet) (f : CaptureSet → CaptureSet) : (st.change f).tag = (f st).tag := by
  unfold CaptureSet.change
  split <;> simp

@[simp] theorem change_entries (st : CaptureSet) (f : CaptureSet → CaptureSet) :
    (st.change f).entries = (f st).entries := by
  unfold CaptureSet.change
  split <;> simp

/-- A change that leaves a set as it is brings no closure test on. -/
theorem change_self {st : CaptureSet} {f : CaptureSet → CaptureSet} (h : f st = st) : st.change f = st := by
  unfold CaptureSet.change
  rw [h, if_pos rfl]

/-- The closure test reads the entries of the four cameras. -/
theorem none_outstanding_iff (q : Quad SetEntry) :
    q.toList.all (fun e => !e.status.outstanding) = true ↔ ∀ d : Camera, (q.get d.idx).status.outstanding = false := by
  rw [forall_camera]
  simp [Quad.toList, Quad.get, Camera.idx]

/-- An OPEN set with no entry outstanding closes COMPLETE (R60). -/
theorem settle_closes {st : CaptureSet} (ho : st.state = .opened)
    (h : ∀ d : Camera, (st.entries.get d.idx).status.outstanding = false) :
    st.settle.state = .closed ∧ st.settle.closure = some .complete := by
  unfold CaptureSet.settle
  rw [if_pos ⟨ho, (none_outstanding_iff _).2 h⟩]
  exact ⟨rfl, rfl⟩

/-- Any other set stays as it is (R60). -/
theorem settle_stays {st : CaptureSet}
    (h : st.state ≠ .opened ∨ ∃ d : Camera, (st.entries.get d.idx).status.outstanding = true) : st.settle = st := by
  unfold CaptureSet.settle
  refine if_neg fun ⟨ho, hall⟩ => ?_
  obtain ⟨d, hd⟩ := h.resolve_left (not_not.2 ho)
  rw [(none_outstanding_iff _).1 hall d] at hd
  cases hd

/-- A set after camera `c`'s entry has taken the status `v`, with the closure test. -/
def CaptureSet.entryTo (st : CaptureSet) (c : Camera) (v : EntryStatus) : CaptureSet :=
  (st.onEntry c (fun e => { e with status := v })).settle

/-- A change of an entry's status is `entryTo`. -/
theorem change_entryTo {st : CaptureSet} {f : CaptureSet → CaptureSet} {c : Camera} {v : EntryStatus}
    (hf : f st = st.onEntry c (fun e => { e with status := v })) (hv : (st.entries.get c.idx).status ≠ v) :
    st.change f = st.entryTo c v := by
  have hne : (f st).entries ≠ st.entries := fun h => hv (by
    rw [hf] at h
    have hstatus := congrArg (fun q : Quad SetEntry => (q.get c.idx).status) h
    simpa [CaptureSet.onEntry] using hstatus.symm)
  unfold CaptureSet.change
  rw [if_neg hne, hf]
  rfl

theorem entryTo_tag (st : CaptureSet) (c : Camera) (v : EntryStatus) : (st.entryTo c v).tag = st.tag := settle_tag _

theorem entryTo_entries (st : CaptureSet) (c : Camera) (v : EntryStatus) :
    (st.entryTo c v).entries = st.entries.set c.idx { st.entries.get c.idx with status := v } := settle_entries _

theorem entryTo_closes {st : CaptureSet} {c : Camera} {v : EntryStatus} (ho : st.state = .opened)
    (h : ∀ d : Camera, ((st.entryTo c v).entries.get d.idx).status.outstanding = false) :
    (st.entryTo c v).state = .closed ∧ (st.entryTo c v).closure = some .complete :=
  settle_closes ho (by rwa [entryTo_entries] at h)

theorem entryTo_stays {st : CaptureSet} {c : Camera} {v : EntryStatus}
    (h : st.state ≠ .opened ∨ ∃ d : Camera, ((st.entryTo c v).entries.get d.idx).status.outstanding = true) :
    (st.entryTo c v).state = st.state ∧ (st.entryTo c v).closure = st.closure := by
  rw [entryTo_entries] at h
  have hs : st.entryTo c v = st.onEntry c (fun e => { e with status := v }) := settle_stays h
  rw [hs]
  exact ⟨rfl, rfl⟩

end Sys2Proof.Machine
end

section
/-! SUPPORT and PROOFS. A camera that leaves STREAMING: what becomes of its lane, of the burst in flight, and of its
entries in the capture sets. -/

namespace Sys2Proof.Machine

/-! ### The sets after a finalisation and after a departure -/

/-- What a finalisation does to one set (R57). -/
theorem finalised_sets (x : Capture) (c : Camera) (k : SlotNo) (tag : Tag) (q : Quality) :
    (x.finalised c k tag q).sets = x.sets.map (fun st => st.change (fun st =>
      if st.tag = tag then
        st.onEntry c (fun e =>
          if e.status = .arriving k then { e with status := if q = .torn then .torn k else .present k } else e)
      else st)) := by
  unfold Capture.finalised
  dsimp only
  split <;> rfl

/-- A finalisation leaves a set as it is whose entry is not ARRIVING in the slot (R57). -/
theorem finalised_other {x : Capture} {c : Camera} {k : SlotNo} (tag : Tag) (q : Quality) {j : Nat} {st : CaptureSet}
    (hst : x.sets[j]? = some st) (h : (st.entries.get c.idx).status ≠ .arriving k) :
    (x.finalised c k tag q).sets[j]? = some st := by
  rw [finalised_sets, List.getElem?_map, hst, Option.map_some, change_self]
  split
  · exact onEntry_self _ _ _ (if_neg h)
  · rfl

/-- A TORN finalisation makes the entry ARRIVING in the slot TORN (R57). -/
theorem finalised_torn {x : Capture} {c : Camera} {k : SlotNo} {j : Nat} {st : CaptureSet}
    (hst : x.sets[j]? = some st) (h : (st.entries.get c.idx).status = .arriving k) :
    (x.finalised c k st.tag .torn).sets[j]? = some (st.entryTo c (.torn k)) := by
  rw [finalised_sets, List.getElem?_map, hst]
  refine congrArg some (change_entryTo ?_ (by rw [h]; simp))
  simp [CaptureSet.onEntry, h]

/-- What a departure does to one set (R59). -/
theorem departure_sets {x : Capture} (c : Camera) {j : Nat} {st : CaptureSet} (hst : x.sets[j]? = some st) :
    (x.departure c).sets[j]? = some (st.change (fun st =>
      if st.state = .opened then
        st.onEntry c (fun e => if e.status = .awaited then { e with status := .missing } else e)
      else st)) := by
  unfold Capture.departure Capture.change
  rw [List.getElem?_map, hst, Option.map_some]

/-- The AWAITED entry of an OPEN set becomes MISSING (R59). -/
theorem departure_awaited {x : Capture} {c : Camera} {j : Nat} {st : CaptureSet} (hst : x.sets[j]? = some st)
    (ho : st.state = .opened) (h : (st.entries.get c.idx).status = .awaited) :
    (x.departure c).sets[j]? = some (st.entryTo c .missing) := by
  refine (departure_sets c hst).trans (congrArg some (change_entryTo ?_ (by rw [h]; simp)))
  simp [CaptureSet.onEntry, ho, h]

/-- Any other entry stays (R59). -/
theorem departure_other {x : Capture} {c : Camera} {j : Nat} {st : CaptureSet} (hst : x.sets[j]? = some st)
    (h : (st.entries.get c.idx).status ≠ .awaited) : (x.departure c).sets[j]? = some st := by
  rw [departure_sets c hst, change_self]
  split
  · exact onEntry_self _ _ _ (if_neg h)
  · rfl

/-! ### The departure -/

/-- The capture sets after the frame filling on a lane, if one is, has been finalised TORN (R41). -/
def State.tornFilling (s : State) (c : Camera) : Capture :=
  match (s.lane c).frame with
  | none => s.capture
  | some f => s.capture.finalised c f.slot f.tag .torn

theorem tornFilling_some {s : State} {c : Camera} {f : FrameProgress} (h : (s.lane c).frame = some f) :
    s.tornFilling c = s.capture.finalised c f.slot f.tag .torn := by
  simp only [State.tornFilling, h]

/-- The buffer after a consumption in flight, if one is, has been withdrawn (R41). -/
def Lane.bufferLeft (x : Lane) : List Line :=
  match x.busy with
  | none => x.buffer
  | some b => match b.kind with
    | .line _ _ | .tail _ _ _ => x.buffer.tail
    | .abandon => x.buffer

theorem bufferLeft_ready {x : Lane} (h : x.busy = none) : x.bufferLeft = x.buffer := by
  simp only [Lane.bufferLeft, h]

/-- The line being consumed leaves the buffer; an abandon consumes none (R41). -/
theorem bufferLeft_busy {x : Lane} {b : Consumption} (h : x.busy = some b) :
    (∀ tag n payload, b.kind = .line n payload ∨ b.kind = .tail tag n payload → x.bufferLeft = x.buffer.tail)
    ∧ (b.kind = .abandon → x.bufferLeft = x.buffer) := by
  refine ⟨fun tag n payload hkind => ?_, fun hkind => ?_⟩
  · rcases hkind with hkind | hkind <;> simp only [Lane.bufferLeft, h, hkind]
  · simp only [Lane.bufferLeft, h, hkind]

/-- The lane of a withdrawal is READY, and the line it was consuming has left the buffer (R41, R151). -/
theorem withdrawLane_fields (s : State) (c : Camera) :
    (s.withdrawLane c).lane c = { s.lane c with busy := none, buffer := (s.lane c).bufferLeft }
      ∧ (s.withdrawLane c).capture = s.capture := by
  cases hb : (s.lane c).busy with
  | none =>
    have hs : s.withdrawLane c = s := by simp only [State.withdrawLane, hb]
    rw [hs, bufferLeft_ready hb, ← hb]
    exact ⟨rfl, rfl⟩
  | some b =>
    have hs : s.withdrawLane c = { s with
        lanes := s.lanes.set c.idx { s.lane c with busy := none, buffer := (s.lane c).bufferLeft }
        arb := s.arb.withdrawLane c } := by
      simp only [State.withdrawLane, hb]
      cases hkind : b.kind <;> simp only [Lane.bufferLeft, hb, hkind]
    rw [hs]
    exact ⟨Quad.get_set_same .., rfl⟩

/-- The lane's part in a departure: the withdrawal, and the frame filling finalised TORN (R41). -/
theorem laneDeparture_fields (s : State) (c : Camera) :
    (s.laneDeparture c).capture = s.tornFilling c
    ∧ ((s.laneDeparture c).lane c).buffer = (s.lane c).bufferLeft
    ∧ ∀ f, (s.lane c).frame = some f → ((s.laneDeparture c).lane c).closedTag = some f.tag := by
  obtain ⟨hlane, hcapture⟩ := withdrawLane_fields s c
  have hframe : ((s.withdrawLane c).lane c).frame = (s.lane c).frame := by rw [hlane]
  cases hf : (s.lane c).frame with
  | none =>
    have hs : s.laneDeparture c = s.withdrawLane c := by simp only [State.laneDeparture, hframe, hf]
    rw [hs, hcapture, hlane, State.tornFilling, hf]
    exact ⟨rfl, rfl, fun _ h => nomatch h⟩
  | some f =>
    have hs : s.laneDeparture c = (s.withdrawLane c).finaliseFrame c f .torn := by
      simp only [State.laneDeparture, hframe, hf]
    obtain ⟨hc, hown, -⟩ := finaliseFrame_fields (s.withdrawLane c) c f .torn
    rw [hs, hc, hown, hcapture, hlane, tornFilling_some hf]
    exact ⟨rfl, rfl, fun _ h => congrArg (Option.map FrameProgress.tag) h⟩

/-- A departure: the lane's part, and the report to the capture sets (R8, R41, R59). -/
theorem leaveStreaming_fields (s : State) (c : Camera) :
    (s.leaveStreaming c).capture = (s.tornFilling c).departure c
    ∧ ((s.leaveStreaming c).lane c).buffer = (s.lane c).bufferLeft
    ∧ ∀ f, (s.lane c).frame = some f → ((s.leaveStreaming c).lane c).closedTag = some f.tag := by
  obtain ⟨hcapture, hlane⟩ := laneDeparture_fields s c
  exact ⟨congrArg (Capture.departure · c) hcapture, hlane⟩

/-- A finalisation changes no number of sets, and a departure neither. -/
theorem departed_length (s : State) (c : Camera) :
    ((s.tornFilling c).departure c).sets.length = s.capture.sets.length := by
  rw [departure_eq, List.length_map]
  unfold State.tornFilling
  split
  · rfl
  · rw [finalised_sets, List.length_map]

/-- A departure leaves the slots as the finalisation left them. -/
theorem departure_slot (x : Capture) (c d : Camera) (k : SlotNo) : (x.departure c).slot d k = x.slot d k := rfl

/-- The set in which the entry is AWAITED is left to the departure (R57, R59). -/
theorem tornFilling_awaited {s : State} {c : Camera} {j : Nat} {st : CaptureSet} (hst : s.capture.sets[j]? = some st)
    (h : (st.entries.get c.idx).status = .awaited) : (s.tornFilling c).sets[j]? = some st := by
  unfold State.tornFilling
  split
  · exact hst
  · exact finalised_other _ _ hst (by rw [h]; simp)

/-- A withdrawal marks the lane's own burst in flight, and no other (R151). -/
theorem withdrawLane_arb (x : Arb) (c : Camera) :
    (∀ addr data w, x.inFlight = some (.lane c addr data w) →
      x.withdrawLane c = { x with inFlight := some (.lane c addr data true) })
    ∧ ((∀ addr data w, x.inFlight ≠ some (.lane c addr data w)) → x.withdrawLane c = x) := by
  unfold Arb.withdrawLane
  refine ⟨fun addr data w h => ?_, fun h => ?_⟩
  · simp only [h, decide_true, Bool.or_true]
  · split
    · rename_i d addr data w hd
      have hne : d ≠ c := fun e => h addr data w (e ▸ hd)
      simp only [hne, decide_false, Bool.or_false, ← hd]
    · rfl

/-- Settles O29, part by part: the lane, the burst in flight, the slot, the two kinds of entry, and the sets. -/
theorem departureEndsTheFilling : Obligations.DepartureEndsTheFilling := by
  intro c s t
  obtain ⟨hframe, hothers⟩ := leaveStreaming_lanes s c
  obtain ⟨harb, hbusy, -⟩ := leaveStreaming_arb s c
  obtain ⟨hcapture, hbuffer, hclosed⟩ := leaveStreaming_fields s c
  have hsets : t.capture.sets = ((s.tornFilling c).departure c).sets := congrArg Capture.sets hcapture
  refine ⟨hbusy, hframe, hothers, fun hready => ⟨?_, ?_⟩, fun b hb => ?burst, fun f hf => ⟨?_, hclosed f hf⟩,
    (congrArg List.length hsets).trans (departed_length s c), fun j st hst ho ha => ?awaited,
    fun f j st hf hst htag ha => ?arriving, hcapture, fun x => departure_eq x c,
    pipeOnly_of_sansPipe (leaveStreaming_sansPipe s c)⟩
  · rw [harb, hready]
    rfl
  · exact hbuffer.trans (bufferLeft_ready hready)
  case burst =>
    rw [hb, Option.isSome_some, if_pos rfl] at harb
    obtain ⟨hown, hother⟩ := withdrawLane_arb s.arb c
    obtain ⟨hconsumed, hkept⟩ := bufferLeft_busy hb
    exact ⟨fun addr data w h => harb.trans (hown addr data w h), fun h => harb.trans (hother h),
      fun tag n payload hkind => hbuffer.trans (hconsumed tag n payload hkind),
      fun hkind => hbuffer.trans (hkept hkind)⟩
  · rw [hcapture, departure_slot, tornFilling_some hf]
    exact (finalised_slot s.capture c f.slot f.tag .torn).1
  case awaited =>
    have hu : t.capture.sets[j]? = some (st.entryTo c .missing) := by
      rw [hsets]
      exact departure_awaited (tornFilling_awaited hst ha) ho ha
    exact ⟨_, hu, entryTo_tag .., entryTo_entries .., entryTo_closes ho,
      fun h => (entryTo_stays (Or.inr h)).1.trans ho⟩
  case arriving =>
    have htorn : (s.tornFilling c).sets[j]? = some (st.entryTo c (.torn f.slot)) := by
      rw [tornFilling_some hf, ← htag]
      exact finalised_torn hst ha
    have hu : t.capture.sets[j]? = some (st.entryTo c (.torn f.slot)) := by
      rw [hsets]
      exact departure_other htorn (by rw [entryTo_entries, Quad.get_set_same]; simp)
    exact ⟨_, hu, entryTo_tag .., entryTo_entries .., entryTo_closes, entryTo_stays⟩

end Sys2Proof.Machine
end

section
/-! SUPPORT. The frame slots: which slot is chosen for a new frame, and what the new frame changes of the Capture
Sequencer. -/

namespace Sys2Proof.Machine

/-! ### The slot chosen -/

/-- The first slot of a kind in number order is the lowest. -/
theorem find_slot {f : SlotNo → Bool} {k : SlotNo} (hk : f k = true) (hlow : ∀ j, j < k → ¬f j = true) :
    ([0, 1, 2] : List SlotNo).find? f = some k := by
  match k with
  | 0 => simp [hk]
  | 1 => simp [hk, hlow 0 (by decide)]
  | 2 => simp [hk, hlow 0 (by decide), hlow 1 (by decide)]

/-- The first element of a kind in a list is the one with none of the kind before it. -/
theorem find_of_split {α : Type} {f : α → Bool} {l before after : List α} {k : α} (hl : l = before ++ k :: after)
    (hk : f k = true) (hb : ∀ j ∈ before, ¬f j = true) : l.find? f = some k :=
  List.find?_eq_some_iff_append.2 ⟨hk, before, after, hl, fun j hj => by simp [hb j hj]⟩

section choose
variable (x : Capture) (c : Camera)

/-- A slot that step 1 of R48 takes. -/
def Capture.free (k : SlotNo) : Bool := !(x.slot c k).pinned && (x.slot c k).isFree

/-- A slot that step 3 of R48 takes. -/
def Capture.heldFree (k : SlotNo) : Bool := !(x.slot c k).pinned && (x.slot c k).isHeld

/-- A slot that step 2 of R48 takes. -/
def Capture.spare (k : SlotNo) : Bool := x.heldFree c k && (!x.member c k && !x.lastGood c k)

theorem free_iff (k : SlotNo) : x.free c k = true ↔ (x.slot c k).pinned = false ∧ (x.slot c k).hold = .free := by
  simp [Capture.free, Slot.isFree]

theorem heldFree_iff (k : SlotNo) :
    x.heldFree c k = true ↔ (x.slot c k).pinned = false ∧ (x.slot c k).isHeld = true := by
  simp [Capture.heldFree]

theorem spare_iff (k : SlotNo) :
    x.spare c k = true ↔ ((x.slot c k).pinned = false ∧ (x.slot c k).isHeld = true)
      ∧ x.member c k = false ∧ x.lastGood c k = false := by
  simp [Capture.spare, heldFree_iff]

/-- The three steps of R48 as searches of the slots and of the fill order. -/
theorem choose_eq : x.choose c =
    match ([0, 1, 2] : List SlotNo).find? (x.free c) with
    | some k => k
    | none => match (x.fillOrder.get c.idx).find? (x.spare c) with
      | some k => k
      | none => ((x.fillOrder.get c.idx).find? (x.heldFree c)).getD 0 := by
  unfold Capture.choose
  dsimp only
  rw [List.find?_filter, List.head?_filter]
  simp only [Bool.decide_and, Bool.decide_eq_true]
  rfl

variable {x c}

theorem choose_free {k : SlotNo} (hk : x.free c k = true) (hlow : ∀ j, j < k → ¬x.free c j = true) :
    x.choose c = k := by
  rw [choose_eq, find_slot hk hlow]

/-- Without a FREE slot the fill order decides. -/
theorem choose_noFree (hfree : ∀ j, ¬x.free c j = true) : x.choose c =
    match (x.fillOrder.get c.idx).find? (x.spare c) with
    | some k => k
    | none => ((x.fillOrder.get c.idx).find? (x.heldFree c)).getD 0 := by
  have hnone : ([0, 1, 2] : List SlotNo).find? (x.free c) = none :=
    List.find?_eq_none.2 (fun j _ => hfree j)
  rw [choose_eq, hnone]

theorem choose_spare {before after : List SlotNo} {k : SlotNo} (hfree : ∀ j, ¬x.free c j = true)
    (horder : x.fillOrder.get c.idx = before ++ k :: after) (hk : x.spare c k = true)
    (hb : ∀ j ∈ before, ¬x.spare c j = true) : x.choose c = k := by
  rw [choose_noFree hfree, find_of_split horder hk hb]

theorem choose_held {before after : List SlotNo} {k : SlotNo} (hfree : ∀ j, ¬x.free c j = true)
    (horder : x.fillOrder.get c.idx = before ++ k :: after) (hk : x.heldFree c k = true)
    (hb : ∀ j ∈ before, ¬x.heldFree c j = true) (hnone : ∀ j ∈ x.fillOrder.get c.idx, ¬x.spare c j = true) :
    x.choose c = k := by
  rw [choose_noFree hfree, List.find?_eq_none.2 hnone]
  simp only [find_of_split horder hk hb, Option.getD_some]

end choose

/-! ### The new frame -/

/-- What the giving up of a slot's old frame does to a set: the entry that names it becomes OVERWRITTEN (R49). -/
def CaptureSet.giveUp (st : CaptureSet) (c : Camera) (k : SlotNo) : CaptureSet :=
  st.onEntry c (fun e => if e.status.slot? = some k then { e with status := .overwritten } else e)

/-- What the start of a frame does to a set: the AWAITED entry of its tag becomes ARRIVING (R56). -/
def CaptureSet.arrive (st : CaptureSet) (c : Camera) (tag : Tag) (k : SlotNo) : CaptureSet :=
  if st.tag = tag then st.onEntry c (fun e => if e.status = .awaited then { e with status := .arriving k } else e)
  else st

/-- A set after both. -/
def CaptureSet.takeFrame (st : CaptureSet) (c : Camera) (tag : Tag) (k : SlotNo) (held : Bool) : CaptureSet :=
  (if held then st.change (fun st => st.giveUp c k) else st).change (fun st => st.arrive c tag k)

section newFrame
variable (x : Capture) (c : Camera) (tag : Tag)

/-- A new frame: its slot FILLING and last in the fill order, the freshness record of the slot's old frame dropped, and
the sets' entries (R49, R56). -/
theorem newFrame_fields : (x.newFrame c tag).1 = x.choose c
    ∧ (x.newFrame c tag).2.slots = x.slots.set c.idx
      ((x.slots.get c.idx).set (x.choose c) { x.slot c (x.choose c) with hold := .filling tag })
    ∧ (x.newFrame c tag).2.fillOrder = x.fillOrder.set c.idx
      ((x.fillOrder.get c.idx).filter (fun j => j ≠ x.choose c) ++ [x.choose c])
    ∧ (x.newFrame c tag).2.fresh = (if x.lastGood c (x.choose c) then x.fresh.set c.idx none else x.fresh)
    ∧ (x.newFrame c tag).2.timing = x.timing ∧ (x.newFrame c tag).2.pendingTiming = x.pendingTiming
    ∧ (x.newFrame c tag).2.drops = x.drops
    ∧ (x.newFrame c tag).2.sets
      = x.sets.map (fun st => st.takeFrame c tag (x.choose c) (x.slot c (x.choose c)).isHeld) := by
  have hfilter : (x.fillOrder.get c.idx).filter (fun j => j ≠ x.choose c)
      = (x.fillOrder.get c.idx).filter (· != x.choose c) := by
    refine List.filter_congr fun j _ => ?_
    by_cases hj : j = x.choose c <;> simp [hj]
  rw [hfilter]
  refine ⟨rfl, ?_⟩
  cases hheld : (x.slot c (x.choose c)).isHeld with
  | false =>
    simp only [Capture.newFrame, hheld]
    exact ⟨rfl, rfl, rfl, rfl, rfl, rfl, rfl⟩
  | true =>
    simp only [Capture.newFrame, hheld]
    exact ⟨rfl, rfl, rfl, rfl, rfl, rfl, List.map_map ..⟩

/-- The slot chosen is FILLING with the new tag, and every other slot stays (R49). -/
theorem newFrame_slot :
    (x.newFrame c tag).2.slot c (x.choose c) = { x.slot c (x.choose c) with hold := .filling tag }
    ∧ ∀ d j, d ≠ c ∨ j ≠ x.choose c → (x.newFrame c tag).2.slot d j = x.slot d j := by
  obtain ⟨-, hslots, -⟩ := newFrame_fields x c tag
  refine ⟨by simp [Capture.slot, hslots], fun d j h => ?_⟩
  by_cases hd : d = c
  · subst hd
    simp [Capture.slot, hslots, Trio.get_set, h.resolve_left (not_not.2 rfl)]
  · have hi : d.idx ≠ c.idx := fun e => hd (Camera.idx_injective e)
    simp [Capture.slot, hslots, Quad.get_set, hi]

end newFrame

section entries
variable (st : CaptureSet) (c : Camera) (tag : Tag) (k : SlotNo) (held : Bool)

theorem giveUp_entry : (st.giveUp c k).entries.get c.idx =
    if (st.entries.get c.idx).status.slot? = some k then { st.entries.get c.idx with status := .overwritten }
    else st.entries.get c.idx := Quad.get_set_same ..

theorem arrive_entry : (st.arrive c tag k).entries.get c.idx =
    if st.tag = tag ∧ (st.entries.get c.idx).status = .awaited then { st.entries.get c.idx with status := .arriving k }
    else st.entries.get c.idx := by
  unfold CaptureSet.arrive
  by_cases ht : st.tag = tag <;> simp [ht, CaptureSet.onEntry]

theorem arrive_tag : (st.arrive c tag k).tag = st.tag := by
  unfold CaptureSet.arrive
  split <;> rfl

theorem onEntry_other (f : SetEntry → SetEntry) {d : Camera} (hd : d ≠ c) :
    (st.onEntry c f).entries.get d.idx = st.entries.get d.idx := by
  have hi : d.idx ≠ c.idx := fun e => hd (Camera.idx_injective e)
  simp [CaptureSet.onEntry, Quad.get_set, hi]

theorem arrive_other {d : Camera} (hd : d ≠ c) :
    (st.arrive c tag k).entries.get d.idx = st.entries.get d.idx := by
  unfold CaptureSet.arrive
  split
  · exact onEntry_other st c _ hd
  · rfl

/-- A new frame leaves the tag of a set and the entries of the other cameras. -/
theorem takeFrame_keeps : (st.takeFrame c tag k held).tag = st.tag
    ∧ ∀ d, d ≠ c → (st.takeFrame c tag k held).entries.get (Camera.idx d) = st.entries.get (Camera.idx d) := by
  have htag : (st.giveUp c k).tag = st.tag := rfl
  unfold CaptureSet.takeFrame
  cases held with
  | false => exact ⟨by simp [arrive_tag], fun d hd => by simp [arrive_other _ _ _ _ hd]⟩
  | true =>
    refine ⟨by simp [arrive_tag, htag], fun d hd => ?_⟩
    simp [arrive_other _ _ _ _ hd, CaptureSet.giveUp, onEntry_other _ _ _ hd]

/-- The camera's own entry: OVERWRITTEN where it named the slot given up, ARRIVING where it was AWAITED (R49, R56). -/
theorem takeFrame_entry : (st.takeFrame c tag k held).entries.get c.idx =
    if held = true ∧ (st.entries.get c.idx).status.slot? = some k then
      { st.entries.get c.idx with status := .overwritten }
    else if st.tag = tag ∧ (st.entries.get c.idx).status = .awaited then
      { st.entries.get c.idx with status := .arriving k }
    else st.entries.get c.idx := by
  have htag : (st.giveUp c k).tag = st.tag := rfl
  unfold CaptureSet.takeFrame
  cases held with
  | false => simp [arrive_entry]
  | true =>
    by_cases hk : (st.entries.get c.idx).status.slot? = some k <;>
      simp [arrive_entry, giveUp_entry, htag, hk]

end entries

end Sys2Proof.Machine
end

section
/-! PROOFS. LINE_CONSUME of a line that is written: the frame filling goes on, or a new one begins. -/

namespace Sys2Proof.Machine

/-- The new frame that line `n` of the tag begins, after the frame `old` has been finalised, if there is one (R34). -/
def State.frameBegun (s : State) (c : Camera) (old : Option FrameProgress) (tag : Tag) (n : Nat)
    (payload : List Byte) : State :=
  let cap := match old with
    | none => s.capture
    | some f => s.capture.finalised c f.slot f.tag f.quality
  ({ s with
    capture := (cap.newFrame c tag).2
    lanes := s.lanes.set c.idx
      { s.lane c with
        closedTag := match old with
          | none => (s.lane c).closedTag
          | some f => some f.tag
        retained := (s.lane c).retained.map (fun r => { r with ofFrame := false })
        frame := some
          { slot := (cap.newFrame c tag).1, tag := tag, nextLine := n, limit := s.capture.timing.repair
            repaired := 0, torn := decide (0 < n), deadline := s.now + 2 * s.capture.timing.period * 1000 }
        busy := some
          { kind := .line n payload
            writes := [{ slot := (cap.newFrame c tag).1, line := n, data := payload, kind := .own }]
            granted := 0, ownDone := false } } } : State).grant

theorem beginFrame_eq_frameBegun (s : State) (c : Camera) (tag : Tag) (n : Nat) (payload : List Byte) :
    s.beginFrame c tag n payload = s.frameBegun c (s.lane c).frame tag n payload := beginFrame_eq s c tag n payload

/-- Where the tail has no repairs, what is left of its taking is the frame finalised (R34). -/
theorem beginFrame_takeTail (s : State) (c : Camera) (f : FrameProgress) (kind : ConsumeKind) (tag : Tag) (n : Nat)
    (payload : List Byte) :
    (s.takeTail c f kind).beginFrame c tag n payload =
      s.frameBegun c (some (f.gap (s.lane c).retained f.nextLine (960 - f.nextLine)).1) tag n payload := by
  rw [beginFrame_eq_frameBegun, takeTail_eq]
  simp only [State.frameBegun, State.lane, Quad.get_set_same, Quad.set_set]
  rfl

section consume
variable {s : State} {c : Camera} {f : FrameProgress} {tag : Tag} {n : Nat} {payload : List Byte}

/-- A line of the frame filling at or beyond the next expected one: the repairs of the gap and the line's own write
(R36, R37). -/
theorem consumeInFrame_eq (hf : (s.lane c).frame = some f) (hn : f.nextLine ≤ n) :
    s.consumeInFrame c n payload =
      ({ s with
        lanes := s.lanes.set c.idx
          { s.lane c with
            frame := some { (f.gap (s.lane c).retained f.nextLine (n - f.nextLine)).1 with nextLine := n }
            busy := some
              { kind := .line n payload
                writes := (f.gap (s.lane c).retained f.nextLine (n - f.nextLine)).2
                  ++ [{ slot := f.slot, line := n, data := payload, kind := .own }]
                granted := 0, ownDone := false } } } : State).grant := by
  simp only [State.consumeInFrame, hf, not_lt.2 hn, if_false]
  rfl

theorem newerLine_none (hf : (s.lane c).frame = none) :
    s.newerLine c tag n payload = s.frameBegun c none tag n payload := by
  simp only [State.newerLine, hf, beginFrame_eq_frameBegun]

/-- Without tail repairs the new frame begins at once (R34). -/
theorem newerLine_noRepair (hf : (s.lane c).frame = some f)
    (hgap : (f.gap (s.lane c).retained f.nextLine (960 - f.nextLine)).2 = []) :
    s.newerLine c tag n payload =
      s.frameBegun c (some (f.gap (s.lane c).retained f.nextLine (960 - f.nextLine)).1) tag n payload := by
  rw [← beginFrame_takeTail s c f (.tail tag n payload)]
  simp only [State.newerLine, hf, Config.frameLines, hgap]

/-- Tail repairs are written first (R34, log 17). -/
theorem newerLine_repairs (hf : (s.lane c).frame = some f)
    (hgap : (f.gap (s.lane c).retained f.nextLine (960 - f.nextLine)).2 ≠ []) :
    s.newerLine c tag n payload = (s.takeTail c f (.tail tag n payload)).grant := by
  obtain ⟨w, ws, hws⟩ := List.exists_cons_of_ne_nil hgap
  simp only [State.newerLine, hf, Config.frameLines, hws]

/-- LINE_CONSUME of a line of the frame filling (R31 steps 9 to 11). -/
theorem exec_lineConsume_inFrame {rest : List Line} (hready : (s.lane c).busy = none)
    (hbuf : (s.lane c).buffer = .intact c.number tag n payload :: rest) (hs : (s.cam c).state = .streaming)
    (hn : n ≤ 959) (ht : (s.lane c).closedTag ≠ some tag)
    (hframe : (s.lane c).frame.map FrameProgress.tag = some tag) :
    exec (.lineConsume c) s = .next (s.consumeInFrame c n payload) := by
  rw [exec_lineConsume_intact hready hbuf, assess_passed hs hn ht, if_pos hframe]

/-- LINE_CONSUME of a line of another tag with a live set (R31 step 8). -/
theorem exec_lineConsume_newer {rest : List Line} (hready : (s.lane c).busy = none)
    (hbuf : (s.lane c).buffer = .intact c.number tag n payload :: rest) (hs : (s.cam c).state = .streaming)
    (hn : n ≤ 959) (ht : (s.lane c).closedTag ≠ some tag)
    (hframe : (s.lane c).frame.map FrameProgress.tag ≠ some tag) (hfind : s.capture.find tag ≠ none) :
    exec (.lineConsume c) s = .next (s.newerLine c tag n payload) := by
  rw [exec_lineConsume_intact hready hbuf, assess_passed hs hn ht, if_neg hframe, if_neg hfind]

/-- After the last of the tail repairs the line goes on (log 17). -/
theorem exec_lineConsume_tail {g : Nat} {o : Bool}
    (hbusy : (s.lane c).busy = some { kind := .tail tag n payload, writes := [], granted := g, ownDone := o }) :
    exec (.lineConsume c) s = .next (s.beginFrame c tag n payload) := by
  change execLineConsume c s = _
  simp only [execLineConsume, hbusy]

end consume

/-- Settles O25: the line of the frame filling, that of a newer one by the tail, the slot chosen, and the new frame. -/
theorem nextLineIsWrittenToItsSlot : Obligations.NextLineIsWrittenToItsSlot := by
  refine ⟨fun c s rest tag n payload hready hbuf hs hn ht => ⟨fun f hf htag hle => ⟨?expected, ?inFrame⟩,
      fun hframe hfind => ⟨?first, fun f hf => ⟨?noRepair, ?repairs⟩⟩⟩,
    fun c s tag n payload g o hbusy => ?tail, fun x c => ⟨?free, ?held, fun tag => ?newFrame⟩⟩
  case expected =>
    rintro rfl
    exact gap_none f _ _ _ (Or.inr (Nat.sub_self _))
  case inFrame =>
    rw [exec_lineConsume_inFrame hready hbuf hs hn ht (by rw [hf, ← htag]; rfl), consumeInFrame_eq hf hle]
  case first =>
    intro hf
    rw [exec_lineConsume_newer hready hbuf hs hn ht hframe hfind, newerLine_none hf]
    rfl
  case noRepair =>
    intro hgap
    rw [exec_lineConsume_newer hready hbuf hs hn ht hframe hfind, newerLine_noRepair hf hgap]
    rfl
  case repairs =>
    intro hgap
    rw [exec_lineConsume_newer hready hbuf hs hn ht hframe hfind, newerLine_repairs hf hgap, takeTail_eq]
  case tail =>
    rw [exec_lineConsume_tail hbusy, beginFrame_eq_frameBegun]
    rfl
  case free =>
    intro k hk hlow
    exact choose_free ((free_iff x c k).2 hk) fun j hj => mt (free_iff x c j).1 (hlow j hj)
  case held =>
    intro before k after hfree horder
    have hfull : ∀ j, ¬x.free c j = true := fun j => mt (free_iff x c j).1 (hfree j)
    refine ⟨fun hk hb => choose_spare hfull horder ((spare_iff x c k).2 hk) fun j hj => ?_,
      fun hk hb hnone => choose_held hfull horder ((heldFree_iff x c k).2 hk) (fun j hj => ?_) fun j hj => ?_⟩
    · exact mt (spare_iff x c j).1 (hb j hj)
    · exact mt (heldFree_iff x c j).1 (hb j hj)
    · exact mt (spare_iff x c j).1 (hnone j hj)
  case newFrame =>
    intro k y
    obtain ⟨hchosen, -, horder, hfresh, htiming, hpending, hdrops, hsets⟩ := newFrame_fields x c tag
    obtain ⟨hslot, hothers⟩ := newFrame_slot x c tag
    refine ⟨hchosen, hslot, hothers, horder, hfresh, htiming, hpending, hdrops, ?_, fun j st hst => ?_⟩
    · rw [hsets, List.map_map]
      exact List.map_congr_left fun st _ => (takeFrame_keeps st c tag _ _).1
    · exact ⟨_, by rw [hsets, List.getElem?_map, hst, Option.map_some], (takeFrame_keeps st c tag _ _).2,
        takeFrame_entry ..⟩

end Sys2Proof.Machine
end

section
/-! SUPPORT and PROOFS. The capture set table at the end of a window: the OPEN set closes WINDOW (R61, R62). -/

namespace Sys2Proof.Machine

/-- WINDOW_EXPIRY of an OPEN set, at its deadline (R61). -/
theorem exec_windowExpiry_opened {s : State} {tag : Tag} {st : CaptureSet} (hfind : s.capture.find tag = some st)
    (ho : st.state = .opened) :
    exec (.windowExpiry tag) s = .next { s.runTo st.deadline with capture := s.capture.expire tag } := by
  change execWindowExpiry tag s = _
  simp only [execWindowExpiry, hfind, if_pos ho, runTo_capture]

/-- The live set found for a tag bears it (R53). -/
theorem find_tag {x : Capture} {tag : Tag} {st : CaptureSet} (hfind : x.find tag = some st) : st.tag = tag := by
  simpa using List.find?_some hfind

/-- The set that an expiry closes is still the live set of its tag (R53). -/
theorem expire_find {x : Capture} {tag : Tag} {st : CaptureSet} (hfind : x.find tag = some st)
    (ho : st.state = .opened) : (x.expire tag).find tag = some st.expire := by
  have htag : ∀ z : CaptureSet, (if z.tag = tag ∧ z.state = .opened then z.expire else z).tag = z.tag := fun z => by
    split <;> rfl
  simp only [Capture.find, Capture.expire, List.find?_map, Function.comp_def, htag]
  change (x.find tag).map _ = _
  rw [hfind, Option.map_some, if_pos ⟨find_tag hfind, ho⟩]

/-- Settles O30: the expiry at the deadline, and the closed set found again under its tag. -/
theorem windowExpiryClosesTheSet : Obligations.WindowExpiryClosesTheSet := by
  intro tag s st hfind ho
  refine ⟨_, exec_windowExpiry_opened hfind ho, rfl, rfl, rfl, List.length_map .., st.expire, expire_find hfind ho,
    rfl, rfl, rfl, fun c => ?_⟩
  rw [CaptureSet.expire, Quad.get_map, SetEntry.expire]
  cases hstatus : (st.entries.get c.idx).status with
  | awaited => rfl
  | arriving k => rfl
  | _ => exact hstatus

end Sys2Proof.Machine
end

section
/-! SUPPORT and PROOFS. The Capture Sequencer at a strobe: timing and freshness, the room made in the capture set table, and
the set that joins it (R51, R54, R55, R60, R62, R66). -/

namespace Sys2Proof.Machine

/-! ### Timing and freshness -/

/-- The Capture Sequencer when a strobe with the tag makes room for its set: timing and freshness are done (R51, R66). -/
def Capture.atStrobe (x : Capture) (t : Tag) : Capture :=
  { x with
    timing := x.pendingTiming.getD x.timing
    pendingTiming := none
    fresh := x.fresh.map (fun f => if f.map Prod.snd = some t then none else f) }

theorem bringTiming_eq (x : Capture) :
    x.bringTiming = { x with timing := x.pendingTiming.getD x.timing, pendingTiming := none } := by
  obtain ⟨_, _, _, _, _, _, _, pending⟩ := x
  cases pending with
  | none => rfl
  | some u => rfl

theorem bringTiming_ageFresh (x : Capture) (t : Tag) : x.bringTiming.ageFresh t = x.atStrobe t := by
  rw [bringTiming_eq]
  unfold Capture.ageFresh Capture.atStrobe
  congr 2
  funext f
  cases f with
  | none => rfl
  | some r => simp

/-! ### Room in the table -/

/-- The oldest set that is not COMPOSING is the one given up (R55). -/
theorem dropOldest_split {older newer : List CaptureSet} {st : CaptureSet} (hold : ∀ z ∈ older, z.state = .composing)
    (hst : st.state ≠ .composing) : dropOldest (older ++ st :: newer) = older ++ newer := by
  induction older with
  | nil => exact if_neg hst
  | cons z zs ih =>
    obtain ⟨hz, hzs⟩ := List.forall_mem_cons.1 hold
    rw [List.cons_append, dropOldest, if_pos hz, ih hzs, List.cons_append]

/-- A COMPOSING set of the strobe's tag stays, and no set is opened (R55). -/
theorem makeRoom_composing {x : Capture} {t : Tag} {st : CaptureSet} (hfind : x.find t = some st)
    (hst : st.state = .composing) : x.makeRoom t = (x.countDrop, false) := by
  simp only [Capture.makeRoom, hfind, if_pos hst]

/-- A set of the strobe's tag is dropped, which leaves room in the table (R55). -/
theorem makeRoom_sameTag {x : Capture} {t : Tag} {st : CaptureSet} (hfind : x.find t = some st)
    (hst : st.state ≠ .composing) (hlen : x.sets.length ≤ 4) :
    x.makeRoom t = ({ x with sets := x.sets.filter (fun z => z.tag ≠ t) }.countDrop, true) := by
  have hmem : st ∈ x.sets := List.mem_of_find?_eq_some hfind
  have hroom : (x.sets.filter (fun z => z.tag ≠ t)).length < x.sets.length :=
    List.length_filter_lt_length_iff_exists.2 ⟨st, hmem, by simpa using find_tag hfind⟩
  have hsame : x.sets.filter (fun z => !(z.tag == t)) = x.sets.filter (fun z => z.tag ≠ t) :=
    List.filter_congr fun z _ => by simp [beq_eq_decide]
  simp only [Capture.makeRoom, hfind, if_neg hst, hsame]
  exact if_neg (not_le.2 (hroom.trans_le hlen))

/-- With room in the table a strobe of a new tag drops no set. -/
theorem makeRoom_room {x : Capture} {t : Tag} (hfind : x.find t = none) (hlen : x.sets.length < 4) :
    x.makeRoom t = (x, true) := by
  simp only [Capture.makeRoom, hfind]
  exact if_neg (not_le.2 hlen)

/-- A full table gives up its oldest set that is not COMPOSING (R55). -/
theorem makeRoom_full {x : Capture} {t : Tag} {older newer : List CaptureSet} {st : CaptureSet}
    (hfind : x.find t = none) (hlen : x.sets.length = 4) (hsets : x.sets = older ++ st :: newer)
    (hold : ∀ z ∈ older, z.state = .composing) (hst : st.state ≠ .composing) :
    x.makeRoom t = ({ x with sets := older ++ newer }.countDrop, true) := by
  simp only [Capture.makeRoom, hfind]
  rw [if_pos hlen.ge, hsets, dropOldest_split hold hst]

/-- Room is made by the sets and the drop count alone. -/
theorem makeRoom_frame (x : Capture) (t : Tag) :
    (x.makeRoom t).1 = { x with sets := (x.makeRoom t).1.sets, drops := (x.makeRoom t).1.drops } := by
  unfold Capture.makeRoom
  dsimp only
  split
  · split
    · rfl
    · split <;> rfl
  · split <;> rfl

/-! ### The set that joins -/

@[simp] theorem settle_openAt (st : CaptureSet) : st.settle.openAt = st.openAt := by
  unfold CaptureSet.settle
  split <;> rfl

@[simp] theorem settle_deadline (st : CaptureSet) : st.settle.deadline = st.deadline := by
  unfold CaptureSet.settle
  split <;> rfl

/-- The entry of a position in a new set: AWAITED for a STREAMING one, EXCLUDED for the others (R54). -/
theorem newSet_entry (t : Tag) (now window : Nat) (on : Quad Bool) (c : Camera) :
    (newSet t now window on).entries.get c.idx =
      { status := if on.get c.idx then .awaited else .excluded, written := 0, repaired := 0, errors := 0 } :=
  Quad.get_map ..

/-- The entries of a new set are outstanding where a position streams. -/
theorem newSet_outstanding (t : Tag) (now window : Nat) (on : Quad Bool) (c : Camera) :
    ((newSet t now window on).entries.get c.idx).status.outstanding = on.get c.idx := by
  rw [newSet_entry]
  cases on.get c.idx <;> rfl

theorem exists_streaming {on : Quad Bool} (h : on ≠ Quad.all false) : ∃ c : Camera, on.get c.idx = true := by
  by_contra hnone
  simp only [not_exists, Bool.not_eq_true] at hnone
  apply h
  rw [Quad.all, Quad.mk.injEq]
  exact forall_camera.1 hnone

/-- A set that its closure test closes adds 1 to the credit (R62). -/
theorem openSet_credit_closed {x : Capture} {st : CaptureSet} (ho : st.state = .opened)
    (hc : st.settle.state = .closed) : (x.openSet st).credit = min 255 (x.credit + 1) := by
  rw [Capture.openSet, closedBy, ho, hc]
  rfl

/-- A set that its closure test leaves OPEN adds nothing. -/
theorem openSet_credit_opened {x : Capture} {st : CaptureSet} (hc : st.settle.state = .opened)
    (hcredit : x.credit ≤ 255) : (x.openSet st).credit = x.credit := by
  rw [Capture.openSet, closedBy, hc, decide_eq_false (by decide : SetState.opened ≠ .closed), Bool.and_false]
  exact min_eq_right hcredit

/-- A new set with no position streaming closes COMPLETE at once (R60). -/
theorem newSet_settle_closes (t : Tag) (now window : Nat) :
    (newSet t now window (Quad.all false)).settle.state = .closed
    ∧ (newSet t now window (Quad.all false)).settle.closure = some .complete :=
  settle_closes rfl fun d => by rw [newSet_outstanding, Quad.get_all]

/-- A new set with a position streaming stays OPEN (R60). -/
theorem newSet_settle_stays (t : Tag) (now window : Nat) {on : Quad Bool} (hon : on ≠ Quad.all false) :
    (newSet t now window on).settle = newSet t now window on := by
  obtain ⟨c, hc⟩ := exists_streaming hon
  exact settle_stays (Or.inr ⟨c, by rw [newSet_outstanding, hc]⟩)

/-! ### The strobe -/

theorem strobe_eq (x : Capture) (t : Tag) (now : Nat) (on : Quad Bool) :
    x.strobe t now on =
      if ((x.atStrobe t).makeRoom t).2 then
        ((x.atStrobe t).makeRoom t).1.openSet
          (newSet t now ((x.atStrobe t).makeRoom t).1.timing.window on)
      else ((x.atStrobe t).makeRoom t).1 := by
  unfold Capture.strobe
  rw [bringTiming_ageFresh]
  dsimp only
  split <;> rename_i h <;> rw [h] <;> rfl

/-- A strobe changes the sets, the credit and the drop count, and the rest only by timing and freshness. -/
theorem strobe_frame (x : Capture) (t : Tag) (now : Nat) (on : Quad Bool) :
    x.strobe t now on =
      { x.atStrobe t with
        sets := (x.strobe t now on).sets
        credit := (x.strobe t now on).credit
        drops := (x.strobe t now on).drops } := by
  rw [strobe_eq, makeRoom_frame]
  split <;> rfl

/-- The set a strobe of a tag opens, before its closure test, with the window of the timing come into force (R54, R66). -/
def Capture.strobeSet (x : Capture) (t : Tag) (now : Nat) (on : Quad Bool) : CaptureSet :=
  newSet t now (x.pendingTiming.getD x.timing).window on

/-- A strobe that has made room, with these sets kept and this drop count. -/
theorem strobe_opens {x : Capture} {t : Tag} {kept : List CaptureSet} {drops : Nat} (now : Nat) (on : Quad Bool)
    (hroom : (x.atStrobe t).makeRoom t = ({ x.atStrobe t with sets := kept, drops := drops }, true)) :
    x.strobe t now on =
      ({ x.atStrobe t with sets := kept, drops := drops } : Capture).openSet (x.strobeSet t now on) := by
  rw [strobe_eq, hroom]
  rfl

/-- Settles O15: what every strobe does, the strobe that opens no set, and the set that joins once there is room for it. -/
theorem strobeOpensACaptureSet : Obligations.StrobeOpensACaptureSet := by
  intro x tag now on hcredit y
  refine ⟨?always, fun st hfind hst => ?composing, fun kept dropped hkept => ?opens⟩
  case always =>
    have hy : y = _ := strobe_frame x tag now on
    rw [hy]
    exact ⟨rfl, rfl, rfl, rfl, fun c => Quad.get_map ..⟩
  case composing =>
    have hroom := makeRoom_composing (x := x.atStrobe tag) hfind hst
    have hy : y = (x.atStrobe tag).countDrop := by
      change x.strobe tag now on = _
      rw [strobe_eq, hroom]
      rfl
    rw [hy]
    exact ⟨rfl, rfl, rfl⟩
  case opens =>
    have hroom : (x.atStrobe tag).makeRoom tag =
        ({ x.atStrobe tag with sets := kept, drops := if dropped then min 255 (x.drops + 1) else x.drops }, true) := by
      rcases hkept with ⟨hfind, hlen, rfl, rfl⟩ | ⟨st, hfind, hst, hlen, rfl, rfl⟩
        | ⟨older, st, newer, hfind, hlen, hsets, hold, hst, rfl, rfl⟩
      · exact makeRoom_room (x := x.atStrobe tag) hfind hlen
      · exact makeRoom_sameTag (x := x.atStrobe tag) hfind hst hlen
      · exact makeRoom_full (x := x.atStrobe tag) hfind hlen hsets hold hst
    have hy : y = _ := strobe_opens now on hroom
    rw [hy]
    refine ⟨rfl, (x.strobeSet tag now on).settle, rfl, settle_tag _, settle_openAt _, settle_deadline _, fun c => ?entry,
      ?noneStreams, fun hon => ?streams⟩
    case entry =>
      rw [settle_entries]
      exact newSet_entry ..
    case noneStreams =>
      rintro rfl
      obtain ⟨hstate, hclosure⟩ := newSet_settle_closes tag now (x.pendingTiming.getD x.timing).window
      exact ⟨hstate, hclosure, openSet_credit_closed rfl hstate⟩
    case streams =>
      have hstays : (x.strobeSet tag now on).settle = x.strobeSet tag now on := newSet_settle_stays _ _ _ hon
      exact ⟨congrArg CaptureSet.state hstays, congrArg CaptureSet.closure hstays,
        openSet_credit_opened (congrArg CaptureSet.state hstays) hcredit⟩

end Sys2Proof.Machine
end

section
/-! SUPPORT and PROOFS. PLAN requests: the request that renews its plan (R77), the lowest gap of the pool that fits (R79), and
PLAN_OPEN. -/

namespace Sys2Proof.Machine

/-! ### Plan slots -/

/-- A slot's state written is read at its slot, and the other slots stay. -/
theorem setHold_plan (s : State) (id j : PlanId) (h : PlanHold) :
    (s.setHold id h).plan j = if j = id then { s.plan id with hold := h } else s.plan j := by
  simp only [State.setHold, State.setPlan, State.plan, Quad.get_set]

@[simp] theorem setHold_refs (s : State) (id j : PlanId) (h : PlanHold) :
    ((s.setHold id h).plan j).refs = (s.plan j).refs := by
  rw [setHold_plan]
  split
  · rename_i e
    rw [e]
  · rfl

@[simp] theorem setHold_hold_same (s : State) (id : PlanId) (h : PlanHold) : ((s.setHold id h).plan id).hold = h := by
  rw [setHold_plan, if_pos rfl]

@[simp] theorem setHold_setHold (s : State) (id : PlanId) (g h : PlanHold) :
    (s.setHold id g).setHold id h = s.setHold id h := by
  simp [State.setHold, State.setPlan, State.plan]

@[simp] theorem taken_plan (s : State) (p : Port) (r : Request) (rest : List Request) (id : PlanId) :
    (s.taken p r rest).plan id = s.plan id := rfl

@[simp] theorem taken_setHold (s : State) (p : Port) (r : Request) (rest : List Request) (id : PlanId) (h : PlanHold) :
    (s.taken p r rest).setHold id h = (s.setHold id h).taken p r rest := rfl

@[simp] theorem setHold_now (s : State) (id : PlanId) (h : PlanHold) : (s.setHold id h).now = s.now := rfl
@[simp] theorem setHold_arb (s : State) (id : PlanId) (h : PlanHold) : (s.setHold id h).arb = s.arb := rfl
@[simp] theorem setHold_walk (s : State) (id : PlanId) (h : PlanHold) : (s.setHold id h).plans.walk = s.plans.walk := rfl

/-! ### The request time (R77) -/

/-- A request renews a LOADING plan of its own port, and changes nothing otherwise (R77). -/
theorem touchPlan_cases (s : State) (p : Port) (bs : List Byte) :
    s.touchPlan p bs = s ∨ ∃ id c at0 ab, planOf bs = some id ∧ (s.plan id).hold = .loading c at0 ab ∧ c.opener = p
      ∧ s.touchPlan p bs = s.setHold id (.loading c s.now false) := by
  unfold State.touchPlan
  split
  · exact Or.inl rfl
  · rename_i id hid
    split
    · rename_i c at0 ab hold
      split
      · rename_i ho
        exact Or.inr ⟨id, c, at0, ab, hid, hold, ho, rfl⟩
      · exact Or.inl rfl
    · exact Or.inl rfl

/-- The opening port's request renews the plan it names. -/
theorem touchPlan_opener {s : State} {p : Port} {bs : List Byte} {id : PlanId} {c : PlanContent} {at0 : Nat} {ab : Bool}
    (hid : planOf bs = some id) (hold : (s.plan id).hold = .loading c at0 ab) (ho : c.opener = p) :
    s.touchPlan p bs = s.setHold id (.loading c s.now false) := by
  simp [State.touchPlan, hid, hold, ho]

/-- The other port's request leaves it alone. -/
theorem touchPlan_other {s : State} {p : Port} {bs : List Byte} {id : PlanId} {c : PlanContent} {at0 : Nat} {ab : Bool}
    (hid : planOf bs = some id) (hold : (s.plan id).hold = .loading c at0 ab) (ho : c.opener ≠ p) :
    s.touchPlan p bs = s := by
  simp [State.touchPlan, hid, hold, ho]

/-- A request that names a plan not LOADING changes nothing by that. -/
theorem touchPlan_notLoading {s : State} {p : Port} {bs : List Byte} {id : PlanId} (hid : planOf bs = some id)
    (hold : ∀ c at0 ab, (s.plan id).hold ≠ .loading c at0 ab) : s.touchPlan p bs = s := by
  unfold State.touchPlan
  rw [hid]
  dsimp only
  split
  · rename_i c at0 ab h
    exact absurd h (hold c at0 ab)
  · rfl

@[simp] theorem taken_touchPlan (s : State) (p : Port) (r : Request) (rest : List Request) (bs : List Byte) :
    (s.taken p r rest).touchPlan p bs = (s.touchPlan p bs).taken p r rest := by
  unfold State.touchPlan
  split
  · rfl
  · rw [taken_plan]
    split
    · split <;> rfl
    · rfl

@[simp] theorem touchPlan_refs (s : State) (p : Port) (bs : List Byte) (id : PlanId) :
    ((s.touchPlan p bs).plan id).refs = (s.plan id).refs := by
  obtain h | ⟨_, _, _, _, _, _, _, h⟩ := touchPlan_cases s p bs
  · rw [h]
  · rw [h, setHold_refs]

/-- A renewal leaves each plan's content. -/
@[simp] theorem touchPlan_content (s : State) (p : Port) (bs : List Byte) (id : PlanId) :
    ((s.touchPlan p bs).plan id).hold.content = (s.plan id).hold.content := by
  obtain h | ⟨j, c, at0, ab, _, hold, _, h⟩ := touchPlan_cases s p bs
  · rw [h]
  · rw [h, setHold_plan]
    split
    · rename_i e
      rw [e, hold]
      rfl
    · rfl

@[simp] theorem touchPlan_isVerifying (s : State) (p : Port) (bs : List Byte) (id : PlanId) :
    ((s.touchPlan p bs).plan id).hold.isVerifying = (s.plan id).hold.isVerifying := by
  obtain h | ⟨j, c, at0, ab, _, hold, _, h⟩ := touchPlan_cases s p bs
  · rw [h]
  · rw [h, setHold_plan]
    split
    · rename_i e
      rw [e, hold]
      rfl
    · rfl

@[simp] theorem touchPlan_now (s : State) (p : Port) (bs : List Byte) : (s.touchPlan p bs).now = s.now := by
  obtain h | ⟨_, _, _, _, _, _, _, h⟩ := touchPlan_cases s p bs <;> rw [h]
  rfl

@[simp] theorem touchPlan_arb (s : State) (p : Port) (bs : List Byte) : (s.touchPlan p bs).arb = s.arb := by
  obtain h | ⟨_, _, _, _, _, _, _, h⟩ := touchPlan_cases s p bs <;> rw [h]
  rfl

@[simp] theorem touchPlan_walk (s : State) (p : Port) (bs : List Byte) :
    (s.touchPlan p bs).plans.walk = s.plans.walk := by
  obtain h | ⟨_, _, _, _, _, _, _, h⟩ := touchPlan_cases s p bs <;> rw [h]
  rfl

/-- The slot that a request names is written over its renewal. -/
theorem touchPlan_setHold {s : State} {p : Port} {bs : List Byte} {id : PlanId} (hid : planOf bs = some id) (h : PlanHold) :
    (s.touchPlan p bs).setHold id h = s.setHold id h := by
  obtain e | ⟨j, c, at0, ab, hj, _, _, e⟩ := touchPlan_cases s p bs
  · rw [e]
  · rw [e]
    cases hid.symm.trans hj
    exact setHold_setHold ..

@[simp] theorem touchPlan_runOf (s : State) (p : Port) (bs : List Byte) (id : PlanId) :
    (s.touchPlan p bs).plans.runOf id = s.plans.runOf id :=
  congrArg (Option.map _) (touchPlan_content s p bs id)

theorem placeRun_congr {x y : Plans} (h : ∀ j, x.runOf j = y.runOf j) (id : PlanId) (n : Nat) :
    x.placeRun id n = y.placeRun id n := by
  have e : x.runOf = y.runOf := funext h
  simp only [Plans.placeRun, Plans.runs, e]

/-- Settles O36: the abandoned mark is set at the expiry, and the two renewals are those of `touchPlan`. -/
theorem abandonmentFollowsTheOpeningPort : Obligations.AbandonmentFollowsTheOpeningPort := by
  intro s id c at0 ab hold
  refine ⟨?expires, fun p bs hid => ⟨touchPlan_opener hid hold, touchPlan_other hid hold⟩⟩
  case expires =>
    rintro rfl
    change execPlanAbandoned id s = _
    unfold execPlanAbandoned
    rw [hold]
    rfl

/-! ### The lowest gap that fits (R78, R79) -/

/-- A range of `n` records from `b` lies in the pool and meets no run of a list. -/
def freeAt (l : List Run) (n b : Nat) : Prop := b + n ≤ 2048 ∧ ∀ q ∈ l, b + n ≤ q.base ∨ q.base + q.len ≤ b

/-- The base of the first gap from an address up that holds `n` records. -/
def firstFit (n at0 : Nat) (l : List Run) : Option Nat :=
  ((gapsFrom at0 l).find? (fun g => decide (n ≤ g.2))).map (·.1)

theorem firstFit_nil {n : Nat} (hn : 1 ≤ n) (at0 : Nat) :
    firstFit n at0 [] = if at0 + n ≤ 2048 then some at0 else none := by
  unfold firstFit gapsFrom
  rw [show Config.poolRecords = 2048 from rfl]
  by_cases h : at0 + n ≤ 2048
  · rw [if_pos h, if_pos (by omega)]
    simp
    omega
  · rw [if_neg h]
    split
    · simp
      omega
    · rfl

theorem firstFit_cons {n : Nat} (hn : 1 ≤ n) (at0 : Nat) (r : Run) (l : List Run) :
    firstFit n at0 (r :: l) = if at0 + n ≤ r.base then some at0 else firstFit n (max at0 (r.base + r.len)) l := by
  unfold firstFit
  rw [gapsFrom]
  by_cases h : at0 + n ≤ r.base
  · rw [if_pos h, if_pos (show at0 < r.base by omega)]
    rw [List.cons_append, List.find?_cons_of_pos (by simp; omega)]
    rfl
  · rw [if_neg h]
    congr 1
    rw [List.find?_append]
    split
    · rw [List.find?_cons_of_neg (by simp; omega)]
      rfl
    · rfl

/-- Among runs in order of their bases, the first gap that fits begins at the lowest free address (R79). -/
theorem firstFit_eq_some {n : Nat} (hn : 1 ≤ n) (l : List Run) : ∀ at0, (∀ q ∈ l, q.base ≤ 2048) →
    l.Pairwise (fun q u => q.base ≤ u.base) → ∀ b,
    (firstFit n at0 l = some b ↔ at0 ≤ b ∧ freeAt l n b ∧ ∀ a, at0 ≤ a → a < b → ¬freeAt l n a) := by
  induction l with
  | nil =>
    intro at0 _ _ b
    rw [firstFit_nil hn]
    simp only [freeAt, List.not_mem_nil, false_implies, implies_true, and_true]
    constructor
    · intro h
      split at h
      · cases h
        exact ⟨by omega, by omega, by omega⟩
      · cases h
    · rintro ⟨h1, h2, h3⟩
      have : b = at0 := by
        by_contra hne
        exact h3 at0 (by omega) (by omega) (by omega)
      rw [if_pos (by omega), this]
  | cons r l ih =>
    intro at0 hb hp b
    rw [List.pairwise_cons] at hp
    rw [firstFit_cons hn]
    have hr := hb r (by simp)
    split
    next hfit =>
      have hfree : freeAt (r :: l) n at0 := by
        refine ⟨by omega, fun q hq => Or.inl ?_⟩
        rcases List.mem_cons.1 hq with rfl | hq
        · exact hfit
        · have := hp.1 q hq
          omega
      constructor
      · rintro ⟨⟩
        exact ⟨le_refl _, hfree, by omega⟩
      · rintro ⟨h1, -, h3⟩
        have : ¬at0 < b := fun hlt => h3 at0 (le_refl _) hlt hfree
        rw [show b = at0 by omega]
    next hfit =>
      have hiff : ∀ a, at0 ≤ a ∧ freeAt (r :: l) n a ↔ max at0 (r.base + r.len) ≤ a ∧ freeAt l n a := by
        intro a
        simp only [freeAt, List.mem_cons, forall_eq_or_imp]
        constructor
        · rintro ⟨h1, h2, h3, h4⟩
          exact ⟨by omega, h2, h4⟩
        · rintro ⟨h1, h2, h3⟩
          exact ⟨by omega, h2, by omega, h3⟩
      rw [ih _ (fun q hq => hb q (by simp [hq])) hp.2 b, ← and_assoc, ← and_assoc, hiff b]
      refine and_congr_right fun _ => ⟨fun h a h1 h2 h3 => ?_, fun h a h1 h2 h3 => ?_⟩
      · obtain ⟨h4, h5⟩ := (hiff a).1 ⟨h1, h3⟩
        exact h a h4 h2 h5
      · obtain ⟨h4, h5⟩ := (hiff a).2 ⟨h1, h3⟩
        exact h a h4 h2 h5

theorem insertRun_bases (r : Run) (l : List Run) (hp : l.Pairwise (fun q u => q.base ≤ u.base)) :
    (insertRun r l).Pairwise (fun q u => q.base ≤ u.base) := by
  induction l with
  | nil => simp [insertRun]
  | cons a t ih =>
    rw [List.pairwise_cons] at hp
    unfold insertRun
    split
    · rename_i h
      refine List.pairwise_cons.2 ⟨fun q hq => ?_, List.pairwise_cons.2 hp⟩
      rcases List.mem_cons.1 hq with rfl | hq
      · omega
      · have := hp.1 q hq
        omega
    · rename_i h
      refine List.pairwise_cons.2 ⟨fun q hq => ?_, ih hp.2⟩
      rcases (mem_insertRun r q t).1 hq with rfl | hq
      · omega
      · exact hp.1 q hq

/-- The runs stand in order of their bases, overlapping or not. -/
theorem runs_bases (x : Plans) : x.runs.Pairwise (fun q u => q.base ≤ u.base) := by
  unfold Plans.runs
  induction planIds.filterMap x.runOf with
  | nil => exact List.Pairwise.nil
  | cons r l ih => exact insertRun_bases r _ ih

theorem runOf_plan {x : Plans} {id : PlanId} {r : Run} (h : x.runOf id = some r) : r.plan = id := by
  obtain ⟨c, -, rfl⟩ := Option.map_eq_some_iff.1 h
  rfl

/-- A range is free of every plan's run but that of `id`. -/
def Plans.freeFor (x : Plans) (id : PlanId) (n base : Nat) : Prop :=
  base + n ≤ 2048 ∧ ∀ j r, j ≠ id → x.runOf j = some r → base + n ≤ r.base ∨ r.base + r.len ≤ base

theorem freeAt_runs (x : Plans) (id : PlanId) (n b : Nat) :
    freeAt (x.runs.filter (fun r => !(r.plan == id))) n b ↔ x.freeFor id n b := by
  simp only [freeAt, Plans.freeFor, List.mem_filter, mem_runs, Bool.not_eq_true', beq_eq_false_iff_ne]
  refine and_congr_right fun _ => ⟨fun h j r hj hr => ?_, fun h q ⟨⟨j, hr⟩, hq⟩ => ?_⟩
  · exact h r ⟨⟨j, hr⟩, (runOf_plan hr).symm ▸ hj⟩
  · exact h j q (runOf_plan hr ▸ hq) hr

/-- Where the other plans' runs lie in the pool, the run placed is the lowest range free of them (R79). -/
theorem placeRun_eq_some {x : Plans} {id : PlanId} {n : Nat} (hn : 1 ≤ n)
    (hx : ∀ j r, j ≠ id → x.runOf j = some r → 1 ≤ r.len ∧ r.base + r.len ≤ 2048) (base : Nat) :
    x.placeRun id n = some base ↔ x.freeFor id n base ∧ ∀ b, b < base → ¬x.freeFor id n b := by
  have hb : ∀ q ∈ x.runs.filter (fun r => !(r.plan == id)), q.base ≤ 2048 := by
    intro q hq
    obtain ⟨hmem, hne⟩ := List.mem_filter.1 hq
    obtain ⟨j, hj⟩ := (mem_runs x q).1 hmem
    have := hx j q (by simpa [runOf_plan hj] using hne) hj
    omega
  have h := firstFit_eq_some hn _ 0 hb ((runs_bases x).filter _) base
  simp only [freeAt_runs, Nat.zero_le, true_implies, true_and] at h
  exact h

theorem placeRun_eq_none {x : Plans} {id : PlanId} {n : Nat} (hn : 1 ≤ n)
    (hx : ∀ j r, j ≠ id → x.runOf j = some r → 1 ≤ r.len ∧ r.base + r.len ≤ 2048) :
    x.placeRun id n = none ↔ ∀ b, ¬x.freeFor id n b := by
  constructor
  · intro h b
    induction b using Nat.strong_induction_on with
    | _ b ih =>
      intro hfree
      rw [(placeRun_eq_some hn hx b).2 ⟨hfree, ih⟩] at h
      cases h
  · intro h
    cases hp : x.placeRun id n with
    | none => rfl
    | some base => exact absurd ((placeRun_eq_some hn hx base).1 hp).1 (h base)

/-! ### PLAN_OPEN (R81) -/

/-- PLAN_OPEN of a plan: the checks of R81 in their order, each on the state with the request time renewed. -/
theorem planOpen_eq {p : Port} {s : State} {r : Request} {rest : List Request} {id : PlanId}
    (h : s.Ready p .planOpen r rest) (hid : planOf r.payload = some id) :
    exec (.planOpen p) s = .next
      (let u := s.touchPlan p r.payload
      let n := (headerOf r.payload).meshCount
      if n = 0 ∨ 750 < n then u.replied p r rest .range []
      else if (s.plan id).hold.isVerifying then u.replied p r rest .state []
      else if (u.plan id).hold.ownedByOther p then u.replied p r rest .owner []
      else if (s.plan id).refs.referenced then u.replied p r rest .inUse []
      else
        match s.plans.placeRun id n with
        | none => u.replied p r rest .noSpace []
        | some base =>
          (s.setHold id (.loading (newContent (headerOf r.payload) p base) s.now false)).replied p r rest .ok
            (be2 base ++ be2 n)) := by
  change execPlanOpen p s = _
  unfold execPlanOpen
  rw [serve_of_ready h]
  simp only [taken_touchPlan, hid, taken_refuse, taken_plan, touchPlan_isVerifying, touchPlan_refs, taken_plans,
    placeRun_congr (touchPlan_runOf s p r.payload), taken_now, touchPlan_now, taken_setHold, touchPlan_setHold hid,
    taken_answer] <;> rfl

/-- Settles O32: each refusal is the first check of `planOpen_eq` that fails, and the run placed is the lowest gap. -/
theorem planOpenLoadsOrRefuses : Obligations.PlanOpenLoadsOrRefuses := by
  refine ⟨?_, fun x id n hn hx => ⟨fun base => placeRun_eq_some hn hx base, placeRun_eq_none hn hx⟩⟩
  intro p s r rest id hr hid u n
  have he := planOpen_eq hr hid
  dsimp only at he
  refine ⟨fun hrange => ?range, fun h1 h2 hv => ?state, fun c t h1 h2 hold ho => ?owner, fun c h1 h2 hold href => ?inUse,
    fun h1 h2 hv hown href => ?accepted⟩
  all_goals rw [he]
  case range => rw [if_pos hrange]
  all_goals rw [if_neg (show ¬(n = 0 ∨ 750 < n) by omega)]
  case state => rw [if_pos hv]
  case owner =>
    rw [touchPlan_other hid hold ho, hold, if_neg (by simp [PlanHold.isVerifying]), if_pos (by simp [PlanHold.ownedByOther, ho])]
    simp only [u, touchPlan_other hid hold ho]
  case inUse =>
    have hu : s.touchPlan p r.payload = s := touchPlan_notLoading hid (by simp [hold])
    rw [hu, hold, if_neg (by simp [PlanHold.isVerifying]), if_neg (by simp [PlanHold.ownedByOther]), if_pos href]
    simp only [u, hu]
  case accepted =>
    rw [if_neg (by simp [hv]), if_neg (by simp [u] at hown; simp [hown]), if_neg (by simp [href])]
    refine ⟨fun hnone => ?_, fun base hsome => ?_⟩
    · rw [hnone]
    · rw [hsome]
      rfl

end Sys2Proof.Machine
end

section
/-! SUPPORT. What the invariants of the plans in use read of the state: the plan slots, what the leases claim, the view
settings, and the plan pinned. Each operation of the other blocks leaves it alone. -/

namespace Sys2Proof.Machine

/-- A lease with its times, its mark and its phase set aside: its handle, holder, level and plan are left (R96). -/
def Lease.claim (l : Lease) : Lease :=
  { l with duration := 0, remaining := none, seq := 0, shown := false, phase := none }

/-- The plan that the composition in flight draws (R90, R116). -/
def State.pinnedPlan (s : State) : Option PlanId := s.composer.bind (fun x => x.view.plan)

/-- What `plansOk` and `runsOk` read of the state. -/
def State.stake (s : State) : Quad PlanSlot × List Lease × ViewSettings × Option PlanId :=
  (s.plans.slots, s.leases.table.map Lease.claim, s.leases.settings, s.pinnedPlan)

/-! ### Operations that leave it alone -/

/-- The stake is read off the plan slots, the leases and the composition: what else is replaced leaves it alone. -/
theorem stake_others (s : State) (pending : List Instr) (now : Nat) (mem : Memory) (chain : Chain) (lanes : Quad Lane)
    (capture : Capture) (balance : Balance) (arb : Arb) (view : ViewLane) (log : RecordLog) (ports : Duo PortState)
    (power : Power) :
    ({ s with
      pending := pending, now := now, mem := mem, chain := chain, lanes := lanes, capture := capture, balance := balance
      arb := arb, view := view, log := log, ports := ports, power := power } : State).stake = s.stake := rfl

/-- The operations of the chain, the lanes and the capture sets leave the stake alone. -/
theorem stake_of_sansPipe {s t : State} (h : t.sansPipe = s.sansPipe) : t.stake = s.stake := by
  have e : t.sansPipe.stake = s.sansPipe.stake := congrArg State.stake h
  exact e

theorem sansWalk_stake (s : State) : s.sansWalk.stake = s.stake := by
  have h : s.sansWalk.pinnedPlan = s.pinnedPlan := by
    unfold State.pinnedPlan State.sansWalk
    cases s.composer <;> rfl
  unfold State.stake
  rw [h]
  rfl

/-- The operations of the Composer's walk leave it alone. -/
theorem stake_of_sansWalk {s t : State} (h : t.sansWalk = s.sansWalk) : t.stake = s.stake := by
  rw [← sansWalk_stake t, h, sansWalk_stake]

/-- A composition put in flight changes the plan pinned alone. -/
theorem stake_withComposer (s : State) (x : Context) (h : s.pinnedPlan = x.view.plan) :
    ({ s with composer := some x } : State).stake = s.stake := by
  unfold State.stake
  rw [h]
  rfl

section stake
variable (s : State)

@[simp] theorem answer_stake (p : Port) (c : Code) (bs : List Byte) : (s.answer p c bs).stake = s.stake := by
  obtain ⟨x, h⟩ := answer_frame s p c bs
  rw [h]
  rfl

@[simp] theorem refuse_stake (p : Port) (c : Code) : (s.refuse p c).stake = s.stake := answer_stake s p c []

@[simp] theorem taken_stake (p : Port) (r : Request) (rest : List Request) : (s.taken p r rest).stake = s.stake := rfl

@[simp] theorem onPort_stake (p : Port) (f : PortState → PortState) : (s.onPort p f).stake = s.stake := rfl

@[simp] theorem raise_stake (p : Port) (k : NoticeKind) : (s.raise p k).stake = s.stake := rfl

@[simp] theorem raiseBoth_stake (k : NoticeKind) : (s.raiseBoth k).stake = s.stake := rfl

@[simp] theorem raiseLease_stake (h : LeaseHolder) : (s.raiseLease h).stake = s.stake := by
  unfold State.raiseLease
  split <;> rfl

@[simp] theorem elapse_stake (dt : Nat) : (s.elapse dt).stake = s.stake := by
  have h : (s.elapse dt).leases.table.map Lease.claim = s.leases.table.map Lease.claim := by
    rw [State.elapse, Leases.elapse, List.map_map]
    rfl
  unfold State.stake
  rw [h]
  rfl

@[simp] theorem runTo_stake (t : Nat) : (s.runTo t).stake = s.stake := elapse_stake s _

@[simp] theorem grant_stake : s.grant.stake = s.stake := stake_of_sansPipe (grant_sansPipe s)

/-- A lease updated in what is not its claim leaves the stake alone. -/
theorem leasesUpdate_stake (h : Nat) (f : Lease → Lease) (hf : ∀ l, (f l).claim = l.claim) :
    ({ s with leases := s.leases.update h f } : State).stake = s.stake := by
  have e : (s.leases.update h f).table.map Lease.claim = s.leases.table.map Lease.claim := by
    rw [Leases.update, List.map_map]
    refine List.map_congr_left fun l _ => ?_
    simp only [Function.comp_apply]
    split
    · exact hf l
    · rfl
  unfold State.stake
  rw [e]
  rfl

/-- Marks set on leases leave it alone (R100). -/
theorem withShown_stake (f : Lease → Bool) (last : LastView) :
    ({ s with leases := { s.leases with
        table := s.leases.table.map (fun l => { l with shown := f l }), lastView := last } } : State).stake = s.stake := by
  simp only [State.stake, List.map_map]
  rfl

@[simp] theorem showView_stake : s.showView.stake = s.stake := by
  unfold State.showView
  dsimp only
  split
  · exact withShown_stake s _ _
  · exact withShown_stake s _ _

@[simp] theorem appendRecord_stake (x : Context) (n : Nat) (ab : Bool) : (s.appendRecord x n ab).stake = s.stake := by
  obtain ⟨⟨pp, h⟩, -⟩ := appendRecord_frame s x n ab
  rw [h]
  rfl

/-- A tile begun keeps the plan that is drawn. -/
theorem beginTile_stake {x : Context} (h : s.pinnedPlan = x.view.plan) : (s.beginTile x).stake = s.stake :=
  (stake_of_sansWalk (beginTile_sansWalk s x)).trans (stake_withComposer s x h)

theorem beginRow_stake {x : Context} (h : s.pinnedPlan = x.view.plan) : (s.beginRow x).stake = s.stake :=
  (stake_of_sansWalk (beginRow_sansWalk s x)).trans (stake_withComposer s x h)

/-- A request whose rule leaves the stake alone does so where it is served. -/
theorem serve_stake (p : Port) (k : RequestKind) {body : List Byte → State → State}
    (h : ∀ bs t, (body bs t).stake = t.stake) : (s.serve p k body).stake = s.stake := by
  obtain e | ⟨r, rest, -, e⟩ := serve_cases s p k body
  · rw [e]
  · rw [e, h, taken_stake]

end stake

end Sys2Proof.Machine
end

section
/-! SUPPORT. The invariants of the plans in use read off the stake, and the operations of the Plan Store, the Lease Arbiter and
the Composer that change it: each keeps the invariants. -/

namespace Sys2Proof.Machine

/-! ### The invariants, read off the stake -/

/-- Two leases of one table: another handle, and no second line lease or second lease of a port at a level (R96). -/
def Lease.apart (l m : Lease) : Prop :=
  l.handle ≠ m.handle ∧ (l.holder = m.holder → l.holder ≠ .line ∧ l.level ≠ m.level)

/-- The reference record that a plan has by the leases, the settings and the composition in flight (R89). -/
def State.refsOf (s : State) (id : PlanId) : PlanRefs :=
  { leases := s.leases.table.countP (fun l => l.plan == id)
    fallback := decide (s.leases.settings.fallback = some id)
    reverse := decide (s.leases.settings.reverse = some id)
    pinned := decide (s.pinnedPlan = some id) }

/-- A lease, a setting or the composition in flight names the plan (R89). -/
def State.names (s : State) (id : PlanId) : Prop :=
  (∃ l ∈ s.leases.table, l.plan = id) ∨ s.leases.settings.fallback = some id ∨ s.leases.settings.reverse = some id
    ∨ s.pinnedPlan = some id

theorem refsOf_referenced (s : State) (id : PlanId) : (s.refsOf id).referenced = true ↔ s.names id := by
  have hc : 1 ≤ s.leases.table.countP (fun l => l.plan == id) ↔ ∃ l ∈ s.leases.table, l.plan = id := by
    rw [Nat.one_le_iff_ne_zero, ← Nat.pos_iff_ne_zero, List.countP_pos_iff]
    simp only [beq_iff_eq]
  simp only [PlanRefs.referenced, State.refsOf, State.names, Bool.or_eq_true, decide_eq_true_eq, hc, or_assoc]

theorem planRefs_eq_iff (a b : PlanRefs) : a = b ↔
    a.leases = b.leases ∧ a.fallback = b.fallback ∧ a.reverse = b.reverse ∧ a.pinned = b.pinned := by
  cases a
  cases b
  simp

theorem refsFollow_iff (s : State) : s.refsFollow ↔ ∀ id, (s.plan id).refs = s.refsOf id :=
  forall_congr' fun id => (planRefs_eq_iff (s.plan id).refs (s.refsOf id)).symm

/-- The invariant: the table in order, every reference record as its users make it, and every plan named VERIFIED. -/
theorem plansOk_iff (s : State) : s.plansOk ↔ s.leases.tableOk ∧ s.leases.settings.lineLevel ≤ 3
    ∧ (∀ id, (s.plan id).refs = s.refsOf id) ∧ ∀ id, s.names id → (s.plan id).hold.isVerified = true := by
  unfold State.plansOk State.referencedVerified
  rw [refsFollow_iff]
  refine and_congr_right fun _ => and_congr_right fun _ => and_congr_right fun h => forall_congr' fun id => ?_
  rw [h id, refsOf_referenced]

theorem tableOk_iff_claims (x : Leases) : x.tableOk ↔
    (x.table.map Lease.claim).Pairwise Lease.apart ∧ ∀ l ∈ x.table.map Lease.claim, l.level ≤ 3 := by
  rw [List.pairwise_map, List.forall_mem_map]
  rfl

theorem refsOf_of_stake {s t : State} (h : t.stake = s.stake) (id : PlanId) : t.refsOf id = s.refsOf id := by
  have hc : ∀ u : State, u.leases.table.countP (fun l => l.plan == id)
      = (u.leases.table.map Lease.claim).countP (fun l => l.plan == id) := fun u => by
    rw [List.countP_map]
    rfl
  have htable : t.leases.table.map Lease.claim = s.leases.table.map Lease.claim := congrArg (·.2.1) h
  have hset : t.leases.settings = s.leases.settings := congrArg (·.2.2.1) h
  have hpin : t.pinnedPlan = s.pinnedPlan := congrArg (·.2.2.2) h
  simp only [State.refsOf, hc, htable, hset, hpin]

theorem names_of_stake {s t : State} (h : t.stake = s.stake) (id : PlanId) : t.names id ↔ s.names id := by
  rw [← refsOf_referenced, refsOf_of_stake h, refsOf_referenced]

/-- The invariant of the plans in use is one of the stake. -/
theorem plansOk_of_stake {s t : State} (h : t.stake = s.stake) (hs : s.plansOk) : t.plansOk := by
  obtain ⟨htable, hlevel, hrefs, hver⟩ := (plansOk_iff s).1 hs
  have hslots : t.plans.slots = s.plans.slots := congrArg (·.1) h
  have hclaims : t.leases.table.map Lease.claim = s.leases.table.map Lease.claim := congrArg (·.2.1) h
  have hset : t.leases.settings = s.leases.settings := congrArg (·.2.2.1) h
  have hplan : ∀ id, t.plan id = s.plan id := fun id => congrArg (fun q => q.get id) hslots
  refine (plansOk_iff t).2 ⟨?_, hset ▸ hlevel, fun id => ?_, fun id hn => ?_⟩
  · rw [tableOk_iff_claims, hclaims, ← tableOk_iff_claims]
    exact htable
  · rw [hplan, hrefs, refsOf_of_stake h]
  · rw [hplan]
    exact hver id ((names_of_stake h id).1 hn)

theorem runOf_of_hold {s t : State} {id : PlanId} (h : (t.plan id).hold = (s.plan id).hold) :
    t.plans.runOf id = s.plans.runOf id :=
  congrArg (fun x : PlanHold => x.content.map _) h

/-- The runs are those of what the plans hold. -/
theorem runsOk_of_hold {s t : State} (h : ∀ id, (t.plan id).hold = (s.plan id).hold) (hs : s.runsOk) : t.runsOk := by
  have e : t.plans.runOf = s.plans.runOf := funext fun id => runOf_of_hold (h id)
  unfold State.runsOk
  rw [e]
  exact hs

/-- `t` has the invariants of the plans that `s` has. -/
def State.keepsPlans (s t : State) : Prop := (s.plansOk → t.plansOk) ∧ (s.runsOk → t.runsOk)

theorem keepsPlans_refl (s : State) : s.keepsPlans s := ⟨id, id⟩

theorem keepsPlans_trans {s t u : State} (h : s.keepsPlans t) (g : t.keepsPlans u) : s.keepsPlans u :=
  ⟨g.1 ∘ h.1, g.2 ∘ h.2⟩

theorem keepsPlans_of_stake {s t : State} (h : t.stake = s.stake) : s.keepsPlans t :=
  ⟨plansOk_of_stake h, runsOk_of_hold fun id => congrArg (fun q => (Quad.get q.1 id).hold) h⟩

/-! ### What a plan slot holds -/

/-- A plan that is not named, or VERIFIED anew, may be given another state. -/
theorem setHold_plansOk {s : State} {id : PlanId} {g : PlanHold} (hs : s.plansOk)
    (hg : s.names id → g.isVerified = true) : (s.setHold id g).plansOk := by
  obtain ⟨htable, hlevel, hrefs, hver⟩ := (plansOk_iff s).1 hs
  refine (plansOk_iff _).2 ⟨htable, hlevel, fun j => ?_, fun j hn => ?_⟩
  · rw [setHold_refs]
    exact hrefs j
  · rw [setHold_plan]
    split
    · rename_i e
      exact hg (e ▸ hn)
    · exact hver j hn

/-- A plan not referenced is named by nothing. -/
theorem not_names_of_refs {s : State} {id : PlanId} (hs : s.plansOk) (h : (s.plan id).refs.referenced = false) :
    ¬s.names id := by
  obtain ⟨-, -, hrefs, -⟩ := (plansOk_iff s).1 hs
  rw [← refsOf_referenced, ← hrefs, h]
  decide

/-- A plan that is not VERIFIED is named by nothing (R89). -/
theorem not_names_of_hold {s : State} {id : PlanId} (hs : s.plansOk) (h : (s.plan id).hold.isVerified = false) :
    ¬s.names id := by
  obtain ⟨-, -, -, hver⟩ := (plansOk_iff s).1 hs
  intro hn
  rw [hver id hn] at h
  cases h

theorem setHold_runOf (s : State) (id j : PlanId) (g : PlanHold) :
    (s.setHold id g).plans.runOf j =
      if j = id then g.content.map (fun c => { base := c.base, len := c.header.meshCount, plan := id })
      else s.plans.runOf j := by
  have h : (s.setHold id g).plans.slots.get j = if j = id then { s.plan id with hold := g } else s.plan j :=
    setHold_plan s id j g
  unfold Plans.runOf
  rw [h]
  split
  · rename_i e
    rw [e]
  · rfl

/-- A plan's run may be replaced by one in the pool that is free of the other plans' runs (R78). -/
theorem setHold_runsOk {s : State} {id : PlanId} {g : PlanHold} (hs : s.runsOk)
    (hg : ∀ c, g.content = some c → 1 ≤ c.header.meshCount ∧ s.plans.freeFor id c.header.meshCount c.base) :
    (s.setHold id g).runsOk := by
  obtain ⟨hpool, hapart⟩ := hs
  have hnew : ∀ r, (s.setHold id g).plans.runOf id = some r →
      1 ≤ r.len ∧ s.plans.freeFor id r.len r.base := by
    intro r hr
    rw [setHold_runOf, if_pos rfl] at hr
    obtain ⟨c, hc, rfl⟩ := Option.map_eq_some_iff.1 hr
    exact hg c hc
  have hold : ∀ j r, j ≠ id → (s.setHold id g).plans.runOf j = some r → s.plans.runOf j = some r := by
    intro j r hj hr
    rwa [setHold_runOf, if_neg hj] at hr
  refine ⟨fun j r hr => ?_, fun i j r q hij hr hq => ?_⟩
  · by_cases hj : j = id
    · subst hj
      exact ⟨(hnew r hr).1, (hnew r hr).2.1⟩
    · exact hpool j r (hold j r hj hr)
  · by_cases hi : i = id
    · subst hi
      exact (hnew r hr).2.2 j q hij.symm (hold j q hij.symm hq)
    · by_cases hj : j = id
      · subst hj
        exact ((hnew q hq).2.2 i r hij (hold i r hij hr)).symm
      · exact hapart i j r q hij (hold i r hi hr) (hold j q hj hq)

/-- The run's base and length of a plan's content. -/
def PlanContent.place (c : PlanContent) : Nat × Nat := (c.base, c.header.meshCount)

/-- A plan that is not VERIFIED may go to any state on the same run. -/
theorem setHold_keepsPlans {s : State} {id : PlanId} {g : PlanHold} (hv : (s.plan id).hold.isVerified = false)
    (hg : g.content.map PlanContent.place = (s.plan id).hold.content.map PlanContent.place) :
    s.keepsPlans (s.setHold id g) := by
  refine ⟨fun hs => setHold_plansOk hs fun hn => absurd hn (not_names_of_hold hs hv), fun hs =>
    setHold_runsOk hs fun c hc => ?_⟩
  rw [hc] at hg
  obtain ⟨d, hd, hcd⟩ := Option.map_eq_some_iff.1 hg.symm
  obtain ⟨hbase, hlen⟩ : d.base = c.base ∧ d.header.meshCount = c.header.meshCount := by
    simpa [PlanContent.place] using hcd
  have hr : s.plans.runOf id = some { base := c.base, len := c.header.meshCount, plan := id } := by
    rw [← hbase, ← hlen]
    exact congrArg (Option.map _) hd
  obtain ⟨hpool, hapart⟩ := hs
  exact ⟨(hpool id _ hr).1, (hpool id _ hr).2, fun j q hj hq => hapart id j _ q hj.symm hr hq⟩

/-- A plan that nothing references may be emptied (R91). -/
theorem discard_keepsPlans {s : State} {id : PlanId} (h : (s.plan id).refs.referenced = false) :
    s.keepsPlans (s.setHold id .empty) :=
  ⟨fun hs => setHold_plansOk hs fun hn => absurd hn (not_names_of_refs hs h), fun hs =>
    setHold_runsOk hs fun _ hc => nomatch hc⟩

/-- A plan that nothing references may be loaded anew on the run placed for it (R79, R81). -/
theorem open_keepsPlans {s : State} {id : PlanId} {h : Header} {p : Port} {base at0 : Nat} {ab : Bool}
    (href : (s.plan id).refs.referenced = false) (hn : 1 ≤ h.meshCount)
    (hp : s.plans.placeRun id h.meshCount = some base) :
    s.keepsPlans (s.setHold id (.loading (newContent h p base) at0 ab)) := by
  refine ⟨fun hs => setHold_plansOk hs fun hn => absurd hn (not_names_of_refs hs href), fun hs =>
    setHold_runsOk hs fun c hc => ?_⟩
  cases hc
  exact ⟨hn, ((placeRun_eq_some hn (fun j r _ hr => hs.1 j r hr) base).1 hp).1⟩

theorem touchPlan_keepsPlans (s : State) (p : Port) (bs : List Byte) : s.keepsPlans (s.touchPlan p bs) := by
  obtain h | ⟨id, c, at0, ab, -, hold, -, h⟩ := touchPlan_cases s p bs
  · rw [h]
    exact keepsPlans_refl s
  · rw [h]
    exact setHold_keepsPlans (by rw [hold]; rfl) (by rw [hold]; rfl)

/-! ### Leases -/

/-- The place of a lease among those that can live at once: a level of a port, or the line (R96). -/
def Lease.place (l : Lease) : Nat :=
  match l.holder with
  | .port .cp => l.level
  | .port .mp => 4 + l.level
  | .line => 8

theorem place_ne {l m : Lease} (h : l.apart m) (hl : l.level ≤ 3) (hm : m.level ≤ 3) : l.place ≠ m.place := by
  obtain ⟨-, h⟩ := h
  unfold Lease.place
  cases ha : l.holder with
  | line =>
    cases hb : m.holder with
    | line => exact absurd ha (h (ha.trans hb.symm)).1
    | port q => cases q <;> dsimp only <;> omega
  | port p =>
    cases hb : m.holder with
    | line => cases p <;> dsimp only <;> omega
    | port q =>
      cases p <;> cases q <;> dsimp only
      · exact (h (ha.trans hb.symm)).2
      · omega
      · omega
      · have := (h (ha.trans hb.symm)).2
        omega

/-- At most nine leases live at once (R96). -/
theorem table_length_le {x : Leases} (h : x.tableOk) : x.table.length ≤ 9 := by
  obtain ⟨hapart, hlevel⟩ := h
  have hnodup : (x.table.map Lease.place).Nodup :=
    List.pairwise_map.2 (hapart.imp_of_mem fun hl hm h => place_ne h (hlevel _ hl) (hlevel _ hm))
  have hsub : x.table.map Lease.place ⊆ List.range 9 := by
    intro n hn
    obtain ⟨l, hl, rfl⟩ := List.mem_map.1 hn
    have := hlevel l hl
    rw [List.mem_range]
    unfold Lease.place
    split <;> omega
  have := (List.subperm_of_subset hnodup hsub).length_le
  simpa using this

/-- The counting of handles from one on meets each of the 255 once (R96). -/
theorem handleAfter_nodup (h : Nat) : ((List.range 255).map (handleAfter h)).Nodup := by
  refine List.Nodup.map_on (fun i hi j hj e => ?_) List.nodup_range
  rw [List.mem_range] at hi hj
  unfold handleAfter at e
  omega

/-- No live lease bears the handle that a new one takes (R96). -/
theorem nextHandle_fresh {x : Leases} (h : x.tableOk) : x.bears x.nextHandle = false := by
  unfold Leases.nextHandle
  cases hf : ((List.range 255).map (handleAfter x.handleCtr)).find? (fun n => !x.bears n) with
  | some n => simpa using List.find?_some hf
  | none =>
    exfalso
    have hsub : (List.range 255).map (handleAfter x.handleCtr) ⊆ x.table.map Lease.handle := by
      intro n hn
      have hb : x.bears n = true := by simpa using List.find?_eq_none.1 hf n hn
      obtain ⟨l, hl, he⟩ := List.any_eq_true.1 hb
      exact List.mem_map.2 ⟨l, hl, by simpa using he⟩
    have h1 := (List.subperm_of_subset (handleAfter_nodup _) hsub).length_le
    have h2 := table_length_le h
    simp only [List.length_map, List.length_range] at h1
    omega

/-- A lease at a free level of its holder, on a VERIFIED plan, may join the table (R96). -/
theorem joinLease_keepsPlans {s : State} {holder : LeaseHolder} {level : Nat} {plan : PlanId} {d : Nat} {rem : Option Nat}
    {ph : Option LinePhase} (hlv : s.plansOk → level ≤ 3) (hv : s.plansOk → (s.plan plan).hold.isVerified = true)
    (hfree : ∀ m ∈ s.leases.table, m.holder = holder → holder ≠ .line ∧ m.level ≠ level) :
    s.keepsPlans (s.joinLease holder level plan d rem ph) := by
  refine ⟨fun hs => ?_, runsOk_of_hold fun id => onRefs_hold ..⟩
  obtain ⟨⟨hapart, hlevels⟩, hline, hrefs, hver⟩ := (plansOk_iff s).1 hs
  have hfresh := nextHandle_fresh ⟨hapart, hlevels⟩
  refine (plansOk_iff _).2 ⟨⟨?apart, ?levels⟩, hline, fun j => ?refs, fun j hn => ?verified⟩
  case apart =>
    refine List.pairwise_append.2 ⟨hapart, List.pairwise_singleton _ _, fun m hm l hl => ?_⟩
    obtain rfl := List.mem_singleton.1 hl
    refine ⟨fun e => ?_, fun e => ?_⟩
    · have hne := List.any_eq_false.1 hfresh m hm
      simp [e] at hne
    · obtain ⟨h1, h2⟩ := hfree m hm e
      exact ⟨e ▸ h1, h2⟩
  case levels =>
    intro l hl
    rcases List.mem_append.1 hl with hl | hl
    · exact hlevels l hl
    · obtain rfl := List.mem_singleton.1 hl
      exact hlv hs
  case refs =>
    have hr : (s.joinLease holder level plan d rem ph).refsOf j =
        { s.refsOf j with leases := (s.refsOf j).leases + if plan = j then 1 else 0 } := by
      simp only [State.refsOf, PlanRefs.mk.injEq]
      refine ⟨?_, rfl, rfl, rfl⟩
      change (s.leases.table ++ [_]).countP _ = _
      rw [List.countP_append, List.countP_singleton]
      simp only [beq_iff_eq]
    rw [hr, ← hrefs j]
    have hp : (s.joinLease holder level plan d rem ph).plan j = _ := onRefs_plan _ plan j _
    rw [hp]
    split
    · rename_i e
      subst e
      rw [if_pos rfl]
      rfl
    · rename_i e
      rw [if_neg fun k => e k.symm]
      rfl
  case verified =>
    have hh : ((s.joinLease holder level plan d rem ph).plan j).hold = (s.plan j).hold := onRefs_hold ..
    rw [hh]
    rcases hn with ⟨l, hl, hj⟩ | hn
    · rcases List.mem_append.1 hl with hl | hl
      · exact hver j (Or.inl ⟨l, hl, hj⟩)
      · obtain rfl := List.mem_singleton.1 hl
        exact hj ▸ hv hs
    · exact hver j (Or.inr hn)

/-- The leases of other handles, where the handles differ, are all but the one that bears it. -/
theorem countP_filter_handle {table : List Lease} {m : Lease} (hapart : table.Pairwise Lease.apart) (hm : m ∈ table)
    (f : Lease → Bool) :
    table.countP f = (table.filter (fun l => !(l.handle == m.handle))).countP f + if f m then 1 else 0 := by
  obtain ⟨a, b, rfl⟩ := List.append_of_mem hm
  obtain ⟨-, hb, hab⟩ := List.pairwise_append.1 hapart
  have ha : ∀ l ∈ a, !(l.handle == m.handle) := fun l hl => by simpa using (hab l hl m (by simp)).1
  have hb : ∀ l ∈ b, !(l.handle == m.handle) := fun l hl => by
    simpa using ((List.pairwise_cons.1 hb).1 l hl).1.symm
  rw [List.filter_append, List.filter_eq_self.2 ha, List.filter_cons_of_neg (by simp), List.filter_eq_self.2 hb,
    List.countP_append, List.countP_append, List.countP_cons]
  omega

/-- A lease of the table may leave it (R96). -/
theorem removeLease_keepsPlans {s : State} {l : Lease}
    (hl : s.plansOk → ∃ m ∈ s.leases.table, m.handle = l.handle ∧ m.plan = l.plan) :
    s.keepsPlans (s.removeLease l) := by
  refine ⟨fun hs => ?_, runsOk_of_hold fun id => onRefs_hold ..⟩
  obtain ⟨m, hm, hhandle, hplan⟩ := hl hs
  obtain ⟨⟨hapart, hlevels⟩, hline, hrefs, hver⟩ := (plansOk_iff s).1 hs
  have htable : (s.removeLease l).leases.table = s.leases.table.filter (fun k => !(k.handle == m.handle)) := by
    rw [hhandle]
    rfl
  refine (plansOk_iff _).2 ⟨⟨?apart, ?levels⟩, hline, fun j => ?refs, fun j hn => ?verified⟩
  case apart =>
    rw [htable]
    exact hapart.filter _
  case levels =>
    rw [htable]
    exact fun k hk => hlevels k (List.mem_filter.1 hk).1
  case refs =>
    have hr : (s.removeLease l).refsOf j =
        { s.refsOf j with leases := (s.refsOf j).leases - if l.plan = j then 1 else 0 } := by
      simp only [State.refsOf, PlanRefs.mk.injEq]
      refine ⟨?_, rfl, rfl, rfl⟩
      rw [htable, countP_filter_handle hapart hm, hplan]
      simp only [beq_iff_eq]
      omega
    rw [hr, ← hrefs j]
    have hp : (s.removeLease l).plan j = _ := onRefs_plan _ l.plan j _
    rw [hp]
    split
    · rename_i e
      subst e
      rw [if_pos rfl]
      rfl
    · rename_i e
      rw [if_neg fun k => e k.symm]
      rfl
  case verified =>
    have hh : ((s.removeLease l).plan j).hold = (s.plan j).hold := onRefs_hold ..
    rw [hh]
    refine hver j ?_
    rcases hn with ⟨k, hk, hj⟩ | hn
    · rw [htable] at hk
      exact Or.inl ⟨k, (List.mem_filter.1 hk).1, hj⟩
    · exact Or.inr hn

end Sys2Proof.Machine
end

section
/-! SUPPORT. The operations that change the lease table, the view settings and the composition keep the invariants of the plans
in use. -/

namespace Sys2Proof.Machine

/-! ### Leases removed, the line lease, standby entry -/

theorem raiseLease_keepsPlans (s : State) (h : LeaseHolder) : s.keepsPlans (s.raiseLease h) :=
  keepsPlans_of_stake (raiseLease_stake s h)

/-- Leases of the table, of different handles, may leave it one after another. -/
theorem dropLeases_plansOk (ls : List Lease) : ∀ s : State, (∀ l ∈ ls, l ∈ s.leases.table) → ls.Pairwise Lease.apart →
    s.plansOk → (ls.foldl State.dropLease s).plansOk := by
  induction ls with
  | nil => exact fun s _ _ hs => hs
  | cons a ls ih =>
    intro s hmem hp hs
    obtain ⟨ha, hp⟩ := List.pairwise_cons.1 hp
    refine ih (s.dropLease a) (fun l hl => ?_) hp ?_
    · rw [dropLease_leases]
      exact List.mem_filter.2 ⟨hmem l (by simp [hl]), by simpa using (ha l hl).1.symm⟩
    · exact (raiseLease_keepsPlans _ _).1 ((removeLease_keepsPlans fun _ => ⟨a, hmem a (by simp), rfl, rfl⟩).1 hs)

theorem removeLeases_keepsPlans (s : State) : s.keepsPlans s.removeLeases := by
  refine ⟨fun hs => ?_, runsOk_of_hold fun id => ?_⟩
  · exact dropLeases_plansOk s.leases.table s (fun _ h => h) hs.1.1 hs
  · exact (dropLeases s.leases.table s).2.1 id

theorem enterStandby_keepsPlans (s : State) : s.keepsPlans s.enterStandby := by
  unfold State.enterStandby
  extract_lets a b
  have ha : s.keepsPlans a := keepsPlans_of_stake (stake_of_sansPipe (reportAll_sansPipe s))
  have hb : a.keepsPlans b :=
    keepsPlans_trans (keepsPlans_of_stake (stake_others a ..)) (removeLeases_keepsPlans _)
  clear_value a b
  exact keepsPlans_trans ha (keepsPlans_trans hb (keepsPlans_of_stake (stake_others b ..)))

theorem takeEntry_keepsPlans (s : State) : s.keepsPlans s.takeEntry := by
  unfold State.takeEntry
  split
  · exact enterStandby_keepsPlans s
  · exact keepsPlans_refl s

theorem beginEntry_keepsPlans (s : State) : s.keepsPlans s.beginEntry := by
  unfold State.beginEntry
  exact keepsPlans_trans (keepsPlans_of_stake (stake_others s ..)) (takeEntry_keepsPlans _)

theorem lineLease_mem {x : Leases} {l : Lease} (h : x.lineLease = some l) : l ∈ x.table := List.mem_of_find?_eq_some h

/-- Without a line lease no lease is of the line. -/
theorem holder_ne_line {x : Leases} (h : x.lineLease = none) {m : Lease} (hm : m ∈ x.table) : m.holder ≠ .line := by
  simpa using List.find?_eq_none.1 h m hm

/-- An activation's line lease is of the reverse plan, which a setting names (R103, R106). -/
theorem activate_keepsPlans (s : State) : s.keepsPlans s.activate := by
  unfold State.activate
  dsimp only
  split
  next hnone =>
    split
    next => exact keepsPlans_of_stake rfl
    next plan hrev =>
      refine keepsPlans_trans (keepsPlans_of_stake (t := { s with leases := { s.leases with handed := true } }) rfl)
        (joinLease_keepsPlans (fun hs => hs.2.1) (fun hs => ?_) fun m hm e => absurd e (holder_ne_line hnone hm))
      obtain ⟨-, -, -, hver⟩ := (plansOk_iff _).1 hs
      exact hver plan (Or.inr (Or.inr (Or.inl hrev)))
  next l hl =>
    split
    · exact keepsPlans_of_stake (leasesUpdate_stake { s with leases := { s.leases with handed := true } } _ _ fun _ => rfl)
    · exact keepsPlans_of_stake rfl

theorem inactivate_keepsPlans (s : State) : s.keepsPlans s.inactivate := by
  unfold State.inactivate
  dsimp only
  split
  next => exact keepsPlans_of_stake rfl
  next l hl =>
    split
    · split
      · exact keepsPlans_trans (keepsPlans_of_stake (t := { s with leases := { s.leases with handed := false } }) rfl)
          (removeLease_keepsPlans fun _ => ⟨l, lineLease_mem hl, rfl, rfl⟩)
      · exact keepsPlans_of_stake (leasesUpdate_stake { s with leases := { s.leases with handed := false } } _ _ fun _ => rfl)
    · exact keepsPlans_of_stake rfl

theorem handLevel_keepsPlans (s : State) : s.keepsPlans s.handLevel := by
  unfold State.handLevel
  split
  · exact activate_keepsPlans s
  · exact keepsPlans_refl s

theorem enterRun_keepsPlans (s : State) : s.keepsPlans s.enterRun := by
  unfold State.enterRun
  generalize hu : State.raiseBoth _ _ = u
  have hs : s.keepsPlans u := keepsPlans_of_stake (hu ▸ stake_others s ..)
  refine keepsPlans_trans hs (keepsPlans_trans (handLevel_keepsPlans u) (keepsPlans_of_stake (stake_of_sansPipe ?_)))
  rw [sendStrobe_sansPipe, camerasOn_sansPipe]

theorem wakeEvent_keepsPlans (s : State) : s.keepsPlans s.wakeEvent := by
  unfold State.wakeEvent
  split
  · exact enterRun_keepsPlans s
  · split
    · exact keepsPlans_of_stake rfl
    · exact keepsPlans_refl s
  · exact keepsPlans_refl s

/-- The debounced level changed, and its count cleared (R183). -/
def State.leveled (s : State) : State := { s with power := { s.power with level := !s.power.level, count := 0 } }

/-- The change handed to the Lease Arbiter, and the idle timer reloaded (R103, R104, R184). -/
def State.lineTold (s : State) (active : Bool) : State :=
  let u := if active then s.activate else s.inactivate
  { u with power := u.power.reloadIdle }

/-- An active level is a wake event where LINE wake is on (R186). -/
def State.lineWoken (s : State) (active : Bool) : State := if active && s.power.lineWake then s.wakeEvent else s

theorem levelChange_eq (s : State) : s.levelChange =
    match s.power.state with
    | .starting => s.leveled
    | .standby => s.leveled.lineWoken (!s.power.level)
    | .run => (s.leveled.lineTold (!s.power.level)).lineWoken (!s.power.level) := rfl

theorem lineTold_keepsPlans (s : State) (active : Bool) : s.keepsPlans (s.lineTold active) := by
  have h : s.keepsPlans (if active then s.activate else s.inactivate) := by
    split
    · exact activate_keepsPlans s
    · exact inactivate_keepsPlans s
  exact keepsPlans_trans h (keepsPlans_of_stake (stake_others ..))

theorem lineWoken_keepsPlans (s : State) (active : Bool) : s.keepsPlans (s.lineWoken active) := by
  unfold State.lineWoken
  split
  · exact wakeEvent_keepsPlans s
  · exact keepsPlans_refl s

theorem levelChange_keepsPlans (s : State) : s.keepsPlans s.levelChange := by
  have h : s.keepsPlans s.leveled := keepsPlans_of_stake (stake_others s ..)
  rw [levelChange_eq]
  split
  · exact h
  · exact keepsPlans_trans h (lineWoken_keepsPlans ..)
  · exact keepsPlans_trans h (keepsPlans_trans (lineTold_keepsPlans ..) (lineWoken_keepsPlans ..))

/-! ### The view settings -/

/-- A mark of the plan that a setting names, if it names one, set to a value. -/
def State.markPlan (s : State) (set : Bool → PlanRefs → PlanRefs) (x : Option PlanId) (b : Bool) : State :=
  match x with
  | some id => s.onRefs id (set b)
  | none => s

theorem markPlan_plan (s : State) (set : Bool → PlanRefs → PlanRefs) (x : Option PlanId) (b : Bool) (id : PlanId) :
    (s.markPlan set x b).plan id =
      if x = some id then { s.plan id with refs := set b (s.plan id).refs } else s.plan id := by
  unfold State.markPlan
  cases x with
  | none => rw [if_neg (Option.some_ne_none id).symm]
  | some j =>
    dsimp only
    rw [onRefs_plan]
    by_cases h : id = j
    · rw [h, if_pos rfl, if_pos rfl]
    · rw [if_neg h, if_neg fun e => h (Option.some.inj e).symm]

/-- A mark moved from the plan of the old setting to that of the new. -/
def State.moveMark (s : State) (set : Bool → PlanRefs → PlanRefs) (old new : Option PlanId) : State :=
  if old = new then s else (s.markPlan set old false).markPlan set new true

theorem moveFallback_eq (s : State) (old new : Option PlanId) :
    s.moveFallback old new = s.moveMark (fun b r => { r with fallback := b }) old new := rfl

theorem moveReverse_eq (s : State) (old new : Option PlanId) :
    s.moveReverse old new = s.moveMark (fun b r => { r with reverse := b }) old new := rfl

/-- A mark that stood on the plan of the old setting alone stands, moved, on that of the new alone (R106). -/
theorem moveMark_plan {s : State} {set : Bool → PlanRefs → PlanRefs} {old : Option PlanId} (new : Option PlanId)
    (hold : ∀ id, set (decide (old = some id)) (s.plan id).refs = (s.plan id).refs) (id : PlanId) :
    (s.moveMark set old new).plan id =
      { s.plan id with refs := set (decide (new = some id)) (s.plan id).refs } := by
  have h := hold id
  unfold State.moveMark
  by_cases he : old = new
  · rw [if_pos he, ← he, h]
  · rw [if_neg he, markPlan_plan, markPlan_plan]
    by_cases hn : new = some id
    · rw [if_pos hn, if_neg fun e => he (e.trans hn.symm), decide_eq_true hn]
    · rw [if_neg hn, decide_eq_false hn]
      by_cases ho : old = some id
      · rw [if_pos ho]
      · rw [decide_eq_false ho] at h
        rw [if_neg ho, h]

/-- The settings replaced: each plan's marks say whether the new settings name it (R106). -/
theorem setViews_plan {s : State} (v : ViewSettings) (h : ∀ id, (s.plan id).refs = s.refsOf id) (id : PlanId) :
    (s.setViews v).plan id = { s.plan id with refs := { (s.plan id).refs with
      fallback := decide (v.fallback = some id), reverse := decide (v.reverse = some id) } } := by
  have hfall := moveMark_plan (set := fun b r => { r with fallback := b }) (old := s.leases.settings.fallback) v.fallback fun j => by
      rw [h j]
      rfl
  have hrev := moveMark_plan (s := s.moveFallback s.leases.settings.fallback v.fallback)
    (set := fun b r => { r with reverse := b }) (old := s.leases.settings.reverse) v.reverse fun j => by
      rw [moveFallback_eq, hfall, h j]
      rfl
  change ((s.moveFallback _ _).moveReverse _ _).plan id = _
  rw [moveReverse_eq, hrev, moveFallback_eq, hfall]

theorem moveMark_leases (s : State) (set : Bool → PlanRefs → PlanRefs) (old new : Option PlanId) :
    (s.moveMark set old new).leases = s.leases := by
  have h : ∀ (u : State) (x : Option PlanId) (b : Bool), (u.markPlan set x b).leases = u.leases := by
    intro u x b
    cases x <;> rfl
  unfold State.moveMark
  split
  · rfl
  · rw [h, h]

theorem setViews_leases (s : State) (v : ViewSettings) : (s.setViews v).leases = { s.leases with settings := v } := by
  have h : ((s.moveFallback s.leases.settings.fallback v.fallback).moveReverse s.leases.settings.reverse v.reverse).leases
      = s.leases := by
    rw [moveReverse_eq, moveMark_leases, moveFallback_eq, moveMark_leases]
  change { State.leases _ with settings := v } = _
  rw [h]

/-- Settings that name VERIFIED plans, with a level of the line lease, may replace the old ones (R106). -/
theorem setViews_plansOk {s : State} {v : ViewSettings} (hs : s.plansOk) (hlevel : v.lineLevel ≤ 3)
    (hfall : s.mayName v.fallback = true) (hrev : s.mayName v.reverse = true) : (s.setViews v).plansOk := by
  obtain ⟨htable, -, hrefs, hver⟩ := (plansOk_iff s).1 hs
  have hpin : (s.setViews v).pinnedPlan = s.pinnedPlan := by
    have e : (s.setViews v).composer = s.composer :=
      (eq_of_sansLeases (setViews_sansLeases s v)).1 ▸ rfl
    rw [State.pinnedPlan, e, State.pinnedPlan]
  have hof : ∀ id, (s.setViews v).refsOf id = { s.refsOf id with
      fallback := decide (v.fallback = some id), reverse := decide (v.reverse = some id) } := fun id => by
    simp only [State.refsOf, setViews_leases, hpin]
  have hname : ∀ x id, s.mayName x = true → x = some id → (s.plan id).hold.isVerified = true := by
    rintro _ id h rfl
    exact h
  refine (plansOk_iff _).2 ⟨?_, ?_, fun id => ?_, fun id hn => ?_⟩
  · rw [setViews_leases]
    exact htable
  · rw [setViews_leases]
    exact hlevel
  · rw [setViews_plan v hrefs, hof, hrefs]
  · rw [setViews_plan v hrefs]
    simp only [State.names, setViews_leases, hpin] at hn
    rcases hn with hn | hn | hn | hn
    · exact hver id (Or.inl hn)
    · exact hname _ id hfall hn
    · exact hname _ id hrev hn
    · exact hver id (Or.inr (Or.inr (Or.inr hn)))

theorem markPlan_hold (s : State) (set : Bool → PlanRefs → PlanRefs) (x : Option PlanId) (b : Bool) (id : PlanId) :
    ((s.markPlan set x b).plan id).hold = (s.plan id).hold := by
  rw [markPlan_plan]
  split <;> rfl

theorem moveMark_hold (s : State) (set : Bool → PlanRefs → PlanRefs) (old new : Option PlanId) (id : PlanId) :
    ((s.moveMark set old new).plan id).hold = (s.plan id).hold := by
  unfold State.moveMark
  split
  · rfl
  · rw [markPlan_hold, markPlan_hold]

theorem setViews_hold (s : State) (v : ViewSettings) (id : PlanId) :
    ((s.setViews v).plan id).hold = (s.plan id).hold := by
  change (((s.moveFallback _ _).moveReverse _ _).plan id).hold = _
  rw [moveReverse_eq, moveMark_hold, moveFallback_eq, moveMark_hold]

theorem setViews_keepsPlans {s : State} {v : ViewSettings} (hlevel : v.lineLevel ≤ 3)
    (hfall : s.mayName v.fallback = true) (hrev : s.mayName v.reverse = true) : s.keepsPlans (s.setViews v) :=
  ⟨fun hs => setViews_plansOk hs hlevel hfall hrev, runsOk_of_hold (setViews_hold s v)⟩

/-! ### The composition in flight -/

/-- The view named draws a plan that a lease or the fallback setting names (R99, R100). -/
theorem nameView_names {x : Leases} {id : PlanId} (h : x.nameView.1.plan = some id) :
    (∃ l ∈ x.table, l.plan = id) ∨ x.settings.fallback = some id := by
  unfold Leases.nameView at h
  split at h
  · rename_i l hl
    obtain ⟨lv, -, hfind⟩ := List.exists_of_findSome?_eq_some hl
    exact Or.inl ⟨l, List.mem_of_find?_eq_some hfind, Option.some.inj h⟩
  · split at h
    · rename_i p hp
      exact Or.inr (hp.trans h)
    · cases h

/-- Pinned marks that follow the composition in flight, on a plan that was named, keep the invariant (R89, R90). -/
theorem repinned_plansOk {s t : State} (hs : s.plansOk) (hleases : t.leases = s.leases)
    (hplan : ∀ id, t.plan id =
      { s.plan id with refs := { (s.plan id).refs with pinned := decide (t.pinnedPlan = some id) } })
    (hnames : ∀ id, t.pinnedPlan = some id → s.names id) : t.plansOk := by
  obtain ⟨htable, hlevel, hrefs, hver⟩ := (plansOk_iff s).1 hs
  refine (plansOk_iff t).2 ⟨hleases ▸ htable, hleases ▸ hlevel, fun id => ?_, fun id hn => ?_⟩
  · rw [hplan, hrefs]
    simp only [State.refsOf, hleases]
  · rw [hplan]
    refine hver id ?_
    simp only [State.names, hleases] at hn ⊢
    rcases hn with hn | hn | hn | hn
    · exact Or.inl hn
    · exact Or.inr (Or.inl hn)
    · exact Or.inr (Or.inr (Or.inl hn))
    · exact hnames id hn

/-- The pinned mark of a plan that the context names, set to a value while the reference record says otherwise or not. -/
theorem pinFor_plan (s : State) (x : Context) (id : PlanId) :
    (s.pinFor x).plan id =
      if x.view.plan = some id then { s.plan id with refs := { (s.plan id).refs with pinned := true } } else s.plan id := by
  have h := markPlan_plan s (fun b r => { r with pinned := b }) x.view.plan true id
  unfold State.pinFor
  unfold State.markPlan at h
  cases hv : x.view.plan with
  | none => rw [hv] at h; exact h
  | some j => rw [hv] at h; exact h

theorem pinFor_leases (s : State) (x : Context) : (s.pinFor x).leases = s.leases := by
  unfold State.pinFor
  split <;> rfl

/-- The plan that a start draws is pinned while nothing is, and its composition then put in flight (R90). -/
theorem pinFor_plansOk {s : State} {x : Context} (hs : s.plansOk) (hidle : s.pinnedPlan = none)
    (hx : ∀ id, x.view.plan = some id → s.names id) :
    ({ s.pinFor x with composer := some x } : State).plansOk := by
  obtain ⟨-, -, hrefs, -⟩ := (plansOk_iff s).1 hs
  refine repinned_plansOk hs (pinFor_leases s x) (fun id => ?_) hx
  have hpin : (s.plan id).refs.pinned = false := by
    rw [hrefs id, State.refsOf, hidle]
    rfl
  change (s.pinFor x).plan id = { s.plan id with refs := { (s.plan id).refs with pinned := decide (x.view.plan = some id) } }
  rw [pinFor_plan]
  split
  · rename_i e
    rw [decide_eq_true e]
  · rename_i e
    rw [decide_eq_false e, ← hpin]

theorem pinFor_hold (s : State) (x : Context) (id : PlanId) : ((s.pinFor x).plan id).hold = (s.plan id).hold := by
  rw [pinFor_plan]
  split <;> rfl

/-- The plan pinned and the walk begun with the row test, where nothing is in flight (R118, R132). -/
theorem pinFor_beginRow_keepsPlans {s : State} {x : Context} (hidle : s.pinnedPlan = none)
    (hx : ∀ id, x.view.plan = some id → s.names id) (v : ViewLane) :
    s.keepsPlans (({ s.pinFor x with view := v } : State).beginRow x) := by
  have hrow : (({ s.pinFor x with view := v } : State).beginRow x).stake =
      ({ s.pinFor x with composer := some x } : State).stake :=
    (stake_of_sansWalk (beginRow_sansWalk _ x)).trans (stake_others { s.pinFor x with composer := some x } ..)
  exact keepsPlans_trans ⟨fun hs => pinFor_plansOk hs hidle hx, runsOk_of_hold fun id => pinFor_hold s x id⟩
    (keepsPlans_of_stake hrow)

/-- A composition starts on the view named, with nothing in flight (R100, R116, R118). -/
theorem startComposition_keepsPlans {s : State} (st : CaptureSet) (newer : List CaptureSet) (hidle : s.composer = none) :
    s.keepsPlans (s.startComposition st newer) := by
  have hu : ({ s with capture := s.capture.startComposition st newer } : State).showView.stake = s.stake :=
    (showView_stake _).trans (stake_others s ..)
  refine keepsPlans_trans (keepsPlans_of_stake hu) (pinFor_beginRow_keepsPlans ?_ (fun id hv => ?_) _)
  · refine (congrArg (·.2.2.2) hu).trans ?_
    change s.composer.bind _ = none
    rw [hidle]
    rfl
  · rw [names_of_stake hu]
    rcases nameView_names hv with hn | hn
    · exact Or.inl hn
    · exact Or.inr (Or.inl hn)

/-- A composition ends: its plan is unpinned and nothing is in flight (R90, R134, R136). -/
theorem releaseComposition_plan {s : State} {x : Context} (id : PlanId) : (s.releaseComposition x).plan id =
    if x.view.plan = some id then { s.plan id with refs := { (s.plan id).refs with pinned := false } } else s.plan id := by
  have h := markPlan_plan s (fun b r => { r with pinned := b }) x.view.plan false id
  unfold State.releaseComposition
  unfold State.markPlan at h
  cases hv : x.view.plan with
  | none => rw [hv] at h; exact h
  | some j => rw [hv] at h; exact h

theorem releaseComposition_keepsPlans {s : State} {x : Context} (hx : s.pinnedPlan = x.view.plan) :
    s.keepsPlans (s.releaseComposition x) := by
  obtain ⟨⟨pl, hr⟩, -⟩ := releaseComposition_frame s x
  have hleases : (s.releaseComposition x).leases = s.leases := by rw [hr]
  have hpin : (s.releaseComposition x).pinnedPlan = none := by
    rw [hr]
    rfl
  refine ⟨fun hs => repinned_plansOk hs hleases (fun id => ?_) (fun id e => ?_), runsOk_of_hold fun id => ?_⟩
  · obtain ⟨-, -, hrefs, -⟩ := (plansOk_iff s).1 hs
    rw [releaseComposition_plan, hpin]
    split
    · rfl
    · rename_i e
      have hp : (s.plan id).refs.pinned = false := by
        rw [hrefs id, State.refsOf, hx, decide_eq_false e]
      rw [show decide ((none : Option PlanId) = some id) = false from rfl, ← hp]
  · rw [hpin] at e
    cases e
  · rw [releaseComposition_plan]
    split <;> rfl

/-- A record appended for the composition, and the composition released. -/
theorem appendRelease_keepsPlans {s : State} {x : Context} (n : Nat) (ab : Bool) (hx : s.pinnedPlan = x.view.plan) :
    s.keepsPlans ((s.appendRecord x n ab).releaseComposition x) := by
  have h := appendRecord_stake s x n ab
  have hp : (s.appendRecord x n ab).pinnedPlan = s.pinnedPlan := congrArg (·.2.2.2) h
  exact keepsPlans_trans (keepsPlans_of_stake h) (releaseComposition_keepsPlans (hp.trans hx))

theorem completeComposition_keepsPlans {s : State} {x : Context} (hx : s.pinnedPlan = x.view.plan) :
    s.keepsPlans (s.completeComposition x) := by
  unfold State.completeComposition
  extract_lets t
  have ht : t.stake = s.stake := stake_others s ..
  exact keepsPlans_trans (keepsPlans_of_stake ht) (appendRelease_keepsPlans _ _ hx)

theorem abortComposition_keepsPlans (s : State) : s.keepsPlans s.abortComposition := by
  unfold State.abortComposition
  split
  next => exact keepsPlans_refl s
  next x hx =>
    extract_lets t
    have ht : t.stake = s.stake := stake_others s ..
    refine keepsPlans_trans (keepsPlans_of_stake ht) (appendRelease_keepsPlans _ _ ?_)
    change s.composer.bind _ = _
    rw [hx]
    rfl

/-- The row drawn, the walk goes on in the same composition, or ends it and takes an entry that waited (R131, R134). -/
theorem rowDrawn_keepsPlans {s : State} {x : Context} (hx : s.pinnedPlan = x.view.plan) :
    s.keepsPlans (s.rowDrawn x) := by
  unfold State.rowDrawn
  extract_lets t
  have ht : t.stake = s.stake := stake_others s ..
  refine keepsPlans_trans (keepsPlans_of_stake ht) ?_
  split
  · exact keepsPlans_trans (completeComposition_keepsPlans hx) (takeEntry_keepsPlans _)
  · exact keepsPlans_of_stake (beginRow_stake t hx)

theorem drawTile_keepsPlans {s : State} {x : Context} (hx : s.pinnedPlan = x.view.plan) :
    s.keepsPlans (s.drawTile x) := by
  unfold State.drawTile
  extract_lets drawn y t
  have ht : t.stake = s.stake := stake_others s ..
  refine keepsPlans_trans (keepsPlans_of_stake ht) ?_
  split
  · exact keepsPlans_of_stake (beginTile_stake t hx)
  · exact rowDrawn_keepsPlans hx

end Sys2Proof.Machine
end

section
/-! PROOFS. Every command keeps every plan in use VERIFIED and the plans' runs apart: the commands block by block, and the step. -/

namespace Sys2Proof.Machine

/-- Wherever a command goes on to, the plans' invariants are kept. -/
def State.safely (s : State) (o : Host.Outcome State Fault Refusal) : Prop := ∀ t, o = .next t → s.keepsPlans t

theorem safely_next {s t : State} (h : s.keepsPlans t) : s.safely (.next t) := by
  rintro _ ⟨⟩
  exact h

theorem safely_stake {s t : State} (h : t.stake = s.stake) : s.safely (.next t) := safely_next (keepsPlans_of_stake h)

theorem safely_stay (s : State) : s.safely (.next s) := safely_next (keepsPlans_refl s)

/-- A request is safe whose rule keeps the invariants of the state in which it is taken. -/
theorem safely_serve {s : State} {p : Port} {k : RequestKind} {body : List Byte → State → State}
    (h : ∀ (bs : List Byte) (t : State), t.keepsPlans (body bs t)) : s.safely (.next (s.serve p k body)) := by
  obtain e | ⟨r, rest, -, e⟩ := serve_cases s p k body
  · rw [e]
    exact safely_stay s
  · rw [e]
    exact safely_next (keepsPlans_trans (keepsPlans_of_stake (taken_stake s p r rest)) (h _ _))

theorem safely_serve_stake {s : State} {p : Port} {k : RequestKind} {body : List Byte → State → State}
    (h : ∀ bs t, (body bs t).stake = t.stake) : s.safely (.next (s.serve p k body)) :=
  safely_stake (serve_stake s p k h)

/-- An answer keeps what the state it is given of keeps. -/
theorem answer_keepsPlans {s t : State} (p : Port) (c : Code) (bs : List Byte) (h : s.keepsPlans t) :
    s.keepsPlans (t.answer p c bs) := keepsPlans_trans h (keepsPlans_of_stake (answer_stake t p c bs))

theorem refuse_keepsPlans {s t : State} (p : Port) (c : Code) (h : s.keepsPlans t) : s.keepsPlans (t.refuse p c) :=
  answer_keepsPlans p c [] h

/-! ### The Plan Store -/

/-- A walk ends in a verdict on its VERIFYING plan. -/
theorem endWalk_keepsPlans {s : State} {id : PlanId} {c : PlanContent} (h : (s.plan id).hold = .verifying c)
    (r : Option Rejection) : s.keepsPlans (s.endWalk id c r) := by
  unfold State.endWalk
  extract_lets g t
  have hg : g.content = some c := by
    cases r <;> rfl
  have ht : s.keepsPlans t := setHold_keepsPlans (by rw [h]; rfl) (by rw [h, hg]; rfl)
  refine keepsPlans_trans ht (keepsPlans_of_stake ?_)
  rw [raise_stake, answer_stake]
  rfl

theorem walkOn_keepsPlans {s : State} {id : PlanId} {c : PlanContent} (h : (s.plan id).hold = .verifying c)
    (passed : List Nat) (n : WalkNext) : s.keepsPlans (s.walkOn id c passed n) := by
  cases n with
  | read place m => exact keepsPlans_of_stake (grant_stake _)
  | fail r => exact endWalk_keepsPlans h (some r)
  | done => exact endWalk_keepsPlans h none

theorem execVerifyMeshRead_safely (s : State) : s.safely (execVerifyMeshRead s) := by
  unfold execVerifyMeshRead
  split
  · split
    · rename_i h
      exact safely_next (walkOn_keepsPlans h _ _)
    · exact safely_stay s
  · exact safely_stay s

/-- A LOADING plan stays LOADING on its run. -/
theorem setLoading_keepsPlans {s : State} {id : PlanId} {c d : PlanContent} {at0 t : Nat} {a b : Bool}
    (h : (s.plan id).hold = .loading c at0 a) (hd : d.place = c.place) : s.keepsPlans (s.setHold id (.loading d t b)) :=
  setHold_keepsPlans (by rw [h]; rfl) (by rw [h]; exact congrArg some hd)

theorem expire_keepsPlans {s : State} {id : PlanId} {c : PlanContent} {at0 : Nat} {a : Bool}
    (h : (s.plan id).hold = .loading c at0 a) (due : Nat) :
    s.keepsPlans ((s.runTo due).setHold id (.loading c at0 true)) :=
  keepsPlans_trans (keepsPlans_of_stake (runTo_stake s due)) (setLoading_keepsPlans (s := s.runTo due) h rfl)

theorem execPlanAbandoned_safely (id : PlanId) (s : State) : s.safely (execPlanAbandoned id s) := by
  unfold execPlanAbandoned
  split
  · rename_i c at0 h
    exact safely_next (expire_keepsPlans h _)
  · exact safely_stay s

theorem markMesh_keepsPlans (s : State) (p : Port) (id : PlanId) (i : Nat) : s.keepsPlans (s.markMesh p id i) := by
  unfold State.markMesh
  split
  · rename_i h
    split
    · exact setLoading_keepsPlans h rfl
    · exact keepsPlans_refl s
  · exact keepsPlans_refl s

theorem execPlanOpen_safely (p : Port) (s : State) : s.safely (execPlanOpen p s) := by
  refine safely_serve fun bs t => keepsPlans_trans (touchPlan_keepsPlans t p bs) ?_
  dsimp only
  generalize t.touchPlan p bs = u
  split
  · exact refuse_keepsPlans p _ (keepsPlans_refl u)
  · split_ifs with hn hv ho href
    · exact refuse_keepsPlans p _ (keepsPlans_refl u)
    · exact refuse_keepsPlans p _ (keepsPlans_refl u)
    · exact refuse_keepsPlans p _ (keepsPlans_refl u)
    · exact refuse_keepsPlans p _ (keepsPlans_refl u)
    · split
      · exact refuse_keepsPlans p _ (keepsPlans_refl u)
      · rename_i hbase
        exact answer_keepsPlans p _ _ (open_keepsPlans (by simpa using href) (by omega) hbase)

theorem execPlanTiles_safely (p : Port) (s : State) : s.safely (execPlanTiles p s) := by
  refine safely_serve fun bs t => keepsPlans_trans (touchPlan_keepsPlans t p bs) ?_
  dsimp only
  generalize t.touchPlan p bs = u
  have hrefuse : ∀ code, u.keepsPlans (u.refuse p code) := fun code => refuse_keepsPlans p code (keepsPlans_refl u)
  split
  · exact hrefuse _
  · split
    · exact hrefuse _
    · split
      · exact hrefuse _
      · split
        · rename_i h
          split
          · exact hrefuse _
          · exact answer_keepsPlans p _ _ (setLoading_keepsPlans h rfl)
        · exact hrefuse _

theorem execPlanMeshes_safely (p : Port) (s : State) : s.safely (execPlanMeshes p s) := by
  refine safely_serve fun bs t => keepsPlans_trans (touchPlan_keepsPlans t p bs) ?_
  dsimp only
  generalize t.touchPlan p bs = u
  have hrefuse : ∀ code, u.keepsPlans (u.refuse p code) := fun code => refuse_keepsPlans p code (keepsPlans_refl u)
  split
  · exact hrefuse _
  · split
    · exact hrefuse _
    · split
      · exact hrefuse _
      · split
        · split
          · exact hrefuse _
          · exact keepsPlans_of_stake (grant_stake _)
        · exact hrefuse _

theorem execPlanVerify_safely (p : Port) (s : State) : s.safely (execPlanVerify p s) := by
  refine safely_serve fun bs t => keepsPlans_trans (touchPlan_keepsPlans t p bs) ?_
  dsimp only
  generalize t.touchPlan p bs = u
  have hrefuse : ∀ code, u.keepsPlans (u.refuse p code) := fun code => refuse_keepsPlans p code (keepsPlans_refl u)
  split
  · exact hrefuse _
  · split
    · rename_i c _ _ h
      split_ifs
      · exact hrefuse _
      · exact hrefuse _
      · exact keepsPlans_trans (setHold_keepsPlans (by rw [h]; rfl) (by rw [h]; rfl))
          (walkOn_keepsPlans (setHold_hold_same ..) _ _)
    · exact hrefuse _

theorem execPlanDiscard_safely (p : Port) (s : State) : s.safely (execPlanDiscard p s) := by
  refine safely_serve fun bs t => keepsPlans_trans (touchPlan_keepsPlans t p bs) ?_
  dsimp only
  generalize t.touchPlan p bs = u
  have hrefuse : ∀ code, u.keepsPlans (u.refuse p code) := fun code => refuse_keepsPlans p code (keepsPlans_refl u)
  split
  · exact hrefuse _
  · split_ifs with hstate ho href
    · exact hrefuse _
    · exact hrefuse _
    · exact hrefuse _
    · exact answer_keepsPlans p _ _ (discard_keepsPlans (by simpa using href))

theorem execPlanRead_safely (p : Port) (s : State) : s.safely (execPlanRead p s) := by
  refine safely_serve fun bs t => keepsPlans_trans (touchPlan_keepsPlans t p bs) (keepsPlans_of_stake ?_)
  dsimp only
  generalize t.touchPlan p bs = u
  split
  · exact refuse_stake ..
  · split
    · exact answer_stake ..
    · split_ifs
      · exact refuse_stake ..
      · split
        · exact refuse_stake ..
        · exact answer_stake ..
    · split_ifs
      · exact refuse_stake ..
      · split
        · exact refuse_stake ..
        · exact grant_stake _
    · exact refuse_stake ..

/-- A burst of the pool requester marks a mesh written at most (R83, R92, R148). -/
theorem poolBurstDone_keepsPlans (s : State) (b : PoolBurst) : s.keepsPlans (s.poolBurstDone b) := by
  unfold State.poolBurstDone
  split
  · exact keepsPlans_refl s
  · split
    · rename_i p id unit i rec _
      extract_lets t
      have ht : s.keepsPlans t :=
        keepsPlans_trans (keepsPlans_of_stake (stake_others s ..)) (markMesh_keepsPlans _ p id i)
      split
      · exact answer_keepsPlans p _ _ (keepsPlans_trans ht (keepsPlans_of_stake (stake_others t ..)))
      · exact ht
    · rename_i p marks gathered unit _
      extract_lets got
      split
      · exact answer_keepsPlans p _ _ (keepsPlans_of_stake (stake_others s ..))
      · exact keepsPlans_of_stake (stake_others s ..)
    · exact keepsPlans_of_stake rfl
    · exact keepsPlans_refl s

theorem execBurstDone_safely (s : State) : s.safely (execBurstDone s) := by
  have hdone : ∀ (u : State) (b : Burst), u.keepsPlans (u.burstDone b) := by
    intro u b
    cases b with
    | lane c addr data withdrawn =>
      cases withdrawn
      · exact keepsPlans_of_stake ((stake_of_sansPipe (laneBurstDone_sansPipe _ c)).trans (stake_others u ..))
      · exact keepsPlans_refl u
    | pool b => exact poolBurstDone_keepsPlans u b
    | fetch addr withdrawn =>
      cases withdrawn
      · exact keepsPlans_of_stake (stake_of_sansWalk (fetchBurstDone_sansWalk u addr))
      · exact keepsPlans_refl u
  unfold execBurstDone
  split
  · exact safely_next (keepsPlans_trans (keepsPlans_of_stake (stake_others s ..))
      (keepsPlans_trans (hdone _ _) (keepsPlans_of_stake (grant_stake _))))
  · exact safely_stay s

end Sys2Proof.Machine
end

section
/-! PROOFS. The commands of the other blocks keep the plans' invariants, and so does every step. -/

namespace Sys2Proof.Machine

/-! ### The chain, the lanes and the capture sets -/

/-- An operation of the pipeline, after time has passed or not, leaves the stake alone. -/
theorem safely_pipe {s t : State} (u : State) (h : t.sansPipe = u.sansPipe) (hu : u.stake = s.stake) : s.safely (.next t) :=
  safely_stake ((stake_of_sansPipe h).trans hu)

theorem endSlot_stake (s : State) (c : Camera) (res : SlotResult) : (s.endSlot c res).stake = s.stake := by
  unfold State.endSlot
  split
  · split
    · exact (stake_of_sansPipe ((afterSlot_sansPipe _ c).trans (slotResult_sansPipe _ c res))).trans (runTo_stake s _)
    · rfl
  · rfl

theorem execStrobe_safely (s : State) : s.safely (execStrobe s) := by
  unfold execStrobe
  split
  · rename_i t _
    split
    · exact safely_pipe (s.runTo t) (by rw [chainSettle_sansPipe, sendStrobe_sansPipe]) (runTo_stake s t)
    · exact safely_stay s
  · exact safely_stay s

theorem execCameraLost_safely (c : Camera) (s : State) : s.safely (execCameraLost c s) := by
  unfold execCameraLost
  split
  · exact safely_stake (endSlot_stake s c _)
  · exact safely_stay s

theorem execIdentTimeout_safely (c : Camera) (reply : Option (BitVec 14)) (s : State) :
    s.safely (execIdentTimeout c reply s) := by
  unfold execIdentTimeout
  split
  · split
    · exact safely_stake (endSlot_stake s c _)
    · exact safely_stay s
  · exact safely_stay s

theorem execSettleTimerExpiry_safely (s : State) : s.safely (execSettleTimerExpiry s) := by
  unfold execSettleTimerExpiry
  split
  · rename_i t _
    refine safely_pipe (s.runTo t) ?_ (runTo_stake s t)
    rw [withChain_sansPipe, unaddressAll_sansPipe, enqueue_sansPipe]
  · exact safely_stay s

theorem execTestTimerExpiry_safely (c : Camera) (s : State) : s.safely (execTestTimerExpiry c s) := by
  unfold execTestTimerExpiry
  split
  · extract_lets t
    have ht : t.stake = s.stake := runTo_stake s _
    split
    · exact safely_stake ht
    · exact safely_pipe t (by rw [chainSettle_sansPipe, camFault_sansPipe]) ht
  · exact safely_stay s

theorem execPacketArrival_safely (c : Camera) (how : PacketEnd) (bytes : List Byte) (s : State) :
    s.safely (execPacketArrival c how bytes s) := by
  unfold execPacketArrival
  dsimp only
  split
  · exact safely_pipe s (setLane_sansPipe ..) rfl
  · exact safely_pipe s (by rw [reportError_sansPipe, setLane_sansPipe]) rfl

theorem execLineConsume_safely (c : Camera) (s : State) : s.safely (execLineConsume c s) := by
  unfold execLineConsume
  split
  · exact safely_pipe s (by rw [dropLine_sansPipe, reportError_sansPipe]) rfl
  · exact safely_pipe s (assess_sansPipe ..) rfl
  · exact safely_pipe s (beginFrame_sansPipe ..) rfl
  · exact safely_stay s

theorem execLineWriteComplete_safely (c : Camera) (s : State) : s.safely (execLineWriteComplete c s) := by
  unfold execLineWriteComplete
  dsimp only
  split
  · split
    · exact safely_pipe s (finaliseFrame_sansPipe ..) rfl
    · exact safely_stake (stake_others s ..)
  · exact safely_stay s

theorem execFrameAbandon_safely (c : Camera) (s : State) : s.safely (execFrameAbandon c s) := by
  unfold execFrameAbandon
  dsimp only
  split
  · rename_i f _ _
    exact safely_pipe (s.runTo f.deadline) (by rw [grant_sansPipe, takeTail_sansPipe]) (runTo_stake s _)
  · exact safely_stay s

theorem execAbandonRepairsComplete_safely (c : Camera) (s : State) : s.safely (execAbandonRepairsComplete c s) := by
  unfold execAbandonRepairsComplete
  dsimp only
  split
  · exact safely_pipe s (by rw [finaliseFrame_sansPipe, setLane_sansPipe]) rfl
  · exact safely_stay s

theorem execWindowExpiry_safely (tag : Tag) (s : State) : s.safely (execWindowExpiry tag s) := by
  unfold execWindowExpiry
  split
  · split
    · extract_lets t
      exact safely_stake ((stake_others t ..).trans (runTo_stake s _))
    · exact safely_stay s
  · exact safely_stay s

/-! ### The Composer and the View Lane -/

theorem execCompositionStart_safely (s : State) : s.safely (execCompositionStart s) := by
  unfold execCompositionStart
  split
  · rename_i st newer _
    split
    · rename_i h
      have hidle : s.composer = none := by
        simp only [State.mayStart, Bool.and_eq_true, Option.isNone_iff_eq_none] at h
        tauto
      exact safely_next (startComposition_keepsPlans st newer hidle)
    · exact safely_stay s
  · exact safely_stay s

theorem pinnedPlan_of_composer {s : State} {x : Context} (h : s.composer = some x) : s.pinnedPlan = x.view.plan := by
  rw [State.pinnedPlan, h]
  rfl

theorem execMeshReadComplete_safely (s : State) : s.safely (execMeshReadComplete s) := by
  unfold execMeshReadComplete
  split
  · rename_i x hx
    have hpin := pinnedPlan_of_composer hx
    split
    · split
      · rename_i k _ d _
        dsimp only
        split
        · exact safely_stake ((stake_of_sansWalk (handBox_sansWalk ..)).trans (stake_withComposer s _ hpin))
        · exact safely_stake ((stake_of_sansWalk (areaFetched_sansWalk ..)).trans (stake_withComposer s _ hpin))
      · exact safely_stay s
    · exact safely_stay s
  · exact safely_stay s

theorem execFetchingEnd_safely (s : State) : s.safely (execFetchingEnd s) := by
  unfold execFetchingEnd
  split
  · rename_i x hx
    have hpin := pinnedPlan_of_composer hx
    split
    · exact safely_stake (stake_withComposer s _ hpin)
    · exact safely_stay s
  · exact safely_stay s

theorem execTileDrawn_safely (s : State) : s.safely (execTileDrawn s) := by
  unfold execTileDrawn
  split
  · rename_i x hx
    split
    · exact safely_next (drawTile_keepsPlans (pinnedPlan_of_composer hx))
    · exact safely_stay s
  · exact safely_stay s

theorem execViewFrameStart_safely (s : State) : s.safely (execViewFrameStart s) := by
  unfold execViewFrameStart
  split
  · extract_lets t
    exact safely_stake ((stake_others t ..).trans (runTo_stake s _))
  · exact safely_stay s

theorem leaveBuffer_stake (s : State) (frame row : Nat) : (s.leaveBuffer frame row).stake = s.stake :=
  stake_of_sansWalk (leaveBuffer_sansWalk s frame row)

theorem execLineDue_safely (s : State) : s.safely (execLineDue s) := by
  unfold execLineDue
  split
  · rename_i t _
    extract_lets n a b
    split
    · have hb : b.stake = a.stake := by
        change State.stake (if _ then _ else _) = _
        split
        · exact leaveBuffer_stake ..
        · rfl
      exact safely_stake ((stake_others b ..).trans (hb.trans (runTo_stake s _)))
    · exact safely_stay s
  · exact safely_stay s

theorem execViewFrameEnd_safely (s : State) : s.safely (execViewFrameEnd s) := by
  unfold execViewFrameEnd
  split
  · split
    · extract_lets a b
      exact safely_stake ((stake_others b ..).trans ((leaveBuffer_stake ..).trans (runTo_stake s _)))
    · exact safely_stay s
  · exact safely_stay s

/-! ### Leases and power -/

theorem execLeaseExpiry_safely (handle : Nat) (s : State) : s.safely (execLeaseExpiry handle s) := by
  unfold execLeaseExpiry
  split
  · rename_i l hl
    split
    · rename_i r _
      have hmem : l ∈ s.leases.table := List.mem_of_find?_eq_some hl
      refine safely_next (keepsPlans_trans (keepsPlans_of_stake (elapse_stake s r)) (keepsPlans_trans
        (removeLease_keepsPlans fun _ => ?_) (raiseLease_keepsPlans _ _)))
      exact ⟨_, List.mem_map.2 ⟨l, hmem, rfl⟩, rfl, rfl⟩
    · exact safely_stay s
  · exact safely_stay s

theorem execStartingEnd_safely (s : State) : s.safely (execStartingEnd s) := by
  unfold execStartingEnd
  split
  · exact safely_next (enterRun_keepsPlans s)
  · exact safely_stay s

theorem execIdleTimerExpiry_safely (s : State) : s.safely (execIdleTimerExpiry s) := by
  unfold execIdleTimerExpiry
  split
  · rename_i r _
    split
    · exact safely_next (keepsPlans_trans (keepsPlans_of_stake (elapse_stake s r)) (beginEntry_keepsPlans _))
    · exact safely_stay s
  · exact safely_stay s

theorem execReverseLevelChange_safely (s : State) : s.safely (execReverseLevelChange s) := by
  unfold execReverseLevelChange
  split
  · exact safely_next (levelChange_keepsPlans s)
  · exact safely_stay s

theorem execReverseLineSample_safely (active : Bool) (s : State) : s.safely (execReverseLineSample active s) := by
  unfold execReverseLineSample
  extract_lets t u
  have hu : t.keepsPlans u := by
    change t.keepsPlans (if _ then _ else _)
    split
    · exact levelChange_keepsPlans t
    · exact keepsPlans_refl t
  exact safely_next (keepsPlans_trans (keepsPlans_of_stake (runTo_stake s _))
    (keepsPlans_trans hu (keepsPlans_of_stake (stake_others u ..))))

theorem execTemperatureSample_safely (celsius : Int) (s : State) : s.safely (execTemperatureSample celsius s) := by
  unfold execTemperatureSample
  extract_lets t new power u
  have hu : u.stake = s.stake := (stake_others t ..).trans (runTo_stake s _)
  split
  · exact safely_stake hu
  · exact safely_stake ((raiseBoth_stake u _).trans hu)

/-- The state after power-on reset has no plan, no lease and no composition. -/
theorem execPowerOnReset_safely (s : State) : s.safely (execPowerOnReset s) := by
  have hplan : ∀ id, State.reset.plan id = PlanSlot.reset := Quad.get_all PlanSlot.reset
  have hrun : ∀ id, State.reset.plans.runOf id = none := fun id =>
    congrArg (fun x : PlanSlot => x.hold.content.map _) (hplan id)
  refine safely_next ⟨fun _ => plansOk_of_stake (stake_others State.reset ..) ((plansOk_iff _).2 ⟨?_, by decide, ?_, ?_⟩),
    fun _ => runsOk_of_hold (s := State.reset) (fun _ => rfl) ⟨?_, ?_⟩⟩
  · exact ⟨List.Pairwise.nil, fun l hl => nomatch hl⟩
  · intro id
    rw [hplan]
    rfl
  · rintro id (⟨l, hl, -⟩ | h | h | h)
    · exact nomatch hl
    · exact nomatch h
    · exact nomatch h
    · exact nomatch h
  · intro id r h
    rw [hrun] at h
    cases h
  · intro i j r q _ h
    rw [hrun] at h
    cases h

/-! ### Requests of the ports, the leases and the power states -/

theorem execUnknownRequest_safely (p : Port) (s : State) : s.safely (execUnknownRequest p s) := by
  unfold execUnknownRequest
  split
  · split
    · exact safely_stake (refuse_stake ..)
    · exact safely_stay s
  · exact safely_stay s

theorem execSelectStart_safely (p : Port) (s : State) : s.safely (execSelectStart p s) := by
  unfold execSelectStart
  split
  · exact safely_stake (onPort_stake ..)
  · exact safely_stay s

theorem execRequestArrival_safely (p : Port) (bytes : List Byte) (s : State) : s.safely (execRequestArrival p bytes s) := by
  unfold execRequestArrival
  split
  · split
    · exact safely_stay s
    · exact safely_stake (onPort_stake ..)
  · exact safely_stay s

theorem execAnswerShiftedOut_safely (p : Port) (s : State) : s.safely (execAnswerShiftedOut p s) := by
  unfold execAnswerShiftedOut
  split
  · split
    · exact safely_stay s
    · exact safely_stake (onPort_stake ..)
  · exact safely_stay s

/-- A claim that passes its checks is at a level free of its port, on a VERIFIED plan (R107). -/
theorem claimCheck_ok {s : State} {p : Port} {bs : List Byte} {id : PlanId} (h : s.claimCheck p bs = .inr id) :
    byteAt bs 0 ≤ 3 ∧ (s.plan id).hold.isVerified = true
      ∧ ∀ m ∈ s.leases.table, m.holder = .port p → m.level ≠ byteAt bs 0 := by
  unfold State.claimCheck at h
  dsimp only at h
  split at h
  · cases h
  · split_ifs at h with hlevel hcp hdur hwake hany hver
    cases h
    refine ⟨by omega, by simpa using hver, fun m hm e hl => hany ?_⟩
    exact List.any_eq_true.2 ⟨m, hm, by simp [e, hl]⟩

theorem execViewClaim_safely (p : Port) (s : State) : s.safely (execViewClaim p s) := by
  refine safely_serve fun bs t => ?_
  split
  · exact refuse_keepsPlans p _ (keepsPlans_refl t)
  · rename_i id hid
    obtain ⟨hlevel, hver, hfree⟩ := claimCheck_ok hid
    extract_lets d a b
    have ha : t.keepsPlans a := joinLease_keepsPlans (fun _ => hlevel) (fun _ => hver)
      fun m hm e => ⟨LeaseHolder.noConfusion, hfree m hm e⟩
    have hb : a.keepsPlans b := by
      change a.keepsPlans (if _ then _ else _)
      split
      · exact wakeEvent_keepsPlans a
      · exact keepsPlans_refl a
    exact answer_keepsPlans p _ _ (keepsPlans_trans ha hb)

/-- The lease that a request names is in the table. -/
theorem named_mem {x : Leases} {p : Port} {h : Nat} {l : Lease} (hl : x.named p h = .inr l) : l ∈ x.table := by
  unfold Leases.named at hl
  split at hl
  · cases hl
  · split at hl
    · cases hl
    · rename_i m hm
      split at hl
      · cases hl
        exact List.mem_of_find?_eq_some hm
      · cases hl

theorem execViewRenew_safely (p : Port) (s : State) : s.safely (execViewRenew p s) := by
  refine safely_serve fun bs t => ?_
  split
  · exact refuse_keepsPlans p _ (keepsPlans_refl t)
  · exact answer_keepsPlans p _ _ (keepsPlans_of_stake (leasesUpdate_stake t _ _ fun _ => rfl))

theorem execViewRelease_safely (p : Port) (s : State) : s.safely (execViewRelease p s) := by
  refine safely_serve fun bs t => ?_
  split
  · exact refuse_keepsPlans p _ (keepsPlans_refl t)
  · rename_i l hl
    exact answer_keepsPlans p _ _ (removeLease_keepsPlans fun _ => ⟨l, named_mem hl, rfl, rfl⟩)

theorem execViewsSet_safely (p : Port) (s : State) : s.safely (execViewsSet p s) := by
  refine safely_serve fun bs t => ?_
  split
  · extract_lets level hold
    split_ifs with hrange hname
    · exact refuse_keepsPlans p _ (keepsPlans_refl t)
    · exact refuse_keepsPlans p _ (keepsPlans_refl t)
    · rw [Bool.not_eq_true, Bool.not_eq_false', Bool.and_eq_true] at hname
      exact answer_keepsPlans p _ _ (setViews_keepsPlans (by dsimp only; omega) hname.1 hname.2)
  · exact refuse_keepsPlans p _ (keepsPlans_refl t)

theorem execStandby_safely (p : Port) (s : State) : s.safely (execStandby p s) := by
  refine safely_serve fun bs t => ?_
  split_ifs
  · exact refuse_keepsPlans p _ (keepsPlans_refl t)
  · exact answer_keepsPlans p _ _ (keepsPlans_refl t)
  · exact refuse_keepsPlans p _ (keepsPlans_refl t)
  · exact keepsPlans_trans (answer_keepsPlans p _ _ (keepsPlans_refl t)) (beginEntry_keepsPlans _)

theorem execPipelineRestart_safely (p : Port) (s : State) : s.safely (execPipelineRestart p s) := by
  refine safely_serve fun bs t => ?_
  split_ifs
  · exact refuse_keepsPlans p _ (keepsPlans_refl t)
  · extract_lets a
    have ha : t.keepsPlans a :=
      keepsPlans_trans (abortComposition_keepsPlans t) (keepsPlans_of_stake (stake_of_sansPipe (restartLanes_sansPipe _)))
    exact keepsPlans_trans (answer_keepsPlans p _ _ (keepsPlans_trans ha (keepsPlans_of_stake (stake_others a ..))))
      (takeEntry_keepsPlans _)

/-! ### Every command, and the step -/

theorem stake_ite {c : Prop} [Decidable c] {a b t : State} (ha : a.stake = t.stake) (hb : b.stake = t.stake) :
    (if c then a else b).stake = t.stake := by
  split
  · exact ha
  · exact hb

theorem exec_safely (i : Instr) (s : State) : s.safely (exec i s) := by
  cases i with
  | powerOnReset => exact execPowerOnReset_safely s
  | startingEnd => exact execStartingEnd_safely s
  | selectStart p => exact execSelectStart_safely p s
  | requestArrival p bytes => exact execRequestArrival_safely p bytes s
  | selectEnd p => exact safely_stake (onPort_stake ..)
  | answerShiftedOut p => exact execAnswerShiftedOut_safely p s
  | unknownRequest p => exact execUnknownRequest_safely p s
  | echo p => exact safely_serve_stake fun bs t => answer_stake ..
  | statusRead p => exact safely_serve_stake fun bs t => answer_stake ..
  | noticeEnable p => exact safely_serve_stake fun bs t => stake_ite (refuse_stake ..) (answer_stake ..)
  | noticeTake p => exact safely_serve_stake fun bs t => stake_ite (refuse_stake ..) (answer_stake ..)
  | chainRebuild p =>
    exact safely_serve_stake fun bs t => stake_ite (refuse_stake ..) (stake_ite (refuse_stake ..)
      ((answer_stake ..).trans (stake_of_sansPipe (rebuild_sansPipe t))))
  | cameraRead p =>
    refine safely_serve_stake fun bs t => ?_
    split
    · exact answer_stake ..
    · exact refuse_stake ..
  | cameraRestart p =>
    refine safely_serve_stake fun bs t => ?_
    split
    · exact refuse_stake ..
    · split_ifs
      · exact refuse_stake ..
      · exact refuse_stake ..
      · exact refuse_stake ..
      · exact refuse_stake ..
      · exact (answer_stake ..).trans (stake_of_sansPipe (restartCamera_sansPipe t _ p))
  | chainSet p =>
    refine safely_serve_stake fun bs t => ?_
    split
    · exact answer_stake ..
    · exact answer_stake ..
    · exact refuse_stake ..
  | timingSet p => exact safely_serve_stake fun bs t => stake_ite (answer_stake ..) (refuse_stake ..)
  | captureRead p =>
    refine safely_serve_stake fun bs t => ?_
    split
    · exact answer_stake ..
    · exact answer_stake ..
    · exact answer_stake ..
    · exact refuse_stake ..
  | planOpen p => exact execPlanOpen_safely p s
  | planTiles p => exact execPlanTiles_safely p s
  | planMeshes p => exact execPlanMeshes_safely p s
  | planVerify p => exact execPlanVerify_safely p s
  | planDiscard p => exact execPlanDiscard_safely p s
  | planRead p => exact execPlanRead_safely p s
  | poolRead p => exact safely_serve_stake fun bs t => answer_stake ..
  | viewClaim p => exact execViewClaim_safely p s
  | viewRenew p => exact execViewRenew_safely p s
  | viewRelease p => exact execViewRelease_safely p s
  | viewRead p => exact safely_serve_stake fun bs t => answer_stake ..
  | viewsSet p => exact execViewsSet_safely p s
  | balanceSet p =>
    refine safely_serve_stake fun bs t => ?_
    split
    · exact stake_ite (refuse_stake ..) (answer_stake ..)
    · exact refuse_stake ..
  | balanceRead p => exact safely_serve_stake fun bs t => answer_stake ..
  | outputSet p => exact safely_serve_stake fun bs t => stake_ite (refuse_stake ..) (answer_stake ..)
  | recordRead p => exact safely_serve_stake fun bs t => stake_ite (refuse_stake ..) (answer_stake ..)
  | recordLatest p =>
    refine safely_serve_stake fun bs t => ?_
    split
    · exact answer_stake ..
    · exact answer_stake ..
  | recordRewind p => exact safely_serve_stake fun bs t => answer_stake ..
  | rateCap p => exact safely_serve_stake fun bs t => stake_ite (refuse_stake ..) (answer_stake ..)
  | standby p => exact execStandby_safely p s
  | wake p => exact safely_serve fun bs t => answer_keepsPlans p _ _ (wakeEvent_keepsPlans t)
  | powerSet p => exact safely_serve_stake fun bs t => stake_ite (refuse_stake ..) (answer_stake ..)
  | pipelineRestart p => exact execPipelineRestart_safely p s
  | strobe => exact execStrobe_safely s
  | slotEnd c reply => exact safely_stake (endSlot_stake s c _)
  | cameraLost c => exact execCameraLost_safely c s
  | identTimeout c reply => exact execIdentTimeout_safely c reply s
  | settleTimerExpiry => exact execSettleTimerExpiry_safely s
  | testTimerExpiry c => exact execTestTimerExpiry_safely c s
  | packetArrival lane how bytes => exact execPacketArrival_safely lane how bytes s
  | lineConsume lane => exact execLineConsume_safely lane s
  | lineWriteComplete lane => exact execLineWriteComplete_safely lane s
  | frameAbandon lane => exact execFrameAbandon_safely lane s
  | abandonRepairsComplete lane => exact execAbandonRepairsComplete_safely lane s
  | windowExpiry tag => exact execWindowExpiry_safely tag s
  | compositionStart => exact execCompositionStart_safely s
  | meshReadComplete => exact execMeshReadComplete_safely s
  | fetchingEnd => exact execFetchingEnd_safely s
  | tileDrawn => exact execTileDrawn_safely s
  | burstDone => exact execBurstDone_safely s
  | verifyMeshRead => exact execVerifyMeshRead_safely s
  | planAbandoned plan => exact execPlanAbandoned_safely plan s
  | viewFrameStart => exact execViewFrameStart_safely s
  | lineDue => exact execLineDue_safely s
  | viewFrameEnd => exact execViewFrameEnd_safely s
  | leaseExpiry handle => exact execLeaseExpiry_safely handle s
  | reverseLineSample active => exact execReverseLineSample_safely active s
  | reverseLevelChange => exact execReverseLevelChange_safely s
  | idleTimerExpiry => exact execIdleTimerExpiry_safely s
  | standbyEntry => exact safely_next (takeEntry_keepsPlans s)
  | temperatureSample celsius => exact execTemperatureSample_safely celsius s

/-- Settles O59: on an empty queue time passes, which leaves the stake alone; every command is safe. -/
theorem everyStepKeepsPlansInUseVerified : Obligations.EveryStepKeepsPlansInUseVerified := by
  intro s t h
  unfold step at h
  split at h
  · exact safely_stake (elapse_stake s 1) t h
  · rename_i c rest _
    exact keepsPlans_trans (keepsPlans_of_stake (stake_others s ..)) (exec_safely c { s with pending := rest } t h)

end Sys2Proof.Machine
end

section
/-! SUPPORT and PROOFS. The Lease Arbiter's ranking, and the view it names (R99, R100). -/

namespace Sys2Proof.Machine

/-- The top-ranked lease is the first of its level in the table, and no lease of a lower level lives (R99). -/
theorem top_eq_some {x : Leases} {l : Lease} (h : x.top = some l) :
    x.table.find? (fun m => m.level == l.level) = some l ∧ ∀ m ∈ x.table, m.level ≤ 3 → l.level ≤ m.level := by
  obtain ⟨lower, lv, higher, hsplit, hfind, hnone⟩ := List.findSome?_eq_some_iff.1 h
  obtain rfl : l.level = lv := by simpa using List.find?_some hfind
  refine ⟨hfind, fun m hm h3 => ?_⟩
  have hrising : ([0, 1, 2, 3] : List Nat).Pairwise (· < ·) := by decide
  have hmem : m.level ∈ ([0, 1, 2, 3] : List Nat) := List.mem_range.2 (Nat.lt_succ_of_le h3)
  rw [hsplit] at hrising hmem
  rcases List.mem_append.1 hmem with hlow | hlow
  · exact absurd (beq_self_eq_true m.level) (List.find?_eq_none.1 (hnone _ hlow) m hm)
  · rcases List.mem_cons.1 hlow with heq | hhigh
    · exact heq.ge
    · exact ((List.pairwise_cons.1 (List.pairwise_append.1 hrising).2.1).1 _ hhigh).le

/-- A table of leases at levels 0 to 3 has a top-ranked lease unless it is empty. -/
theorem top_eq_none_iff {x : Leases} (hlevels : ∀ l ∈ x.table, l.level ≤ 3) : x.top = none ↔ x.table = [] := by
  unfold Leases.top
  rw [List.findSome?_eq_none_iff]
  refine ⟨fun h => List.eq_nil_iff_forall_not_mem.2 fun m hm => ?_, fun h => ?_⟩
  · have hmem : m.level ∈ List.range 4 := List.mem_range.2 (Nat.lt_succ_of_le (hlevels m hm))
    exact List.find?_eq_none.1 (h m.level hmem) m hm (beq_self_eq_true m.level)
  · simp [h]

theorem nameView_of_top {x : Leases} {l : Lease} (h : x.top = some l) :
    x.nameView.1 = { plan := some l.plan, holder := l.holder.asHolder, lease := some (l.level, l.handle) } := by
  simp only [Leases.nameView, h]

/-- Settles O40: the top-ranked lease splits the table where `find?` meets it. -/
theorem lowestLevelThenEarliestIsShown : Obligations.LowestLevelThenEarliestIsShown := by
  intro x
  refine ⟨fun l h => ⟨?ranked, nameView_of_top h⟩, top_eq_none_iff, fun h => ?unclaimed⟩
  case ranked =>
    obtain ⟨hfind, hlowest⟩ := top_eq_some h
    obtain ⟨-, before, after, hsplit, hearlier⟩ := List.find?_eq_some_iff_append.1 hfind
    refine ⟨before, after, hsplit, fun m hm h3 => ?_, fun m hm h3 => ?_⟩
    · have hle := hlowest m (by simp [hsplit, hm]) h3
      have hne : m.level ≠ l.level := by simpa using hearlier m hm
      omega
    · exact hlowest m (by simp [hsplit, hm]) h3
  case unclaimed =>
    simp only [Leases.nameView, h]
    cases x.settings.fallback <;> rfl

end Sys2Proof.Machine
end

section
/-! SUPPORT and PROOFS. VIEWS_SET: the marks that move with the settings, and what it leaves alone (R106). -/

namespace Sys2Proof.Machine

section marks
variable (s : State) (set : Bool → PlanRefs → PlanRefs) (old new : Option PlanId)

/-- A mark moved changes the plan slots alone. -/
theorem moveMark_slots : ∃ slots, s.moveMark set old new = { s with plans := { s.plans with slots := slots } } := by
  have hmark : ∀ (u : State) (x : Option PlanId) (b : Bool),
      ∃ slots, u.markPlan set x b = { u with plans := { u.plans with slots := slots } } := by
    intro u x b
    cases x with
    | none => exact ⟨u.plans.slots, rfl⟩
    | some id => exact ⟨_, rfl⟩
  unfold State.moveMark
  split
  · exact ⟨s.plans.slots, rfl⟩
  · obtain ⟨a, ha⟩ := hmark s old false
    obtain ⟨b, hb⟩ := hmark (s.markPlan set old false) new true
    exact ⟨b, by rw [hb, ha]⟩

/-- A mark may be moved before a request is taken or after it. -/
theorem taken_moveMark (p : Port) (r : Request) (rest : List Request) :
    (s.taken p r rest).moveMark set old new = (s.moveMark set old new).taken p r rest := by
  have hmark : ∀ (u : State) (x : Option PlanId) (b : Bool),
      (u.taken p r rest).markPlan set x b = (u.markPlan set x b).taken p r rest := by
    intro u x b
    cases x <;> rfl
  unfold State.moveMark
  split
  · rfl
  · rw [hmark, hmark]

/-- What a mark's change does not touch stays as it is on every plan. -/
theorem moveMark_other {α : Type} {get : PlanRefs → α} (hget : ∀ b x, get (set b x) = get x) (id : PlanId) :
    get ((s.moveMark set old new).plan id).refs = get (s.plan id).refs := by
  have hmark : ∀ (u : State) (x : Option PlanId) (b : Bool),
      get ((u.markPlan set x b).plan id).refs = get (u.plan id).refs := by
    intro u x b
    rw [markPlan_plan]
    split
    · exact hget ..
    · rfl
  unfold State.moveMark
  split
  · rfl
  · rw [hmark, hmark]

/-- A mark that stood where the old setting has it stands, moved, where the new one does. -/
theorem moveMark_mark {get : PlanRefs → Bool} (hget : ∀ b x, get (set b x) = b)
    (hold : ∀ id, get (s.plan id).refs = decide (old = some id)) (id : PlanId) :
    get ((s.moveMark set old new).plan id).refs = decide (new = some id) := by
  have hmark : ∀ (u : State) (x : Option PlanId) (b : Bool),
      get ((u.markPlan set x b).plan id).refs = if x = some id then b else get (u.plan id).refs := by
    intro u x b
    rw [markPlan_plan]
    split
    · exact hget ..
    · rfl
  unfold State.moveMark
  split
  · rename_i he
    rw [hold, he]
  · rw [hmark, hmark, hold]
    by_cases hn : new = some id <;> by_cases ho : old = some id <;> simp [hn, ho]

end marks

/-- The fallback mark of a reference record set to a value. -/
def PlanRefs.setFallback (b : Bool) (x : PlanRefs) : PlanRefs := { x with fallback := b }

/-- The reverse mark of a reference record set to a value. -/
def PlanRefs.setReverse (b : Bool) (x : PlanRefs) : PlanRefs := { x with reverse := b }

/-- The plan slots that new settings leave: the fallback marks moved, and then the reverse marks (R106). -/
def State.viewsMarked (s : State) (v : ViewSettings) : State :=
  (s.moveMark PlanRefs.setFallback s.leases.settings.fallback v.fallback).moveMark
    PlanRefs.setReverse s.leases.settings.reverse v.reverse

theorem setViews_eq (s : State) (v : ViewSettings) :
    s.setViews v =
      { s.viewsMarked v with leases := { (s.viewsMarked v).leases with settings := v } } := rfl

/-- The settings replaced change the settings and the plan slots alone. -/
theorem setViews_frame (s : State) (v : ViewSettings) : ∃ slots,
    s.setViews v =
      { s with leases := { s.leases with settings := v }, plans := { s.plans with slots := slots } } := by
  obtain ⟨a, ha⟩ := moveMark_slots s PlanRefs.setFallback s.leases.settings.fallback v.fallback
  obtain ⟨b, hb⟩ := moveMark_slots { s with plans := { s.plans with slots := a } }
    PlanRefs.setReverse s.leases.settings.reverse v.reverse
  exact ⟨b, by rw [setViews_eq, State.viewsMarked, ha, hb]⟩

theorem taken_setViews (s : State) (p : Port) (r : Request) (rest : List Request) (v : ViewSettings) :
    (s.taken p r rest).setViews v = (s.setViews v).taken p r rest := by
  rw [setViews_eq, setViews_eq, State.viewsMarked, taken_leases, taken_moveMark, taken_moveMark]
  rfl

/-- The fallback marks follow the fallback setting, where they did before. -/
theorem setViews_fallback {s : State} (v : ViewSettings)
    (h : ∀ id, (s.plan id).refs.fallback = decide (s.leases.settings.fallback = some id)) (id : PlanId) :
    ((s.setViews v).plan id).refs.fallback = decide (v.fallback = some id) := by
  change ((s.viewsMarked v).plan id).refs.fallback = _
  rw [State.viewsMarked, moveMark_other _ PlanRefs.setReverse _ _ (get := PlanRefs.fallback) fun _ _ => rfl]
  exact moveMark_mark s PlanRefs.setFallback _ _ (fun _ _ => rfl) h id

/-- The reverse marks follow the reverse setting, where they did before. -/
theorem setViews_reverse {s : State} (v : ViewSettings)
    (h : ∀ id, (s.plan id).refs.reverse = decide (s.leases.settings.reverse = some id)) (id : PlanId) :
    ((s.setViews v).plan id).refs.reverse = decide (v.reverse = some id) := by
  change ((s.viewsMarked v).plan id).refs.reverse = _
  refine moveMark_mark _ PlanRefs.setReverse _ _ (fun _ _ => rfl) (fun j => ?_) id
  rw [moveMark_other _ PlanRefs.setFallback _ _ (get := PlanRefs.reverse) fun _ _ => rfl]
  exact h j

/-- What is neither mark stays as it is on every plan. -/
theorem setViews_other {α : Type} (s : State) (v : ViewSettings) {get : PlanRefs → α}
    (hfall : ∀ b x, get (PlanRefs.setFallback b x) = get x) (hrev : ∀ b x, get (PlanRefs.setReverse b x) = get x)
    (id : PlanId) : get ((s.setViews v).plan id).refs = get (s.plan id).refs := by
  change get ((s.viewsMarked v).plan id).refs = _
  rw [State.viewsMarked, moveMark_other _ _ _ _ hrev, moveMark_other _ _ _ _ hfall]

/-- A setting may name a plan exactly where the plan is VERIFIED. -/
theorem mayName_iff (s : State) (x : Option PlanId) :
    s.mayName x = true ↔ ∀ id, x = some id → (s.plan id).hold.isVerified = true := by
  cases x <;> simp [State.mayName]

/-- VIEWS_SET of two plan operands: the checks of R106 in their order. -/
theorem viewsSet_eq {p : Port} {s : State} {r : Request} {rest : List Request} {fb rv : Option PlanId}
    (h : s.Ready p .viewsSet r rest) (hfb : planOrNone (byteAt r.payload 0) = some fb)
    (hrv : planOrNone (byteAt r.payload 1) = some rv) :
    exec (.viewsSet p) s = .next
      (let level := byteAt r.payload 2
      let hold := byteAt r.payload 3
      if level = 0 ∨ 3 < level ∨ 10 < hold then s.replied p r rest .range []
      else if !(s.mayName fb && s.mayName rv) then s.replied p r rest .state []
      else
        (s.setViews { fallback := fb, reverse := rv, lineLevel := level, holdTime := hold }).replied p r rest .ok []) := by
  have hname : ∀ x, (s.taken p r rest).mayName x = s.mayName x := fun _ => rfl
  change execViewsSet p s = _
  unfold execViewsSet
  rw [serve_of_ready h]
  simp only [hfb, hrv, taken_refuse, hname, taken_setViews, taken_answer]

/-- Settles O39: the checks by `viewsSet_eq`, the marks by what a moved mark does. -/
theorem viewsSetReplacesTheSettings : Obligations.ViewsSetReplacesTheSettings := by
  intro p s r rest fb rv h hfb hrv
  have he := viewsSet_eq h hfb hrv
  dsimp only at he
  refine ⟨fun hrange => ?range, fun h1 h3 h10 => ?inRange⟩
  case range => rw [he, if_pos hrange]
  case inRange =>
    rw [if_neg (by omega)] at he
    refine ⟨fun ⟨id, hid, hver⟩ => ?unverified, fun hver => ?accepted⟩
    case unverified =>
      have hname : (s.mayName fb && s.mayName rv) ≠ true := fun e => by
        obtain ⟨hf, hr⟩ := Bool.and_eq_true_iff.1 e
        have hv := hid.elim ((mayName_iff s fb).1 hf id) ((mayName_iff s rv).1 hr id)
        rw [hver] at hv
        cases hv
      rw [he, if_pos (by rw [eq_false_of_ne_true hname]; rfl)]
    case accepted =>
      have hf := (mayName_iff s fb).2 fun id e => hver id (Or.inl e)
      have hr := (mayName_iff s rv).2 fun id e => hver id (Or.inr e)
      rw [if_neg (by simp [hf, hr])] at he
      generalize hv : ({ fallback := fb, reverse := rv, lineLevel := byteAt r.payload 2, holdTime := byteAt r.payload 3 } :
        ViewSettings) = v at he
      obtain ⟨slots, hframe⟩ := setViews_frame s v
      refine ⟨_, he, ⟨?_, setViews_hold s v, ?_, ?_⟩, ?_, ?_, ?_, fun id => ⟨?_, ?_⟩⟩
      · rw [hframe]
        rfl
      · rw [hframe]
        rfl
      · rw [hframe]
        rfl
      · exact setViews_leases s v
      · intro hmarks id
        exact (setViews_fallback v hmarks id).trans (by rw [← hv])
      · intro hmarks id
        exact (setViews_reverse v hmarks id).trans (by rw [← hv])
      · exact setViews_other s v (get := PlanRefs.leases) (fun _ _ => rfl) (fun _ _ => rfl) id
      · exact setViews_other s v (get := PlanRefs.pinned) (fun _ _ => rfl) (fun _ _ => rfl) id

end Sys2Proof.Machine
end

section
/-! SUPPORT and PROOFS. Leases renewed, released and expired (R96, R98, R108, R109). -/

namespace Sys2Proof.Machine

/-! ### The lease that a request names -/

section named
variable {p : Port} {s : State} {r : Request} {rest : List Request}

/-- A lease of the port, named by its handle, passes the checks. -/
theorem named_own {x : Leases} {n : Nat} {l : Lease} (hn : 0 < n) (hf : x.find n = some l) (hp : l.holder = .port p) :
    x.named p n = .inr l := by
  simp [Leases.named, hn.ne', hf, hp]

/-- The three refusals that VIEW_RENEW and VIEW_RELEASE share, for an outcome `e` that is the reply of the check's code
(R108, R109). -/
theorem named_refusals {e : Host.Outcome State Fault Refusal}
    (he : ∀ code, s.leases.named p (byteAt r.payload 0) = .inl code → e = .next (s.replied p r rest code [])) :
    (byteAt r.payload 0 = 0 → e = .next (s.replied p r rest .range []))
    ∧ (0 < byteAt r.payload 0 → s.leases.find (byteAt r.payload 0) = none → e = .next (s.replied p r rest .state []))
    ∧ ∀ l, 0 < byteAt r.payload 0 → s.leases.find (byteAt r.payload 0) = some l → l.holder ≠ .port p →
      e = .next (s.replied p r rest .owner []) := by
  refine ⟨fun h0 => he _ ?_, fun hn hf => he _ ?_, fun l hn hf hp => he _ ?_⟩
  · simp [Leases.named, h0]
  · simp [Leases.named, hn.ne', hf]
  · simp [Leases.named, hn.ne', hf, hp]

theorem viewRenew_refused (h : s.Ready p .viewRenew r rest) (code : Code)
    (hn : s.leases.named p (byteAt r.payload 0) = .inl code) :
    exec (.viewRenew p) s = .next (s.replied p r rest code []) := by
  refine congrArg _ (serve_replied h s ?_)
  simp only [taken_leases, hn]
  rfl

theorem viewRelease_refused (h : s.Ready p .viewRelease r rest) (code : Code)
    (hn : s.leases.named p (byteAt r.payload 0) = .inl code) :
    exec (.viewRelease p) s = .next (s.replied p r rest code []) := by
  refine congrArg _ (serve_replied h s ?_)
  simp only [taken_leases, hn]
  rfl

theorem viewRenew_accepted (h : s.Ready p .viewRenew r rest) {l : Lease}
    (hn : s.leases.named p (byteAt r.payload 0) = .inr l) :
    exec (.viewRenew p) s = .next
      (({ s with leases := s.leases.update l.handle (fun m => { m with remaining := durationTime m.duration }) } :
        State).replied p r rest .ok (be2 (remainingMs (durationTime l.duration)))) := by
  refine congrArg _ (serve_replied h _ ?_)
  simp only [taken_leases, hn]
  rfl

theorem viewRelease_accepted (h : s.Ready p .viewRelease r rest) {l : Lease}
    (hn : s.leases.named p (byteAt r.payload 0) = .inr l) :
    exec (.viewRelease p) s = .next ((s.removeLease l).replied p r rest .ok []) := by
  refine congrArg _ (serve_replied h _ ?_)
  simp only [taken_leases, hn]
  rfl

end named

/-! ### Durations (R97) -/

theorem durationTime_eq (d : Nat) : durationTime d = if d = 0 then none else some (d * 100000) := by
  unfold durationTime Config.ms
  rw [Nat.mul_assoc]

/-- A full remaining time is a whole number of ms: nothing is rounded. -/
theorem remainingMs_durationTime (d : Nat) : remainingMs (durationTime d) = if d = 0 then 0xFFFF else d * 100 := by
  rw [durationTime_eq]
  split
  · rfl
  · change (d * 100000 + 999) / 1000 = _
    omega

/-! ### Leases that leave -/

theorem filter_handle (table : List Lease) (n : Nat) :
    table.filter (fun m => !(m.handle == n)) = table.filter (fun m => m.handle ≠ n) :=
  List.filter_congr fun m _ => by rw [beq_eq_decide, decide_not]

theorem onRefs_leasesOnly (s : State) (x : Leases) (id : PlanId) (f : PlanRefs → PlanRefs) :
    s.leasesOnly (({ s with leases := x } : State).onRefs id f) :=
  ⟨rfl, fun _ => onRefs_hold .., rfl, rfl⟩

theorem removeLease_table (s : State) (l : Lease) :
    (s.removeLease l).leases.table = s.leases.table.filter (fun m => m.handle ≠ l.handle) :=
  filter_handle ..

theorem removeLease_count (s : State) (l : Lease) :
    ((s.removeLease l).plan l.plan).refs.leases = (s.plan l.plan).refs.leases - 1 := by
  unfold State.removeLease
  rw [onRefs_plan, if_pos rfl]
  rfl

/-- A lease that leaves changes the leases and its plan's count alone (R96). -/
theorem removeLease_leasesOnly (s : State) (l : Lease) : s.leasesOnly (s.removeLease l) :=
  onRefs_leasesOnly ..

/-- LEASE raised keeps what `leasesOnly` says. -/
theorem leasesOnly_raiseLease {s t : State} (h : s.leasesOnly t) (x : LeaseHolder) : s.leasesOnly (t.raiseLease x) := by
  obtain ⟨hrest, hhold, hwalk, hports⟩ := h
  cases x with
  | line => exact ⟨hrest, hhold, hwalk, hports⟩
  | port p =>
    refine ⟨?_, hhold, hwalk, ?_⟩
    · change t.raise p .lease = _
      rw [hrest]
      rfl
    · rw [← hports]
      cases p <;> rfl

/-- Settles O38: the checks by `named_refusals`, the effects by what a renewal, a release and an expiry leave. -/
theorem leasesAreRenewedReleasedAndExpire : Obligations.LeasesAreRenewedReleasedAndExpire := by
  refine ⟨fun p s r rest h => ?renew, fun p s r rest h => ?release, fun s n l left hf hr => ?expiry,
    fun s l => ⟨removeLease_leasesOnly s l, removeLease_table s l, removeLease_count s l, rfl⟩⟩
  case renew =>
    obtain ⟨hrange, hstate, howner⟩ := named_refusals (viewRenew_refused h)
    refine ⟨hrange, hstate, fun l hn hf => ⟨howner l hn hf, fun hp => ?_⟩⟩
    rw [viewRenew_accepted h (named_own hn hf hp), remainingMs_durationTime]
    simp only [Leases.update, durationTime_eq]
  case release =>
    obtain ⟨hrange, hstate, howner⟩ := named_refusals (viewRelease_refused h)
    exact ⟨hrange, hstate, fun l hn hf =>
      ⟨howner l hn hf, fun hp => viewRelease_accepted h (named_own hn hf hp)⟩⟩
  case expiry =>
    have hexec : exec (.leaseExpiry n) s = .next ((s.elapse left).dropLease l) := by
      change execLeaseExpiry n s = _
      simp only [execLeaseExpiry, hf, hr]
      rfl
    have hrest := leasesOnly_raiseLease (removeLease_leasesOnly (s.elapse left) l) l.holder
    have hplans : ((s.elapse left).dropLease l).plans = ((s.elapse left).removeLease l).plans :=
      (raiseLease_leases _ _).2
    refine ⟨_, hexec, ?_, hrest, ?_, ?_, dropLease_raises _ l⟩
    · exact congrArg State.now hrest.1
    · rw [dropLease_leases]
      exact filter_handle ..
    · rw [State.plan, hplans]
      exact removeLease_count (s.elapse left) l

end Sys2Proof.Machine
end

section
/-! SUPPORT. A flag raised on both ports is kept by a strobe and by an answer, and what a wake event does in each power state
(R14, R174, R185, R186). -/

namespace Sys2Proof.Machine

/-! ### Flags kept -/

theorem streamStarts_keeps {s : State} {k : NoticeKind} (h : s.bothRaised k) : s.streamStarts.bothRaised k := by
  have one : ∀ (t : State) (c : Camera), t.bothRaised k → (t.startOne c).bothRaised k := by
    intro t c ht
    unfold State.startOne
    split
    · exact setCam_keeps _ _ ht
    · exact ht
  rw [streamStarts_eq]
  exact one _ _ (one _ _ (one _ _ (one _ _ h)))

theorem sendStrobe_keeps {s : State} {k : NoticeKind} (h : s.bothRaised k) : s.sendStrobe.bothRaised k :=
  streamStarts_keeps h

/-- An answer raises and clears nothing: ANSWER follows the answer queue (R175). -/
theorem answer_keeps {s : State} {k : NoticeKind} (p : Port) (c : Code) (bs : List Byte) (h : s.bothRaised k) :
    (s.answer p c bs).bothRaised k := by
  unfold State.answer
  dsimp only
  split
  · exact h
  · intro q
    rw [Duo.get_set]
    split
    · rename_i e
      exact e ▸ h p
    · exact h q

/-! ### Waking -/

theorem sendStrobe_lastTag (s : State) : s.sendStrobe.chain.lastTag = some s.chain.tag := by
  obtain ⟨q, w, hsend⟩ := sendCommand_fixed (s.chain.atStrobe s.now s.sendStrobe.capture.timing.period)
  rw [(sendStrobe_spec s).1, hsend]
  rfl

theorem sendStrobe_cameraPower (s : State) : s.sendStrobe.chain.cameraPower = s.chain.cameraPower := by
  obtain ⟨q, w, hsend⟩ := sendCommand_fixed (s.chain.atStrobe s.now s.sendStrobe.capture.timing.period)
  rw [(sendStrobe_spec s).1, hsend]
  rfl

/-- The power block as the part enters RUN (R184, R186). -/
def Power.running (x : Power) : Power := ({ x with state := .run }).reloadIdle

/-- RUN entered with an inactive reverse level: POWER is raised, camera power is on, the first strobe carries the tag
counter's value, and all else but the pipeline is as it was (R182, R186). -/
theorem enterRun_quiet {s : State} (h : s.power.level = false) :
    s.enterRun.sansPipe = ({ s with power := s.power.running } : State).sansPipe
    ∧ s.enterRun.bothRaised .power ∧ s.enterRun.chain.cameraPower = true
    ∧ s.enterRun.chain.lastTag = some s.chain.tag := by
  have he : s.enterRun = (({ s with power := s.power.running } : State).raiseBoth .power).camerasOn.sendStrobe := by
    unfold State.enterRun State.handLevel
    exact congrArg (fun t : State => t.camerasOn.sendStrobe) (if_neg (by simp [State.raiseBoth, h]))
  rw [he, sendStrobe_lastTag, sendStrobe_cameraPower]
  refine ⟨by simp, sendStrobe_keeps ?_, rfl, rfl⟩
  exact raiseBoth_bothRaised { s with power := s.power.running } .power

theorem wakeEvent_standby {s : State} (h : s.power.state = .standby) : s.wakeEvent = s.enterRun := by
  simp only [State.wakeEvent, h]

/-- In RUN a wake event cancels a standby wait, and otherwise changes nothing (R185). -/
theorem wakeEvent_run {s : State} (h : s.power.state = .run) :
    s.wakeEvent = if s.power.entry then s.cancelEntry else s := by
  simp only [State.wakeEvent, h]

end Sys2Proof.Machine
end

section
/-! SUPPORT and PROOFS. VIEW_CLAIM: its checks in order, and the lease that joins the table (R96, R97, R107). -/

namespace Sys2Proof.Machine

/-! ### Joining -/

/-- A handle taken is at least 1 (R96). -/
theorem nextHandle_pos (x : Leases) : 0 < x.nextHandle := by
  unfold Leases.nextHandle
  cases hf : ((List.range 255).map (handleAfter x.handleCtr)).find? (fun h => !x.bears h) with
  | none => exact Nat.succ_pos _
  | some n =>
    obtain ⟨i, -, rfl⟩ := List.mem_map.1 (List.mem_of_find?_eq_some hf)
    exact Nat.succ_pos _

/-- The value after a handle, counting 1 to 255 and then 1 again. -/
theorem handleAfter_one {h : Nat} (hpos : 0 < h) : handleAfter h 1 = h % 255 + 1 := by
  unfold handleAfter
  rw [Nat.sub_add_cancel hpos]

/-- The lease that a claim of plan `id` brings in (R96, R97). -/
def State.leaseOf (s : State) (p : Port) (level : Nat) (id : PlanId) (duration : Nat) : Lease :=
  { handle := s.leases.nextHandle, holder := .port p, level := level, plan := id, duration := duration
    remaining := durationTime duration, seq := s.leases.seqCtr, shown := false, phase := none }

/-- The state with the lease of a claim at the newest end of the table (R96). -/
def State.claimed (s : State) (p : Port) (level : Nat) (id : PlanId) (duration : Nat) : State :=
  s.joinLease (.port p) level id duration (durationTime duration) none

section claimed
variable (s : State) (p : Port) (level : Nat) (id : PlanId) (duration : Nat)

theorem claimed_eq :
    s.claimed p level id duration =
      ({ s with
        leases := { s.leases with
          table := s.leases.table ++ [s.leaseOf p level id duration]
          handleCtr := s.leases.nextHandle % 255 + 1
          seqCtr := s.leases.seqCtr + 1 } } : State).onRefs id (fun x => { x with leases := x.leases + 1 }) := by
  rw [← handleAfter_one (nextHandle_pos s.leases)]
  rfl

/-- A claim changes the leases and its plan's count alone. -/
theorem claimed_leasesOnly : s.leasesOnly (s.claimed p level id duration) :=
  claimed_eq s p level id duration ▸ onRefs_leasesOnly ..

end claimed

/-! ### The checks -/

theorem planOf_planId (id : PlanId) (bs : List Byte) : planOf (byte id.val :: bs) = some id := by
  fin_cases id <;> rfl

/-- The checks of a claim with its three operands, in the order of R107. -/
theorem claimCheck_operands (s : State) (p : Port) (level duration : Byte) (id : PlanId) :
    s.claimCheck p [level, byte id.val, duration] =
      if 3 < level.toNat then .inl .range
      else if level.toNat = 0 ∧ p = .cp then .inl .level
      else if durationOk level.toNat duration.toNat = false then .inl .range
      else if s.power.state = .standby ∧ s.power.claimWake = false then .inl .state
      else if s.leases.table.any (fun l => l.holder == .port p && l.level == level.toNat) then .inl .state
      else if (s.plan id).hold.isVerified = false then .inl .state
      else .inr id := by
  unfold State.claimCheck
  rw [List.drop_one, List.tail_cons, planOf_planId]
  rfl

section claim
variable {p : Port} {s : State} {r : Request} {rest : List Request}

theorem viewClaim_refused (h : s.Ready p .viewClaim r rest) {code : Code} (hc : s.claimCheck p r.payload = .inl code) :
    exec (.viewClaim p) s = .next (s.replied p r rest code []) := by
  have ht : (s.taken p r rest).claimCheck p r.payload = .inl code := hc
  refine congrArg _ (serve_replied h s ?_)
  simp only [ht]
  rfl

end claim

/-! ### Accepted claims, by the power state -/

/-- The taking of a claim, with its wake event where CLAIM wake is on (R185, R186). -/
def State.takenAwake (s : State) (p : Port) (r : Request) (rest : List Request) : State :=
  if s.power.claimWake then (s.taken p r rest).wakeEvent else s.taken p r rest

section accepted
variable {p : Port} {s : State} {r : Request} {rest : List Request}

/-- An accepted claim joins the table, and is answered with its handle and claim sequence. -/
theorem viewClaim_accepted (h : s.Ready p .viewClaim r rest) {level duration : Byte} {id : PlanId}
    (hp : r.payload = [level, byte id.val, duration]) (hc : s.claimCheck p r.payload = .inr id) :
    exec (.viewClaim p) s = .next
      (((s.claimed p level.toNat id duration.toNat).takenAwake p r rest).answer p .ok
        ([byte s.leases.nextHandle] ++ be4 s.leases.seqCtr.toNat)) := by
  have ht : (s.taken p r rest).claimCheck p r.payload = .inr id := hc
  refine congrArg Host.Outcome.next ((serve_of_ready h _).trans ?_)
  simp only [ht]
  rw [hp]
  rfl

/-- In RUN a wake event cancels the standby wait of a request taken, and the idle timer is reloaded (R184, R185). -/
theorem taken_wakeEvent_run (h : s.power.state = .run) :
    (s.taken p r rest).wakeEvent =
      if s.power.entry then
        { s.taken p r rest with power := ({ s.power with entry := false } : Power).reloadIdle }
      else s.taken p r rest :=
  wakeEvent_run (s := s.taken p r rest) h

theorem takenAwake_run (h : s.power.state = .run) (he : s.power.entry = false) :
    s.takenAwake p r rest = s.taken p r rest := by
  rw [State.takenAwake, taken_wakeEvent_run h, he]
  exact ite_self _

theorem takenAwake_wait (h : s.power.state = .run) (he : s.power.entry = true) :
    s.takenAwake p r rest =
      { s.taken p r rest with power := ({ s.power with entry := !s.power.claimWake } : Power).reloadIdle } := by
  rw [State.takenAwake, taken_wakeEvent_run h, if_pos he]
  cases hw : s.power.claimWake with
  | true => rfl
  | false =>
    have hpow : ({ s.power with entry := true } : Power) = s.power := by rw [← he]
    rw [if_neg Bool.false_ne_true, Bool.not_false, hpow]
    rfl

/-- The answer of a request taken, where the power block has been replaced. -/
theorem taken_answer_withPower (x : Power) (c : Code) (bs : List Byte) :
    ({ s.taken p r rest with power := x } : State).answer p c bs = { s.replied p r rest c bs with power := x } := by
  cases p <;> rfl

/-- In STANDBY a claim with CLAIM wake on takes the part to RUN, and is answered (R186). -/
theorem takenAwake_standby (h : s.power.state = .standby) (hw : s.power.claimWake = true) (hl : s.power.level = false)
    (c : Code) (bs : List Byte) :
    let t := (s.takenAwake p r rest).answer p c bs
    ({ s.replied p r rest c bs with power := s.power.reloadIdle.running } : State).pipeOnly t
    ∧ t.bothRaised .power ∧ t.chain.cameraPower = true ∧ t.chain.lastTag = some s.chain.tag := by
  have he : s.takenAwake p r rest = (s.taken p r rest).enterRun := by
    rw [State.takenAwake, if_pos hw]
    exact wakeEvent_standby (s := s.taken p r rest) h
  obtain ⟨hview, hraised, hcameras, htag⟩ := enterRun_quiet (s := s.taken p r rest) hl
  intro t
  refine ⟨pipeOnly_of_sansPipe ?_, ?_, ?_, ?_⟩
  · rw [← taken_answer_withPower]
    exact answer_sansPipe p c bs (he ▸ hview)
  · exact answer_keeps p c bs (he ▸ hraised)
  · exact (congrArg Chain.cameraPower (answer_chain ..)).trans (he ▸ hcameras)
  · exact (congrArg Chain.lastTag (answer_chain ..)).trans (he ▸ htag)

/-- In RUN with no standby wait a claim joins the table, and nothing more. -/
theorem viewClaim_run (h : s.Ready p .viewClaim r rest) {level duration : Byte} {id : PlanId}
    (hp : r.payload = [level, byte id.val, duration]) (hc : s.claimCheck p r.payload = .inr id)
    (hs : s.power.state = .run) (he : s.power.entry = false) :
    let l := s.leaseOf p level.toNat id duration.toNat
    exec (.viewClaim p) s = .next
      ((({ s with
        leases := { s.leases with
          table := s.leases.table ++ [l]
          handleCtr := l.handle % 255 + 1
          seqCtr := s.leases.seqCtr + 1 } } : State).onRefs id (fun x => { x with leases := x.leases + 1 })).replied
        p r rest .ok ([byte l.handle] ++ be4 s.leases.seqCtr.toNat)) := by
  intro l
  have hawake := takenAwake_run (s := s.claimed p level.toNat id duration.toNat) (p := p) (r := r) (rest := rest) hs he
  rw [viewClaim_accepted h hp hc, hawake, taken_answer, claimed_eq]
  rfl

/-- In the standby wait the claim cancels the wait with CLAIM wake on (R185). -/
theorem viewClaim_wait (h : s.Ready p .viewClaim r rest) {level duration : Byte} {id : PlanId}
    (hp : r.payload = [level, byte id.val, duration]) (hc : s.claimCheck p r.payload = .inr id)
    (hs : s.power.state = .run) (he : s.power.entry = true) :
    let l := s.leaseOf p level.toNat id duration.toNat
    ∃ t, exec (.viewClaim p) s = .next t ∧ t.leases.table = s.leases.table ++ [l]
      ∧ t.power = ({ s.power with entry := !s.power.claimWake } : Power).reloadIdle
      ∧ t.ports = (s.replied p r rest .ok ([byte l.handle] ++ be4 s.leases.seqCtr.toNat)).ports
      ∧ s.leasesOnly { t with power := s.power, ports := s.ports } := by
  intro l
  refine ⟨_, viewClaim_accepted h hp hc, ?_⟩
  rw [takenAwake_wait (by exact hs) (by exact he), taken_answer_withPower]
  exact ⟨rfl, rfl, rfl, claimed_leasesOnly s p level.toNat id duration.toNat⟩

/-- In STANDBY the claim takes the part to RUN with CLAIM wake on (R186). -/
theorem viewClaim_standby (h : s.Ready p .viewClaim r rest) {level duration : Byte} {id : PlanId}
    (hp : r.payload = [level, byte id.val, duration]) (hc : s.claimCheck p r.payload = .inr id)
    (hs : s.power.state = .standby) (hw : s.power.claimWake = true) (hl : s.power.level = false) :
    let l := s.leaseOf p level.toNat id duration.toNat
    ∃ t, exec (.viewClaim p) s = .next t ∧ t.leases.table = s.leases.table ++ [l]
      ∧ t.power.state = .run ∧ t.bothRaised .power ∧ t.chain.cameraPower = true
      ∧ t.chain.lastTag = some s.chain.tag
      ∧ t = { s with
        chain := t.chain, lanes := t.lanes, capture := t.capture, arb := t.arb, ports := t.ports, power := t.power
        leases := t.leases, plans := { s.plans with slots := t.plans.slots } }
      ∧ (∀ id, (t.plan id).hold = (s.plan id).hold)
      ∧ quietPorts t.ports = quietPorts (s.replied p r rest .ok ([byte l.handle] ++ be4 s.leases.seqCtr.toNat)).ports := by
  intro l
  refine ⟨_, viewClaim_accepted h hp hc, ?_⟩
  obtain ⟨-, hhold, -, -⟩ := claimed_leasesOnly s p level.toNat id duration.toNat
  obtain ⟨hrest, hraised, hcameras, htag⟩ :=
    takenAwake_standby (s := s.claimed p level.toNat id duration.toNat) (p := p) (r := r) (rest := rest) hs hw hl
      .ok ([byte s.leases.nextHandle] ++ be4 s.leases.seqCtr.toNat)
  generalize State.answer _ p .ok _ = t at *
  obtain ⟨hpower, hleases, hplans, hports⟩ := pipeOnly_rest hrest
  refine ⟨congrArg Leases.table hleases, congrArg Power.state hpower, hraised, hcameras, htag, ?_, fun j => ?_, hports⟩
  · rw [hpower, hleases, hplans]
    exact hrest.1
  · rw [State.plan, hplans]
    exact hhold j

end accepted

/-! ### The statement -/

theorem toNat_zero_iff (b : Byte) : b.toNat = 0 ↔ b = 0 := by
  rw [← BitVec.toNat_inj]
  rfl

theorem toNat_one_iff (b : Byte) : b.toNat = 1 ↔ b = 1 := by
  rw [← BitVec.toNat_inj]
  rfl

/-- Which durations a level takes, said of the operand bytes (R97). -/
theorem durationOk_iff (level duration : Byte) :
    durationOk level.toNat duration.toNat = true ↔
      (level = 0 → 1 ≤ duration.toNat ∧ duration.toNat ≤ 20) ∧ (level = 1 → duration ≠ 0) := by
  rw [← toNat_zero_iff, ← toNat_one_iff, Ne, ← toNat_zero_iff]
  unfold durationOk
  split
  next h0 => simp [h0]
  next h0 =>
    split
    next h1 => simp [h1, Nat.one_le_iff_ne_zero]
    next h1 => simp [h0, h1]

/-- A claim within its port's standing, with a duration its level takes, is left to the checks on the state (R107). -/
theorem claimCheck_standing {s : State} {p : Port} {level duration : Byte} {id : PlanId} (hlevel : level.toNat ≤ 3)
    (h0 : level = 0 → p = .mp ∧ 1 ≤ duration.toNat ∧ duration.toNat ≤ 20) (h1 : level = 1 → duration ≠ 0) :
    s.claimCheck p [level, byte id.val, duration] =
      if s.power.state = .standby ∧ s.power.claimWake = false then .inl .state
      else if s.leases.table.any (fun l => l.holder == .port p && l.level == level.toNat) then .inl .state
      else if (s.plan id).hold.isVerified = false then .inl .state
      else .inr id := by
  have hcp : ¬(level.toNat = 0 ∧ p = .cp) := fun ⟨hz, hcp⟩ => by
    obtain ⟨hmp, -⟩ := h0 ((toNat_zero_iff level).1 hz)
    rw [hcp] at hmp
    cases hmp
  have hok := (durationOk_iff level duration).2 ⟨fun hz => (h0 hz).2, h1⟩
  rw [claimCheck_operands, if_neg (by omega), if_neg hcp, if_neg (by simp [hok])]

/-- A duration that the level does not take is refused, of the ports that may claim the level (R97, R107). -/
theorem claimCheck_duration {s : State} {p : Port} {level duration : Byte} {id : PlanId} (hlevel : level.toNat ≤ 3)
    (hcp : level = 0 → p ≠ .cp)
    (hd : ¬((level = 0 → 1 ≤ duration.toNat ∧ duration.toNat ≤ 20) ∧ (level = 1 → duration ≠ 0))) :
    s.claimCheck p [level, byte id.val, duration] = .inl .range := by
  rw [← durationOk_iff, Bool.not_eq_true] at hd
  rw [claimCheck_operands, if_neg (by omega), if_neg (fun h => hcp ((toNat_zero_iff level).1 h.1) h.2), if_pos hd]

/-- The lease of a claim, with the remaining time of its duration written out (R97, log 9). -/
theorem leaseOf_byte (s : State) (p : Port) (level : Nat) (id : PlanId) (duration : Byte) :
    s.leaseOf p level id duration.toNat =
      { handle := s.leases.nextHandle, holder := .port p, level := level, plan := id, duration := duration.toNat
        remaining := if duration = 0 then none else some (duration.toNat * 100000)
        seq := s.leases.seqCtr, shown := false, phase := none } := by
  unfold State.leaseOf
  simp only [durationTime_eq, toNat_zero_iff]

/-- Settles O37: each refusal is the first check of the claim that fails, and the claim accepted wakes the part by its power
state. -/
theorem claimJoinsTheLeaseTable : Obligations.ClaimJoinsTheLeaseTable := by
  intro p s r rest level duration id h hp hlevel
  have refused : ∀ {code}, s.claimCheck p [level, byte id.val, duration] = .inl code →
      exec (.viewClaim p) s = .next (s.replied p r rest code []) := fun hc => viewClaim_refused h (hp ▸ hc)
  refine ⟨fun h0 hcp => refused ?level, fun hmp h0 hd => refused ?range0, fun h1 hd => refused ?range1,
    fun hd0 hd1 => ?standing⟩
  case level => rw [claimCheck_operands, if_neg (by omega), if_pos ⟨(toNat_zero_iff level).2 h0, hcp⟩]
  case range0 =>
    refine claimCheck_duration hlevel (fun _ => by simp [hmp]) fun hok => ?_
    obtain ⟨hlow, hhigh⟩ := hok.1 h0
    rw [← toNat_zero_iff] at hd
    omega
  case range1 => exact claimCheck_duration hlevel (fun h0 => by simp [h1] at h0) fun hok => hok.2 h1 hd
  case standing =>
    have hcheck := claimCheck_standing (s := s) (id := id) hlevel hd0 hd1
    refine ⟨fun hawake ⟨l, hl, hholder, hlev⟩ => refused ?second,
      fun hs hw => refused (hcheck.trans (if_pos ⟨hs, hw⟩)), fun hfree hver => ?joins⟩
    case second =>
      have hany : s.leases.table.any (fun l => l.holder == .port p && l.level == level.toNat) = true :=
        List.any_eq_true.2 ⟨l, hl, by simp [hholder, hlev]⟩
      exact hcheck.trans ((if_neg fun e => hawake e.1).trans (if_pos hany))
    case joins =>
      have hany : ¬ (s.leases.table.any (fun l => l.holder == .port p && l.level == level.toNat)) = true := fun e => by
        obtain ⟨l, hl, hsame⟩ := List.any_eq_true.1 e
        exact hfree l hl (by simpa using hsame)
      have hjoins : ¬(s.power.state = .standby ∧ s.power.claimWake = false) → s.claimCheck p r.payload = .inr id := by
        intro hasleep
        rw [hp, hcheck, if_neg hasleep, if_neg hany, if_neg (by simp [hver])]
      rw [← leaseOf_byte]
      exact ⟨fun hs he => viewClaim_run h hp (hjoins (by simp [hs])) hs he,
        fun hs he => viewClaim_wait h hp (hjoins (by simp [hs])) hs he,
        fun hs hw hl => viewClaim_standby h hp (hjoins (by simp [hw])) hs hw hl⟩

end Sys2Proof.Machine
end

section
/-! PROOFS. A camera's source by the table of sources, and the fetch of a tile's boxes (R52, R117, R120, R130, R150). -/

namespace Sys2Proof.Machine

/-! ### The table of sources -/

/-- The header named, if one is, expects a stamp of camera `c` that the camera does not show (R117 order 1). -/
theorem any_mismatched_iff (h : Option Header) (r : CamRecord) (c : Camera) :
    h.any (fun x => mismatched x r c) = true ↔
      ∃ x, h = some x ∧ x.stamps.get c.idx ≠ 0 ∧ ∀ i, r.identity = some i → i.stamp ≠ x.stamps.get c.idx := by
  cases h with
  | none => simp
  | some x =>
    cases hid : r.identity with
    | none => simp [mismatched, hid]
    | some i => simp [mismatched, hid]

/-- The row MISMATCH of the table. -/
theorem sourceOf_mismatch {s : State} {h : Option Header} {c : Camera} (st : CaptureSet)
    (hm : h.any (fun x => mismatched x (s.cam c) c) = true) : s.sourceOf h st c = (.mismatch, none) := by
  simp [State.sourceOf, hm]

/-- The row FRESH. -/
theorem sourceOf_present {s : State} {h : Option Header} {st : CaptureSet} {c : Camera} {k : SlotNo}
    (hm : ¬h.any (fun x => mismatched x (s.cam c) c) = true) (hk : (st.entries.get c.idx).status = .present k) :
    s.sourceOf h st c = (.fresh, some k) := by
  simp [State.sourceOf, hm, hk]

/-- The rows after FRESH, by the use the last-good slot is of. -/
theorem sourceOf_absent {s : State} {h : Option Header} {st : CaptureSet} {c : Camera}
    (hm : ¬h.any (fun x => mismatched x (s.cam c) c) = true) (hk : ∀ k, (st.entries.get c.idx).status ≠ .present k) :
    s.sourceOf h st c = match s.capture.usable c st.tag with
      | some (k, age) => (.stale age, some k)
      | none => (if (st.entries.get c.idx).status = .excluded then .excluded else .blind, none) := by
  unfold State.sourceOf
  rw [if_neg hm]
  split
  · rename_i k e
    exact absurd e (hk k)
  · cases s.capture.usable c st.tag with
    | none => dsimp only; split <;> rfl
    | some u => rfl

/-- A last-good slot is usable at an age from 1 up to the stale limit (R52). -/
theorem usable_of_age {x : Capture} {c : Camera} {k : SlotNo} {good t : Tag} (hf : x.fresh.get c.idx = some (k, good))
    (h1 : 1 ≤ (t - good).toNat) (h2 : (t - good).toNat ≤ x.timing.stale) :
    x.usable c t = some (k, (t - good).toNat) := by
  unfold Capture.usable
  rw [hf]
  exact if_pos ⟨h1, h2⟩

theorem usable_none {x : Capture} {c : Camera} {t : Tag}
    (h : ∀ k good, x.fresh.get c.idx = some (k, good) →
      ¬(1 ≤ (t - good).toNat ∧ (t - good).toNat ≤ x.timing.stale)) : x.usable c t = none := by
  unfold Capture.usable
  split
  · rename_i k good hf
    exact if_neg (h k good hf)
  · rfl

/-- Settles O42: MISMATCH first, then FRESH, then the last-good slot where it is usable, else EXCLUDED or BLIND. -/
theorem cameraSourceFollowsTheTable : Obligations.CameraSourceFollowsTheTable := by
  unfold Obligations.CameraSourceFollowsTheTable
  intro s h st c mismatch
  have hiff := any_mismatched_iff h (s.cam c) c
  refine ⟨fun hm => sourceOf_mismatch st (hiff.2 hm), fun hm => ?_⟩
  have hn := mt hiff.1 hm
  refine ⟨fun k hk => sourceOf_present hn hk, fun hk => ⟨fun k good hf h1 h2 => ?_, fun hu => ?_⟩⟩
  · rw [sourceOf_absent hn hk, usable_of_age hf h1 h2]
  · rw [sourceOf_absent hn hk, usable_none hu]

/-! ### The fetch of a tile's boxes -/

/-- A box area changed, and no other. -/
theorem onDraw_draws {x : Context} {k : Nat} {d : Draw} (f : Draw → Draw) (hd : x.draws[k]? = some d) :
    (x.onDraw k f).draws[k]? = some (f d) ∧ ∀ j, j ≠ k → (x.onDraw k f).draws[j]? = x.draws[j]? := by
  refine ⟨by simp [Context.onDraw, hd], fun j hj => ?_⟩
  simp [Context.onDraw, Ne.symm hj]

/-- A grant while the Arbiter is BUSY grants nothing (R149). -/
theorem grant_busy {s : State} (h : s.arb.inFlight ≠ none) : s.grant = s := by
  obtain ⟨b, hb⟩ := Option.ne_none_iff_exists'.1 h
  simp [State.grant, hb]

/-- The box fetch of area `k`, as the Memory Arbiter takes it over: from the box's first line and burst (R150). -/
def boxCursor (k : Nat) (d : Draw) (b : Box) : Cursor :=
  .box k
    { base := Config.slotBase d.cam.idx.val d.slot.val, bottom := b.bottom, first := b.left / 32, last := b.right / 32 }
    b.top (b.left / 32)

/-- A box fetch handed over changes the composition's phase and the Arbiter, and what lanes are busy with. -/
theorem handBox_frame (s : State) (x : Context) (k : Nat) (d : Draw) (b : Box) :
    s.handBox x k d b = ({ s with
      composer := some { x with phase := .fetching (.boxRead k) }
      arb := { s.arb with cursor := some (boxCursor k d b) } } : State).grant
    ∧ ∃ l a, s.handBox x k d b =
        { s with composer := some { x with phase := .fetching (.boxRead k) }, lanes := l, arb := a }
      ∧ sameButBusy s.lanes l := by
  obtain ⟨l, a, hg, hl⟩ := grant_frame
    { s with
      composer := some { x with phase := .fetching (.boxRead k) }
      arb := { s.arb with cursor := some (boxCursor k d b) } }
  exact ⟨rfl, l, a, hg, hl⟩

/-- While the Arbiter is BUSY a box fetch handed over waits with its cursor (R149, R150). -/
theorem handBox_busy {s : State} (x : Context) (k : Nat) (d : Draw) (b : Box) (h : s.arb.inFlight ≠ none) :
    (s.handBox x k d b).arb.pool = s.arb.pool ∧ (s.handBox x k d b).arb.cursor = some (boxCursor k d b) := by
  unfold State.handBox
  dsimp only
  rw [grant_busy]
  · exact ⟨rfl, rfl⟩
  · exact h

/-- MESH_READ_COMPLETE forms the clipped box of the area in hand, and hands over its fetch or ends the area. -/
theorem exec_meshReadComplete {s : State} {x : Context} {k : Nat} {d : Draw} (hx : s.composer = some x)
    (hp : x.phase = .fetching (.meshDone k)) (hd : x.draws[k]? = some d) :
    exec .meshReadComplete s = .next (
      let y := x.onDraw k (fun e => { e with box := clipBox d.record })
      match clipBox d.record with
      | some b => s.handBox y k d b
      | none => s.areaFetched y k) := by
  simp only [exec, execMeshReadComplete, hx, hp, hd]
  cases clipBox d.record <;> rfl

/-- MESH_READ_COMPLETE with a box that holds a pixel: its fetch is in hand. -/
theorem meshReadComplete_box {s : State} {x : Context} (hx : s.composer = some x) {k : Nat} {d : Draw} {b : Box}
    (hp : x.phase = .fetching (.meshDone k)) (hd : x.draws[k]? = some d) (hb : clipBox d.record = some b) :
    ∃ t y, exec .meshReadComplete s = .next t ∧ t = { s with composer := some y, lanes := t.lanes, arb := t.arb }
      ∧ (∀ c, t.lane c = { s.lane c with busy := (t.lane c).busy })
      ∧ y = { x with phase := .fetching (.boxRead k), draws := y.draws }
      ∧ y.draws[k]? = some { d with box := some b } ∧ (∀ j, j ≠ k → y.draws[j]? = x.draws[j]?)
      ∧ t = ({ s with composer := some y, arb := { s.arb with cursor := some (boxCursor k d b) } } : State).grant
      ∧ (s.arb.inFlight ≠ none → t.arb.pool = s.arb.pool ∧ t.arb.cursor = some (boxCursor k d b)) := by
  have hexec := exec_meshReadComplete hx hp hd
  simp only [hb] at hexec
  obtain ⟨hgrant, l, a, hframe, hl⟩ := handBox_frame s (x.onDraw k (fun e => { e with box := some b })) k d b
  obtain ⟨hk, hj⟩ := onDraw_draws (fun e : Draw => { e with box := some b }) hd
  refine ⟨_, { x.onDraw k (fun e => { e with box := some b }) with phase := .fetching (.boxRead k) }, hexec, ?_,
    fun c => ?_, rfl, hk, hj, hgrant, fun hbusy => ?_⟩
  · rw [hframe]
  · rw [hframe]
    exact hl c.idx
  · exact handBox_busy _ k d b hbusy

/-- MESH_READ_COMPLETE with no pixel in the box: the next area's mesh read is in hand, or the tile is fetched. -/
theorem meshReadComplete_noBox {s : State} {x : Context} (hx : s.composer = some x) {k : Nat} {d : Draw}
    (hp : x.phase = .fetching (.meshDone k)) (hd : x.draws[k]? = some d) (hb : clipBox d.record = none) :
    ∃ t y, exec .meshReadComplete s = .next t ∧ t = { s with composer := some y, lanes := t.lanes, arb := t.arb }
      ∧ (∀ c, t.lane c = { s.lane c with busy := (t.lane c).busy })
      ∧ y = { x with phase := y.phase, draws := y.draws }
      ∧ y.draws[k]? = some { d with box := none } ∧ (∀ j, j ≠ k → y.draws[j]? = x.draws[j]?)
      ∧ y.phase = (if (x.draws[k + 1]?).isSome then .fetching (.meshRead (k + 1)) else .fetching .fetched)
      ∧ (x.draws[k + 1]? = none → t = { s with composer := some y })
      ∧ ∀ e, x.draws[k + 1]? = some e →
        t = ({ s with
          composer := some y
          arb := { s.arb with
            cursor := some (.mesh (k + 1) (((s.viewPlan x).map PlanContent.base).getD 0 + e.mesh)) } } : State).grant := by
  have hexec := exec_meshReadComplete hx hp hd
  simp only [hb] at hexec
  obtain ⟨hk, hj⟩ := onDraw_draws (fun e : Draw => { e with box := none }) hd
  have hnext := hj (k + 1) (by omega)
  generalize hy : x.onDraw k (fun e => { e with box := none }) = y at *
  have hdraws : y = { x with draws := y.draws } := by
    rw [← hy]
    rfl
  cases he : x.draws[k + 1]? with
  | none =>
    have hlast : s.areaFetched y k = { s with composer := some { y with phase := .fetching .fetched } } := by
      simp only [State.areaFetched, hnext, he]
    rw [hlast] at hexec
    refine ⟨_, { y with phase := .fetching .fetched }, hexec, rfl, fun c => rfl, ?_, hk, hj, rfl, fun _ => rfl, ?_⟩
    · rw [hdraws]
    · intro e h
      cases h
  | some e =>
    have hmore : s.areaFetched y k = s.handMesh y (k + 1) e := by simp only [State.areaFetched, hnext, he]
    rw [hmore] at hexec
    obtain ⟨l, a, hframe, hl⟩ := handMesh_frame s y (k + 1) e
    refine ⟨_, { y with phase := .fetching (.meshRead (k + 1)) }, hexec, ?_, fun c => ?_, ?_, hk, hj, rfl, ?_, ?_⟩
    · rw [hframe]
    · rw [hframe]
      exact hl c.idx
    · rw [hdraws]
    · intro h
      cases h
    · intro f h
      cases h
      rw [hdraws]
      rfl

/-- FETCHING_END puts a fetched tile in DRAWING. -/
theorem exec_fetchingEnd {s : State} {x : Context} (hx : s.composer = some x) (hp : x.phase = .fetching .fetched) :
    exec .fetchingEnd s = .next { s with composer := some { x with phase := .drawing } } := by
  simp [exec, execFetchingEnd, hx, hp]

/-- Settles O43: the box's fetch or the next area's, and the box by the extremes of the nine points. -/
theorem fetchedMeshNamesItsBox : Obligations.FetchedMeshNamesItsBox := by
  unfold Obligations.FetchedMeshNamesItsBox
  refine ⟨fun s x hx => ⟨fun k d b hp hd hb => meshReadComplete_box hx hp hd hb,
    fun k d hp hd hb => meshReadComplete_noBox hx hp hd hb, exec_fetchingEnd hx⟩, fun rec => ?_⟩
  obtain ⟨l, r, t, b, hbounds, hall, hleft, hright, htop, hbottom⟩ := fetchBounds_spec rec
  have h0 := hall 0 0 (by omega) (by omega)
  obtain ⟨hnone, hsome⟩ := clipBox_spec rec l r t b hbounds (by omega) (by omega)
  exact ⟨l, r, t, b, hbounds, hall, hleft, hright, htop, hbottom, hnone, hsome⟩

end Sys2Proof.Machine
end

section
/-! SUPPORT and PROOFS. The tile drawn, as an equation for each place of the walk, and the completion of a composition in one
event (R64, R90, R120, R131, R134, R135, R185). -/

namespace Sys2Proof.Machine

/-! ### The tile drawn -/

/-- The context after the tile in hand has been drawn from plan `plan`, before the walk moves on (R129, R133). -/
def Context.drawn (x : Context) (plan : Option PlanContent) : Context :=
  { x with
    seams := (x.drawTile plan).seams, draws := []
    degraded := x.degraded + (if (x.drawTile plan).degraded then 1 else 0) }

/-- The row buffer with the tile in hand at its place (R131). -/
def State.tileAdded (s : State) (x : Context) : ViewLane :=
  s.view.addTile x.frame x.row (x.drawTile (s.viewPlan x)).pixels

theorem exec_tileDrawn {s : State} {x : Context} (hx : s.composer = some x) (hp : x.phase = .drawing) :
    exec .tileDrawn s = .next (s.drawTile x) := by
  simp [exec, execTileDrawn, hx, hp]

/-- Before the last column the next column's tile begins. -/
theorem drawTile_inRow (s : State) {x : Context} (h : x.col < 14) :
    s.drawTile x =
      ({ s with view := s.tileAdded x } : State).beginTile { x.drawn (s.viewPlan x) with col := x.col + 1 } :=
  if_pos h

/-- At the last column of a row that is not the last, the row is handed over and the next row follows. -/
theorem drawTile_endsRow (s : State) {x : Context} (hc : x.col = 14) (hr : x.row < 24) :
    s.drawTile x = ({ s with view := (s.tileAdded x).handOver x.frame x.row } : State).beginRow
      { x.drawn (s.viewPlan x) with row := x.row + 1, col := 0 } :=
  (if_neg (by omega)).trans (if_neg (show x.row ≠ 24 by omega))

/-- At the last tile the composition completes, and a standby entry that waited for it is taken. -/
theorem drawTile_last (s : State) {x : Context} (hc : x.col = 14) (hr : x.row = 24) :
    s.drawTile x = (({ s with view := (s.tileAdded x).handOver x.frame x.row } : State).completeComposition
      (x.drawn (s.viewPlan x))).takeEntry :=
  (if_neg (by omega)).trans (if_pos hr)

/-! ### Completion -/

/-- Drawing and handing over touch the places alone, so the count of underruns is the same. -/
theorem underrunOf_handOver (v : ViewLane) (frame row f : Nat) (tile : List Pixel) :
    ((v.addTile frame row tile).handOver frame row).underrunOf f = v.underrunOf f := by
  unfold ViewLane.handOver
  split <;> rfl

/-- The end of a composition unpins every slot, and every slot keeps what it holds (R64). -/
theorem endComposition_slot (x : Capture) (c : Camera) (k : SlotNo) :
    x.endComposition.slot c k = { x.slot c k with pinned := false } := by
  unfold Capture.endComposition Capture.slot
  dsimp only
  rw [Quad.get_map]
  match k with
  | 0 | 1 | 2 => rfl

/-- The end of a composition retires the COMPOSING set (R64). -/
theorem endComposition_sets (x : Capture) :
    x.endComposition.sets = x.sets.filter (fun st => st.state ≠ .composing) := by
  refine List.filter_congr fun st _ => ?_
  cases st.state <;> rfl

/-- The release of a composition leaves the Plan Store's walk alone. -/
theorem releaseComposition_walk (s : State) (x : Context) :
    (s.releaseComposition x).plans.walk = s.plans.walk := by
  unfold State.releaseComposition
  dsimp only
  split <;> rfl

/-- A completion as an update of the fields it touches (R134). -/
theorem completeComposition_frame (s : State) (x : Context) : ∃ ports slots, s.completeComposition x = { s with
    composer := none, capture := ({ s.capture with drops := 0 } : Capture).endComposition
    balance := s.balance.update x.frame x.sources x.seams
    log := s.log.append (recordOf x (s.view.underrunOf x.frame) s.capture.drops false)
    view := s.view.countTaken, ports := ports, plans := { s.plans with slots := slots } } := by
  let a : State := { s with balance := s.balance.update x.frame x.sources x.seams }
  let b := a.appendRecord x (s.view.underrunOf x.frame) false
  obtain ⟨ports, hb⟩ := (appendRecord_frame a x (s.view.underrunOf x.frame) false).1
  obtain ⟨⟨slots, walk⟩, hrelease⟩ := (releaseComposition_frame b x).1
  have hwalk : walk = s.plans.walk := by
    have h := releaseComposition_walk b x
    rw [hrelease, show b = _ from hb] at h
    exact h
  refine ⟨ports, slots, ?_⟩
  rw [show s.completeComposition x = b.releaseComposition x from rfl, hrelease, hwalk, show b = _ from hb]

/-- A completion raises FRAME and no more than notices on the ports, and unpins the plan (R90, R134, R160). -/
theorem completeComposition_effects (s : State) (x : Context) :
    (s.completeComposition x).bothRaised .frame
    ∧ quietPorts (s.completeComposition x).ports = quietPorts s.ports
    ∧ ∀ id, (s.completeComposition x).plan id =
      if x.view.plan = some id then { s.plan id with refs := { (s.plan id).refs with pinned := false } } else s.plan id := by
  let a : State := { s with balance := s.balance.update x.frame x.sources x.seams }
  let b := a.appendRecord x (s.view.underrunOf x.frame) false
  obtain ⟨⟨ports, hb⟩, hframe, hquiet⟩ := appendRecord_frame a x (s.view.underrunOf x.frame) false
  obtain ⟨plans, hrelease⟩ := (releaseComposition_frame b x).1
  have hports : (s.completeComposition x).ports = b.ports := by
    rw [show s.completeComposition x = b.releaseComposition x from rfl, hrelease]
  refine ⟨fun q => hports ▸ hframe q, hports ▸ hquiet, fun id => ?_⟩
  have hplan : b.plan id = s.plan id := by
    rw [State.plan, show b = _ from hb]
    rfl
  rw [show s.completeComposition x = b.releaseComposition x from rfl, releaseComposition_plan, hplan]

/-! ### Notices through a standby entry -/

theorem reportAll_ports (s : State) : s.reportAll.ports = s.ports := by
  have one : ∀ (t : State) (c : Camera), (t.reportOne c).ports = t.ports := fun t c => by
    unfold State.reportOne
    split
    · exact leaveStreaming_ports t c
    · rfl
  rw [reportAll_eq, one, one, one, one]

theorem removeLeases_keeps {s : State} {k : NoticeKind} (h : s.bothRaised k) : s.removeLeases.bothRaised k := by
  obtain ⟨-, -, hkeeps, -⟩ := dropLeases s.leases.table s
  exact fun p => hkeeps p k (h p)

/-- A flag raised on both ports stays raised through a standby entry. -/
theorem enterStandby_keeps {s : State} {k : NoticeKind} (h : s.bothRaised k) : s.enterStandby.bothRaised k := by
  have hreported : s.reportAll.bothRaised k := fun p => by
    rw [reportAll_ports]
    exact h p
  unfold State.enterStandby
  generalize s.reportAll = w at hreported
  have hremoved := removeLeases_keeps (s := { w with lanes := w.lanes.map Lane.standby, capture := w.capture.clear })
    hreported
  dsimp only
  generalize State.removeLeases _ = b at hremoved
  exact raiseBoth_keeps _ hremoved

theorem takeEntry_keeps {s : State} {k : NoticeKind} (h : s.bothRaised k) : s.takeEntry.bothRaised k := by
  unfold State.takeEntry
  split
  · exact enterStandby_keeps h
  · exact h

/-- Settles O45: the last tile's row is handed over, the composition completed, and a standby entry that waits taken. -/
theorem lastTileCompletesTheComposition : Obligations.LastTileCompletesTheComposition := by
  unfold Obligations.LastTileCompletesTheComposition
  intro s x hx hp hc hr
  let w : State := { s with view := (s.tileAdded x).handOver x.frame x.row }
  let y := x.drawn (s.viewPlan x)
  have hexec := exec_tileDrawn hx hp
  rw [drawTile_last s hc hr] at hexec
  obtain ⟨ports, slots, hu⟩ := completeComposition_frame w y
  obtain ⟨hraised, hquiet, hplan⟩ := completeComposition_effects w y
  have hcases := takeEntry_cases (w.completeComposition y)
  have hkeeps := takeEntry_keeps hraised
  have hunderrun : w.view.underrunOf x.frame = s.view.underrunOf x.frame := underrunOf_handOver ..
  change exec .tileDrawn s = .next (w.completeComposition y).takeEntry at hexec
  generalize w.completeComposition y = u at *
  have hcapture : u.capture = ({ s.capture with drops := 0 } : Capture).endComposition := by rw [hu]
  refine ⟨u.takeEntry, u, hexec, by rw [hu],
    ⟨y, rfl, rfl, rfl, rfl, rfl, rfl, rfl, rfl, ?log, by rw [hu]; rfl⟩, hraised, hkeeps, ?capture, ?sets,
    fun c k => ?slot, fun id hid => ?unpinned, fun id => ?hold, hquiet, by rw [hu]; rfl, by rw [hu], fun he => ?awake,
    fun he => ?asleep⟩
  case log => rw [hu, ← hunderrun]; rfl
  case capture => rw [hcapture]; rfl
  case sets => rw [hcapture, endComposition_sets]
  case slot => rw [hcapture, endComposition_slot]; exact ⟨rfl, rfl⟩
  case unpinned => rw [hplan, if_pos (show y.view.plan = some id from hid)]
  case hold => rw [hplan]; split <;> rfl
  case awake =>
    refine (hcases.resolve_left fun h => ?_).2
    rw [hu] at h
    exact Bool.false_ne_true (he.symm.trans h.1)
  case asleep => exact (hcases.resolve_right fun h => h.1 ⟨by rw [hu]; exact he, by rw [hu]⟩).2.2

end Sys2Proof.Machine
end

section
/-! SUPPORT and PROOFS. The start of a composition: the state it finds the walk in, and the row test that begins it (R47, R63,
R90, R100, R101, R115 to R120, R130, R132). -/

namespace Sys2Proof.Machine

/-! ### The row test -/

/-- A tile begun is fetched or drawn, and waits for no row. -/
theorem beginTile_phase (s : State) (x y : Context) (h : (s.beginTile x).composer = some y) : y.phase ≠ .rowWait := by
  unfold State.beginTile at h
  split at h
  · cases h
    exact nofun
  · rename_i d ds _
    obtain ⟨l, a, hframe, -⟩ := handMesh_frame s { x with draws := d :: ds } 0 d
    rw [hframe] at h
    cases h
    exact nofun

/-- The row test as an update: the phase and the boxes of the context, the places of the row buffer, and what a grant changes.
Two COMPLETE rows hold the row back; else it takes a place and its first tile begins (R120, R132, R152). -/
theorem beginRow_spec (s : State) (x : Context) : ∃ y,
    (s.beginRow x).composer = some y ∧ y = { x with phase := y.phase, draws := y.draws }
    ∧ s.beginRow x = { s with
        composer := some y, view := (s.beginRow x).view, lanes := (s.beginRow x).lanes, arb := (s.beginRow x).arb }
    ∧ sameButBusy s.lanes (s.beginRow x).lanes
    ∧ (s.view.completeCount = 2 → y.phase = .rowWait ∧ (s.beginRow x).view = s.view
      ∧ (s.beginRow x).lanes = s.lanes ∧ (s.beginRow x).arb = s.arb)
    ∧ (s.view.completeCount < 2 → y.phase ≠ .rowWait ∧ (s.beginRow x).view = s.view.beginRow x.frame x.row
      ∧ ({ s with view := (s.beginRow x).view } : State).tileBegun x (s.beginRow x)) := by
  by_cases hfull : 2 ≤ s.view.completeCount
  · have heq : s.beginRow x = { s with composer := some { x with phase := .rowWait } } := if_pos hfull
    rw [heq]
    exact ⟨_, rfl, rfl, rfl, sameButBusy_refl _, fun _ => ⟨rfl, rfl, rfl, rfl⟩, fun h => absurd h (by omega)⟩
  · have heq : s.beginRow x = ({ s with view := s.view.beginRow x.frame x.row } : State).beginTile x := if_neg hfull
    obtain ⟨l, a, ph, ds, hframe, hl⟩ := beginTile_frame { s with view := s.view.beginRow x.frame x.row } x
    have hphase := beginTile_phase { s with view := s.view.beginRow x.frame x.row } x
    have hbegun := beginTile_begun { s with view := s.view.beginRow x.frame x.row } x
    rw [← heq] at hframe hphase hbegun
    have hview : (s.beginRow x).view = s.view.beginRow x.frame x.row := by rw [hframe]
    have hcomposer : (s.beginRow x).composer = some { x with phase := ph, draws := ds } := by rw [hframe]
    refine ⟨_, hcomposer, rfl, by rw [hframe], by rw [hframe]; exact hl, fun h => absurd h (by omega), fun _ =>
      ⟨hphase _ hcomposer, hview, ?_⟩⟩
    rw [hview]
    exact hbegun

/-- What a tile begun says depends neither on a context in flight before it nor on the phase and the boxes of the one it is
begun for. -/
theorem tileBegun_walk {u t : State} {x : Context} (h : u.tileBegun x t) (y : Option Context) (ph : WalkPhase)
    (ds : List Draw) : ({ u with composer := y } : State).tileBegun { x with phase := ph, draws := ds } t := h

/-! ### Pins -/

/-- A pin changes the slots alone. -/
theorem pin_frame (x : Capture) (q : Quad (Option SlotNo)) : ∃ slots, x.pin q = { x with slots := slots } := by
  have one : ∀ (y : Capture) (c : Camera), ∃ slots, pinOne q y c = { y with slots := slots } := fun y c => by
    unfold pinOne
    split
    · exact ⟨_, rfl⟩
    · exact ⟨y.slots, rfl⟩
  obtain ⟨a, ha⟩ := one x .fl
  obtain ⟨b, hb⟩ := one (pinOne q x .fl) .fr
  obtain ⟨c, hc⟩ := one (pinOne q (pinOne q x .fl) .fr) .rr
  obtain ⟨d, hd⟩ := one (pinOne q (pinOne q (pinOne q x .fl) .fr) .rr) .rl
  refine ⟨d, hd.trans ?_⟩
  rw [hc, hb, ha]

/-- The pins of a start change slots and plan slots alone (R90, R118). -/
theorem pinFor_frame (s : State) (x : Context) : ∃ slots plans, s.pinFor x = { s with
    capture := { s.capture with slots := slots }, plans := { s.plans with slots := plans } } := by
  unfold State.pinFor
  split
  · obtain ⟨slots, hpin⟩ := pin_frame s.capture x.srcSlots
    rw [hpin]
    exact ⟨slots, _, rfl⟩
  · exact ⟨s.capture.slots, s.plans.slots, rfl⟩

/-- With a plan named the source slots are pinned; with NO_VIEW none is (R47, R118). -/
theorem pinFor_slot (s : State) (x : Context) (c : Camera) (k : SlotNo) : (s.pinFor x).capture.slot c k =
    { s.capture.slot c k with
      pinned := (s.capture.slot c k).pinned || (x.view.plan.isSome && decide (x.srcSlots.get c.idx = some k)) } := by
  cases hv : x.view.plan with
  | none => simp [State.pinFor, hv]
  | some id =>
    have hcapture : (s.pinFor x).capture = s.capture.pin x.srcSlots := by
      simp only [State.pinFor, hv]
      rfl
    rw [hcapture, pin_slot]
    simp

/-- The plan named is pinned, and every plan keeps the rest (R90). -/
theorem pinFor_refs (s : State) (x : Context) (id : PlanId) : ((s.pinFor x).plan id).refs =
    { (s.plan id).refs with pinned := (s.plan id).refs.pinned || decide (x.view.plan = some id) } := by
  rw [pinFor_plan]
  split
  · rename_i h
    simp [h]
  · rename_i h
    simp [h]

/-! ### The view shown -/

/-- The Lease Arbiter with the view named shown: its lease SHOWN, every other WAITING (R100, R101). -/
def Leases.showing (x : Leases) : Leases :=
  { x with
    table := x.table.map (fun l => { l with shown := decide (x.top.map Lease.handle = some l.handle) })
    lastView := x.nameView.2 }

/-- The view named changes the leases, and raises VIEW where it differs from the last shown (R101). -/
theorem showView_eq (s : State) : s.showView =
    if s.leases.nameView.2.differs s.leases.lastView then ({ s with leases := s.leases.showing } : State).raiseBoth .view
    else { s with leases := s.leases.showing } := rfl

theorem showView_frame (s : State) : ∃ ports, s.showView = { s with leases := s.leases.showing, ports := ports }
    ∧ quietPorts ports = quietPorts s.ports
    ∧ (s.leases.nameView.2.differs s.leases.lastView = true → s.showView.bothRaised .view)
    ∧ (s.leases.nameView.2.differs s.leases.lastView = false → ports = s.ports) := by
  rw [showView_eq]
  cases s.leases.nameView.2.differs s.leases.lastView with
  | true => exact ⟨_, rfl, rfl, fun _ => raiseBoth_bothRaised _ _, nofun⟩
  | false => exact ⟨s.ports, rfl, rfl, nofun, fun _ => rfl⟩

/-! ### The context -/

theorem ofFn_get {α : Type} (f : Camera → α) (c : Camera) : (Quad.ofFn f).get c.idx = f c := by
  cases c <;> rfl

section context
variable (s : State) (st : CaptureSet) (h : Option Header) (c : Camera)

theorem newContext_source : (s.newContext st h).sources.get c.idx = (s.sourceOf h st c).1 := by
  simp [State.newContext, ofFn_get]

theorem newContext_srcSlot : (s.newContext st h).srcSlots.get c.idx = (s.sourceOf h st c).2 := by
  simp [State.newContext, ofFn_get]

theorem newContext_repaired :
    (s.newContext st h).repaired.get c.idx = s.capture.repairedOf c ((s.newContext st h).srcSlots.get c.idx) := by
  rw [newContext_srcSlot]
  simp [State.newContext, ofFn_get]
end context

/-- The repaired lines of a source are those of its slot's quality, and 0 without a slot of quality REPAIRED (R117). -/
theorem repairedOf_held {x : Capture} {c : Camera} {k : SlotNo} {tag : Tag} {n : Nat}
    (h : (x.slot c k).hold = .held tag (.repaired n)) : x.repairedOf c (some k) = n := by
  simp [Capture.repairedOf, h]

theorem repairedOf_zero {x : Capture} {c : Camera} {o : Option SlotNo}
    (h : ∀ k tag n, o = some k → (x.slot c k).hold ≠ .held tag (.repaired n)) : x.repairedOf c o = 0 := by
  unfold Capture.repairedOf
  split
  · rename_i tag n e
    obtain ⟨k, hk, he⟩ := Option.map_eq_some_iff.1 e
    exact absurd he (h k tag n hk)
  · rfl

/-! ### The state in which the walk begins -/

/-- The state of a start after all but its row test: the set taken, the view shown, the plan and the sources pinned, the
picture waiting (R63, R100, R115 to R119). -/
def State.startOpened (s : State) (st : CaptureSet) (newer : List CaptureSet) : State :=
  let x := s.newContext st s.viewHeader
  let t := ({ s with capture := s.capture.startComposition st newer } : State).showView.pinFor x
  { t with view := t.view.await x.frame x.stamp ((s.viewHeader.map Header.void).getD midGrey) }

theorem startComposition_eq (s : State) (st : CaptureSet) (newer : List CaptureSet) :
    s.startComposition st newer = (s.startOpened st newer).beginRow (s.newContext st s.viewHeader) := rfl

section opened
variable (s : State) (st : CaptureSet) (newer : List CaptureSet)

theorem startOpened_frame : ∃ slots ports plans, s.startOpened st newer = { s with
      capture := { s.capture with sets := { st with state := .composing } :: newer, credit := 0, slots := slots }
      leases := s.leases.showing, ports := ports, plans := { s.plans with slots := plans }
      view := s.view.await s.log.next (s.newContext st s.viewHeader).stamp ((s.viewHeader.map Header.void).getD midGrey) }
    ∧ quietPorts ports = quietPorts s.ports
    ∧ (s.leases.nameView.2.differs s.leases.lastView = true → (s.startOpened st newer).bothRaised .view)
    ∧ (s.leases.nameView.2.differs s.leases.lastView = false → ports = s.ports) := by
  let a : State := { s with capture := s.capture.startComposition st newer }
  obtain ⟨ports, hshow, hquiet, hraised, hsame⟩ := showView_frame a
  obtain ⟨slots, plans, hpin⟩ := pinFor_frame a.showView (s.newContext st s.viewHeader)
  have hports : (s.startOpened st newer).ports = a.showView.ports :=
    (congrArg State.ports hpin : (a.showView.pinFor (s.newContext st s.viewHeader)).ports = _)
  refine ⟨slots, ports, plans, ?_, hquiet, fun h q => hports ▸ hraised h q, hsame⟩
  unfold State.startOpened
  dsimp only
  rw [show State.pinFor _ _ = _ from hpin, hshow]
  rfl

theorem startOpened_slot (c : Camera) (k : SlotNo) : (s.startOpened st newer).capture.slot c k =
    { s.capture.slot c k with
      pinned := (s.capture.slot c k).pinned
        || (s.leases.nameView.1.plan.isSome && decide ((s.sourceOf s.viewHeader st c).2 = some k)) } := by
  let a : State := { s with capture := s.capture.startComposition st newer }
  obtain ⟨ports, hshow, -⟩ := showView_frame a
  have hcapture : ∀ d j, a.showView.capture.slot d j = s.capture.slot d j := fun d j => by
    rw [hshow]
    rfl
  rw [← hcapture, ← newContext_srcSlot]
  exact pinFor_slot a.showView (s.newContext st s.viewHeader) c k

theorem startOpened_plan (id : PlanId) : ((s.startOpened st newer).plan id).hold = (s.plan id).hold
    ∧ ((s.startOpened st newer).plan id).refs = { (s.plan id).refs with
        pinned := (s.plan id).refs.pinned || decide (s.leases.nameView.1.plan = some id) } := by
  let a : State := { s with capture := s.capture.startComposition st newer }
  obtain ⟨ports, hshow, -⟩ := showView_frame a
  have hplan : a.showView.plan id = s.plan id := by
    rw [hshow]
    rfl
  rw [← hplan]
  exact ⟨pinFor_hold a.showView (s.newContext st s.viewHeader) id,
    pinFor_refs a.showView (s.newContext st s.viewHeader) id⟩
end opened

/-! ### The statement -/

theorem mayStart_iff (s : State) : s.mayStart = true ↔ s.composer = none ∧ s.power.state = .run ∧ s.power.entry = false
    ∧ s.power.thermal ≠ .critical ∧ max s.power.rateCap s.power.thermal.divisor ≤ s.capture.credit := by
  simp [State.mayStart, Power.divisor, and_assoc]

/-- A row begun looks at the places alone. -/
theorem beginRow_waiting (v : ViewLane) (frame row : Nat) (ws : List Waiting) :
    ({ v with waiting := ws } : ViewLane).beginRow frame row = { v.beginRow frame row with waiting := ws } := by
  unfold ViewLane.beginRow
  dsimp only
  repeat' split
  all_goals rfl

/-- The row test leaves the waiting pictures alone. -/
theorem beginRow_keepsWaiting (s : State) (x : Context) : (s.beginRow x).view.waiting = s.view.waiting := by
  obtain ⟨l, a, ph, ds, pa, pb, hframe, -⟩ := beginRow_frame s x
  rw [hframe]

section begun
variable {s : State} {st : CaptureSet} {x : Context}
  (hx : x = { s.newContext st s.viewHeader with phase := x.phase, draws := x.draws })
include hx

/-- The context of a start, whatever its walk has come to, has each camera's source by the table of sources, with the
repaired lines of its slot (R117). -/
theorem begun_camera (c : Camera) : x.sources.get c.idx = (s.sourceOf s.viewHeader st c).1
    ∧ x.srcSlots.get c.idx = (s.sourceOf s.viewHeader st c).2
    ∧ (∀ k tag n, x.srcSlots.get c.idx = some k → (s.capture.slot c k).hold = .held tag (.repaired n) →
      x.repaired.get c.idx = n)
    ∧ ((∀ k tag n, x.srcSlots.get c.idx = some k → (s.capture.slot c k).hold ≠ .held tag (.repaired n)) →
      x.repaired.get c.idx = 0) := by
  have hrepaired : x.repaired.get c.idx = s.capture.repairedOf c (x.srcSlots.get c.idx) := by
    rw [hx]
    exact newContext_repaired s st _ c
  refine ⟨?_, ?_, fun k tag n hk hheld => ?_, fun hno => ?_⟩
  · rw [hx]
    exact newContext_source s st _ c
  · rw [hx]
    exact newContext_srcSlot s st _ c
  · rw [hrepaired, hk, repairedOf_held hheld]
  · rw [hrepaired, repairedOf_zero hno]

/-- The picture of a start waits behind those before it, with the context's stamp (R119, R153). -/
theorem startOpened_view (newer : List CaptureSet) : (s.startOpened st newer).view = { s.view with
    waiting := s.view.waiting ++ [{
      frame := s.log.next, stamp := x.stamp, fill := (s.viewHeader.map Header.void).getD midGrey, aborted := false }] } := by
  obtain ⟨slots, ports, plans, hw, -⟩ := startOpened_frame s st newer
  have hstamp : x.stamp = (s.newContext st s.viewHeader).stamp := by
    rw [hx]
    rfl
  rw [hw, hstamp]
  rfl
end begun

/-- COMPOSITION_START where a CLOSED set is the newest of them. -/
theorem exec_compositionStart {s : State} {older newer : List CaptureSet} {st : CaptureSet}
    (hsets : s.capture.sets = older ++ st :: newer) (hst : st.state = .closed) (hnew : ∀ z ∈ newer, z.state ≠ .closed) :
    exec .compositionStart s = .next (if s.mayStart then s.startComposition st newer else s) := by
  simp only [exec, execCompositionStart, hsets, newestClosed_append older newer st hst hnew]
  split <;> rfl

/-- Settles O41: the start opened, then the row test of row 0; with a condition failing nothing. -/
theorem compositionStartTakesTheNewestClosedSet : Obligations.CompositionStartTakesTheNewestClosedSet := by
  unfold Obligations.CompositionStartTakesTheNewestClosedSet
  intro s older newer st hsets hst hnew
  have hexec := exec_compositionStart hsets hst hnew
  have hmay := mayStart_iff s
  refine ⟨fun hconds => ?starts, fun hfails => ?stays⟩
  case stays =>
    rw [hexec, if_neg]
    rw [hmay]
    rintro ⟨hidle, hrun, hentry, hheat, hcredit⟩
    rcases hfails with h | h | h | h | h
    · exact h hidle
    · exact h hrun
    · rw [hentry] at h; cases h
    · exact hheat h
    · omega
  case starts =>
    rw [if_pos (hmay.2 hconds), startComposition_eq] at hexec
    obtain ⟨slots, ports, plans, hw, hquiet, hraised, hsame⟩ := startOpened_frame s st newer
    have hslot := startOpened_slot s st newer
    have hplan := startOpened_plan s st newer
    let x₀ := s.newContext st s.viewHeader
    obtain ⟨x, hx, hx₀, ht, hlanes, hfull, hroom⟩ := beginRow_spec (s.startOpened st newer) x₀
    have hkept := beginRow_keepsWaiting (s.startOpened st newer) x₀
    have hwaits := startOpened_view hx₀ newer
    generalize s.startOpened st newer = w at *
    generalize w.beginRow x₀ = t at *
    have hcapture : t.capture = w.capture := by rw [ht]
    have htplan : ∀ id, t.plan id = w.plan id := fun id => by rw [ht]; rfl
    have hports : t.ports = w.ports := by rw [ht]
    have hcount : w.view.completeCount = s.view.completeCount := by rw [hw]; rfl
    have hview : x.view = s.leases.nameView.1 := by rw [hx₀]; rfl
    refine ⟨t, x, hexec, hx, by rw [hx₀]; rfl, by rw [hx₀]; rfl, hview, by rw [hx₀]; rfl, by rw [hx₀]; rfl, fun c => ?camera,
      by rw [hx₀]; rfl, by rw [hx₀]; rfl, by rw [hx₀]; rfl, by rw [hx₀]; rfl, by rw [hcapture, hw], by rw [hcapture, hw],
      by rw [hkept, hwaits], fun h => ?held, fun h => ?begins, fun id hid => ?pinned, fun id => ?plan, ?leases,
      fun h q => ?shown, fun h => ?unshown, ?quiet, ?capture, fun c => ?lanes, ?frame⟩
    case camera =>
      obtain ⟨hsource, hsrc, hheld, hzero⟩ := begun_camera hx₀ c
      refine ⟨hsource, hsrc, hheld, hzero, fun k => ?_⟩
      rw [hcapture, hslot, hsrc, hview]
    case held =>
      obtain ⟨hphase, hv, hl, ha⟩ := hfull (hcount ▸ h)
      refine ⟨hphase, ?_, ?_, ?_⟩
      · rw [hl, hw]
      · rw [ha, hw]
      · rw [hkept, hv, hwaits]
    case begins =>
      obtain ⟨hphase, hv, hbegun⟩ := hroom (hcount ▸ h)
      refine ⟨hphase, ?_, ?_⟩
      · rw [hkept, hv, hwaits, beginRow_waiting]
        rfl
      · have hu : ({ t with composer := none, lanes := s.lanes, arb := s.arb } : State)
            = { w with view := t.view, composer := none } := by rw [ht, hw]
        have hwalk := tileBegun_walk hbegun none x.phase x.draws
        rw [← hx₀] at hwalk
        rw [hu]
        exact hwalk
    case pinned =>
      rw [htplan, (hplan id).2, ← hview, hid]
      simp
    case plan => rw [htplan, hview]; exact hplan id
    case leases => rw [ht, hw]; rfl
    case shown => exact hports ▸ hraised h q
    case unshown => rw [hports, hw]; exact hsame h
    case quiet => rw [hports, hw]; exact hquiet
    case capture => rw [hcapture, hw]
    case lanes =>
      have hl := hlanes c.idx
      rw [hw] at hl
      exact hl
    case frame => rw [ht, hw]

end Sys2Proof.Machine
end

section
/-! SUPPORT. What drawing a tile gives: the areas it needs, its row in the row buffer, its pixels, and the seam it feeds
(R121 to R133, R152, R155). -/

namespace Sys2Proof.Machine

/-! ### Rounding -/

/-- A number divided and rounded is the nearest whole value, halves up. -/
theorem roundDiv_bounds (x : Nat) {n : Nat} (hn : 0 < n) :
    2 * n * roundDiv x n ≤ 2 * x + n ∧ 2 * x + n < 2 * n * (roundDiv x n + 1) :=
  ⟨Nat.mul_div_le _ _, Nat.lt_mul_div_succ _ (by omega)⟩

theorem bilinear_bounds (fx fy a b c d : Nat) :
    let sum := (16 - fx) * (16 - fy) * a + fx * (16 - fy) * b + (16 - fx) * fy * c + fx * fy * d
    256 * bilinear fx fy a b c d ≤ sum + 128 ∧ sum + 128 < 256 * (bilinear fx fy a b c d + 1) := by
  intro sum
  have h := roundDiv_bounds sum (n := 256) (by omega)
  change 256 * roundDiv sum 256 ≤ sum + 128 ∧ sum + 128 < 256 * (roundDiv sum 256 + 1)
  omega

theorem gainedY_bounds (y gain : Nat) :
    ∃ g, gainedY y gain = min 255 g ∧ 256 * g ≤ y * gain + 128 ∧ y * gain + 128 < 256 * (g + 1) := by
  have h := roundDiv_bounds (y * gain) (n := 256) (by omega)
  exact ⟨roundDiv (y * gain) 256, rfl, by omega, by omega⟩

theorem blend_bounds (w p s : Nat) :
    64 * blend w p s ≤ w * p + (64 - w) * s + 32 ∧ w * p + (64 - w) * s + 32 < 64 * (blend w p s + 1) := by
  have h := roundDiv_bounds (w * p + (64 - w) * s) (n := 64) (by omega)
  unfold blend
  omega

/-- A ramp's weight in 1/64 units, of a fraction `num` of 62, to the nearest (R127). -/
def nearest64 (w num : Nat) : Prop := 62 * w ≤ 64 * num + 31 ∧ 64 * num + 31 < 62 * (w + 1)

/-- A ramp along one axis: its 31 steps count double. -/
theorem nearest64_of_31 (n : Nat) : nearest64 (roundDiv (64 * n) 31) (2 * n) := by
  have h := roundDiv_bounds (64 * n) (n := 31) (by omega)
  unfold nearest64
  omega

/-- A ramp along a diagonal. -/
theorem nearest64_of_62 (n : Nat) : nearest64 (roundDiv (64 * n) 62) n := by
  have h := roundDiv_bounds (64 * n) (n := 62) (by omega)
  unfold nearest64
  omega

theorem seamWeight_nearest (r : Ramp) (u v : Nat) : nearest64 (seamWeight r u v) (match r with
    | .n => 2 * v
    | .s => 2 * (31 - v)
    | .w => 2 * u
    | .e => 2 * (31 - u)
    | .nw => u + v
    | .se => 62 - u - v
    | .ne => 31 - u + v
    | .sw => 31 + u - v) := by
  cases r with
  | n | s | w | e => exact nearest64_of_31 _
  | nw | se | ne | sw => exact nearest64_of_62 _

/-! ### Source positions and samples -/

theorem round256_bounds (x : Int) : 256 * round256 x ≤ x + 128 ∧ x + 128 < 256 * (round256 x + 1) := by
  unfold round256
  omega

/-- A source position, in the quarter of the tile that the mesh points (i, j) to (i + 1, j + 1) span (R122). -/
theorem sourcePos_quarter (rec : List Byte) {i j a b : Nat} (hi : i < 2) (hj : j < 2) (ha : a < 16) (hb : b < 16) :
    let sum := fun f : Int × Int → Int =>
      (16 - a : Int) * (16 - b) * f (meshPoint rec i j) + (a : Int) * (16 - b) * f (meshPoint rec (i + 1) j)
        + (16 - a : Int) * b * f (meshPoint rec i (j + 1)) + (a : Int) * b * f (meshPoint rec (i + 1) (j + 1))
    sourcePos rec (16 * i + a) (16 * j + b) = (round256 (sum Prod.fst), round256 (sum Prod.snd)) := by
  have hi' : (if 16 * i + a < 16 then 0 else 1) = i := by split <;> omega
  have hj' : (if 16 * j + b < 16 then 0 else 1) = j := by split <;> omega
  unfold sourcePos
  dsimp only
  rw [hi', hj', Nat.add_sub_cancel_left, Nat.add_sub_cancel_left]

theorem sample_outside {d : Draw} {u v : Nat} (gain : Nat)
    (h : ¬(0 ≤ (sourcePos d.record u v).1 ∧ (sourcePos d.record u v).1 ≤ 20464
      ∧ 0 ≤ (sourcePos d.record u v).2 ∧ (sourcePos d.record u v).2 ≤ 15344)) : d.sample gain u v = none :=
  if_neg (by simpa [insideFrame] using h)

theorem sample_inside {d : Draw} {u v x y : Nat} (gain : Nat) (hpos : sourcePos d.record u v = ((x : Int), (y : Int)))
    (hx : x ≤ 20464) (hy : y ≤ 15344) : d.sample gain u v =
      some ⟨byte (gainedY (d.sampleAt x y).1 gain), byte (d.sampleAt x y).2.1, byte (d.sampleAt x y).2.2⟩ := by
  unfold Draw.sample
  rw [hpos]
  exact if_pos (by simp [insideFrame]; omega)

/-! ### The areas a tile needs -/

/-- The area of camera `c` for a mesh: one where its source is FRESH or STALE, else none (R130). -/
def Context.areaOf (x : Context) (c : Camera) (mesh : BitVec 10) : List Draw :=
  match x.sources.get c.idx, x.srcSlots.get c.idx with
  | .fresh, some k | .stale _, some k =>
    [{ cam := c, slot := k, mesh := mesh.toNat, record := [], box := none, data := [] }]
  | _, _ => []

/-- A tile entry's camera field names the camera of that position. -/
theorem camOfBits_eq_some {b : BitVec 3} {c : Camera} : camOfBits b = some c ↔ b.toNat = c.number := by
  revert b
  cases c <;> decide

theorem drawFrom_of_cam {x : Context} {code : BitVec 3} {c : Camera} (mesh : BitVec 10) (h : camOfBits code = some c) :
    x.drawFrom code mesh = x.areaOf c mesh := by
  unfold Context.drawFrom Context.areaOf
  rw [h]
  dsimp only
  cases x.sources.get c.idx <;> cases x.srcSlots.get c.idx <;> rfl

/-- A field's area is that of the camera it names, if it names one. -/
theorem drawFrom_eq (x : Context) (code : BitVec 3) (mesh : BitVec 10) :
    x.drawFrom code mesh
      = Camera.all.flatMap (fun c => if code.toNat = c.number then x.areaOf c mesh else []) := by
  simp only [← camOfBits_eq_some]
  cases hcam : camOfBits code with
  | none => simp [Context.drawFrom, hcam]
  | some c =>
    rw [drawFrom_of_cam mesh hcam]
    cases c <;> simp [Camera.all]

/-! The codes of the two classes that are drawn from cameras (R73). -/

theorem ofBits_single : ∀ {b : BitVec 3}, TileClass.ofBits b = some .single ↔ b = 1 := by decide

theorem ofBits_seam : ∀ {b : BitVec 3}, TileClass.ofBits b = some .seam ↔ b = 2 := by decide

section needs
variable {x : Context} {c : PlanContent} {e : TileEntry}

theorem needs_unwritten (h : ∀ e, c.tiles[15 * x.row + x.col]? ≠ some (some e)) : x.needs (some c) = [] := by
  have hjoin : (c.tiles[x.tile]?).join = none := by
    rcases ht : c.tiles[x.tile]? with _ | _ | e
    · rfl
    · rfl
    · exact absurd ht (h e)
  simp [Context.needs, hjoin]

/-- The entry of the tile in hand. -/
theorem tile_join (h : c.tiles[15 * x.row + x.col]? = some (some e)) : (c.tiles[x.tile]?).join = some e := by
  rw [show c.tiles[x.tile]? = some (some e) from h]
  rfl

theorem needs_single (h : c.tiles[15 * x.row + x.col]? = some (some e)) (hc : e.cls = 1) :
    x.needs (some c) = x.drawFrom e.primCam e.primMesh := by
  simp [Context.needs, tile_join h, hc, TileClass.ofBits]

theorem needs_seam (h : c.tiles[15 * x.row + x.col]? = some (some e)) (hc : e.cls = 2) :
    x.needs (some c) = x.drawFrom e.primCam e.primMesh ++ x.drawFrom e.secCam e.secMesh := by
  simp [Context.needs, tile_join h, hc, TileClass.ofBits]

theorem needs_other (h : c.tiles[15 * x.row + x.col]? = some (some e)) (h1 : e.cls ≠ 1) (h2 : e.cls ≠ 2) :
    x.needs (some c) = [] := by
  have hplain : TileClass.ofBits e.cls ≠ some .single ∧ TileClass.ofBits e.cls ≠ some .seam := by
    simp only [ne_eq, ofBits_single, ofBits_seam]
    exact ⟨h1, h2⟩
  simp only [Context.needs, Option.bind_some, tile_join h]
  split
  · rename_i hs
    exact absurd hs hplain.1
  · rename_i hs
    exact absurd hs hplain.2
  · rfl
end needs

/-! ### The row buffer -/

/-- A place whose row is drawn, with one more tile, handed over: COMPLETE, or FREE where the interval of its last line has
begun (R131, R155). -/
theorem handOver_place {frame row : Nat} {tiles : List (List Pixel)} (v : ViewLane) (tile : List Pixel) :
    let after := (v.addTile frame row tile).handOver frame row
    let place := if v.passed frame (32 * row + 31) then Place.free else .complete frame row (tiles ++ [tile])
    (v.placeA = .drawing frame row tiles → after.placeA = place)
    ∧ (v.placeB = .drawing frame row tiles → after.placeB = place) := by
  intro after place
  have hpassed : (v.addTile frame row tile).passed frame (32 * row + 31) = v.passed frame (32 * row + 31) := rfl
  simp only [after, place, ViewLane.handOver, hpassed]
  refine ⟨fun h => ?_, fun h => ?_⟩ <;> split <;>
    simp [ViewLane.onPlaces, ViewLane.addTile, Place.addTile, Place.finish, Place.discard, h]

/-- A row takes the first FREE place (log 21). -/
theorem beginRow_placeA {v : ViewLane} (frame row : Nat) (h : v.placeA = .free) :
    v.beginRow frame row = { v with placeA := .drawing frame row [] } :=
  if_pos (by rw [h]; rfl)

theorem beginRow_placeB {v : ViewLane} (frame row : Nat) (hA : v.placeA ≠ .free) (hB : v.placeB = .free) :
    v.beginRow frame row = { v with placeB := .drawing frame row [] } := by
  have hfree : ¬v.placeA.isFree = true := by
    cases h : v.placeA with
    | free => exact absurd h hA
    | drawing | complete => exact nofun
  exact (if_neg hfree).trans (if_pos (by rw [hB]; rfl))

/-- In its frame's transmission a line's interval has begun where the pointer is past it. -/
theorem passed_sending {v : ViewLane} {y : Transmission} {frame : Nat} (n : Nat) (hy : v.sending = some y)
    (hf : y.frame = frame) : v.passed frame n = true ↔ ∃ m, y.pointer = .line m ∧ n < m := by
  unfold ViewLane.passed
  rw [hy]
  dsimp only
  rw [if_pos hf]
  cases y.pointer with
  | stamp => simp
  | line m => simp

end Sys2Proof.Machine
end

section
/-! SUPPORT. The pixels a tile is drawn with by its class, whether it is degraded, and the seam it feeds (R121, R125, R128,
R129, R133). -/

namespace Sys2Proof.Machine

/-! ### A tile by its class -/

theorem drawTile_entry {x : Context} {c : PlanContent} {e : TileEntry}
    (h : c.tiles[15 * x.row + x.col]? = some (some e)) : x.drawTile (some c) = drawEntry e c.header x := by
  simp only [Context.drawTile, tile_join h]

section entry
variable {e : TileEntry} {x : Context} (h : Header)

theorem drawEntry_body (hc : e.cls = 0) : drawEntry e h x = plain h.body x.seams := by
  simp [drawEntry, TileClass.ofBits, hc]

/-- VOID, and a tile of cameras none of which has an area, is of the void colour. -/
theorem drawEntry_void (hc : e.cls = 3 ∨ ((e.cls = 1 ∨ e.cls = 2) ∧ x.draws = [])) :
    drawEntry e h x = plain h.void x.seams := by
  rcases hc with hc | ⟨hc | hc, hd⟩
  · simp [drawEntry, TileClass.ofBits, hc]
  · simp [drawEntry, TileClass.ofBits, hc, hd]
  · simp [drawEntry, TileClass.ofBits, hc, hd]

theorem drawEntry_single {d : Draw} {ds : List Draw} (hc : e.cls = 1) (hd : x.draws = d :: ds) :
    drawEntry e h x = { pixels := drawOne d (x.gains.get d.cam.idx) h.void, seams := x.seams, degraded := false } := by
  simp [drawEntry, TileClass.ofBits, hc, hd]

/-- SEAM drawn from one camera alone is degraded (R129). -/
theorem drawEntry_seamOne {d : Draw} (hc : e.cls = 2) (hd : x.draws = [d]) :
    drawEntry e h x = { pixels := drawOne d (x.gains.get d.cam.idx) h.void, seams := x.seams, degraded := true } := by
  simp [drawEntry, TileClass.ofBits, hc, hd]

theorem drawEntry_seamBoth {p q : Draw} {ds : List Draw} (hc : e.cls = 2) (hd : x.draws = p :: q :: ds) :
    drawEntry e h x = drawBoth (Ramp.ofBits e.ramp) p q x h.void := by
  simp [drawEntry, TileClass.ofBits, hc, hd]

/-- A tile of another class than SEAM feeds no seam and is not degraded. -/
theorem drawEntry_noSeam (hc : e.cls ≠ 2) : (drawEntry e h x).seams = x.seams ∧ (drawEntry e h x).degraded = false := by
  unfold drawEntry
  split
  · exact ⟨rfl, rfl⟩
  · exact ⟨rfl, rfl⟩
  · rename_i hs _
    exact absurd (ofBits_seam.1 hs) hc
  · rename_i hs _
    exact absurd (ofBits_seam.1 hs) hc
  · exact ⟨rfl, rfl⟩

theorem drawEntry_degraded : (drawEntry e h x).degraded = true ↔ e.cls = 2 ∧ x.draws.length = 1 := by
  by_cases hc : e.cls = 2
  · rcases hd : x.draws with _ | ⟨p, _ | ⟨q, ds⟩⟩
    · simp [drawEntry_void h (Or.inr ⟨Or.inr hc, hd⟩), plain]
    · simp [drawEntry_seamOne h hc hd, hc]
    · simp [drawEntry_seamBoth h hc hd, drawBoth]
  · rw [(drawEntry_noSeam h hc).2]
    exact ⟨nofun, fun hseam => absurd hseam.1 hc⟩
end entry

/-! ### Pixels -/

/-- Pixel `i` of a tile is that of column `i % 32` and line `i / 32` (R131). -/
theorem tilePositions_map {α : Type} (f : Nat × Nat → α) {i : Nat} (hi : i < 1024) :
    (tilePositions.map f)[i]? = some (f (i % 32, i / 32)) := by
  simp [tilePositions, hi]

theorem plain_pixel (c : Pixel) (seams : Quad SeamAcc) {i : Nat} (hi : i < 1024) : (plain c seams).pixels[i]? = some c := by
  simp only [plain, tilePositions_map _ hi]

theorem drawOne_pixel (d : Draw) (gain : Nat) (void : Pixel) {i : Nat} (hi : i < 1024) :
    (drawOne d gain void)[i]? = some ((d.sample gain (i % 32) (i / 32)).getD void) := by
  simp only [drawOne, tilePositions_map _ hi]

theorem drawBoth_pixel (r : Ramp) (p q : Draw) (x : Context) (void : Pixel) {i : Nat} (hi : i < 1024) :
    (drawBoth r p q x void).pixels[i]? = some (seamPixel (seamWeight r (i % 32) (i / 32))
      (p.sample (x.gains.get p.cam.idx) (i % 32) (i / 32)) (q.sample (x.gains.get q.cam.idx) (i % 32) (i / 32)) void) := by
  simp only [drawBoth, List.map_map, tilePositions_map _ hi, Function.comp_apply]

/-- A blended pixel by the samples there are (R128). -/
theorem seamPixel_cases (w : Nat) (p q : Option Pixel) (void : Pixel) :
    (∀ a b, p = some a → q = some b → some (seamPixel w p q void) = some
      ⟨byte (blend w a.y.toNat b.y.toNat), byte (blend w a.u.toNat b.u.toNat), byte (blend w a.v.toNat b.v.toNat)⟩)
    ∧ (∀ a, p = some a → q = none → some (seamPixel w p q void) = some a)
    ∧ (∀ b, p = none → q = some b → some (seamPixel w p q void) = some b)
    ∧ (p = none → q = none → some (seamPixel w p q void) = some void) := by
  refine ⟨?_, ?_, ?_, ?_⟩
  · rintro a b rfl rfl
    rfl
  · rintro a rfl rfl
    rfl
  · rintro b rfl rfl
    rfl
  · rintro rfl rfl
    rfl

/-! ### The seam fed -/

/-- The luma pair that a pixel inside both frames gives, the pair's first camera first (R133). -/
def lumaPair (first : Bool) : Option Pixel × Option Pixel → Option (Nat × Nat)
  | (some a, some b) => some (if first then (a.y.toNat, b.y.toNat) else (b.y.toNat, a.y.toNat))
  | _ => none

/-- A seam's accumulator takes the sums and the number of the luma pairs. -/
theorem feedSeam_eq (first : Bool) (samples : List (Option Pixel × Option Pixel)) : ∀ acc : SeamAcc,
    let both := samples.filterMap (lumaPair first)
    feedSeam acc first samples = { sumA := acc.sumA + (both.map Prod.fst).sum, sumB := acc.sumB + (both.map Prod.snd).sum
                                   count := acc.count + both.length } := by
  induction samples with
  | nil => exact fun acc => rfl
  | cons q samples ih =>
    intro acc both
    have hstep : ∀ a : SeamAcc, feedSeam a first (q :: samples) = feedSeam (match lumaPair first q with
      | some l => a.add l.1 l.2
      | none => a) first samples := fun a => by
      rcases q with ⟨_ | p, _ | s⟩ <;> cases first <;> rfl
    rw [hstep, ih]
    cases hq : lumaPair first q with
    | none => simp [both, hq]
    | some l =>
      simp only [both, List.filterMap_cons, hq, SeamAcc.add, List.map_cons, List.sum_cons, List.length_cons]
      congr 1 <;> omega

/-- The luma pairs of a tile, in the order of its pixels. -/
theorem lumaPairs_eq {first : Bool} {f g : Nat → Nat → Option Pixel} {pair : Nat → Option (Nat × Nat)}
    (h : ∀ i, pair i = lumaPair first (f (i % 32) (i / 32), g (i % 32) (i / 32))) :
    (List.range 1024).filterMap pair
      = (tilePositions.map (fun z => (f z.1 z.2, g z.1 z.2))).filterMap (lumaPair first) := by
  rw [show pair = fun i => lumaPair first (f (i % 32) (i / 32), g (i % 32) (i / 32)) from funext h]
  simp only [tilePositions, List.filterMap_map, List.map_map]
  rfl

/-- SEAM of two FRESH cameras of a pair feeds that pair (R133). -/
theorem drawBoth_fed {p q : Draw} {x : Context} {k : Fin 4} {first : Bool} (r : Ramp) (void : Pixel)
    (hp : x.sources.get p.cam.idx = .fresh) (hq : x.sources.get q.cam.idx = .fresh)
    (hpair : seamPair p.cam q.cam = some (k, first)) :
    (drawBoth r p q x void).seams = x.seams.set k (feedSeam (x.seams.get k) first (tilePositions.map (fun z =>
      (p.sample (x.gains.get p.cam.idx) z.1 z.2, q.sample (x.gains.get q.cam.idx) z.1 z.2)))) := by
  simp only [drawBoth, hpair, hp, hq, decide_true, Bool.and_self, if_true, List.map_map]
  rfl

/-- With a camera that is not FRESH, or of no pair, no seam is fed. -/
theorem drawBoth_unfed {p q : Draw} {x : Context} (r : Ramp) (void : Pixel)
    (h : x.sources.get p.cam.idx ≠ .fresh ∨ x.sources.get q.cam.idx ≠ .fresh ∨ seamPair p.cam q.cam = none) :
    (drawBoth r p q x void).seams = x.seams := by
  unfold drawBoth
  dsimp only
  split
  · rename_i k first hpair
    refine if_neg ?_
    rcases h with h | h | h
    · simp [h]
    · simp [h]
    · simp [h] at hpair
  · rfl

/-- A tile that does not show two FRESH cameras of a pair in a SEAM feeds no seam (R133). -/
theorem drawEntry_unfed {e : TileEntry} {x : Context} (h : Header)
    (hno : ∀ p q ds, x.draws = p :: q :: ds → e.cls ≠ 2 ∨ x.sources.get p.cam.idx ≠ .fresh
      ∨ x.sources.get q.cam.idx ≠ .fresh ∨ seamPair p.cam q.cam = none) : (drawEntry e h x).seams = x.seams := by
  by_cases hc : e.cls = 2
  · rcases hd : x.draws with _ | ⟨p, _ | ⟨q, ds⟩⟩
    · rw [drawEntry_void h (Or.inr ⟨Or.inr hc, hd⟩)]
      rfl
    · rw [drawEntry_seamOne h hc hd]
    · rw [drawEntry_seamBoth h hc hd]
      exact drawBoth_unfed _ _ ((hno p q ds hd).resolve_left fun hn => hn hc)
  · exact (drawEntry_noSeam h hc).1

end Sys2Proof.Machine
end

section
/-! PROOFS. TILE_DRAWN before the last tile: the walk moves on, and the tile's pixels and seam (R120 to R133, R152, R155). -/

namespace Sys2Proof.Machine

/-! ### The walk moves on -/

section drawn
variable {s : State} {x : Context} (hx : s.composer = some x) (hp : x.phase = .drawing)
include hx hp

/-- Before the last column the tile joins its row and the next column's tile begins. -/
theorem tileDrawn_inRow (hc : x.col < 14) :
    let d := x.drawTile (s.viewPlan x)
    let count := x.degraded + (if d.degraded then 1 else 0)
    ∃ t y, exec .tileDrawn s = .next t
      ∧ t = { s with composer := some y, view := t.view, lanes := t.lanes, arb := t.arb }
      ∧ (∀ c, t.lane c = { s.lane c with busy := (t.lane c).busy })
      ∧ y = { x with col := x.col + 1, phase := y.phase, draws := y.draws, seams := d.seams, degraded := count }
      ∧ t.view = s.view.addTile x.frame x.row d.pixels
      ∧ ({ s with view := t.view } : State).tileBegun { x with col := x.col + 1, seams := d.seams, degraded := count } t := by
  intro d count
  have hexec := exec_tileDrawn hx hp
  rw [drawTile_inRow s hc] at hexec
  let w : State := { s with view := s.tileAdded x }
  let z : Context := { x.drawn (s.viewPlan x) with col := x.col + 1 }
  obtain ⟨l, a, ph, ds, ht, hl⟩ := beginTile_frame w z
  have hbegun := beginTile_begun w z
  change exec .tileDrawn s = .next (w.beginTile z) at hexec
  generalize w.beginTile z = t at *
  have hview : t.view = w.view := by rw [ht]
  refine ⟨t, { z with phase := ph, draws := ds }, hexec, ?_, fun c => ?_, rfl, hview, ?_⟩
  · rw [ht]
  · rw [ht]
    exact hl c.idx
  · rw [hview]
    exact hbegun

/-- At the last column the row is handed over, and the next row takes the row test. -/
theorem tileDrawn_endsRow (hc : x.col = 14) (hr : x.row < 24) :
    let d := x.drawTile (s.viewPlan x)
    let count := x.degraded + (if d.degraded then 1 else 0)
    let v := (s.view.addTile x.frame x.row d.pixels).handOver x.frame x.row
    ∃ t y, exec .tileDrawn s = .next t
      ∧ t = { s with composer := some y, view := t.view, lanes := t.lanes, arb := t.arb }
      ∧ (∀ c, t.lane c = { s.lane c with busy := (t.lane c).busy })
      ∧ y = { x with
        row := x.row + 1, col := 0, phase := y.phase, draws := y.draws, seams := d.seams, degraded := count }
      ∧ (v.completeCount = 2 → y.phase = .rowWait ∧ t.view = v ∧ t.lanes = s.lanes ∧ t.arb = s.arb)
      ∧ (v.completeCount < 2 → y.phase ≠ .rowWait ∧ t.view = v.beginRow x.frame (x.row + 1)
        ∧ ({ s with view := t.view } : State).tileBegun
          { x with row := x.row + 1, col := 0, seams := d.seams, degraded := count } t) := by
  intro d count v
  have hexec := exec_tileDrawn hx hp
  rw [drawTile_endsRow s hc hr] at hexec
  let w : State := { s with view := v }
  let z : Context := { x.drawn (s.viewPlan x) with row := x.row + 1, col := 0 }
  obtain ⟨y, -, hy, ht, hl, hfull, hroom⟩ := beginRow_spec w z
  exact ⟨w.beginRow z, y, hexec, ht, fun c => hl c.idx, hy, hfull, hroom⟩
end drawn

/-! ### The tile's areas, pixels and seam -/

/-- The areas a tile needs are those of the cameras its class draws from (R125, R129, R130). -/
theorem needs_cases {x : Context} {c : PlanContent} {e : TileEntry} {area : BitVec 3 → BitVec 10 → List Draw}
    (harea : ∀ code mesh, x.drawFrom code mesh = area code mesh)
    (he : c.tiles[15 * x.row + x.col]? = some (some e)) :
    (e.cls ≠ 1 → e.cls ≠ 2 → x.needs (some c) = [])
    ∧ (e.cls = 1 → x.needs (some c) = area e.primCam e.primMesh)
    ∧ (e.cls = 2 → x.needs (some c) = area e.primCam e.primMesh ++ area e.secCam e.secMesh) := by
  simp only [← harea]
  exact ⟨needs_other he, needs_single he, needs_seam he⟩

section pixel
variable {x : Context} {c : PlanContent} {e : TileEntry} {i : Nat} (hi : i < 1024)
  (he : c.tiles[15 * x.row + x.col]? = some (some e))
include hi he

/-- A tile drawn from one camera, SINGLE or SEAM (R125, R129). -/
theorem tilePixel_one {d : Draw} {ds : List Draw}
    (h : (e.cls = 1 ∧ x.draws = d :: ds) ∨ (e.cls = 2 ∧ x.draws = [d])) :
    (x.drawTile (some c)).pixels[i]? =
      some ((d.sample (x.gains.get d.cam.idx) (i % 32) (i / 32)).getD c.header.void) := by
  rw [drawTile_entry he]
  rcases h with ⟨hc, hd⟩ | ⟨hc, hd⟩
  · rw [drawEntry_single _ hc hd, drawOne_pixel _ _ _ hi]
  · rw [drawEntry_seamOne _ hc hd, drawOne_pixel _ _ _ hi]

/-- A tile drawn from two cameras (R128). -/
theorem tilePixel_both {p q : Draw} {ds : List Draw} (hc : e.cls = 2) (hd : x.draws = p :: q :: ds) :
    (x.drawTile (some c)).pixels[i]? = some (seamPixel (seamWeight (Ramp.ofBits e.ramp) (i % 32) (i / 32))
      (p.sample (x.gains.get p.cam.idx) (i % 32) (i / 32)) (q.sample (x.gains.get q.cam.idx) (i % 32) (i / 32))
      c.header.void) := by
  rw [drawTile_entry he, drawEntry_seamBoth _ hc hd, drawBoth_pixel _ _ _ _ _ hi]
end pixel

/-- Settles O44: the walk by the place of the tile, and each rule of drawing by its own lemma. -/
theorem drawnTileJoinsItsRow : Obligations.DrawnTileJoinsItsRow := by
  unfold Obligations.DrawnTileJoinsItsRow
  refine ⟨fun s x hx hp => ⟨tileDrawn_inRow hx hp, tileDrawn_endsRow hx hp⟩, fun x plan => ?needs,
    fun v frame row tiles tile => ?places, fun x plan i hi => ?pixels, fun x c e he => ?seam,
    fun d gain u v => ⟨sample_outside gain, fun x y => sample_inside gain⟩, fun rec i j a b hi hj ha hb => ?position,
    bilinear_bounds, gainedY_bounds, blend_bounds, fun r u v _ _ => ?weight⟩
  case needs =>
    intro area
    have harea : ∀ code mesh, x.drawFrom code mesh = area code mesh := fun code mesh => ?areas
    · exact ⟨fun hplan => hplan ▸ rfl, fun c hplan => hplan ▸ ⟨needs_unwritten, fun e => needs_cases harea⟩⟩
    case areas =>
      rw [drawFrom_eq]
      refine List.flatMap_congr fun c _ => ?_
      unfold Context.areaOf
      cases x.sources.get c.idx <;> cases x.srcSlots.get c.idx <;> rfl
  case places =>
    obtain ⟨hA, hB⟩ := handOver_place (frame := frame) (row := row) (tiles := tiles) v tile
    exact ⟨hA, hB, beginRow_placeA frame row, beginRow_placeB frame row, fun y n => passed_sending n⟩
  case pixels =>
    refine ⟨fun hplan => hplan ▸ plain_pixel _ _ hi, fun c e hplan he => hplan ▸ ⟨fun hc => ?_, fun hc => ?_,
      fun d ds hd => tilePixel_one hi he hd, fun p q ds hc hd => ?_⟩⟩
    · rw [drawTile_entry he, drawEntry_body _ hc, plain_pixel _ _ hi]
    · rw [drawTile_entry he, drawEntry_void _ hc, plain_pixel _ _ hi]
    · rw [tilePixel_both hi he hc hd]
      exact seamPixel_cases ..
  case seam =>
    rw [drawTile_entry he]
    refine ⟨drawEntry_degraded _, drawEntry_unfed _, fun p q ds k first hc hd hp hq hpair => ?_⟩
    · intro both
      have hboth : both = _ := lumaPairs_eq (first := first) (f := p.sample (x.gains.get p.cam.idx))
        (g := q.sample (x.gains.get q.cam.idx)) fun i => ?pair
      · rw [drawEntry_seamBoth _ hc hd, drawBoth_fed _ _ hp hq hpair, feedSeam_eq, hboth]
      case pair =>
        cases p.sample (x.gains.get p.cam.idx) (i % 32) (i / 32) <;>
          cases q.sample (x.gains.get q.cam.idx) (i % 32) (i / 32) <;> rfl
  case position =>
    intro pos sum
    have hpos : pos = _ := sourcePos_quarter rec hi hj ha hb
    obtain ⟨hlow, hhigh⟩ := round256_bounds (sum Prod.fst)
    rw [hpos]
    exact ⟨hlow, hhigh, round256_bounds (sum Prod.snd)⟩
  case weight => cases r <;> exact seamWeight_nearest _ u v

end Sys2Proof.Machine
end

section
/-! SUPPORT. The bounds of the tables: what they read of the state, and how an operation keeps them. -/

namespace Sys2Proof.Machine

/-! ### The capture set table -/

/-- The capture set table is in order, with a composition in flight or not: what `setsOk` says of the Capture Sequencer
(R53, R62, R114). -/
def Capture.tableOk (x : Capture) (busy : Bool) : Prop :=
  x.sets.Pairwise (fun y z => y.tag ≠ z.tag) ∧ x.credit ≤ 255 ∧ x.sets.length ≤ 4
    ∧ composingCount x.sets = if busy then 1 else 0

theorem setsOk_iff (s : State) : s.setsOk ↔ s.capture.tableOk s.composer.isSome := Iff.rfl

/-- `y` has the capture set table in order where `x` has, with as many COMPOSING sets, and keeps an entry outstanding in
every OPEN set. -/
structure Capture.keepsTable (x y : Capture) : Prop where
  table : ∀ busy, x.tableOk busy → y.tableOk busy
  opens : (∀ st ∈ x.sets, st.openOk) → ∀ st ∈ y.sets, st.openOk

theorem Capture.keepsTable.refl (x : Capture) : x.keepsTable x := ⟨fun _ => id, id⟩

theorem Capture.keepsTable.trans {x y z : Capture} (h : x.keepsTable y) (g : y.keepsTable z) : x.keepsTable z :=
  ⟨fun busy hx => g.table busy (h.table busy hx), fun hx => g.opens (h.opens hx)⟩

/-- The table is read off the sets and the credit. -/
theorem keepsTable_of_sets {x y : Capture} (hsets : y.sets = x.sets) (hcredit : y.credit = x.credit) :
    x.keepsTable y := by
  constructor
  · intro busy hx
    rwa [Capture.tableOk, hsets, hcredit]
  · rw [hsets]
    exact id

/-- Counts stay within their top. -/
theorem satAdd_le (top x n : Nat) : satAdd top x n ≤ top := Nat.min_le_left ..

/-- The closure test makes no set COMPOSING and takes none out of COMPOSING. -/
theorem settle_composing (st : CaptureSet) : (st.settle.state == .composing) = (st.state == .composing) := by
  unfold CaptureSet.settle
  split
  · rename_i h
    rw [h.1]
    rfl
  · rfl

theorem change_composing {st : CaptureSet} {f : CaptureSet → CaptureSet} (h : (f st).state = st.state) :
    ((st.change f).state == .composing) = (st.state == .composing) := by
  unfold CaptureSet.change
  split
  · rw [h]
  · rw [settle_composing, h]

/-- Sets replaced one for one, with their tags and the COMPOSING one kept, leave the table in order. -/
theorem mapSets_tableOk {x : Capture} {f : CaptureSet → CaptureSet} {busy : Bool} (credit : Nat)
    (htag : ∀ st, (f st).tag = st.tag) (hstate : ∀ st, ((f st).state == .composing) = (st.state == .composing))
    (hcredit : credit ≤ 255) (hx : x.tableOk busy) :
    ({ x with sets := x.sets.map f, credit := credit } : Capture).tableOk busy := by
  obtain ⟨htags, -, hlen, hcount⟩ := hx
  refine ⟨List.pairwise_map.2 (htags.imp fun h => ?_), hcredit, ?_, ?_⟩
  · rwa [htag, htag]
  · rwa [List.length_map]
  · rw [← hcount]
    simp only [composingCount, List.countP_map, Function.comp_def, hstate]

/-- A change of entries keeps the table (R60). -/
theorem change_keepsTable (x : Capture) {f : CaptureSet → CaptureSet} (htag : ∀ st, (f st).tag = st.tag)
    (hstate : ∀ st, (f st).state = st.state) : x.keepsTable (x.change f) := by
  refine ⟨fun busy hx => mapSets_tableOk _ (fun st => ?_) (fun st => change_composing (hstate st)) (satAdd_le ..) hx,
    fun hopen st hst => ?_⟩
  · rw [change_tag, htag]
  · obtain ⟨z, hz, rfl⟩ := List.mem_map.1 hst
    exact change_openOk z f (fun ho => hstate z ▸ ho) (hopen z hz)

theorem onEntry_keepsTable (x : Capture) (c : Camera) (t : Tag) (f : SetEntry → SetEntry) :
    x.keepsTable (x.onEntry c t f) := by
  refine change_keepsTable x (fun st => ?_) (fun st => ?_) <;> split <;> rfl

theorem report_keepsTable (x : Capture) (c : Camera) (t : Tag) (r : LineReport) : x.keepsTable (x.report c t r) :=
  onEntry_keepsTable x c t _

theorem departure_keepsTable (x : Capture) (c : Camera) : x.keepsTable (x.departure c) := by
  refine change_keepsTable x (fun st => ?_) (fun st => ?_) <;> split <;> rfl

theorem finalised_keepsTable (x : Capture) (c : Camera) (k : SlotNo) (t : Tag) (q : Quality) :
    x.keepsTable (x.finalised c k t q) := by
  refine Capture.keepsTable.trans (keepsTable_of_sets ?_ ?_) (onEntry_keepsTable _ c t _) <;> split <;> rfl

theorem newFrame_keepsTable (x : Capture) (c : Camera) (t : Tag) : x.keepsTable (x.newFrame c t).2 := by
  unfold Capture.newFrame
  extract_lets k given fresh filled _ y
  have hgiven : x.keepsTable given := by
    change x.keepsTable (if _ then _ else _)
    split
    · exact change_keepsTable x (fun _ => rfl) (fun _ => rfl)
    · exact .refl x
  have hplaced : given.keepsTable y := keepsTable_of_sets rfl rfl
  exact hgiven.trans (hplaced.trans (onEntry_keepsTable y c t fun e =>
    if e.status = .awaited then { e with status := .arriving k } else e))

/-- A window expiry closes an OPEN set (R61). -/
theorem expire_keepsTable (x : Capture) (t : Tag) : x.keepsTable (x.expire t) := by
  refine ⟨fun busy hx => mapSets_tableOk _ (fun st => ?_) (fun st => ?_) (satAdd_le ..) hx, expire_openOk x t⟩
  · split <;> rfl
  · split
    · rename_i h
      rw [h.2]
      rfl
    · rfl

/-! ### A strobe -/

theorem dropOldest_sublist (l : List CaptureSet) : (dropOldest l).Sublist l := by
  induction l with
  | nil => exact .slnil
  | cons st rest ih =>
    unfold dropOldest
    split
    · exact ih.cons_cons st
    · exact List.sublist_cons_self st rest

/-- The set given up for room is not COMPOSING. -/
theorem dropOldest_composing (l : List CaptureSet) : composingCount (dropOldest l) = composingCount l := by
  induction l with
  | nil => rfl
  | cons st rest ih =>
    unfold composingCount at ih
    unfold dropOldest composingCount
    by_cases h : st.state = .composing <;> simp [h, ih]

/-- A table with a set that is not COMPOSING gives one up. -/
theorem dropOldest_length {l : List CaptureSet} (h : composingCount l < l.length) :
    (dropOldest l).length + 1 = l.length := by
  induction l with
  | nil => cases h
  | cons st rest ih =>
    unfold dropOldest
    by_cases hst : st.state = .composing
    · rw [if_pos hst, List.length_cons, List.length_cons, ih]
      simpa [composingCount, hst] using h
    · rw [if_neg hst, List.length_cons]

/-- Fewer sets with the COMPOSING one among them leave the table in order. -/
theorem sublist_tableOk {x y : Capture} {busy : Bool} (hsub : y.sets.Sublist x.sets)
    (hcount : composingCount y.sets = composingCount x.sets) (hcredit : y.credit = x.credit) (hx : x.tableOk busy) :
    y.tableOk busy := by
  obtain ⟨htags, hcr, hlen, hbusy⟩ := hx
  exact ⟨htags.sublist hsub, hcredit ▸ hcr, hsub.length_le.trans hlen, hcount.trans hbusy⟩

/-- A set of a tag is the only one of it, so that without its tag the table keeps every other set. -/
theorem composingCount_filter {x : Capture} {t : Tag} {st : CaptureSet} {busy : Bool} (hx : x.tableOk busy)
    (hfind : x.find t = some st) (hst : st.state ≠ .composing) :
    composingCount (x.sets.filter (fun z => z.tag ≠ t)) = composingCount x.sets := by
  have hmem : st ∈ x.sets := List.mem_of_find?_eq_some hfind
  have honly : ∀ z ∈ x.sets, z.tag = t → z = st := fun z hz e =>
    List.inj_on_of_nodup_map (List.pairwise_map.2 hx.1) hz hmem (e.trans (find_tag hfind).symm)
  unfold composingCount
  rw [List.countP_filter]
  refine List.countP_congr fun z hz => ?_
  by_cases e : z.tag = t
  · rw [honly z hz e]
    simp [hst]
  · simp [e]

/-- No set of the table has a tag that is not found. -/
theorem tag_ne_of_find {x : Capture} {t : Tag} (h : x.find t = none) : ∀ z ∈ x.sets, z.tag ≠ t := by
  simpa [Capture.find] using h

/-- A strobe's set finds room: where one is opened, at most three sets stand in the table, none of its tag (R55). -/
theorem makeRoom_tableOk {x : Capture} {t : Tag} {busy : Bool} (hx : x.tableOk busy) :
    (x.makeRoom t).1.tableOk busy
      ∧ ((x.makeRoom t).2 = true → (x.makeRoom t).1.sets.length ≤ 3 ∧ ∀ z ∈ (x.makeRoom t).1.sets, z.tag ≠ t) := by
  obtain ⟨-, -, hlen, hcount⟩ := id hx
  cases hfind : x.find t with
  | some st =>
    by_cases hst : st.state = .composing
    · rw [makeRoom_composing hfind hst]
      exact ⟨sublist_tableOk (.refl _) rfl rfl hx, fun h => nomatch h⟩
    · rw [makeRoom_sameTag hfind hst hlen]
      refine ⟨sublist_tableOk List.filter_sublist (composingCount_filter hx hfind hst) rfl hx, fun _ => ⟨?_, ?_⟩⟩
      · have hless : (x.sets.filter (fun z => z.tag ≠ t)).length < x.sets.length :=
          List.length_filter_lt_length_iff_exists.2
            ⟨st, List.mem_of_find?_eq_some hfind, by simpa using find_tag hfind⟩
        exact Nat.le_of_lt_succ (hless.trans_le hlen)
      · intro z hz
        simpa using (List.mem_filter.1 hz).2
  | none =>
    have htag := tag_ne_of_find hfind
    by_cases hfull : 4 ≤ x.sets.length
    · have hroom : (dropOldest x.sets).length + 1 = x.sets.length := dropOldest_length (by
        rw [hcount]
        split <;> omega)
      simp only [Capture.makeRoom, hfind, if_pos hfull]
      exact ⟨sublist_tableOk (dropOldest_sublist _) (dropOldest_composing _) rfl hx,
        fun _ => ⟨by simp only [Capture.countDrop]; omega, fun z hz => htag z ((dropOldest_sublist _).subset hz)⟩⟩
    · rw [makeRoom_room hfind (not_le.1 hfull)]
      exact ⟨hx, fun _ => ⟨Nat.le_of_lt_succ (not_le.1 hfull), htag⟩⟩

/-- A set OPEN until its closure test joins a table that has room for it. -/
theorem openSet_tableOk {x : Capture} {st : CaptureSet} {busy : Bool} (ho : st.state = .opened)
    (hroom : x.sets.length ≤ 3) (htag : ∀ z ∈ x.sets, z.tag ≠ st.tag) (hx : x.tableOk busy) :
    (x.openSet st).tableOk busy := by
  obtain ⟨htags, -, -, hcount⟩ := hx
  refine ⟨List.pairwise_append.2 ⟨htags, List.pairwise_singleton .., fun z hz y hy => ?_⟩, satAdd_le .., ?_, ?_⟩
  · rw [List.mem_singleton.1 hy, settle_tag]
    exact htag z hz
  · simp only [Capture.openSet, List.length_append, List.length_singleton]
    omega
  · have hst : (st.settle.state == .composing) = false := by
      rw [settle_composing, ho]
      rfl
    rw [← hcount]
    simp [Capture.openSet, composingCount, hst]

theorem strobe_keepsTable (x : Capture) (t : Tag) (now : Nat) (on : Quad Bool) : x.keepsTable (x.strobe t now on) := by
  refine ⟨fun busy hx => ?_, strobe_openOk x t now on⟩
  obtain ⟨hroomed, hroom⟩ := makeRoom_tableOk (t := t) ((keepsTable_of_sets (y := x.atStrobe t) rfl rfl).table busy hx)
  rw [strobe_eq]
  split
  · rename_i hopens
    obtain ⟨hlen, htag⟩ := hroom hopens
    exact openSet_tableOk rfl hlen htag hroomed
  · exact hroomed

/-! ### A composition -/

/-- The newest CLOSED set stands in the table before the sets created after it. -/
theorem newestClosed_suffix {l newer : List CaptureSet} {st : CaptureSet} (h : newestClosed l = some (st, newer)) :
    (st :: newer).Sublist l := by
  induction l with
  | nil => cases h
  | cons z rest ih =>
    unfold newestClosed at h
    split at h
    · rename_i r hr
      exact (ih (hr.trans h)).cons z
    · split at h
      · cases h
        exact .refl _
      · cases h

/-- A composition starts on one set of a table with none COMPOSING (R63). -/
theorem startComposition_tableOk {x : Capture} {st : CaptureSet} {newer : List CaptureSet}
    (h : newestClosed x.sets = some (st, newer)) (hx : x.tableOk false) :
    (x.startComposition st newer).tableOk true := by
  obtain ⟨htags, -, hlen, hcount⟩ := hx
  have hsub := newestClosed_suffix h
  obtain ⟨htag, hnewer⟩ := List.pairwise_cons.1 (htags.sublist hsub)
  have hnone : composingCount newer = 0 :=
    Nat.le_zero.1 ((((List.sublist_cons_self st newer).trans hsub).countP_le).trans_eq hcount)
  refine ⟨List.pairwise_cons.2 ⟨htag, hnewer⟩, Nat.zero_le _, hsub.length_le.trans hlen, ?_⟩
  unfold composingCount at hnone
  simp [composingCount, Capture.startComposition, hnone]

theorem startComposition_opens {x : Capture} {st : CaptureSet} {newer : List CaptureSet}
    (h : newestClosed x.sets = some (st, newer)) (hx : ∀ z ∈ x.sets, z.openOk) :
    ∀ z ∈ (x.startComposition st newer).sets, z.openOk := by
  intro z hz
  rcases List.mem_cons.1 hz with rfl | hz
  · exact fun ho => nomatch ho
  · exact hx z ((newestClosed_suffix h).subset (List.mem_cons_of_mem _ hz))

/-- The COMPOSING set is retired with its composition (R64). -/
theorem endComposition_tableOk {x : Capture} {busy : Bool} (hx : x.tableOk busy) : x.endComposition.tableOk false := by
  obtain ⟨htags, hcredit, hlen, -⟩ := hx
  refine ⟨htags.sublist List.filter_sublist, hcredit, (List.length_filter_le ..).trans hlen, ?_⟩
  simp [composingCount, Capture.endComposition, List.countP_filter]

theorem endComposition_opens {x : Capture} (hx : ∀ z ∈ x.sets, z.openOk) : ∀ z ∈ x.endComposition.sets, z.openOk :=
  fun z hz => hx z (List.mem_filter.1 hz).1

theorem clear_tableOk (x : Capture) : x.clear.tableOk false := ⟨.nil, Nat.zero_le _, Nat.zero_le _, rfl⟩

theorem clear_opens (x : Capture) : ∀ z ∈ x.clear.sets, z.openOk := fun _ hz => nomatch hz

end Sys2Proof.Machine
end

section
/-! SUPPORT. The bounds of the tables kept from one state to another, what they read of the state, and the operations
that leave that alone. -/

namespace Sys2Proof.Machine

/-- `t` has the gains, the line buffers, the command queue and the capture set table within bounds where `s` has. -/
structure State.keepsTables (s t : State) : Prop where
  gains : s.gainsOk → t.gainsOk
  queues : s.queuesOk → t.queuesOk
  sets : s.setsOk → t.setsOk
  opens : s.openOk → t.openOk

/-- `t` has the tables within bounds where `s` has, and a standby wait for a composition in flight alone. -/
structure State.keepsBounds (s t : State) : Prop extends State.keepsTables s t where
  wait : s.waitOk → t.waitOk

theorem State.keepsTables.trans {s t u : State} (h : s.keepsTables t) (g : t.keepsTables u) : s.keepsTables u :=
  ⟨fun hs => g.gains (h.gains hs), fun hs => g.queues (h.queues hs), fun hs => g.sets (h.sets hs),
    fun hs => g.opens (h.opens hs)⟩

theorem State.keepsBounds.refl (s : State) : s.keepsBounds s := ⟨⟨id, id, id, id⟩, id⟩

theorem State.keepsBounds.trans {s t u : State} (h : s.keepsBounds t) (g : t.keepsBounds u) : s.keepsBounds u :=
  ⟨h.tokeepsTables.trans g.tokeepsTables, fun hs => g.wait (h.wait hs)⟩

/-- Operations one after another keep the bounds where each does. -/
theorem foldl_keepsBounds {α : Type} {f : State → α → State} (hf : ∀ (t : State) x, t.keepsBounds (f t x))
    (l : List α) : ∀ s : State, s.keepsBounds (l.foldl f s) := by
  induction l with
  | nil => exact fun s => .refl s
  | cons x l ih => exact fun s => (hf s x).trans (ih (f s x))

/-! ### What they read of the state -/

/-- What the bounds read of the state: the gains, the line buffers, the chain command queue, the capture sets and the
credit, whether a composition is in flight, and the standby wait. -/
def State.tables (s : State) :
    Quad Nat × Quad (List Line) × List ChainEntry × List CaptureSet × Nat × Bool × Bool :=
  (s.balance.gains, s.lanes.map Lane.buffer, s.chain.queue, s.capture.sets, s.capture.credit, s.composer.isSome,
    s.power.entry)

/-- The line buffers are within bounds camera by camera. -/
theorem queuesOk_iff (s : State) :
    s.queuesOk ↔ (∀ i, (s.lanes.get i).buffer.length ≤ 2) ∧ s.chain.queue.length ≤ 8 := by
  simp only [State.queuesOk, Quad.mem_toList, forall_exists_index, forall_apply_eq_imp_iff]

/-- A standby wait, read off whether a composition is in flight. -/
theorem waitOk_iff (s : State) : s.waitOk ↔ (s.power.entry = true → s.composer.isSome = true) := by
  rw [State.waitOk, Option.isSome_iff_ne_none]

theorem keepsBounds_of_tables {s t : State} (h : t.tables = s.tables) : s.keepsBounds t := by
  simp only [State.tables, Prod.mk.injEq] at h
  obtain ⟨hgains, hbuffers, hqueue, hsets, hcredit, hcomposer, hentry⟩ := h
  have hbuffer : ∀ i, (t.lanes.get i).buffer = (s.lanes.get i).buffer := fun i => by
    rw [← Quad.get_map Lane.buffer, hbuffers, Quad.get_map]
  have hcapture : s.capture.keepsTable t.capture := keepsTable_of_sets hsets hcredit
  refine ⟨⟨fun hs => ?_, fun hs => ?_, fun hs => ?_, hcapture.opens⟩, fun hs => ?_⟩
  · rwa [State.gainsOk, hgains]
  · rw [queuesOk_iff] at hs ⊢
    rwa [hqueue, forall_congr' fun i => by rw [hbuffer i]]
  · rw [setsOk_iff, hcomposer]
    exact hcapture.table _ hs
  · rw [waitOk_iff] at hs ⊢
    rwa [hentry, hcomposer]

/-! ### Operations that leave it alone -/

/-- The blocks that the bounds do not read leave it alone. -/
theorem tables_others (s : State) (pending : List Instr) (now : Nat) (mem : Memory) (plans : Plans) (leases : Leases)
    (arb : Arb) (view : ViewLane) (log : RecordLog) (ports : Duo PortState) :
    ({ s with
      pending := pending, now := now, mem := mem, plans := plans, leases := leases, arb := arb, view := view, log := log
      ports := ports } : State).tables = s.tables := rfl

/-- Of the power state they read the standby wait. -/
theorem tables_withPower (s : State) {x : Power} (h : x.entry = s.power.entry) :
    ({ s with power := x } : State).tables = s.tables := by
  unfold State.tables
  rw [h]

/-- Of the composition they read whether one is in flight. -/
theorem tables_withComposer {s : State} {x : Context} (h : s.composer = some x) (y : Context) :
    ({ s with composer := some y } : State).tables = s.tables := by
  unfold State.tables
  rw [h]
  rfl

theorem sameButBusy_buffers {x y : Quad Lane} (h : sameButBusy x y) : y.map Lane.buffer = x.map Lane.buffer := by
  have hbuffer : ∀ i, (y.get i).buffer = (x.get i).buffer := fun i => by rw [h i]
  exact (Quad.mk.injEq ..).mpr ⟨hbuffer 0, hbuffer 1, hbuffer 2, hbuffer 3⟩

/-- Of a lane they read its buffer. -/
theorem tables_withLanes (s : State) {l : Quad Lane} (h : sameButBusy s.lanes l) :
    ({ s with lanes := l } : State).tables = s.tables := by
  unfold State.tables
  rw [sameButBusy_buffers h]

/-- The operations of the Lease Arbiter leave it alone. -/
theorem tables_of_sansLeases {s t : State} (h : t.sansLeases = s.sansLeases) : t.tables = s.tables := by
  have e : t.sansLeases.tables = s.sansLeases.tables := congrArg State.tables h
  exact e

section tables
variable (s : State)

@[simp] theorem answer_tables (p : Port) (c : Code) (bs : List Byte) : (s.answer p c bs).tables = s.tables := by
  obtain ⟨x, h⟩ := answer_frame s p c bs
  rw [h]
  rfl

@[simp] theorem refuse_tables (p : Port) (c : Code) : (s.refuse p c).tables = s.tables := answer_tables s p c []

@[simp] theorem taken_tables (p : Port) (r : Request) (rest : List Request) :
    (s.taken p r rest).tables = s.tables := rfl

@[simp] theorem onPort_tables (p : Port) (f : PortState → PortState) : (s.onPort p f).tables = s.tables := rfl

@[simp] theorem raise_tables (p : Port) (k : NoticeKind) : (s.raise p k).tables = s.tables := rfl

@[simp] theorem raiseBoth_tables (k : NoticeKind) : (s.raiseBoth k).tables = s.tables := rfl

@[simp] theorem elapse_tables (dt : Nat) : (s.elapse dt).tables = s.tables := rfl

@[simp] theorem runTo_tables (t : Nat) : (s.runTo t).tables = s.tables := rfl

@[simp] theorem setHold_tables (id : PlanId) (h : PlanHold) : (s.setHold id h).tables = s.tables := rfl

@[simp] theorem grant_tables : s.grant.tables = s.tables := by
  obtain ⟨l, a, h, hl⟩ := grant_frame s
  rw [h]
  exact tables_withLanes { s with arb := a } hl

@[simp] theorem appendRecord_tables (x : Context) (n : Nat) (ab : Bool) :
    (s.appendRecord x n ab).tables = s.tables := by
  obtain ⟨⟨pp, h⟩, -⟩ := appendRecord_frame s x n ab
  rw [h]
  rfl

/-! ### The Composer's walk -/

/-- Each operation of the walk leaves a composition in flight. -/
theorem handMesh_tables (x : Context) (k : Nat) (d : Draw) :
    (s.handMesh x k d).tables = ({ s with composer := some x } : State).tables := by
  rw [State.handMesh, grant_tables]
  rfl

theorem handBox_tables (x : Context) (k : Nat) (d : Draw) (b : Box) :
    (s.handBox x k d b).tables = ({ s with composer := some x } : State).tables := by
  rw [State.handBox, grant_tables]
  rfl

theorem areaFetched_tables (x : Context) (k : Nat) :
    (s.areaFetched x k).tables = ({ s with composer := some x } : State).tables := by
  unfold State.areaFetched
  split
  · exact handMesh_tables s x _ _
  · rfl

theorem beginTile_tables (x : Context) : (s.beginTile x).tables = ({ s with composer := some x } : State).tables := by
  unfold State.beginTile
  split
  · rfl
  · exact handMesh_tables ..

theorem beginRow_tables (x : Context) : (s.beginRow x).tables = ({ s with composer := some x } : State).tables := by
  unfold State.beginRow
  split
  · rfl
  · exact beginTile_tables ..

@[simp] theorem leaveBuffer_tables (frame row : Nat) : (s.leaveBuffer frame row).tables = s.tables := by
  unfold State.leaveBuffer State.rowLeft
  split
  · split
    · rename_i x hx
      split
      · exact (beginRow_tables _ x).trans (tables_withComposer hx x)
      · rfl
    · rfl
  · rfl

@[simp] theorem fetchBurstDone_tables (addr : Nat) : (s.fetchBurstDone addr).tables = s.tables := by
  unfold State.fetchBurstDone
  split
  · rfl
  · rename_i x hx
    extract_lets data
    split
    · exact tables_withComposer hx _
    · extract_lets y
      split
      · exact (areaFetched_tables ..).trans (tables_withComposer hx y)
      · exact tables_withComposer hx y
    · rfl

/-! ### The Plan Store -/

@[simp] theorem touchPlan_tables (p : Port) (bs : List Byte) : (s.touchPlan p bs).tables = s.tables := by
  unfold State.touchPlan
  repeat' split
  all_goals rfl

@[simp] theorem endWalk_tables (id : PlanId) (c : PlanContent) (r : Option Rejection) :
    (s.endWalk id c r).tables = s.tables := by
  unfold State.endWalk
  extract_lets h t _
  rw [raise_tables, answer_tables]
  rfl

@[simp] theorem walkOn_tables (id : PlanId) (c : PlanContent) (passed : List Nat) (n : WalkNext) :
    (s.walkOn id c passed n).tables = s.tables := by
  cases n with
  | read place m => exact grant_tables _
  | fail r => exact endWalk_tables s id c _
  | done => exact endWalk_tables s id c _

@[simp] theorem markMesh_tables (p : Port) (id : PlanId) (i : Nat) : (s.markMesh p id i).tables = s.tables := by
  unfold State.markMesh
  split
  · split <;> rfl
  · rfl

@[simp] theorem poolBurstDone_tables (b : PoolBurst) : (s.poolBurstDone b).tables = s.tables := by
  unfold State.poolBurstDone
  split
  · rfl
  · split
    · rename_i p id unit i rec _
      extract_lets t
      have ht : t.tables = s.tables := markMesh_tables _ p id i
      split
      · exact (answer_tables ..).trans ht
      · exact ht
    · extract_lets got
      split
      · exact answer_tables ..
      · rfl
    · rfl
    · rfl

/-- A request whose rule leaves it alone does so where it is served. -/
theorem serve_tables (p : Port) (k : RequestKind) {body : List Byte → State → State}
    (h : ∀ bs t, (body bs t).tables = t.tables) : (s.serve p k body).tables = s.tables := by
  obtain e | ⟨r, rest, -, e⟩ := serve_cases s p k body
  · rw [e]
  · rw [e, h, taken_tables]

end tables

end Sys2Proof.Machine
end

section
/-! SUPPORT. The operations of the chain, the lanes, standby and the compositions keep the bounds. -/

namespace Sys2Proof.Machine

/-! ### Blocks replaced -/

/-- The pipeline's blocks replaced by ones within their bounds. -/
theorem withPipe_keepsBounds (s : State) {x : Chain} {l : Quad Lane} {y : Capture} (a : Arb)
    (hqueue : s.chain.queue.length ≤ 8 → x.queue.length ≤ 8)
    (hbuffers : ∀ i, (s.lanes.get i).buffer.length ≤ 2 → (l.get i).buffer.length ≤ 2)
    (hsets : s.capture.keepsTable y) :
    s.keepsBounds { s with chain := x, lanes := l, capture := y, arb := a } := by
  refine ⟨⟨id, fun hs => ?_, hsets.table _, hsets.opens⟩, id⟩
  rw [queuesOk_iff] at hs ⊢
  exact ⟨fun i => hbuffers i (hs.1 i), hqueue hs.2⟩

theorem withChain_keepsBounds (s : State) {x : Chain} (h : s.chain.queue.length ≤ 8 → x.queue.length ≤ 8) :
    s.keepsBounds { s with chain := x } := withPipe_keepsBounds s s.arb h (fun _ => id) (.refl _)

theorem withCapture_keepsBounds (s : State) {x : Capture} (h : s.capture.keepsTable x) :
    s.keepsBounds { s with capture := x } := withPipe_keepsBounds s s.arb id (fun _ => id) h

/-- One lane replaced by one with no more lines in its buffer than it may have, and the capture sets with it. -/
theorem withLane_keepsBounds (s : State) (c : Camera) {x : Lane} {y : Capture} (a : Arb)
    (hbuffer : (s.lane c).buffer.length ≤ 2 → x.buffer.length ≤ 2) (hsets : s.capture.keepsTable y) :
    s.keepsBounds { s with lanes := s.lanes.set c.idx x, capture := y, arb := a } := by
  refine withPipe_keepsBounds s a id (fun i hi => ?_) hsets
  rw [Quad.get_set]
  split
  · rename_i e
    subst e
    exact hbuffer hi
  · exact hi

theorem setLane_keepsBounds (s : State) (c : Camera) {x : Lane}
    (h : (s.lane c).buffer.length ≤ 2 → x.buffer.length ≤ 2) :
    s.keepsBounds (s.setLane c x) := withLane_keepsBounds s c s.arb h (.refl _)

/-- A line that leaves a buffer leaves it within bounds. -/
theorem tail_length_le {α : Type} {l : List α} {n : Nat} (h : l.length ≤ n) : l.tail.length ≤ n := by
  rw [List.length_tail]
  omega

theorem grant_keepsBounds (s : State) : s.keepsBounds s.grant := keepsBounds_of_tables (grant_tables s)

/-! ### The lanes -/

section lanes
variable (s : State) (c : Camera)

theorem reportError_keepsBounds : s.keepsBounds (s.reportError c) := by
  unfold State.reportError
  split
  · exact withCapture_keepsBounds s (report_keepsTable ..)
  · exact .refl s

theorem dropLine_keepsBounds (k : TotalKind) : s.keepsBounds (s.dropLine c k) :=
  setLane_keepsBounds s c tail_length_le

theorem finaliseFrame_keepsBounds (f : FrameProgress) (q : Quality) : s.keepsBounds (s.finaliseFrame c f q) :=
  withLane_keepsBounds s c s.arb id (finalised_keepsTable ..)

theorem takeTail_keepsBounds (f : FrameProgress) (k : ConsumeKind) : s.keepsBounds (s.takeTail c f k) :=
  setLane_keepsBounds s c id

theorem startFrame_keepsBounds (t : Tag) : s.keepsBounds (s.startFrame c t) :=
  withLane_keepsBounds s c s.arb id (newFrame_keepsTable ..)

theorem consumeInFrame_keepsBounds (n : Nat) (payload : List Byte) : s.keepsBounds (s.consumeInFrame c n payload) := by
  unfold State.consumeInFrame
  extract_lets ln
  split
  · exact .refl s
  · split
    · exact dropLine_keepsBounds s c _
    · refine .trans ?_ (grant_keepsBounds _)
      exact setLane_keepsBounds s c id

theorem beginFrame_keepsBounds (t : Tag) (n : Nat) (payload : List Byte) :
    s.keepsBounds (s.beginFrame c t n payload) := by
  unfold State.beginFrame
  extract_lets u
  have hu : s.keepsBounds u := by
    change s.keepsBounds (match (s.lane c).frame with | some f => _ | none => _)
    split
    · exact finaliseFrame_keepsBounds ..
    · exact .refl s
  exact (hu.trans (startFrame_keepsBounds u c t)).trans (consumeInFrame_keepsBounds _ c n payload)

theorem newerLine_keepsBounds (t : Tag) (n : Nat) (payload : List Byte) :
    s.keepsBounds (s.newerLine c t n payload) := by
  unfold State.newerLine
  split
  · exact beginFrame_keepsBounds ..
  · rename_i f _
    extract_lets u
    have hu : s.keepsBounds u := takeTail_keepsBounds s c f _
    split
    · exact hu.trans (beginFrame_keepsBounds ..)
    · exact hu.trans (grant_keepsBounds u)

theorem assess_keepsBounds (addr : Nat) (t : Tag) (n : Nat) (payload : List Byte) :
    s.keepsBounds (s.assess c addr t n payload) := by
  unfold State.assess
  extract_lets ln
  split_ifs
  · exact dropLine_keepsBounds ..
  · exact dropLine_keepsBounds ..
  · exact dropLine_keepsBounds ..
  · exact dropLine_keepsBounds ..
  · exact consumeInFrame_keepsBounds ..
  · exact dropLine_keepsBounds ..
  · exact newerLine_keepsBounds ..

theorem laneBurstDone_keepsBounds : s.keepsBounds (s.laneBurstDone c) := by
  unfold State.laneBurstDone
  extract_lets ln
  split
  · exact .refl s
  · split
    · exact .refl s
    · split
      · exact .refl s
      · split
        · exact setLane_keepsBounds s c id
        · split
          · exact setLane_keepsBounds s c id
          · exact withLane_keepsBounds s c s.arb id (report_keepsTable ..)

theorem withdrawLane_keepsBounds : s.keepsBounds (s.withdrawLane c) := by
  unfold State.withdrawLane
  extract_lets ln
  split
  · exact .refl s
  · refine withLane_keepsBounds s c _ (fun h => ?_) (.refl _)
    dsimp only
    split
    · exact tail_length_le h
    · exact tail_length_le h
    · exact h

theorem leaveStreaming_keepsBounds : s.keepsBounds (s.leaveStreaming c) := by
  have hgone : s.keepsBounds (s.laneDeparture c) := by
    unfold State.laneDeparture
    extract_lets t
    have ht : s.keepsBounds t := withdrawLane_keepsBounds s c
    split
    · exact ht
    · exact ht.trans (finaliseFrame_keepsBounds ..)
  exact hgone.trans (withCapture_keepsBounds _ (departure_keepsTable ..))

end lanes

/-! ### The chain -/

section chain
variable (s : State) (c : Camera)

theorem raiseBoth_keepsBounds (k : NoticeKind) : s.keepsBounds (s.raiseBoth k) :=
  keepsBounds_of_tables (raiseBoth_tables s k)

theorem enqueue_keepsBounds (e : ChainEntry) : s.keepsBounds (s.enqueue e) :=
  withChain_keepsBounds s (enqueue_length_le s.chain e)

theorem popCommand_keepsBounds : s.keepsBounds s.popCommand := withChain_keepsBounds s tail_length_le

theorem removeFor_length_le {x : Chain} (h : x.queue.length ≤ 8) : (x.removeFor c).queue.length ≤ 8 :=
  (List.length_filter_le ..).trans h

theorem setCam_keepsBounds (r : CamRecord) : s.keepsBounds (s.setCam c r) := by
  unfold State.setCam
  extract_lets old _ s1 s2
  have hraised : s.keepsBounds s2 := by
    refine (withChain_keepsBounds s id : s.keepsBounds s1).trans ?_
    change s1.keepsBounds (if _ then _ else _)
    split
    · exact .refl s1
    · exact raiseBoth_keepsBounds s1 _
  split
  · exact hraised.trans (leaveStreaming_keepsBounds ..)
  · exact hraised

theorem camFault_keepsBounds (f : FaultCode) : s.keepsBounds (s.camFault c f) := by
  unfold State.camFault
  extract_lets r s1 s2
  have hfaulted : s.keepsBounds s2 :=
    (withChain_keepsBounds s (removeFor_length_le c) : s.keepsBounds s1).trans (setCam_keepsBounds ..)
  split
  · exact hfaulted.trans (enqueue_keepsBounds ..)
  · exact hfaulted

theorem camFaultCode_keepsBounds (f : FaultCode) : s.keepsBounds (s.camFaultCode c f) := by
  unfold State.camFaultCode
  split
  · exact camFault_keepsBounds ..
  · split
    · exact (setCam_keepsBounds ..).trans (raiseBoth_keepsBounds ..)
    · exact .refl s

theorem camLost_keepsBounds : s.keepsBounds (s.camLost c) := by
  unfold State.camLost
  extract_lets r ch s1
  exact (withChain_keepsBounds s (removeFor_length_le c) : s.keepsBounds s1).trans (setCam_keepsBounds ..)

theorem chainSettle_keepsBounds : s.keepsBounds s.chainSettle := by
  unfold State.chainSettle
  split
  · refine .trans ?_ (raiseBoth_keepsBounds ..)
    exact withChain_keepsBounds s id
  · exact .refl s

theorem unaddressAll_keepsBounds : s.keepsBounds s.unaddressAll :=
  foldl_keepsBounds (fun t c => setCam_keepsBounds t c _) _ s

theorem rebuild_keepsBounds : s.keepsBounds s.rebuild := by
  unfold State.rebuild
  extract_lets _ t
  have ht : s.keepsBounds t :=
    .trans (withChain_keepsBounds s (x := { s.chain with queue := [] }) fun _ => Nat.zero_le _)
      (unaddressAll_keepsBounds _)
  exact (ht.trans (enqueue_keepsBounds t _)).trans (withChain_keepsBounds _ id)

theorem breakTest_keepsBounds : s.keepsBounds s.breakTest := by
  unfold State.breakTest
  split
  · exact .refl s
  · rename_i k _
    extract_lets _ t
    have ht : s.keepsBounds t :=
      .trans (withChain_keepsBounds s (x := { s.chain with lastBreak := some k }) id) (raiseBoth_keepsBounds ..)
    split
    · refine ht.trans (.trans ?_ (rebuild_keepsBounds _))
      exact withChain_keepsBounds t id
    · exact ht

theorem addressingDone_keepsBounds : s.keepsBounds s.addressingDone := by
  refine foldl_keepsBounds (fun t c => ?_) _ s
  split
  · exact enqueue_keepsBounds t _
  · exact .refl t

theorem commandDone_keepsBounds (f : ChainFunc) : s.keepsBounds (s.commandDone c f) := by
  unfold State.commandDone
  extract_lets r t
  split
  · have ht : s.keepsBounds t := setCam_keepsBounds ..
    split
    · exact ht.trans (enqueue_keepsBounds t _)
    · exact ht.trans (addressingDone_keepsBounds t)
  · exact setCam_keepsBounds ..
  · exact setCam_keepsBounds ..
  · split
    · exact setCam_keepsBounds ..
    · exact .refl s
  · exact enqueue_keepsBounds ..
  · exact .refl s
  · exact .refl s

theorem commandFailed_keepsBounds (f : ChainFunc) : s.keepsBounds (s.commandFailed c f) := by
  cases f with
  | assign =>
    exact (foldl_keepsBounds (fun t d => setCam_keepsBounds t d _) _ s).trans (addressingDone_keepsBounds _)
  | identStart | testStart | streamOn | camReset => exact camFault_keepsBounds ..
  | streamOff | chainReset => exact .refl s

theorem settleCommand_keepsBounds (res : SlotResult) : s.keepsBounds (s.settleCommand c res) := by
  have hpop := popCommand_keepsBounds s
  unfold State.settleCommand
  split
  · exact .refl s
  · split_ifs
    · exact hpop.trans (commandDone_keepsBounds ..)
    · exact hpop.trans (commandFailed_keepsBounds ..)
    · exact hpop.trans (commandFailed_keepsBounds ..)
    · exact .refl s

theorem identClose_keepsBounds (x : IdentProgress) : s.keepsBounds (s.identClose c x) := by
  unfold State.identClose State.identityCheck
  split
  · extract_lets id _ t
    have ht : s.keepsBounds t := setCam_keepsBounds ..
    split
    · exact ht.trans (enqueue_keepsBounds t _)
    · exact ht.trans (camFault_keepsBounds t c _)
  · extract_lets _ t
    have ht : s.keepsBounds t := setCam_keepsBounds ..
    split
    · exact ht.trans (camFault_keepsBounds t c _)
    · exact ht

theorem identSlot_keepsBounds (x : IdentProgress) (res : SlotResult) : s.keepsBounds (s.identSlot c x res) := by
  unfold State.identSlot
  extract_lets q
  split
  · exact identClose_keepsBounds ..
  · split
    · exact camFault_keepsBounds ..
    · exact (camFaultCode_keepsBounds ..).trans (identClose_keepsBounds ..)
  · exact identClose_keepsBounds ..

theorem testSlot_keepsBounds (code : StateCode) (f : FaultCode) : s.keepsBounds (s.testSlot c code f) := by
  unfold State.testSlot
  split
  · exact camFault_keepsBounds ..
  · extract_lets t r
    have ht : s.keepsBounds t := camFaultCode_keepsBounds ..
    split
    · split
      · exact (ht.trans (setCam_keepsBounds t c _)).trans (enqueue_keepsBounds ..)
      · exact ht
    · exact ht

theorem takeReply_keepsBounds (res : SlotResult) : s.keepsBounds (s.takeReply c res) := by
  unfold State.takeReply
  extract_lets r
  split
  · exact identSlot_keepsBounds ..
  · exact camFaultCode_keepsBounds ..
  · exact camFaultCode_keepsBounds ..
  · exact testSlot_keepsBounds ..
  · split
    · exact camFault_keepsBounds ..
    · exact camFaultCode_keepsBounds ..
  · exact .refl s

theorem countSlot_keepsBounds (res : SlotResult) : s.keepsBounds (s.countSlot c res) := by
  unfold State.countSlot
  extract_lets r
  split
  · exact setCam_keepsBounds ..
  · exact .refl s

theorem slotResult_keepsBounds (res : SlotResult) : s.keepsBounds (s.slotResult c res) := by
  unfold State.slotResult
  split
  · exact camLost_keepsBounds ..
  · extract_lets t settled u
    have hu : s.keepsBounds u := (countSlot_keepsBounds s c res).trans (settleCommand_keepsBounds t c res)
    split
    · exact hu
    · exact hu.trans (takeReply_keepsBounds u c res)

theorem afterSlot_keepsBounds : s.keepsBounds (s.afterSlot c) := by
  unfold State.afterSlot
  extract_lets _ t
  have ht : s.keepsBounds t := withChain_keepsBounds s id
  split
  · exact (ht.trans (breakTest_keepsBounds t)).trans (chainSettle_keepsBounds _)
  · exact ht.trans (chainSettle_keepsBounds t)

theorem endSlot_keepsBounds (res : SlotResult) : s.keepsBounds (s.endSlot c res) := by
  unfold State.endSlot
  split
  · rename_i i _
    split
    · exact ((keepsBounds_of_tables (runTo_tables s _)).trans (slotResult_keepsBounds _ c res)).trans
        (afterSlot_keepsBounds _ c)
    · exact .refl s
  · exact .refl s

theorem restartCamera_keepsBounds (p : Port) : s.keepsBounds (s.restartCamera p c) :=
  (setCam_keepsBounds ..).trans (enqueue_keepsBounds ..)

/-! ### A strobe -/

theorem streamStarts_keepsBounds : s.keepsBounds s.streamStarts := by
  refine foldl_keepsBounds (fun t c => ?_) _ s
  extract_lets r
  split
  · exact setCam_keepsBounds ..
  · exact .refl t

theorem sendCommand_length_le {x : Chain} (h : x.queue.length ≤ 8) : x.sendCommand.queue.length ≤ 8 := by
  unfold Chain.sendCommand
  split
  · exact h
  · rename_i e rest hqueue
    have hrest : rest.length + 1 ≤ 8 := by simpa [hqueue] using h
    extract_lets sent y
    split
    · split
      · exact enqueue_length_le y _ (Nat.le_of_succ_le hrest)
      · exact Nat.le_of_succ_le hrest
    · exact hrest

theorem sendStrobe_keepsBounds : s.keepsBounds s.sendStrobe := by
  refine (streamStarts_keepsBounds s).trans (withPipe_keepsBounds _ _ (fun h => ?_) (fun i h => ?_)
    (strobe_keepsTable ..))
  · exact sendCommand_length_le h
  · rwa [Quad.get_map]

end chain

end Sys2Proof.Machine
end

section
/-! SUPPORT. Standby entry, wakes, the reverse line and the compositions keep the bounds. -/

namespace Sys2Proof.Machine

/-! ### Standby entry -/

theorem exists_camera_idx (i : Fin 4) : ∃ c : Camera, c.idx = i :=
  match i with
  | 0 => ⟨.fl, rfl⟩
  | 1 => ⟨.fr, rfl⟩
  | 2 => ⟨.rr, rfl⟩
  | 3 => ⟨.rl, rfl⟩

/-- Standby entry leaves every table empty but the gains, and no wait (R23, R45, R70, R185). -/
theorem enterStandby_keepsBounds {s : State} (hidle : s.composer = none) : s.keepsBounds s.enterStandby := by
  obtain ⟨hpower, -, -, -, hchain, -, hlane, -, hcapture, -, hrest, -⟩ := enterStandby_sleepsTo s
  generalize s.enterStandby = t at *
  have hgains : t.balance = s.balance := by rw [hrest]
  have hcomposer : t.composer = none := by rw [hrest]; exact hidle
  refine ⟨⟨fun hs => ?_, fun hs => ?_, fun hs => ?_, fun hs => ?_⟩, fun hs => ?_⟩
  · rwa [State.gainsOk, hgains]
  · rw [queuesOk_iff]
    refine ⟨fun i => ?_, by rw [hchain]; exact Nat.zero_le _⟩
    obtain ⟨c, rfl⟩ := exists_camera_idx i
    have hbuffer : (t.lanes.get c.idx).buffer = [] := (hlane c).1
    rw [hbuffer]
    exact Nat.zero_le _
  · rw [setsOk_iff, hcomposer, hcapture]
    exact clear_tableOk s.capture
  · rw [State.openOk, hcapture]
    exact clear_opens s.capture
  · rw [waitOk_iff, hpower]
    exact fun h => nomatch h

/-- An entry that is due is taken, so that no wait lasts with the Composer IDLE (R185, log 14). -/
theorem takeEntry_waitOk (s : State) : s.takeEntry.waitOk := by
  rcases takeEntry_cases s with ⟨-, -, hpower, -⟩ | ⟨hstays, h⟩
  · rw [waitOk_iff, hpower]
    exact fun h => nomatch h
  · rw [h]
    exact fun he hidle => hstays ⟨he, hidle⟩

/-- After an operation that keeps the tables, an entry taken where it is due keeps the bounds. -/
theorem takeEntry_keepsBounds {s t : State} (h : s.keepsTables t) : s.keepsBounds t.takeEntry := by
  refine ⟨h.trans ?_, fun _ => takeEntry_waitOk t⟩
  unfold State.takeEntry
  split
  · rename_i hdue
    exact (enterStandby_keepsBounds hdue.2).tokeepsTables
  · exact (State.keepsBounds.refl t).tokeepsTables

theorem beginEntry_keepsBounds (s : State) : s.keepsBounds s.beginEntry :=
  takeEntry_keepsBounds ⟨id, id, id, id⟩

/-! ### Wakes and the reverse line -/

theorem activate_tables (s : State) : s.activate.tables = s.tables := tables_of_sansLeases (activate_sansLeases s)

theorem inactivate_tables (s : State) : s.inactivate.tables = s.tables := tables_of_sansLeases (inactivate_sansLeases s)

theorem handLevel_tables (s : State) : s.handLevel.tables = s.tables := by
  unfold State.handLevel
  split
  · exact activate_tables s
  · rfl

theorem enterRun_keepsBounds (s : State) : s.keepsBounds s.enterRun := by
  unfold State.enterRun
  generalize hu : State.raiseBoth _ _ = u
  have hs : u.tables = s.tables := hu ▸ tables_withPower s rfl
  have hpowered : u.handLevel.keepsBounds u.handLevel.camerasOn := withChain_keepsBounds _ id
  exact (keepsBounds_of_tables ((handLevel_tables u).trans hs)).trans (hpowered.trans (sendStrobe_keepsBounds _))

theorem wakeEvent_keepsBounds (s : State) : s.keepsBounds s.wakeEvent := by
  unfold State.wakeEvent
  split
  · exact enterRun_keepsBounds s
  · split
    · exact ⟨⟨id, id, id, id⟩, fun _ h => nomatch h⟩
    · exact .refl s
  · exact .refl s

theorem levelChange_keepsBounds (s : State) : s.keepsBounds s.levelChange := by
  have hwoken : ∀ (t : State) (active : Bool), t.keepsBounds (t.lineWoken active) := by
    intro t active
    unfold State.lineWoken
    split
    · exact wakeEvent_keepsBounds t
    · exact .refl t
  have htold : ∀ (t : State) (active : Bool), t.keepsBounds (t.lineTold active) := by
    intro t active
    refine keepsBounds_of_tables ((tables_withPower _ rfl).trans ?_)
    split
    · exact activate_tables t
    · exact inactivate_tables t
  have hleveled : s.keepsBounds s.leveled := keepsBounds_of_tables (tables_withPower s rfl)
  rw [levelChange_eq]
  split
  · exact hleveled
  · exact hleveled.trans (hwoken ..)
  · exact hleveled.trans ((htold ..).trans (hwoken ..))

/-! ### The gains -/

/-- Gains at 256 are within bounds. -/
theorem gains_all : ∀ g ∈ (Quad.all 256 : Quad Nat).toList, 128 ≤ g ∧ g ≤ 512 := by decide

theorem clampGain_bounds (x : Int) : 128 ≤ clampGain x ∧ clampGain x ≤ 512 := by
  unfold clampGain
  omega

/-- A gain after an update is the old one or a clamped one (R139, R143). -/
theorem camReport_gain_bounds (x : Balance) (sources : Quad Source) (seams : Quad SeamAcc) (c : Camera) {old : Nat}
    (h : 128 ≤ old ∧ old ≤ 512) :
    128 ≤ (x.camReport sources seams c).gain old ∧ (x.camReport sources seams c).gain old ≤ 512 := by
  unfold Balance.camReport
  extract_lets ps r d
  split_ifs
  · exact h
  · exact h
  · exact h
  · exact clampGain_bounds _

theorem update_gains (x : Balance) (frame : Nat) (sources : Quad Source) (seams : Quad SeamAcc)
    (h : ∀ g ∈ x.gains.toList, 128 ≤ g ∧ g ≤ 512) :
    ∀ g ∈ (x.update frame sources seams).gains.toList, 128 ≤ g ∧ g ≤ 512 := by
  unfold Balance.update
  split
  · simp only [Quad.toList, List.forall_mem_cons] at h ⊢
    obtain ⟨ha, hb, hc, hd, hnil⟩ := h
    exact ⟨camReport_gain_bounds x _ _ _ ha, camReport_gain_bounds x _ _ _ hb, camReport_gain_bounds x _ _ _ hc,
      camReport_gain_bounds x _ _ _ hd, hnil⟩
  · exact h

theorem configure_gains (x : Balance) (enable : Bool) (anchor : Camera) (step : Nat)
    (h : ∀ g ∈ x.gains.toList, 128 ≤ g ∧ g ≤ 512) :
    ∀ g ∈ (x.configure enable anchor step).gains.toList, 128 ≤ g ∧ g ≤ 512 := by
  unfold Balance.configure
  dsimp only
  split_ifs
  · exact h
  · intro g hg
    obtain ⟨i, rfl⟩ := (Quad.mem_toList _ _).1 hg
    rw [Quad.get_set]
    split
    · omega
    · exact h _ ((Quad.mem_toList _ _).2 ⟨i, rfl⟩)
  · exact gains_all

/-- Gains replaced by ones within bounds. -/
theorem withBalance_keepsBounds (s : State) {x : Balance}
    (h : s.gainsOk → ∀ g ∈ x.gains.toList, 128 ≤ g ∧ g ≤ 512) : s.keepsBounds { s with balance := x } :=
  ⟨⟨h, id, id, id⟩, id⟩

/-! ### Compositions -/

/-- A composition starts on the newest CLOSED set, with none in flight and no standby wait (R63, R115). -/
theorem startComposition_keepsBounds {s : State} {st : CaptureSet} {newer : List CaptureSet}
    (hset : newestClosed s.capture.sets = some (st, newer)) (hidle : s.composer = none) :
    s.keepsBounds (s.startComposition st newer) := by
  let u : State := { s with capture := s.capture.startComposition st newer }
  let x := s.newContext st s.viewHeader
  have hpin : (u.showView.pinFor x).tables = u.tables := by
    obtain ⟨slots, plans, h⟩ := pinFor_frame u.showView x
    rw [h]
    exact (tables_of_sansLeases (showView_sansLeases u) : u.showView.tables = u.tables)
  have hbegun : (s.startComposition st newer).tables = ({ u with composer := some x } : State).tables := by
    refine (beginRow_tables _ x).trans ?_
    simp only [State.tables, Prod.mk.injEq] at hpin ⊢
    tauto
  have hstarted : s.keepsBounds { u with composer := some x } := by
    refine ⟨⟨id, id, fun hs => ?_, startComposition_opens hset⟩, fun _ _ h => nomatch h⟩
    rw [setsOk_iff, hidle] at hs
    exact startComposition_tableOk hset hs
  exact hstarted.trans (keepsBounds_of_tables hbegun)

/-- A composition released retires its set (R64). -/
theorem releaseComposition_keepsTables (s : State) (x : Context) : s.keepsTables (s.releaseComposition x) := by
  obtain ⟨⟨plans, h⟩, -⟩ := releaseComposition_frame s x
  rw [h]
  exact ⟨id, id, endComposition_tableOk, endComposition_opens⟩

/-- A record appended for the composition, and the composition released. -/
theorem appendRelease_keepsTables (s : State) (x : Context) (n : Nat) (ab : Bool) :
    s.keepsTables ((s.appendRecord x n ab).releaseComposition x) :=
  (keepsBounds_of_tables (appendRecord_tables s x n ab)).tokeepsTables.trans (releaseComposition_keepsTables _ x)

theorem completeComposition_keepsTables (s : State) (x : Context) : s.keepsTables (s.completeComposition x) :=
  (withBalance_keepsBounds s (update_gains s.balance x.frame x.sources x.seams)).tokeepsTables.trans
    (appendRelease_keepsTables _ x _ _)

theorem abortComposition_keepsTables (s : State) : s.keepsTables s.abortComposition := by
  unfold State.abortComposition
  split
  · exact (State.keepsBounds.refl s).tokeepsTables
  · rename_i x _
    extract_lets t
    have ht : s.keepsBounds t := keepsBounds_of_tables rfl
    exact ht.tokeepsTables.trans (appendRelease_keepsTables t x _ _)

/-- No composition is in flight after an abort. -/
theorem abortComposition_composer (s : State) : s.abortComposition.composer = none := by
  cases hx : s.composer with
  | none => rw [State.abortComposition, hx]; exact hx
  | some x =>
    obtain ⟨⟨pp, pl, h⟩, -⟩ := abortComposition_spec s x hx
    rw [h]

theorem rowDrawn_keepsBounds {s : State} {x : Context} (hx : s.composer = some x) (y : Context) :
    s.keepsBounds (s.rowDrawn y) := by
  unfold State.rowDrawn
  extract_lets t
  have ht : s.keepsBounds t := keepsBounds_of_tables rfl
  split
  · exact takeEntry_keepsBounds (ht.tokeepsTables.trans (completeComposition_keepsTables t y))
  · exact ht.trans (keepsBounds_of_tables ((beginRow_tables t _).trans (tables_withComposer (s := t) hx _)))

theorem drawTile_keepsBounds {s : State} {x : Context} (hx : s.composer = some x) : s.keepsBounds (s.drawTile x) := by
  unfold State.drawTile
  extract_lets drawn y t
  have ht : s.keepsBounds t := keepsBounds_of_tables rfl
  split
  · exact ht.trans (keepsBounds_of_tables ((beginTile_tables t _).trans (tables_withComposer (s := t) hx _)))
  · exact ht.trans (rowDrawn_keepsBounds (s := t) hx y)

end Sys2Proof.Machine
end

section
/-! PROOFS. Every command keeps the tables within bounds, block by block, and so does every step. -/

namespace Sys2Proof.Machine

/-- Wherever a command goes on to, the bounds are kept. -/
def State.boundedly (s : State) (o : Host.Outcome State Fault Refusal) : Prop := ∀ t, o = .next t → s.keepsBounds t

theorem boundedly_next {s t : State} (h : s.keepsBounds t) : s.boundedly (.next t) := by
  rintro _ ⟨⟩
  exact h

theorem boundedly_tables {s t : State} (h : t.tables = s.tables) : s.boundedly (.next t) :=
  boundedly_next (keepsBounds_of_tables h)

theorem boundedly_stay (s : State) : s.boundedly (.next s) := boundedly_next (.refl s)

/-- Time runs on to the command's due time before its effect. -/
theorem keepsBounds_runTo {s t : State} {due : Nat} (h : (s.runTo due).keepsBounds t) : s.keepsBounds t :=
  .trans (keepsBounds_of_tables (runTo_tables s due)) h

/-- A request is bounded whose rule keeps the bounds of the state in which it is taken. -/
theorem boundedly_serve {s : State} {p : Port} {k : RequestKind} {body : List Byte → State → State}
    (h : ∀ (bs : List Byte) (t : State), t.keepsBounds (body bs t)) : s.boundedly (.next (s.serve p k body)) := by
  obtain e | ⟨r, rest, -, e⟩ := serve_cases s p k body
  · rw [e]
    exact boundedly_stay s
  · rw [e]
    exact boundedly_next (.trans (keepsBounds_of_tables (taken_tables s p r rest)) (h _ _))

theorem boundedly_serve_tables {s : State} {p : Port} {k : RequestKind} {body : List Byte → State → State}
    (h : ∀ bs t, (body bs t).tables = t.tables) : s.boundedly (.next (s.serve p k body)) :=
  boundedly_tables (serve_tables s p k h)

/-- An answer keeps what the state it is given of keeps. -/
theorem answer_keepsBounds {s t : State} (p : Port) (c : Code) (bs : List Byte) (h : s.keepsBounds t) :
    s.keepsBounds (t.answer p c bs) := h.trans (keepsBounds_of_tables (answer_tables t p c bs))

theorem refuse_keepsBounds (s : State) (p : Port) (c : Code) : s.keepsBounds (s.refuse p c) :=
  answer_keepsBounds p c [] (.refl s)

theorem tables_ite {c : Prop} [Decidable c] {a b t : State} (ha : a.tables = t.tables) (hb : b.tables = t.tables) :
    (if c then a else b).tables = t.tables := by
  split
  · exact ha
  · exact hb

/-! ### The chain, the lanes and the capture sets -/

theorem execStrobe_boundedly (s : State) : s.boundedly (execStrobe s) := by
  unfold execStrobe
  split
  · split
    · exact boundedly_next (keepsBounds_runTo ((sendStrobe_keepsBounds _).trans (chainSettle_keepsBounds _)))
    · exact boundedly_stay s
  · exact boundedly_stay s

theorem execCameraLost_boundedly (c : Camera) (s : State) : s.boundedly (execCameraLost c s) := by
  unfold execCameraLost
  split
  · exact boundedly_next (endSlot_keepsBounds s c _)
  · exact boundedly_stay s

theorem execIdentTimeout_boundedly (c : Camera) (reply : Option (BitVec 14)) (s : State) :
    s.boundedly (execIdentTimeout c reply s) := by
  unfold execIdentTimeout
  split
  · split
    · exact boundedly_next (endSlot_keepsBounds s c _)
    · exact boundedly_stay s
  · exact boundedly_stay s

theorem execSettleTimerExpiry_boundedly (s : State) : s.boundedly (execSettleTimerExpiry s) := by
  unfold execSettleTimerExpiry
  split
  · rename_i due _
    extract_lets u
    have hu : (s.runTo due).keepsBounds u := (enqueue_keepsBounds ..).trans (unaddressAll_keepsBounds _)
    exact boundedly_next (keepsBounds_runTo (hu.trans (withChain_keepsBounds u id)))
  · exact boundedly_stay s

theorem execTestTimerExpiry_boundedly (c : Camera) (s : State) : s.boundedly (execTestTimerExpiry c s) := by
  unfold execTestTimerExpiry
  split
  · extract_lets t
    split
    · exact boundedly_tables (runTo_tables s _)
    · exact boundedly_next (keepsBounds_runTo ((camFault_keepsBounds t c _).trans (chainSettle_keepsBounds _)))
  · exact boundedly_stay s

/-- A packet joins a buffer of fewer than two lines alone (R30). -/
theorem execPacketArrival_boundedly (c : Camera) (how : PacketEnd) (bytes : List Byte) (s : State) :
    s.boundedly (execPacketArrival c how bytes s) := by
  unfold execPacketArrival
  extract_lets ln
  split
  · rename_i hroom
    refine boundedly_next (setLane_keepsBounds s c fun _ => ?_)
    rw [List.length_append, List.length_singleton]
    exact hroom
  · refine boundedly_next (.trans ?_ (reportError_keepsBounds _ c))
    exact setLane_keepsBounds s c id

theorem execLineConsume_boundedly (c : Camera) (s : State) : s.boundedly (execLineConsume c s) := by
  unfold execLineConsume
  split
  · exact boundedly_next ((reportError_keepsBounds s c).trans (dropLine_keepsBounds _ c _))
  · exact boundedly_next (assess_keepsBounds ..)
  · exact boundedly_next (beginFrame_keepsBounds ..)
  · exact boundedly_stay s

theorem execLineWriteComplete_boundedly (c : Camera) (s : State) : s.boundedly (execLineWriteComplete c s) := by
  unfold execLineWriteComplete
  extract_lets ln
  split
  · rename_i n payload _ _ f _ _
    extract_lets g t
    have ht : s.keepsBounds t := withLane_keepsBounds s c s.arb tail_length_le (report_keepsTable ..)
    split
    · exact boundedly_next (ht.trans (finaliseFrame_keepsBounds t c g _))
    · exact boundedly_next ht
  · exact boundedly_stay s

theorem execFrameAbandon_boundedly (c : Camera) (s : State) : s.boundedly (execFrameAbandon c s) := by
  unfold execFrameAbandon
  extract_lets ln
  split
  · exact boundedly_next (keepsBounds_runTo ((takeTail_keepsBounds _ c _ _).trans (grant_keepsBounds _)))
  · exact boundedly_stay s

theorem execAbandonRepairsComplete_boundedly (c : Camera) (s : State) :
    s.boundedly (execAbandonRepairsComplete c s) := by
  unfold execAbandonRepairsComplete
  extract_lets ln
  split
  · refine boundedly_next (.trans ?_ (finaliseFrame_keepsBounds _ c _ _))
    exact setLane_keepsBounds s c id
  · exact boundedly_stay s

theorem execWindowExpiry_boundedly (tag : Tag) (s : State) : s.boundedly (execWindowExpiry tag s) := by
  unfold execWindowExpiry
  split
  · split
    · extract_lets t
      exact boundedly_next (keepsBounds_runTo (withCapture_keepsBounds t (expire_keepsTable ..)))
    · exact boundedly_stay s
  · exact boundedly_stay s

/-! ### The Composer, the View Lane and the Arbiter -/

theorem execCompositionStart_boundedly (s : State) : s.boundedly (execCompositionStart s) := by
  unfold execCompositionStart
  split
  · rename_i st newer hset
    split
    · rename_i hmay
      exact boundedly_next (startComposition_keepsBounds hset ((mayStart_iff s).1 hmay).1)
    · exact boundedly_stay s
  · exact boundedly_stay s

theorem execMeshReadComplete_boundedly (s : State) : s.boundedly (execMeshReadComplete s) := by
  unfold execMeshReadComplete
  split
  · rename_i x hx
    split
    · split
      · extract_lets y
        split
        · exact boundedly_tables ((handBox_tables ..).trans (tables_withComposer hx y))
        · exact boundedly_tables ((areaFetched_tables ..).trans (tables_withComposer hx y))
      · exact boundedly_stay s
    · exact boundedly_stay s
  · exact boundedly_stay s

theorem execFetchingEnd_boundedly (s : State) : s.boundedly (execFetchingEnd s) := by
  unfold execFetchingEnd
  split
  · rename_i x hx
    split
    · exact boundedly_tables (tables_withComposer hx _)
    · exact boundedly_stay s
  · exact boundedly_stay s

theorem execTileDrawn_boundedly (s : State) : s.boundedly (execTileDrawn s) := by
  unfold execTileDrawn
  split
  · rename_i x hx
    split
    · exact boundedly_next (drawTile_keepsBounds hx)
    · exact boundedly_stay s
  · exact boundedly_stay s

theorem burstDone_keepsBounds (s : State) (b : Burst) : s.keepsBounds (s.burstDone b) := by
  cases b with
  | lane c addr data withdrawn =>
    cases withdrawn
    · have hwritten : s.keepsBounds { s with mem := s.mem.writeBytes addr data } := keepsBounds_of_tables rfl
      exact hwritten.trans (laneBurstDone_keepsBounds _ c)
    · exact .refl s
  | pool b => exact keepsBounds_of_tables (poolBurstDone_tables s b)
  | fetch addr withdrawn =>
    cases withdrawn
    · exact keepsBounds_of_tables (fetchBurstDone_tables s addr)
    · exact .refl s

theorem execBurstDone_boundedly (s : State) : s.boundedly (execBurstDone s) := by
  unfold execBurstDone
  split
  · have hfree : s.keepsBounds { s with arb := { s.arb with inFlight := none } } := keepsBounds_of_tables rfl
    exact boundedly_next (hfree.trans ((burstDone_keepsBounds _ _).trans (grant_keepsBounds _)))
  · exact boundedly_stay s

theorem execViewFrameStart_boundedly (s : State) : s.boundedly (execViewFrameStart s) := by
  unfold execViewFrameStart
  split
  · extract_lets t
    exact boundedly_tables ((tables_others t ..).trans (runTo_tables s _))
  · exact boundedly_stay s

theorem execLineDue_boundedly (s : State) : s.boundedly (execLineDue s) := by
  unfold execLineDue
  split
  · extract_lets n a b
    split
    · have hb : b.tables = a.tables := tables_ite (leaveBuffer_tables ..) rfl
      exact boundedly_tables hb
    · exact boundedly_stay s
  · exact boundedly_stay s

theorem execViewFrameEnd_boundedly (s : State) : s.boundedly (execViewFrameEnd s) := by
  unfold execViewFrameEnd
  split
  · split
    · extract_lets a b
      have hb : b.tables = a.tables := leaveBuffer_tables ..
      exact boundedly_tables hb
    · exact boundedly_stay s
  · exact boundedly_stay s

/-! ### The Plan Store -/

theorem execVerifyMeshRead_boundedly (s : State) : s.boundedly (execVerifyMeshRead s) := by
  unfold execVerifyMeshRead
  split
  · split
    · exact boundedly_tables (walkOn_tables ..)
    · exact boundedly_stay s
  · exact boundedly_stay s

theorem execPlanAbandoned_boundedly (id : PlanId) (s : State) : s.boundedly (execPlanAbandoned id s) := by
  unfold execPlanAbandoned
  split
  · exact boundedly_tables ((setHold_tables ..).trans (runTo_tables ..))
  · exact boundedly_stay s

theorem execPlanOpen_boundedly (p : Port) (s : State) : s.boundedly (execPlanOpen p s) := by
  refine boundedly_serve_tables fun bs t => Eq.trans ?_ (touchPlan_tables t p bs)
  dsimp only
  generalize t.touchPlan p bs = u
  split
  · exact refuse_tables ..
  · split_ifs
    · exact refuse_tables ..
    · exact refuse_tables ..
    · exact refuse_tables ..
    · exact refuse_tables ..
    · split
      · exact refuse_tables ..
      · exact answer_tables ..

theorem execPlanTiles_boundedly (p : Port) (s : State) : s.boundedly (execPlanTiles p s) := by
  refine boundedly_serve_tables fun bs t => Eq.trans ?_ (touchPlan_tables t p bs)
  dsimp only
  generalize t.touchPlan p bs = u
  refine tables_ite (refuse_tables ..) ?_
  split
  · exact refuse_tables ..
  · refine tables_ite (refuse_tables ..) ?_
    split
    · exact tables_ite (refuse_tables ..) (answer_tables ..)
    · exact refuse_tables ..

theorem execPlanMeshes_boundedly (p : Port) (s : State) : s.boundedly (execPlanMeshes p s) := by
  refine boundedly_serve_tables fun bs t => Eq.trans ?_ (touchPlan_tables t p bs)
  dsimp only
  generalize t.touchPlan p bs = u
  refine tables_ite (refuse_tables ..) ?_
  split
  · exact refuse_tables ..
  · refine tables_ite (refuse_tables ..) ?_
    split
    · exact tables_ite (refuse_tables ..) (grant_tables _)
    · exact refuse_tables ..

theorem execPlanVerify_boundedly (p : Port) (s : State) : s.boundedly (execPlanVerify p s) := by
  refine boundedly_serve_tables fun bs t => Eq.trans ?_ (touchPlan_tables t p bs)
  dsimp only
  generalize t.touchPlan p bs = u
  split
  · exact refuse_tables ..
  · split
    · exact tables_ite (refuse_tables ..) (tables_ite (refuse_tables ..) (walkOn_tables ..))
    · exact refuse_tables ..

theorem execPlanDiscard_boundedly (p : Port) (s : State) : s.boundedly (execPlanDiscard p s) := by
  refine boundedly_serve_tables fun bs t => Eq.trans ?_ (touchPlan_tables t p bs)
  dsimp only
  generalize t.touchPlan p bs = u
  split
  · exact refuse_tables ..
  · exact tables_ite (refuse_tables ..) (tables_ite (refuse_tables ..)
      (tables_ite (refuse_tables ..) (answer_tables ..)))

theorem execPlanRead_boundedly (p : Port) (s : State) : s.boundedly (execPlanRead p s) := by
  refine boundedly_serve_tables fun bs t => Eq.trans ?_ (touchPlan_tables t p bs)
  dsimp only
  generalize t.touchPlan p bs = u
  split
  · exact refuse_tables ..
  · split
    · exact answer_tables ..
    · refine tables_ite (refuse_tables ..) ?_
      split
      · exact refuse_tables ..
      · exact answer_tables ..
    · refine tables_ite (refuse_tables ..) ?_
      split
      · exact refuse_tables ..
      · exact grant_tables _
    · exact refuse_tables ..

/-! ### Leases and power -/

theorem execLeaseExpiry_boundedly (handle : Nat) (s : State) : s.boundedly (execLeaseExpiry handle s) := by
  unfold execLeaseExpiry
  split
  · split
    · exact boundedly_tables ((tables_of_sansLeases (raiseLease_sansLeases ..)).trans rfl)
    · exact boundedly_stay s
  · exact boundedly_stay s

theorem execStartingEnd_boundedly (s : State) : s.boundedly (execStartingEnd s) := by
  unfold execStartingEnd
  split
  · exact boundedly_next (enterRun_keepsBounds s)
  · exact boundedly_stay s

theorem execIdleTimerExpiry_boundedly (s : State) : s.boundedly (execIdleTimerExpiry s) := by
  unfold execIdleTimerExpiry
  split
  · rename_i r _
    split
    · exact boundedly_next (.trans (keepsBounds_of_tables (elapse_tables s r)) (beginEntry_keepsBounds _))
    · exact boundedly_stay s
  · exact boundedly_stay s

theorem execReverseLevelChange_boundedly (s : State) : s.boundedly (execReverseLevelChange s) := by
  unfold execReverseLevelChange
  split
  · exact boundedly_next (levelChange_keepsBounds s)
  · exact boundedly_stay s

theorem execReverseLineSample_boundedly (active : Bool) (s : State) : s.boundedly (execReverseLineSample active s) := by
  unfold execReverseLineSample
  extract_lets t u
  have hu : t.keepsBounds u := by
    change t.keepsBounds (if _ then _ else _)
    split
    · exact levelChange_keepsBounds t
    · exact .refl t
  exact boundedly_next (keepsBounds_runTo (hu.trans (keepsBounds_of_tables (tables_withPower u rfl))))

theorem execTemperatureSample_boundedly (celsius : Int) (s : State) :
    s.boundedly (execTemperatureSample celsius s) := by
  unfold execTemperatureSample
  extract_lets t new power u
  have hu : u.tables = s.tables := (tables_withPower t rfl).trans (runTo_tables s _)
  exact boundedly_tables (tables_ite hu ((raiseBoth_tables ..).trans hu))

/-- The state after power-on reset is within every bound. -/
theorem execPowerOnReset_boundedly (s : State) : s.boundedly (execPowerOnReset s) := by
  refine boundedly_next ⟨⟨fun _ => gains_all, fun _ => ?_, fun _ => ?_, fun _ => ?_⟩, fun _ h => nomatch h⟩
  · exact (queuesOk_iff _).2 ⟨fun i => by simp [State.reset, Lane.reset], Nat.zero_le _⟩
  · exact clear_tableOk Capture.reset
  · exact clear_opens Capture.reset

/-! ### Requests of the ports, the settings, the leases and the power states -/

theorem execUnknownRequest_boundedly (p : Port) (s : State) : s.boundedly (execUnknownRequest p s) := by
  unfold execUnknownRequest
  split
  · split
    · exact boundedly_tables (refuse_tables ..)
    · exact boundedly_stay s
  · exact boundedly_stay s

theorem execSelectStart_boundedly (p : Port) (s : State) : s.boundedly (execSelectStart p s) := by
  unfold execSelectStart
  split
  · exact boundedly_tables (onPort_tables ..)
  · exact boundedly_stay s

theorem execRequestArrival_boundedly (p : Port) (bytes : List Byte) (s : State) :
    s.boundedly (execRequestArrival p bytes s) := by
  unfold execRequestArrival
  split
  · split
    · exact boundedly_stay s
    · exact boundedly_tables (onPort_tables ..)
  · exact boundedly_stay s

theorem execAnswerShiftedOut_boundedly (p : Port) (s : State) : s.boundedly (execAnswerShiftedOut p s) := by
  unfold execAnswerShiftedOut
  split
  · split
    · exact boundedly_stay s
    · exact boundedly_tables (onPort_tables ..)
  · exact boundedly_stay s

theorem execChainRebuild_boundedly (p : Port) (s : State) : s.boundedly (execChainRebuild p s) := by
  refine boundedly_serve fun bs t => ?_
  split_ifs
  · exact refuse_keepsBounds t p _
  · exact refuse_keepsBounds t p _
  · exact answer_keepsBounds p _ _ (rebuild_keepsBounds t)

theorem execCameraRestart_boundedly (p : Port) (s : State) : s.boundedly (execCameraRestart p s) := by
  refine boundedly_serve fun bs t => ?_
  split
  · exact refuse_keepsBounds t p _
  · split_ifs
    · exact refuse_keepsBounds t p _
    · exact refuse_keepsBounds t p _
    · exact refuse_keepsBounds t p _
    · exact refuse_keepsBounds t p _
    · exact answer_keepsBounds p _ _ (restartCamera_keepsBounds t _ p)

/-- The settings accepted leave the gains within bounds (R145). -/
theorem execBalanceSet_boundedly (p : Port) (s : State) : s.boundedly (execBalanceSet p s) := by
  refine boundedly_serve fun bs t => ?_
  dsimp only
  split
  · split
    · exact refuse_keepsBounds t p _
    · exact answer_keepsBounds p _ _ (withBalance_keepsBounds t (configure_gains t.balance _ _ _))
  · exact refuse_keepsBounds t p _

theorem execViewClaim_boundedly (p : Port) (s : State) : s.boundedly (execViewClaim p s) := by
  refine boundedly_serve fun bs t => ?_
  split
  · exact refuse_keepsBounds t p _
  · extract_lets d a b
    have ha : t.keepsBounds a := keepsBounds_of_tables rfl
    have hb : a.keepsBounds b := by
      change a.keepsBounds (if _ then _ else _)
      split
      · exact wakeEvent_keepsBounds a
      · exact .refl a
    exact answer_keepsBounds p _ _ (ha.trans hb)

theorem execViewsSet_boundedly (p : Port) (s : State) : s.boundedly (execViewsSet p s) := by
  refine boundedly_serve_tables fun bs t => ?_
  split
  · exact tables_ite (refuse_tables ..) (tables_ite (refuse_tables ..)
      ((answer_tables ..).trans (tables_of_sansLeases (setViews_sansLeases t _))))
  · exact refuse_tables ..

theorem execStandby_boundedly (p : Port) (s : State) : s.boundedly (execStandby p s) := by
  refine boundedly_serve fun bs t => ?_
  split_ifs
  · exact refuse_keepsBounds t p _
  · exact answer_keepsBounds p _ _ (.refl t)
  · exact refuse_keepsBounds t p _
  · exact (answer_keepsBounds p _ _ (.refl t)).trans (beginEntry_keepsBounds _)

/-- The abort, the pipeline cleared and the answer, and then an entry that waited for the composition (R192). -/
theorem execPipelineRestart_boundedly (p : Port) (s : State) : s.boundedly (execPipelineRestart p s) := by
  refine boundedly_serve fun bs t => ?_
  split
  · exact refuse_keepsBounds t p _
  · extract_lets a
    have hidle : a.composer = none := abortComposition_composer t
    have hrestarted : t.abortComposition.keepsTables
        { a with capture := a.capture.clear, balance := a.balance.unity } := by
      refine ⟨fun _ => gains_all, fun hs => ?_, fun _ => ?_, fun _ => clear_opens _⟩
      · rw [queuesOk_iff] at hs ⊢
        exact ⟨fun i => by simp [a, State.restartLanes, Lane.reset], hs.2⟩
      · rw [setsOk_iff, hidle]
        exact clear_tableOk _
    exact takeEntry_keepsBounds (((abortComposition_keepsTables t).trans hrestarted).trans
      (keepsBounds_of_tables (answer_tables ..)).tokeepsTables)

/-! ### Every command, and the step -/

theorem exec_boundedly (i : Instr) (s : State) : s.boundedly (exec i s) := by
  cases i with
  | powerOnReset => exact execPowerOnReset_boundedly s
  | startingEnd => exact execStartingEnd_boundedly s
  | selectStart p => exact execSelectStart_boundedly p s
  | requestArrival p bytes => exact execRequestArrival_boundedly p bytes s
  | selectEnd p => exact boundedly_tables (onPort_tables ..)
  | answerShiftedOut p => exact execAnswerShiftedOut_boundedly p s
  | unknownRequest p => exact execUnknownRequest_boundedly p s
  | echo p => exact boundedly_serve_tables fun bs t => answer_tables ..
  | statusRead p => exact boundedly_serve_tables fun bs t => answer_tables ..
  | noticeEnable p => exact boundedly_serve_tables fun bs t => tables_ite (refuse_tables ..) (answer_tables ..)
  | noticeTake p => exact boundedly_serve_tables fun bs t => tables_ite (refuse_tables ..) (answer_tables ..)
  | chainRebuild p => exact execChainRebuild_boundedly p s
  | cameraRead p =>
    refine boundedly_serve_tables fun bs t => ?_
    split
    · exact answer_tables ..
    · exact refuse_tables ..
  | cameraRestart p => exact execCameraRestart_boundedly p s
  | chainSet p =>
    refine boundedly_serve_tables fun bs t => ?_
    split
    · exact answer_tables ..
    · exact answer_tables ..
    · exact refuse_tables ..
  | timingSet p => exact boundedly_serve_tables fun bs t => tables_ite (answer_tables ..) (refuse_tables ..)
  | captureRead p =>
    refine boundedly_serve_tables fun bs t => ?_
    split
    · exact answer_tables ..
    · exact answer_tables ..
    · exact answer_tables ..
    · exact refuse_tables ..
  | planOpen p => exact execPlanOpen_boundedly p s
  | planTiles p => exact execPlanTiles_boundedly p s
  | planMeshes p => exact execPlanMeshes_boundedly p s
  | planVerify p => exact execPlanVerify_boundedly p s
  | planDiscard p => exact execPlanDiscard_boundedly p s
  | planRead p => exact execPlanRead_boundedly p s
  | poolRead p => exact boundedly_serve_tables fun bs t => answer_tables ..
  | viewClaim p => exact execViewClaim_boundedly p s
  | viewRenew p =>
    refine boundedly_serve_tables fun bs t => ?_
    split
    · exact refuse_tables ..
    · exact answer_tables ..
  | viewRelease p =>
    refine boundedly_serve_tables fun bs t => ?_
    split
    · exact refuse_tables ..
    · exact answer_tables ..
  | viewRead p => exact boundedly_serve_tables fun bs t => answer_tables ..
  | viewsSet p => exact execViewsSet_boundedly p s
  | balanceSet p => exact execBalanceSet_boundedly p s
  | balanceRead p => exact boundedly_serve_tables fun bs t => answer_tables ..
  | outputSet p => exact boundedly_serve_tables fun bs t => tables_ite (refuse_tables ..) (answer_tables ..)
  | recordRead p => exact boundedly_serve_tables fun bs t => tables_ite (refuse_tables ..) (answer_tables ..)
  | recordLatest p =>
    refine boundedly_serve_tables fun bs t => ?_
    split
    · exact answer_tables ..
    · exact answer_tables ..
  | recordRewind p => exact boundedly_serve_tables fun bs t => answer_tables ..
  | rateCap p => exact boundedly_serve_tables fun bs t => tables_ite (refuse_tables ..) (answer_tables ..)
  | standby p => exact execStandby_boundedly p s
  | wake p => exact boundedly_serve fun bs t => answer_keepsBounds p _ _ (wakeEvent_keepsBounds t)
  | powerSet p => exact boundedly_serve_tables fun bs t => tables_ite (refuse_tables ..) (answer_tables ..)
  | pipelineRestart p => exact execPipelineRestart_boundedly p s
  | strobe => exact execStrobe_boundedly s
  | slotEnd c reply => exact boundedly_next (endSlot_keepsBounds s c _)
  | cameraLost c => exact execCameraLost_boundedly c s
  | identTimeout c reply => exact execIdentTimeout_boundedly c reply s
  | settleTimerExpiry => exact execSettleTimerExpiry_boundedly s
  | testTimerExpiry c => exact execTestTimerExpiry_boundedly c s
  | packetArrival lane how bytes => exact execPacketArrival_boundedly lane how bytes s
  | lineConsume lane => exact execLineConsume_boundedly lane s
  | lineWriteComplete lane => exact execLineWriteComplete_boundedly lane s
  | frameAbandon lane => exact execFrameAbandon_boundedly lane s
  | abandonRepairsComplete lane => exact execAbandonRepairsComplete_boundedly lane s
  | windowExpiry tag => exact execWindowExpiry_boundedly tag s
  | compositionStart => exact execCompositionStart_boundedly s
  | meshReadComplete => exact execMeshReadComplete_boundedly s
  | fetchingEnd => exact execFetchingEnd_boundedly s
  | tileDrawn => exact execTileDrawn_boundedly s
  | burstDone => exact execBurstDone_boundedly s
  | verifyMeshRead => exact execVerifyMeshRead_boundedly s
  | planAbandoned plan => exact execPlanAbandoned_boundedly plan s
  | viewFrameStart => exact execViewFrameStart_boundedly s
  | lineDue => exact execLineDue_boundedly s
  | viewFrameEnd => exact execViewFrameEnd_boundedly s
  | leaseExpiry handle => exact execLeaseExpiry_boundedly handle s
  | reverseLineSample active => exact execReverseLineSample_boundedly active s
  | reverseLevelChange => exact execReverseLevelChange_boundedly s
  | idleTimerExpiry => exact execIdleTimerExpiry_boundedly s
  | standbyEntry => exact boundedly_next (takeEntry_keepsBounds ⟨id, id, id, id⟩)
  | temperatureSample celsius => exact execTemperatureSample_boundedly celsius s

/-- A step keeps the bounds: on an empty queue time passes, and every command keeps them. -/
theorem step_keepsBounds {s t : State} (h : step s = .next t) : s.keepsBounds t := by
  unfold step at h
  split at h
  · exact boundedly_tables (elapse_tables s 1) t h
  · rename_i c rest _
    have hpopped : s.keepsBounds { s with pending := rest } := keepsBounds_of_tables rfl
    exact hpopped.trans (exec_boundedly c _ t h)

/-- Settles O58: the tables and the standby wait are kept from any state to the next. -/
theorem everyStepKeepsTablesWithinBounds : Obligations.EveryStepKeepsTablesWithinBounds := by
  intro s t hgains hqueues hsets hwait h
  obtain ⟨⟨gains, queues, sets, opens⟩, wait⟩ := step_keepsBounds h
  exact ⟨gains hgains, queues hqueues, sets hsets, wait hwait, opens⟩

end Sys2Proof.Machine
end

section
/-! SUPPORT and PROOFS. The Balance Unit: rounding, the raw change, the valid pairs of a camera, and the update with its
report (R139 to R144). -/

namespace Sys2Proof.Machine

/-! ### Rounding -/

/-- The size of a rounded fraction is that of its size, rounded. -/
theorem natAbs_roundAway (num : Int) (den : Nat) : (roundAway num den).natAbs = roundDiv num.natAbs den := by
  unfold roundAway
  extract_lets r
  split
  · rw [Int.natAbs_neg]
    rfl
  · rfl

theorem roundAway_nonneg {num : Int} (den : Nat) (h : 0 ≤ num) : 0 ≤ roundAway num den := by
  unfold roundAway
  rw [if_neg (not_lt.2 h)]
  exact Int.natCast_nonneg _

theorem roundAway_nonpos {num : Int} (den : Nat) (h : num ≤ 0) : roundAway num den ≤ 0 := by
  unfold roundAway
  split
  · exact Int.neg_nonpos_of_nonneg (Int.natCast_nonneg _)
  · rename_i hneg
    have hzero : num = 0 := by omega
    rw [hzero, Int.natAbs_zero, Nat.mul_zero, Nat.zero_add, Nat.div_eq_zero_iff.2 (by omega)]
    rfl

/-- A fraction is rounded to the nearest whole number (R143). -/
theorem roundAway_bounds (num : Int) {den : Nat} (h : 0 < den) :
    2 * den * (roundAway num den).natAbs ≤ 2 * num.natAbs + den
      ∧ 2 * num.natAbs + den < 2 * den * ((roundAway num den).natAbs + 1) := by
  rw [natAbs_roundAway]
  exact roundDiv_bounds num.natAbs h

/-- A common factor of a fraction cancels. -/
theorem roundAway_cancel {k : Nat} (hk : 0 < k) (num : Int) (den : Nat) :
    roundAway (num * k) (den * k) = roundAway num den := by
  have hsign : num * k < 0 ↔ num < 0 := by
    rw [Int.mul_neg_iff]
    omega
  have hsize : (2 * (num * k).natAbs + den * k) / (2 * (den * k)) = (2 * num.natAbs + den) / (2 * den) := by
    rw [Int.natAbs_mul, Int.natAbs_natCast, ← Nat.mul_assoc, ← Nat.mul_assoc, ← Nat.add_mul]
    exact Nat.mul_div_mul_right _ _ hk
  simp only [roundAway, hsize, hsign]

/-! ### The raw change -/

/-- With one valid pair the change is 128 × (T − S) / S: its count cancels (R142). -/
theorem rawChange_one (a b : Nat) {n : Nat} (hn : 0 < n) :
    rawChange [(a, b, n)] = roundAway (128 * ((b : Int) - a)) a := by
  have h : rawChange [(a, b, n)] = roundAway (128 * ((b : Int) - a) * n) (a * n) := by
    have hself : (n : Int) / n = 1 := Int.ediv_self (by omega)
    simp [rawChange, hself, Nat.mul_comm]
  rw [h, roundAway_cancel hn]

/-- With two valid pairs the change is the average of both differences over the mean of both own sums (R142). -/
theorem rawChange_two (a b c d : Nat) {n m : Nat} (hn : 0 < n) (hm : 0 < m) :
    rawChange [(a, b, n), (c, d, m)] =
      roundAway (128 * (((b : Int) - a) * m + ((d : Int) - c) * n) * (n + m)) (2 * n * m * (a + c)) := by
  have hfirst : (n * m : Int) / n = m := Int.mul_ediv_cancel_left _ (by omega)
  have hsecond : (n * m : Int) / m = n := Int.mul_ediv_cancel _ (by omega)
  simp [rawChange, hfirst, hsecond, Nat.mul_assoc]

/-! ### The valid pairs -/

section pairs
variable (sources : Quad Source) (seams : Quad SeamAcc)

theorem pairValid_iff (acc : SeamAcc) (i : Fin 4) : pairValid sources acc i = true ↔
    sources.get (pairCams i).1.idx = .fresh ∧ sources.get (pairCams i).2.idx = .fresh ∧ 4096 ≤ acc.count := by
  simp [pairValid, and_assoc]

/-- A camera is one of the two of a pair, never both. -/
theorem pairCams_ne (i : Fin 4) : (pairCams i).1 ≠ (pairCams i).2 := by
  match i with
  | 0 | 1 | 2 | 3 => decide

/-- The valid pairs of a camera, each from its own side (R142). -/
theorem mem_validPairs (c : Camera) (own other count : Nat) : (own, other, count) ∈ validPairs sources seams c ↔
    ∃ i : Fin 4, pairValid sources (seams.get i) i = true ∧ count = (seams.get i).count
      ∧ (((pairCams i).1 = c ∧ own = (seams.get i).sumA ∧ other = (seams.get i).sumB)
        ∨ ((pairCams i).2 = c ∧ own = (seams.get i).sumB ∧ other = (seams.get i).sumA)) := by
  have hall : ∀ i : Fin 4, i ∈ ([0, 1, 2, 3] : List (Fin 4)) := by decide
  simp only [validPairs, List.mem_filterMap, hall, true_and]
  refine exists_congr fun i => ?_
  have hne := pairCams_ne i
  split
  · rename_i hvalid
    rw [hvalid]
    split
    · rename_i hfirst
      have hnot : (pairCams i).2 ≠ c := fun e => hne (hfirst.trans e.symm)
      simp only [hfirst, hnot, Option.some.injEq, Prod.mk.injEq]
      tauto
    · rename_i hfirst
      split
      · rename_i hsecond
        simp only [hfirst, hsecond, Option.some.injEq, Prod.mk.injEq]
        tauto
      · rename_i hsecond
        simp [hfirst, hsecond]
  · rename_i hinvalid
    simp [hinvalid]

/-- A camera of no valid pair has none. -/
theorem validPairs_eq_nil {c : Camera}
    (h : ∀ i : Fin 4, (pairCams i).1 = c ∨ (pairCams i).2 = c → pairValid sources (seams.get i) i ≠ true) :
    validPairs sources seams c = [] := by
  refine List.eq_nil_iff_forall_not_mem.2 fun ⟨own, other, count⟩ hmem => ?_
  obtain ⟨i, hvalid, -, hside⟩ := (mem_validPairs ..).1 hmem
  exact h i (hside.imp And.left And.left) hvalid

/-- The report of a valid pair gives both means in 1/16 luma step, to the nearest (R144). -/
theorem pairReport_means {i : Fin 4} (h : pairValid sources (seams.get i) i = true) :
    (pairReport sources seams i).meanA = roundDiv (16 * (seams.get i).sumA) (seams.get i).count
      ∧ (pairReport sources seams i).meanB = roundDiv (16 * (seams.get i).sumB) (seams.get i).count := by
  unfold pairReport
  simp only [h, if_true, and_self]

end pairs

/-! ### A camera's case -/

section cases
variable (x : Balance) {sources : Quad Source} {seams : Quad SeamAcc} {c : Camera}

theorem camReport_anchor (h : c = x.anchor) : x.camReport sources seams c = .anchor := if_pos h

theorem camReport_noPair (h : c ≠ x.anchor) (hnil : validPairs sources seams c = []) :
    x.camReport sources seams c = .noPair := by
  simp only [Balance.camReport, if_neg h, if_pos hnil]

theorem camReport_zeroMean (h : c ≠ x.anchor) (hsome : validPairs sources seams c ≠ [])
    (hzero : ((validPairs sources seams c).map Prod.fst).sum = 0) : x.camReport sources seams c = .zeroMean := by
  simp only [Balance.camReport, if_neg h, if_neg hsome, if_pos hzero]

theorem camReport_moved (h : c ≠ x.anchor) (hsum : ((validPairs sources seams c).map Prod.fst).sum ≠ 0) :
    x.camReport sources seams c = .moved (rawChange (validPairs sources seams c))
      (clampStep x.step (rawChange (validPairs sources seams c)))
      (clampGain ((x.gains.get c.idx : Int) + clampStep x.step (rawChange (validPairs sources seams c)))) := by
  have hsome : validPairs sources seams c ≠ [] := fun e => hsum (by rw [e]; rfl)
  simp only [Balance.camReport, if_neg h, if_neg hsome, if_neg hsum]

/-- A gain moves by the step limit at most, and within 128 to 512 (R139, R143). -/
theorem camReport_gain_step (h : 128 ≤ x.gains.get c.idx ∧ x.gains.get c.idx ≤ 512) :
    (x.camReport sources seams c).gain (x.gains.get c.idx) ≤ x.gains.get c.idx + x.step
      ∧ x.gains.get c.idx ≤ (x.camReport sources seams c).gain (x.gains.get c.idx) + x.step := by
  have hstay : x.gains.get c.idx ≤ x.gains.get c.idx + x.step := Nat.le_add_right ..
  unfold Balance.camReport
  extract_lets ps r d
  split_ifs
  · exact ⟨hstay, hstay⟩
  · exact ⟨hstay, hstay⟩
  · exact ⟨hstay, hstay⟩
  · have hd : -(x.step : Int) ≤ d ∧ d ≤ x.step := by
      simp only [d, clampStep]
      omega
    simp only [CamReport.gain, clampGain]
    omega

end cases

/-! ### The update -/

section update
variable (x : Balance) (frame : Nat) (sources : Quad Source) (seams : Quad SeamAcc)

theorem update_off (h : x.enable = false) : x.update frame sources seams = x := by
  rw [Balance.update, h]
  rfl

/-- The report that an update leaves with the enable on (R144). -/
def Balance.reportOf : BalanceReport :=
  { frame := frame
    pairs := ⟨pairReport sources seams 0, pairReport sources seams 1, pairReport sources seams 2,
      pairReport sources seams 3⟩
    cams := Quad.ofFn (x.camReport sources seams) }

theorem update_on (h : x.enable = true) : x.update frame sources seams =
    { x with
      gains := (x.update frame sources seams).gains, report := some (x.reportOf frame sources seams) } := by
  rw [Balance.update, if_pos h]
  rfl

/-- Each gain is the one its camera's case gives (R140, R142). -/
theorem update_gain (h : x.enable = true) (c : Camera) : (x.update frame sources seams).gains.get c.idx =
    (x.camReport sources seams c).gain (x.gains.get c.idx) := by
  rw [Balance.update, if_pos h]
  cases c <;> rfl

theorem reportOf_pair (i : Fin 4) : (x.reportOf frame sources seams).pairs.get i = pairReport sources seams i := by
  match i with
  | 0 | 1 | 2 | 3 => rfl

theorem reportOf_cam (c : Camera) : (x.reportOf frame sources seams).cams.get c.idx = x.camReport sources seams c :=
  ofFn_get _ c

/-- A camera whose case keeps its gain has it after the update, the enable on or off. -/
theorem update_gain_stays {c : Camera}
    (h : (x.camReport sources seams c).gain (x.gains.get c.idx) = x.gains.get c.idx) :
    (x.update frame sources seams).gains.get c.idx = x.gains.get c.idx := by
  cases he : x.enable with
  | false => rw [update_off x frame sources seams he]
  | true => rw [update_gain x frame sources seams he, h]

/-- Every gain stays within 128 to 512 and within the step limit of the old one (R139, R143). -/
theorem update_gain_bounds (h : ∀ g ∈ x.gains.toList, 128 ≤ g ∧ g ≤ 512) (c : Camera) :
    128 ≤ (x.update frame sources seams).gains.get c.idx ∧ (x.update frame sources seams).gains.get c.idx ≤ 512
      ∧ (x.update frame sources seams).gains.get c.idx ≤ x.gains.get c.idx + x.step
      ∧ x.gains.get c.idx ≤ (x.update frame sources seams).gains.get c.idx + x.step := by
  have hold := h _ ((Quad.mem_toList _ _).2 ⟨c.idx, rfl⟩)
  cases he : x.enable with
  | false =>
    rw [update_off x frame sources seams he]
    exact ⟨hold.1, hold.2, Nat.le_add_right .., Nat.le_add_right ..⟩
  | true =>
    obtain ⟨hlow, hhigh⟩ := camReport_gain_bounds x sources seams c hold
    rw [update_gain x frame sources seams he]
    exact ⟨hlow, hhigh, camReport_gain_step x hold⟩

/-- The report names each pair, a valid one with both means to the nearest 1/16 luma step (R144). -/
theorem reportOf_pairs (i : Fin 4) :
    let a := seams.get i
    let r := (x.reportOf frame sources seams).pairs.get i
    (r.valid = true ↔ pairValid sources a i = true) ∧ r.count = a.count
      ∧ (pairValid sources a i = true →
        2 * a.count * r.meanA ≤ 32 * a.sumA + a.count ∧ 32 * a.sumA + a.count < 2 * a.count * (r.meanA + 1)
        ∧ 2 * a.count * r.meanB ≤ 32 * a.sumB + a.count ∧ 32 * a.sumB + a.count < 2 * a.count * (r.meanB + 1)) := by
  intro a r
  have hr : r = pairReport sources seams i := reportOf_pair x frame sources seams i
  rw [hr]
  refine ⟨Iff.rfl, rfl, fun hvalid => ?_⟩
  obtain ⟨-, -, hcount⟩ := (pairValid_iff ..).1 hvalid
  obtain ⟨hA, hB⟩ := pairReport_means sources seams hvalid
  have hpos : 0 < a.count := by omega
  obtain ⟨hAlow, hAhigh⟩ := roundDiv_bounds (16 * a.sumA) hpos
  obtain ⟨hBlow, hBhigh⟩ := roundDiv_bounds (16 * a.sumB) hpos
  rw [hA, hB]
  rw [← Nat.mul_assoc] at hAlow hAhigh hBlow hBhigh
  exact ⟨hAlow, hAhigh, hBlow, hBhigh⟩

end update

/-- Settles O48: the gains by each camera's case, the report pair by pair and camera by camera, and the raw change. -/
theorem balanceUpdateMovesWithinTheStep : Obligations.BalanceUpdateMovesWithinTheStep := by
  unfold Obligations.BalanceUpdateMovesWithinTheStep
  refine ⟨fun x frame sources seams => ?update, fun a b n hn _ => rawChange_one a b hn,
    fun a b n c d m hn hm _ => rawChange_two a b c d hn hm,
    fun num den hden => ⟨(roundAway_bounds num hden).1, (roundAway_bounds num hden).2, roundAway_nonneg den,
      roundAway_nonpos den⟩⟩
  case update =>
    intro y valid
    have hvalid : ∀ i, valid i ↔ pairValid sources (seams.get i) i = true := fun i => (pairValid_iff ..).symm
    simp only [hvalid]
    refine ⟨update_off x frame sources seams, ?anchor, fun c hno => ?noPair, update_gain_bounds x frame sources seams,
      fun he => ⟨x.reportOf frame sources seams, update_on x frame sources seams he, rfl,
        reportOf_pairs x frame sources seams, fun c => ?camera⟩, mem_validPairs sources seams⟩
    case anchor =>
      refine update_gain_stays x frame sources seams ?_
      rw [camReport_anchor x rfl]
      rfl
    case noPair =>
      refine update_gain_stays x frame sources seams ?_
      have hnil := validPairs_eq_nil sources seams hno
      by_cases hc : c = x.anchor
      · rw [camReport_anchor x hc]
        rfl
      · rw [camReport_noPair x hc hnil]
        rfl
    case camera =>
      have hgain : y.gains.get c.idx = _ := update_gain x frame sources seams he c
      simp only [reportOf_cam, hgain]
      refine ⟨camReport_anchor x, camReport_noPair x, fun hc hsome hzero => ?_, fun hc hsum => ?_⟩
      · rw [camReport_zeroMean x hc hsome hzero]
        exact ⟨rfl, rfl⟩
      · rw [camReport_moved x hc hsum]
        exact ⟨rfl, rfl⟩

end Sys2Proof.Machine
end

section
/-! SUPPORT. No operation but the write of a burst carried out changes DDR memory: one lemma per shared operation that says so,
most of them read off the views of Laws/Frames.lean. -/

namespace Sys2Proof.Machine

/-! ### Memory read off the views -/

theorem mem_of_sansPipe {s t : State} (h : t.sansPipe = s.sansPipe) : t.mem = s.mem := by
  have e : t.sansPipe.mem = s.sansPipe.mem := congrArg State.mem h
  exact e

theorem mem_of_sansLeases {s t : State} (h : t.sansLeases = s.sansLeases) : t.mem = s.mem := by
  have e : t.sansLeases.mem = s.sansLeases.mem := congrArg State.mem h
  exact e

theorem mem_of_sansWalk {s t : State} (h : t.sansWalk = s.sansWalk) : t.mem = s.mem := by
  have e : t.sansWalk.mem = s.sansWalk.mem := congrArg State.mem h
  exact e

section mem
variable (s : State)

theorem mem_ite (c : Prop) [Decidable c] (a b : State) : (if c then a else b).mem = if c then a.mem else b.mem :=
  apply_ite State.mem c a b

/-! ### Ports, leases and power -/

@[simp] theorem refuse_mem (p : Port) (c : Code) : (s.refuse p c).mem = s.mem := answer_mem s p c []

@[simp] theorem onPort_mem (p : Port) (f : PortState → PortState) : (s.onPort p f).mem = s.mem := rfl

@[simp] theorem raiseLease_mem (h : LeaseHolder) : (s.raiseLease h).mem = s.mem :=
  mem_of_sansLeases (raiseLease_sansLeases s h)

@[simp] theorem joinLease_mem (h : LeaseHolder) (level : Nat) (plan : PlanId) (d : Nat) (r : Option Nat)
    (ph : Option LinePhase) : (s.joinLease h level plan d r ph).mem = s.mem := rfl

@[simp] theorem removeLease_mem (l : Lease) : (s.removeLease l).mem = s.mem := rfl

@[simp] theorem removeLeases_mem : s.removeLeases.mem = s.mem := mem_of_sansLeases (removeLeases_sansLeases s)

@[simp] theorem setViews_mem (v : ViewSettings) : (s.setViews v).mem = s.mem := mem_of_sansLeases (setViews_sansLeases s v)

@[simp] theorem showView_mem : s.showView.mem = s.mem := mem_of_sansLeases (showView_sansLeases s)

@[simp] theorem activate_mem : s.activate.mem = s.mem := mem_of_sansLeases (activate_sansLeases s)

@[simp] theorem inactivate_mem : s.inactivate.mem = s.mem := mem_of_sansLeases (inactivate_sansLeases s)

@[simp] theorem handLevel_mem : s.handLevel.mem = s.mem := by
  unfold State.handLevel
  simp [mem_ite]

@[simp] theorem enterRun_mem : s.enterRun.mem = s.mem := by
  unfold State.enterRun
  refine (mem_of_sansPipe (sendStrobe_sansPipe _)).trans ?_
  exact handLevel_mem _

@[simp] theorem wakeEvent_mem : s.wakeEvent.mem = s.mem := by
  unfold State.wakeEvent
  split
  · exact enterRun_mem s
  · simp [mem_ite, State.cancelEntry]
  · rfl

@[simp] theorem levelChange_mem : s.levelChange.mem = s.mem := by
  have hwoken : ∀ (t : State) (active : Bool), (t.lineWoken active).mem = t.mem := fun t active => by
    simp [State.lineWoken, mem_ite]
  have htold : ∀ (t : State) (active : Bool), (t.lineTold active).mem = t.mem := fun t active => by
    simp [State.lineTold, mem_ite]
  rw [levelChange_eq]
  split
  · rfl
  · exact hwoken _ _
  · exact (hwoken _ _).trans (htold _ _)

@[simp] theorem takeEntry_mem : s.takeEntry.mem = s.mem := by
  have hentered : s.enterStandby.mem = s.mem := by
    unfold State.enterStandby
    extract_lets a b
    have ha : a.mem = s.mem := mem_of_sansPipe (reportAll_sansPipe s)
    have hb : b.mem = a.mem := removeLeases_mem _
    clear_value a b
    exact hb.trans ha
  simp [State.takeEntry, mem_ite, hentered]

@[simp] theorem beginEntry_mem : s.beginEntry.mem = s.mem := takeEntry_mem _

/-! ### The chain -/

@[simp] theorem endSlot_mem (c : Camera) (res : SlotResult) : (s.endSlot c res).mem = s.mem := by
  unfold State.endSlot
  split
  · rw [mem_ite, mem_of_sansPipe (afterSlot_sansPipe _ c), mem_of_sansPipe (slotResult_sansPipe _ c res), runTo_mem, ite_self]
  · rfl

/-! ### The Plan Store -/

@[simp] theorem grant_mem : s.grant.mem = s.mem := mem_of_sansPipe (grant_sansPipe s)

@[simp] theorem setHold_mem (id : PlanId) (h : PlanHold) : (s.setHold id h).mem = s.mem := rfl

@[simp] theorem touchPlan_mem (p : Port) (bs : List Byte) : (s.touchPlan p bs).mem = s.mem := by
  obtain h | ⟨id, c, at0, ab, -, -, -, h⟩ := touchPlan_cases s p bs <;> rw [h]
  rfl

@[simp] theorem endWalk_mem (id : PlanId) (c : PlanContent) (r : Option Rejection) : (s.endWalk id c r).mem = s.mem :=
  answer_mem ..

@[simp] theorem walkOn_mem (id : PlanId) (c : PlanContent) (passed : List Nat) (n : WalkNext) :
    (s.walkOn id c passed n).mem = s.mem := by
  cases n with
  | read place m => exact grant_mem _
  | fail r => exact endWalk_mem s id c _
  | done => exact endWalk_mem s id c _

@[simp] theorem markMesh_mem (p : Port) (id : PlanId) (i : Nat) : (s.markMesh p id i).mem = s.mem := by
  unfold State.markMesh
  split
  · rw [mem_ite, setHold_mem, ite_self]
  · rfl

/-! ### The Composer -/

@[simp] theorem handBox_mem (x : Context) (k : Nat) (d : Draw) (b : Box) : (s.handBox x k d b).mem = s.mem :=
  grant_mem _

@[simp] theorem areaFetched_mem (x : Context) (k : Nat) : (s.areaFetched x k).mem = s.mem :=
  (mem_of_sansWalk (areaFetched_sansWalk s x k)).trans rfl

@[simp] theorem beginTile_mem (x : Context) : (s.beginTile x).mem = s.mem :=
  (mem_of_sansWalk (beginTile_sansWalk s x)).trans rfl

@[simp] theorem beginRow_mem (x : Context) : (s.beginRow x).mem = s.mem :=
  (mem_of_sansWalk (beginRow_sansWalk s x)).trans rfl

@[simp] theorem leaveBuffer_mem (frame row : Nat) : (s.leaveBuffer frame row).mem = s.mem :=
  mem_of_sansWalk (leaveBuffer_sansWalk s frame row)

@[simp] theorem startComposition_mem (st : CaptureSet) (newer : List CaptureSet) :
    (s.startComposition st newer).mem = s.mem := by
  obtain ⟨slots, ports, plans, h, -⟩ := startOpened_frame s st newer
  rw [startComposition_eq, beginRow_mem, h]

@[simp] theorem appendRecord_mem (x : Context) (n : Nat) (ab : Bool) : (s.appendRecord x n ab).mem = s.mem := by
  obtain ⟨⟨ports, h⟩, -⟩ := appendRecord_frame s x n ab
  rw [h]

@[simp] theorem releaseComposition_mem (x : Context) : (s.releaseComposition x).mem = s.mem := by
  obtain ⟨⟨plans, h⟩, -⟩ := releaseComposition_frame s x
  rw [h]

@[simp] theorem completeComposition_mem (x : Context) : (s.completeComposition x).mem = s.mem := by
  simp [State.completeComposition]

@[simp] theorem abortComposition_mem : s.abortComposition.mem = s.mem := by
  unfold State.abortComposition
  split
  · rfl
  · simp

@[simp] theorem drawTile_mem (x : Context) : (s.drawTile x).mem = s.mem := by
  simp [State.drawTile, State.rowDrawn, mem_ite]

end mem

/-! ### The burst carried out -/

/-- A burst of the pool requester stores a mesh record at most (R83, R148). -/
theorem poolBurstDone_mem (s : State) (b : PoolBurst) : (s.poolBurstDone b).mem = s.mem
    ∨ ∃ unit i rec, b = .write unit i rec ∧ (s.poolBurstDone b).mem = s.mem.writeBytes (Config.unitAddr unit) rec := by
  unfold State.poolBurstDone
  split
  · exact Or.inl rfl
  · split
    · rename_i p id unit i rec _
      refine Or.inr ⟨unit, i, rec, rfl, ?_⟩
      simp [mem_ite, answer_mem, State.popPool]
    · refine Or.inl ?_
      simp [mem_ite, answer_mem, State.popPool]
    · exact Or.inl rfl
    · exact Or.inl rfl

/-- A burst carried out leaves memory alone, or writes bytes from one address upward. -/
theorem burstDone_mem (s : State) (b : Burst) :
    (s.burstDone b).mem = s.mem ∨ ∃ addr bytes, (s.burstDone b).mem = s.mem.writeBytes addr bytes := by
  cases b with
  | lane c addr data withdrawn =>
    cases withdrawn
    · exact Or.inr ⟨addr, data, mem_of_sansPipe (laneBurstDone_sansPipe _ c)⟩
    · exact Or.inl rfl
  | pool b =>
    obtain h | ⟨unit, i, rec, -, h⟩ := poolBurstDone_mem s b
    · exact Or.inl h
    · exact Or.inr ⟨_, _, h⟩
  | fetch addr withdrawn =>
    cases withdrawn
    · exact Or.inl (mem_of_sansWalk (fetchBurstDone_sansWalk s addr))
    · exact Or.inl rfl

end Sys2Proof.Machine
end

section
/-! PROOFS. No command but BURST_DONE and POWER_ON_RESET changes DDR memory, and every step keeps its canonical form (R148). -/

namespace Sys2Proof.Machine

/-- Wherever a command goes on to, DDR memory is as it was. -/
def State.memStays (s : State) (o : Host.Outcome State Fault Refusal) : Prop := ∀ t, o = .next t → t.mem = s.mem

theorem memStays_next {s t : State} (h : t.mem = s.mem) : s.memStays (.next t) := by
  rintro _ ⟨⟩
  exact h

theorem memStays_stay (s : State) : s.memStays (.next s) := memStays_next rfl

/-- A request stores nothing whose rule stores nothing in the state in which it is taken. -/
theorem memStays_serve {s : State} {p : Port} {k : RequestKind} {body : List Byte → State → State}
    (h : ∀ bs t, (body bs t).mem = t.mem) : s.memStays (.next (s.serve p k body)) := by
  obtain e | ⟨r, rest, -, e⟩ := serve_cases s p k body
  · rw [e]
    exact memStays_stay s
  · rw [e]
    exact memStays_next ((h _ _).trans (taken_mem s p r rest))

/-- An operation of the pipeline stores nothing, after time has passed or not. -/
theorem memStays_pipe {s t : State} (u : State) (h : t.sansPipe = u.sansPipe) (hu : u.mem = s.mem) : s.memStays (.next t) :=
  memStays_next ((mem_of_sansPipe h).trans hu)

section events
variable (s : State) (c : Camera)

/-! ### The chain and the lanes -/

theorem execStrobe_memStays : s.memStays (execStrobe s) := by
  unfold execStrobe
  split
  · split
    · exact memStays_pipe (s.runTo _) (by rw [chainSettle_sansPipe, sendStrobe_sansPipe]) rfl
    · exact memStays_stay s
  · exact memStays_stay s

theorem execCameraLost_memStays : s.memStays (execCameraLost c s) := by
  unfold execCameraLost
  split
  · exact memStays_next (endSlot_mem s c _)
  · exact memStays_stay s

theorem execIdentTimeout_memStays (reply : Option (BitVec 14)) : s.memStays (execIdentTimeout c reply s) := by
  unfold execIdentTimeout
  split
  · split
    · exact memStays_next (endSlot_mem s c _)
    · exact memStays_stay s
  · exact memStays_stay s

theorem execSettleTimerExpiry_memStays : s.memStays (execSettleTimerExpiry s) := by
  unfold execSettleTimerExpiry
  split
  · rename_i due _
    refine memStays_pipe (s.runTo due) ?_ rfl
    rw [withChain_sansPipe, unaddressAll_sansPipe, enqueue_sansPipe]
  · exact memStays_stay s

theorem execTestTimerExpiry_memStays : s.memStays (execTestTimerExpiry c s) := by
  unfold execTestTimerExpiry
  split
  · extract_lets t
    have ht : t.mem = s.mem := runTo_mem s _
    split
    · exact memStays_next ht
    · exact memStays_pipe t (by rw [chainSettle_sansPipe, camFault_sansPipe]) ht
  · exact memStays_stay s

theorem execPacketArrival_memStays (how : PacketEnd) (bytes : List Byte) : s.memStays (execPacketArrival c how bytes s) := by
  unfold execPacketArrival
  extract_lets ln
  split
  · exact memStays_pipe s (setLane_sansPipe ..) rfl
  · exact memStays_pipe s (by rw [reportError_sansPipe, setLane_sansPipe]) rfl

theorem execLineConsume_memStays : s.memStays (execLineConsume c s) := by
  unfold execLineConsume
  split
  · exact memStays_pipe s (by rw [dropLine_sansPipe, reportError_sansPipe]) rfl
  · exact memStays_pipe s (assess_sansPipe ..) rfl
  · exact memStays_pipe s (beginFrame_sansPipe ..) rfl
  · exact memStays_stay s

theorem execLineWriteComplete_memStays : s.memStays (execLineWriteComplete c s) := by
  unfold execLineWriteComplete
  extract_lets ln
  split
  · extract_lets g t
    split
    · exact memStays_pipe t (finaliseFrame_sansPipe ..) rfl
    · exact memStays_next rfl
  · exact memStays_stay s

theorem execFrameAbandon_memStays : s.memStays (execFrameAbandon c s) := by
  unfold execFrameAbandon
  extract_lets ln
  split
  · exact memStays_pipe (s.runTo _) (by rw [grant_sansPipe, takeTail_sansPipe]) rfl
  · exact memStays_stay s

theorem execAbandonRepairsComplete_memStays : s.memStays (execAbandonRepairsComplete c s) := by
  unfold execAbandonRepairsComplete
  extract_lets ln
  split
  · exact memStays_pipe s (by rw [finaliseFrame_sansPipe, setLane_sansPipe]) rfl
  · exact memStays_stay s

theorem execWindowExpiry_memStays (tag : Tag) : s.memStays (execWindowExpiry tag s) := by
  unfold execWindowExpiry
  split
  · split
    · exact memStays_next rfl
    · exact memStays_stay s
  · exact memStays_stay s

/-! ### The Composer and the View Lane -/

theorem execCompositionStart_memStays : s.memStays (execCompositionStart s) := by
  unfold execCompositionStart
  split
  · split
    · exact memStays_next (startComposition_mem ..)
    · exact memStays_stay s
  · exact memStays_stay s

theorem execMeshReadComplete_memStays : s.memStays (execMeshReadComplete s) := by
  unfold execMeshReadComplete
  split
  · split
    · split
      · extract_lets y
        split
        · exact memStays_next (handBox_mem ..)
        · exact memStays_next (areaFetched_mem ..)
      · exact memStays_stay s
    · exact memStays_stay s
  · exact memStays_stay s

theorem execFetchingEnd_memStays : s.memStays (execFetchingEnd s) := by
  unfold execFetchingEnd
  split
  · split
    · exact memStays_next rfl
    · exact memStays_stay s
  · exact memStays_stay s

theorem execTileDrawn_memStays : s.memStays (execTileDrawn s) := by
  unfold execTileDrawn
  split
  · split
    · exact memStays_next (drawTile_mem ..)
    · exact memStays_stay s
  · exact memStays_stay s

theorem execViewFrameStart_memStays : s.memStays (execViewFrameStart s) := by
  unfold execViewFrameStart
  split
  · exact memStays_next rfl
  · exact memStays_stay s

theorem execLineDue_memStays : s.memStays (execLineDue s) := by
  unfold execLineDue
  split
  · extract_lets n a b
    split
    · have hb : b.mem = s.mem := by simp [b, a, mem_ite]
      exact memStays_next hb
    · exact memStays_stay s
  · exact memStays_stay s

theorem execViewFrameEnd_memStays : s.memStays (execViewFrameEnd s) := by
  unfold execViewFrameEnd
  split
  · split
    · extract_lets a b
      have hb : b.mem = s.mem := leaveBuffer_mem ..
      exact memStays_next hb
    · exact memStays_stay s
  · exact memStays_stay s

/-! ### Plans, leases, power and ports -/

theorem execVerifyMeshRead_memStays : s.memStays (execVerifyMeshRead s) := by
  unfold execVerifyMeshRead
  split
  · split
    · exact memStays_next (walkOn_mem ..)
    · exact memStays_stay s
  · exact memStays_stay s

theorem execPlanAbandoned_memStays (id : PlanId) : s.memStays (execPlanAbandoned id s) := by
  unfold execPlanAbandoned
  split
  · exact memStays_next ((setHold_mem ..).trans (runTo_mem s _))
  · exact memStays_stay s

theorem execLeaseExpiry_memStays (handle : Nat) : s.memStays (execLeaseExpiry handle s) := by
  unfold execLeaseExpiry
  split
  · split
    · exact memStays_next (raiseLease_mem ..)
    · exact memStays_stay s
  · exact memStays_stay s

theorem execStartingEnd_memStays : s.memStays (execStartingEnd s) := by
  unfold execStartingEnd
  split
  · exact memStays_next (enterRun_mem s)
  · exact memStays_stay s

theorem execIdleTimerExpiry_memStays : s.memStays (execIdleTimerExpiry s) := by
  unfold execIdleTimerExpiry
  split
  · split
    · exact memStays_next (beginEntry_mem _)
    · exact memStays_stay s
  · exact memStays_stay s

theorem execReverseLevelChange_memStays : s.memStays (execReverseLevelChange s) := by
  unfold execReverseLevelChange
  split
  · exact memStays_next (levelChange_mem s)
  · exact memStays_stay s

theorem execReverseLineSample_memStays (active : Bool) : s.memStays (execReverseLineSample active s) := by
  unfold execReverseLineSample
  extract_lets t u
  have hu : u.mem = s.mem := by simp [u, t, mem_ite]
  exact memStays_next hu

theorem execTemperatureSample_memStays (celsius : Int) : s.memStays (execTemperatureSample celsius s) := by
  unfold execTemperatureSample
  extract_lets t new power u
  refine memStays_next ?_
  rw [mem_ite]
  exact ite_self _

theorem execUnknownRequest_memStays (p : Port) : s.memStays (execUnknownRequest p s) := by
  unfold execUnknownRequest
  split
  · split
    · exact memStays_next (refuse_mem ..)
    · exact memStays_stay s
  · exact memStays_stay s

theorem execSelectStart_memStays (p : Port) : s.memStays (execSelectStart p s) := by
  unfold execSelectStart
  split
  · exact memStays_next rfl
  · exact memStays_stay s

theorem execRequestArrival_memStays (p : Port) (bytes : List Byte) : s.memStays (execRequestArrival p bytes s) := by
  unfold execRequestArrival
  split
  · split
    · exact memStays_stay s
    · exact memStays_next rfl
  · exact memStays_stay s

theorem execAnswerShiftedOut_memStays (p : Port) : s.memStays (execAnswerShiftedOut p s) := by
  unfold execAnswerShiftedOut
  split
  · split
    · exact memStays_stay s
    · exact memStays_next rfl
  · exact memStays_stay s

end events

/-! ### Requests that read their plan or their operands by cases -/

section requests
variable (p : Port) (s : State)

theorem execPlanOpen_memStays : s.memStays (execPlanOpen p s) := by
  refine memStays_serve fun bs t => Eq.trans ?_ (touchPlan_mem t p bs)
  dsimp only
  generalize t.touchPlan p bs = u
  split
  · exact refuse_mem ..
  · split_ifs
    · exact refuse_mem ..
    · exact refuse_mem ..
    · exact refuse_mem ..
    · exact refuse_mem ..
    · split <;> simp [answer_mem]

theorem execPlanTiles_memStays : s.memStays (execPlanTiles p s) := by
  refine memStays_serve fun bs t => Eq.trans ?_ (touchPlan_mem t p bs)
  dsimp only
  generalize t.touchPlan p bs = u
  rw [mem_ite]
  split
  · exact refuse_mem ..
  · split
    · exact refuse_mem ..
    · rw [mem_ite]
      split
      · exact refuse_mem ..
      · split <;> simp [mem_ite, answer_mem]

theorem execPlanMeshes_memStays : s.memStays (execPlanMeshes p s) := by
  refine memStays_serve fun bs t => Eq.trans ?_ (touchPlan_mem t p bs)
  dsimp only
  generalize t.touchPlan p bs = u
  rw [mem_ite]
  split
  · exact refuse_mem ..
  · split
    · exact refuse_mem ..
    · rw [mem_ite]
      split
      · exact refuse_mem ..
      · split <;> simp [mem_ite]

theorem execPlanVerify_memStays : s.memStays (execPlanVerify p s) := by
  refine memStays_serve fun bs t => Eq.trans ?_ (touchPlan_mem t p bs)
  dsimp only
  generalize t.touchPlan p bs = u
  split
  · exact refuse_mem ..
  · split <;> simp [mem_ite]

theorem execPlanDiscard_memStays : s.memStays (execPlanDiscard p s) := by
  refine memStays_serve fun bs t => Eq.trans ?_ (touchPlan_mem t p bs)
  dsimp only
  generalize t.touchPlan p bs = u
  split <;> simp [mem_ite, answer_mem]

theorem execPlanRead_memStays : s.memStays (execPlanRead p s) := by
  refine memStays_serve fun bs t => Eq.trans ?_ (touchPlan_mem t p bs)
  dsimp only
  generalize t.touchPlan p bs = u
  split
  · exact refuse_mem ..
  · split
    · exact answer_mem ..
    · rw [mem_ite]
      split
      · exact refuse_mem ..
      · split <;> simp [answer_mem]
    · rw [mem_ite]
      split
      · exact refuse_mem ..
      · split <;> simp
    · exact refuse_mem ..

theorem execViewClaim_memStays : s.memStays (execViewClaim p s) := by
  refine memStays_serve fun bs t => ?_
  split
  · simp
  · simp [answer_mem, mem_ite]

end requests

/-! ### Every command, and the step -/

theorem exec_memStays (i : Instr) (hburst : i ≠ .burstDone) (hreset : i ≠ .powerOnReset) (s : State) :
    s.memStays (exec i s) := by
  cases i with
  | powerOnReset => exact absurd rfl hreset
  | burstDone => exact absurd rfl hburst
  | startingEnd => exact execStartingEnd_memStays s
  | selectStart p => exact execSelectStart_memStays s p
  | requestArrival p bytes => exact execRequestArrival_memStays s p bytes
  | selectEnd p => exact memStays_next rfl
  | answerShiftedOut p => exact execAnswerShiftedOut_memStays s p
  | unknownRequest p => exact execUnknownRequest_memStays s p
  | echo p | statusRead p | poolRead p | viewRead p | balanceRead p | recordRewind p =>
    exact memStays_serve fun bs t => answer_mem ..
  | noticeEnable p | noticeTake p | timingSet p | outputSet p | recordRead p | rateCap p | powerSet p | standby p =>
    exact memStays_serve fun bs t => by simp [mem_ite, answer_mem, State.setCursor]
  | cameraRead p | chainSet p | captureRead p | viewRenew p | viewRelease p | recordLatest p =>
    refine memStays_serve fun bs t => ?_
    split <;> simp [answer_mem]
  | balanceSet p | viewsSet p =>
    refine memStays_serve fun bs t => ?_
    dsimp only
    split <;> simp [mem_ite, answer_mem]
  | chainRebuild p =>
    exact memStays_serve fun bs t => by simp [mem_ite, answer_mem, mem_of_sansPipe (rebuild_sansPipe t)]
  | cameraRestart p =>
    refine memStays_serve fun bs t => ?_
    split
    · simp
    · simp [mem_ite, answer_mem, mem_of_sansPipe (restartCamera_sansPipe ..)]
  | wake p => exact memStays_serve fun bs t => (answer_mem ..).trans (wakeEvent_mem t)
  | pipelineRestart p =>
    exact memStays_serve fun bs t => by simp [mem_ite, answer_mem, mem_of_sansPipe (restartLanes_sansPipe _)]
  | planOpen p => exact execPlanOpen_memStays p s
  | planTiles p => exact execPlanTiles_memStays p s
  | planMeshes p => exact execPlanMeshes_memStays p s
  | planVerify p => exact execPlanVerify_memStays p s
  | planDiscard p => exact execPlanDiscard_memStays p s
  | planRead p => exact execPlanRead_memStays p s
  | viewClaim p => exact execViewClaim_memStays p s
  | strobe => exact execStrobe_memStays s
  | slotEnd c reply => exact memStays_next (endSlot_mem s c _)
  | cameraLost c => exact execCameraLost_memStays s c
  | identTimeout c reply => exact execIdentTimeout_memStays s c reply
  | settleTimerExpiry => exact execSettleTimerExpiry_memStays s
  | testTimerExpiry c => exact execTestTimerExpiry_memStays s c
  | packetArrival lane how bytes => exact execPacketArrival_memStays s lane how bytes
  | lineConsume lane => exact execLineConsume_memStays s lane
  | lineWriteComplete lane => exact execLineWriteComplete_memStays s lane
  | frameAbandon lane => exact execFrameAbandon_memStays s lane
  | abandonRepairsComplete lane => exact execAbandonRepairsComplete_memStays s lane
  | windowExpiry tag => exact execWindowExpiry_memStays s tag
  | compositionStart => exact execCompositionStart_memStays s
  | meshReadComplete => exact execMeshReadComplete_memStays s
  | fetchingEnd => exact execFetchingEnd_memStays s
  | tileDrawn => exact execTileDrawn_memStays s
  | verifyMeshRead => exact execVerifyMeshRead_memStays s
  | planAbandoned plan => exact execPlanAbandoned_memStays s plan
  | viewFrameStart => exact execViewFrameStart_memStays s
  | lineDue => exact execLineDue_memStays s
  | viewFrameEnd => exact execViewFrameEnd_memStays s
  | leaseExpiry handle => exact execLeaseExpiry_memStays s handle
  | reverseLineSample active => exact execReverseLineSample_memStays s active
  | reverseLevelChange => exact execReverseLevelChange_memStays s
  | idleTimerExpiry => exact execIdleTimerExpiry_memStays s
  | standbyEntry => exact memStays_next (takeEntry_mem s)
  | temperatureSample celsius => exact execTemperatureSample_memStays s celsius

/-- A burst carried out keeps the canonical form. -/
theorem execBurstDone_wf {s t : State} (hs : s.mem.wf) (h : execBurstDone s = .next t) : t.mem.wf := by
  unfold execBurstDone at h
  split at h
  · cases h
    rw [grant_mem]
    obtain e | ⟨addr, bytes, e⟩ := burstDone_mem { s with arb := { s.arb with inFlight := none } } ‹Burst›
    · rw [e]
      exact hs
    · rw [e]
      exact Memory.wf_writeBytes bytes _ addr hs
  · cases h
    exact hs

/-- Every command keeps the canonical form: a burst by what it writes, the reset by an empty memory (log 7). -/
theorem exec_wf {i : Instr} {s t : State} (hs : s.mem.wf) (h : exec i s = .next t) : t.mem.wf := by
  by_cases hburst : i = .burstDone
  · subst hburst
    exact execBurstDone_wf hs h
  · by_cases hreset : i = .powerOnReset
    · subst hreset
      cases h
      exact Memory.wf_nil
    · rw [exec_memStays i hburst hreset s t h]
      exact hs

/-- Settles O55: on an empty queue time passes, which stores nothing; else the command in front is run. -/
theorem everyStepKeepsMemoryCanonical : Obligations.EveryStepKeepsMemoryCanonical := by
  intro s t hs h
  unfold step at h
  split at h
  · cases h
    exact ⟨hs, fun _ _ => rfl⟩
  · rename_i c rest hpending
    rw [hpending]
    refine ⟨exec_wf (s := { s with pending := rest }) hs h, fun hburst hreset => ?_⟩
    exact exec_memStays c (fun e => hburst (congrArg some e)) (fun e => hreset (congrArg some e)) { s with pending := rest } t h

end Sys2Proof.Machine
end

section
/-! SUPPORT and PROOFS. The Arbiter's grants: lanes first and in turn, then the pool requester, then the Composer fetch
(R148 to R150). -/

namespace Sys2Proof.Machine

/-! ### Turns -/

/-- How many lanes come between the lane after the pointer and camera `c`'s (R149). -/
def turn (pointer c : Camera) : Nat := (c.number + 3 - pointer.number) % 4

/-- In a list of rising rank, what is found first is what is looked for with the least rank. -/
theorem find?_of_least {α : Type} {rank : α → Nat} {asks : α → Bool} {c : α} (hc : asks c = true)
    (hmin : ∀ d, asks d = true → rank c ≤ rank d) :
    ∀ l : List α, l.Pairwise (fun a b => rank a < rank b) → c ∈ l → l.find? asks = some c
  | a :: l, hl, hmem => by
    obtain ⟨ha, hl⟩ := List.pairwise_cons.1 hl
    obtain rfl | hmem := List.mem_cons.1 hmem
    · exact List.find?_cons_of_pos hc
    · have hless := ha c hmem
      rw [List.find?_cons_of_neg fun h => absurd (hmin a h) (by omega)]
      exact find?_of_least hc hmin l hl hmem

/-- The lanes are gone through turn by turn. -/
theorem laneOrder_turns (pointer : Camera) : (laneOrder pointer).Pairwise (fun c d => turn pointer c < turn pointer d) := by
  cases pointer <;> decide

theorem mem_laneOrder (pointer c : Camera) : c ∈ laneOrder pointer := by
  cases pointer <;> cases c <;> decide

/-! ### The requester that is granted -/

section grant
variable {s : State}

/-- A lane is pending exactly while a burst of its current write is ungranted (R148). -/
theorem pending_iff (x : Lane) : x.pending = true ↔ ∃ b w ws, x.busy = some b ∧ b.writes = w :: ws ∧ b.granted < 40 := by
  unfold Lane.pending
  cases hb : x.busy with
  | none => simp
  | some b =>
    cases hw : b.writes with
    | nil => simp [hw]
    | cons w ws =>
      simp only [hw, List.isEmpty_cons, Bool.not_false, Bool.true_and, decide_eq_true_eq]
      exact ⟨fun hn => ⟨b, w, ws, rfl, hw, hn⟩, fun ⟨_, _, _, hb, _, hn⟩ => Option.some.inj hb ▸ hn⟩

/-- The pending lane of the least turn is granted (R149). -/
theorem grant_lane {c : Camera} (hfree : s.arb.inFlight = none) (hc : (s.lane c).pending = true)
    (hturn : ∀ d, (s.lane d).pending = true → turn s.arb.pointer c ≤ turn s.arb.pointer d) : s.grant = s.grantLane c := by
  have hfind : (laneOrder s.arb.pointer).find? (fun d => (s.lanes.get d.idx).pending) = some c :=
    find?_of_least (asks := fun d => (s.lane d).pending) hc hturn _ (laneOrder_turns _) (mem_laneOrder _ c)
  simp only [State.grant, hfree, hfind]

/-- A lane granted sends the next burst of its current write, 64 bytes at their place in the line (R35, R149). -/
theorem grantLane_eq {c : Camera} {b : Consumption} {w : LineWrite} {ws : List LineWrite} (hb : (s.lane c).busy = some b)
    (hw : b.writes = w :: ws) (hn : b.granted < 40) : s.grantLane c =
      { s with
        lanes := s.lanes.set c.idx { s.lane c with busy := some { b with granted := b.granted + 1 } }
        arb := { s.arb with
          pointer := c
          inFlight := some
            (.lane c (Config.slotBase c.idx.val w.slot.val + w.line * 2560 + b.granted * 64)
              ((w.data.drop (b.granted * 64)).take 64) false) } } := by
  have hnext : b.nextBurst c = some (.lane c (w.addr c + b.granted * 64) ((w.data.drop (b.granted * 64)).take 64) false) := by
    simp only [Consumption.nextBurst, hw]
    exact if_pos hn
  unfold State.lane at hb
  simp only [State.grantLane, hb, hnext]
  rfl

section idle
variable (hfree : s.arb.inFlight = none) (hidle : ∀ d : Camera, (s.lanes.get d.idx).pending = false)
include hfree hidle

/-- With no lane pending the pool requester comes first, and then the Composer fetch (R149). -/
theorem grant_noLane : s.grant = (s.arb.grantPool <|> s.arb.grantFetch).elim s (fun a => { s with arb := a }) := by
  have hfind : (laneOrder s.arb.pointer).find? (fun d => (s.lanes.get d.idx).pending) = none :=
    List.find?_eq_none.2 fun d _ => by simp [hidle d]
  simp only [State.grant, hfree, hfind]
  cases s.arb.grantPool with
  | some a => rfl
  | none => cases s.arb.grantFetch <;> rfl

theorem grant_pool {o : PoolOwner} {b : PoolBurst} {left : List PoolBurst} {rest : List PoolRequest}
    (hp : s.arb.pool = { owner := o, left := b :: left } :: rest) : s.grant =
      { s with arb := { s.arb with inFlight := some (.pool b), pool := { owner := o, left := left } :: rest } } := by
  rw [grant_noLane hfree hidle]
  simp only [Arb.grantPool, hp]
  rfl

/-- With nothing in hand for the pool either, the Composer fetch's cursor is granted (R150). -/
theorem grant_fetch (hp : s.arb.pool = []) : s.grant = (s.arb.cursor.bind Cursor.next).elim s (fun q =>
    { s with arb := { s.arb with inFlight := some (.fetch q.1 false), cursor := some q.2 } }) := by
  rw [grant_noLane hfree hidle]
  simp only [Arb.grantPool, hp, Arb.grantFetch]
  cases s.arb.cursor.bind Cursor.next <;> rfl

/-- A box is fetched burst by burst and line by line, and its cursor is granted with the last (R150). -/
theorem grant_box {k line burst : Nat} {sc : BoxScan} (hp : s.arb.pool = []) (hcur : s.arb.cursor = some (.box k sc line burst)) :
    s.grant = { s with
      arb := { s.arb with
        inFlight := some (.fetch (sc.base + line * 2560 + burst * 64) false)
        cursor := some
          (if burst < sc.last then .box k sc line (burst + 1)
          else if line < sc.bottom then .box k sc (line + 1) sc.first else .granted k) } } := by
  rw [grant_fetch hfree hidle hp, hcur]
  simp only [Option.bind_some, Cursor.next]
  split_ifs <;> rfl

end idle
end grant

/-- Settles O47: each requester's grant by its own equation. -/
theorem lanesAreGrantedFirstInTurn : Obligations.LanesAreGrantedFirstInTurn := by
  intro s
  refine ⟨grant_busy, fun c b w ws hfree hb hw hn hturn => ?_, fun hfree hidle => ⟨fun o b left rest hp =>
    grant_pool hfree hidle hp, fun hp => ⟨fun k unit hcur => ?_, fun k sc line burst => grant_box hfree hidle hp, fun hcur => ?_⟩⟩,
    fun c => pending_iff _⟩
  · rw [grant_lane hfree ((pending_iff _).2 ⟨b, w, ws, hb, hw, hn⟩) hturn, grantLane_eq hb hw hn]
  · rw [grant_fetch hfree hidle hp, hcur]
    rfl
  · rw [grant_fetch hfree hidle hp]
    obtain hcur | ⟨k, hcur⟩ := hcur <;> rw [hcur] <;> rfl

end Sys2Proof.Machine
end

section
/-! SUPPORT and PROOFS. BURST_DONE: what a burst carried out leaves alone, what it stores, and what it completes, by its requester
(R35, R36, R83, R92, R130, R148 to R151). -/

namespace Sys2Proof.Machine

/-! ### What a burst leaves alone -/

/-- The state with all that a burst carried out may change set aside. -/
def State.sansBurst (s : State) : State :=
  { s with
    mem := [], lanes := Quad.all Lane.reset, capture := Capture.reset
    plans := { slots := Quad.all PlanSlot.reset, walk := none }, composer := none, arb := Arb.reset
    ports := Duo.all PortState.reset }

theorem eq_of_sansBurst {s t : State} (h : t.sansBurst = s.sansBurst) :
    t = { s with
      mem := t.mem, lanes := t.lanes, capture := t.capture, plans := t.plans, composer := t.composer, arb := t.arb
      ports := t.ports } := by
  obtain ⟨⟩ := s
  obtain ⟨⟩ := t
  simp only [State.sansBurst, State.mk.injEq] at h ⊢
  tauto

/-- The state with the Arbiter FREE again. -/
def State.freed (s : State) : State := { s with arb := { s.arb with inFlight := none } }

section frame
variable (s : State)

@[simp] theorem answer_sansBurst (p : Port) (c : Code) (bs : List Byte) : (s.answer p c bs).sansBurst = s.sansBurst := by
  obtain ⟨x, h⟩ := answer_frame s p c bs
  rw [h]
  rfl

@[simp] theorem grant_sansBurst : s.grant.sansBurst = s.sansBurst := by
  obtain ⟨l, a, h, -⟩ := grant_frame s
  rw [h]
  rfl

@[simp] theorem markMesh_sansBurst (p : Port) (id : PlanId) (i : Nat) : (s.markMesh p id i).sansBurst = s.sansBurst := by
  unfold State.markMesh
  split
  · split <;> rfl
  · rfl

@[simp] theorem laneBurstDone_sansBurst (c : Camera) : (s.laneBurstDone c).sansBurst = s.sansBurst := by
  unfold State.laneBurstDone
  dsimp only
  repeat' split
  all_goals rfl

@[simp] theorem poolBurstDone_sansBurst (b : PoolBurst) : (s.poolBurstDone b).sansBurst = s.sansBurst := by
  unfold State.poolBurstDone
  split
  · rfl
  · split
    · rename_i p id unit i rec _
      extract_lets t
      have ht : t.sansBurst = s.sansBurst := markMesh_sansBurst _ p id i
      split
      · exact (answer_sansBurst ..).trans ht
      · exact ht
    · extract_lets got
      split
      · exact answer_sansBurst ..
      · rfl
    · rfl
    · rfl

@[simp] theorem fetchBurstDone_sansBurst (addr : Nat) : (s.fetchBurstDone addr).sansBurst = s.sansBurst := by
  unfold State.fetchBurstDone
  split
  · rfl
  · extract_lets data
    split
    · rfl
    · extract_lets y
      split
      · unfold State.areaFetched
        split
        · exact grant_sansBurst _
        · rfl
      · rfl
    · rfl

theorem burstDone_sansBurst (b : Burst) : (s.burstDone b).sansBurst = s.sansBurst := by
  cases b with
  | lane c addr data withdrawn =>
    cases withdrawn
    · exact laneBurstDone_sansBurst _ c
    · rfl
  | pool b => exact poolBurstDone_sansBurst s b
  | fetch addr withdrawn =>
    cases withdrawn
    · exact fetchBurstDone_sansBurst s addr
    · rfl

end frame

/-! ### What a burst stores -/

section burst
variable {s : State}

/-- The burst in flight is carried out with the Arbiter FREE, which then grants the next (R149). -/
theorem exec_burstDone {b : Burst} (h : s.arb.inFlight = some b) :
    exec .burstDone s = .next (s.freed.burstDone b).grant := by
  simp only [exec, execBurstDone, h]
  rfl

/-- A write fills its bytes and leaves the others as they were. -/
theorem writeBytes_reads {m : Memory} (hm : m.wf) (addr : Nat) (bytes : List Byte) :
    (∀ j, (h : j < bytes.length) → (m.writeBytes addr bytes).read (addr + j) = bytes[j])
    ∧ ∀ a, a < addr ∨ addr + bytes.length ≤ a → (m.writeBytes addr bytes).read a = m.read a :=
  ⟨fun j h => Memory.read_writeBytes_in bytes m addr j hm h, fun a h => Memory.read_writeBytes_other bytes m addr a hm h⟩

/-- A record burst of a PLAN_MESHES is stored at its pool unit (R83). -/
theorem poolBurstDone_stores {p : Port} {id : PlanId} {left : List PoolBurst} {rest : List PoolRequest}
    (hp : s.arb.pool = { owner := .meshes p id, left := left } :: rest) (unit i : Nat) (rec : List Byte) :
    (s.poolBurstDone (.write unit i rec)).mem = s.mem.writeBytes (Config.unitAddr unit) rec := by
  simp [State.poolBurstDone, hp, mem_ite, answer_mem, State.popPool]

theorem poolBurstDone_read_mem (s : State) (unit : Nat) : (s.poolBurstDone (.read unit)).mem = s.mem := by
  obtain h | ⟨_, _, _, h, -⟩ := poolBurstDone_mem s (.read unit)
  · exact h
  · cases h

/-- BURST_DONE changes the blocks of its requesters alone, and stores a lane's burst and a record burst alone (R148, R151). -/
theorem burstDone_stores {b : Burst} (hb : s.arb.inFlight = some b) (hm : s.mem.wf) :
    ∃ t, exec .burstDone s = .next t
      ∧ t = { s with
        mem := t.mem, lanes := t.lanes, capture := t.capture, plans := t.plans, composer := t.composer, arb := t.arb
        ports := t.ports }
      ∧ (∀ c addr data, b = .lane c addr data false →
        (∀ j, (h : j < data.length) → t.mem.read (addr + j) = data[j])
        ∧ ∀ a, a < addr ∨ addr + data.length ≤ a → t.mem.read a = s.mem.read a)
      ∧ (∀ p id left rest unit i rec, b = .pool (.write unit i rec) →
        s.arb.pool = { owner := .meshes p id, left := left } :: rest →
        (∀ j, (h : j < rec.length) → t.mem.read (Config.unitAddr unit + j) = rec[j])
        ∧ ∀ a, a < Config.unitAddr unit ∨ Config.unitAddr unit + rec.length ≤ a → t.mem.read a = s.mem.read a)
      ∧ (∀ c addr data, b = .lane c addr data true → t.mem = s.mem)
      ∧ (∀ unit, b = .pool (.read unit) → t.mem = s.mem)
      ∧ ∀ addr w, b = .fetch addr w → t.mem = s.mem := by
  have hmem : (s.freed.burstDone b).grant.mem = (s.freed.burstDone b).mem := grant_mem _
  refine ⟨_, exec_burstDone hb, eq_of_sansBurst ((grant_sansBurst _).trans (burstDone_sansBurst s.freed b)), ?_, ?_, ?_, ?_, ?_⟩ <;>
    rw [hmem]
  · rintro c addr data rfl
    have hstored : (s.freed.burstDone (.lane c addr data false)).mem = s.mem.writeBytes addr data :=
      mem_of_sansPipe (laneBurstDone_sansPipe _ c)
    rw [hstored]
    exact writeBytes_reads hm addr data
  · rintro p id left rest unit i rec rfl hp
    have hstored : (s.freed.burstDone (.pool (.write unit i rec))).mem = s.mem.writeBytes (Config.unitAddr unit) rec :=
      poolBurstDone_stores (s := s.freed) hp unit i rec
    rw [hstored]
    exact writeBytes_reads hm _ rec
  · rintro c addr data rfl
    rfl
  · rintro unit rfl
    exact poolBurstDone_read_mem s.freed unit
  · rintro addr w rfl
    cases w
    · exact mem_of_sansWalk (fetchBurstDone_sansWalk s.freed addr)
    · rfl

/-! ### What a lane's burst completes -/

/-- A burst before the last of a lane's write completes nothing (R35). -/
theorem laneBurstDone_goesOn {c : Camera}
    (h : ∀ y w ws, (s.lane c).busy = some y → y.writes = w :: ws → y.granted < 40) : s.laneBurstDone c = s := by
  unfold State.laneBurstDone
  dsimp only
  split
  · rfl
  · rename_i y hy
    split
    · rfl
    · rename_i w ws hw
      exact if_pos (h y w ws hy hw)

section last
variable {c : Camera} {y : Consumption} {w : LineWrite} {ws : List LineWrite} (hy : (s.lane c).busy = some y)
  (hw : y.writes = w :: ws) (hn : 40 ≤ y.granted)
include hy hw hn

/-- The last burst of the line's own write completes it (R35, R37). -/
theorem laneBurstDone_own (hk : w.kind = .own) : s.laneBurstDone c =
    { s with
      lanes := s.lanes.set c.idx
        { s.lane c with busy := some { y with writes := ws, granted := 0, ownDone := true } } } := by
  have hlast : ¬y.granted < Config.lineBursts := not_lt.2 hn
  simp only [State.laneBurstDone, hy, hw, if_neg hlast, hk]
  rfl

/-- The last burst of a repair with no frame filling completes the write alone (R36). -/
theorem laneBurstDone_noFrame (hk : w.kind = .repair) (hf : (s.lane c).frame = none) : s.laneBurstDone c =
    { s with lanes := s.lanes.set c.idx { s.lane c with busy := some { y with writes := ws, granted := 0 } } } := by
  have hlast : ¬y.granted < Config.lineBursts := not_lt.2 hn
  simp only [State.laneBurstDone, hy, hw, if_neg hlast, hk, hf]
  rfl

/-- The last burst of a repair completes it, and the repair is counted and reported (R36, R42). -/
theorem laneBurstDone_repair (hk : w.kind = .repair) {p : FrameProgress} (hf : (s.lane c).frame = some p) :
    s.laneBurstDone c = { s with
      capture := s.capture.report c p.tag .repaired
      lanes := s.lanes.set c.idx
        { s.lane c with
          busy := some { y with writes := ws, granted := 0 }, frame := some { p with repaired := p.repaired + 1 } } } := by
  have hlast : ¬y.granted < Config.lineBursts := not_lt.2 hn
  simp only [State.laneBurstDone, hy, hw, if_neg hlast, hk, hf]

end last

end burst
end Sys2Proof.Machine
end

section
/-! PROOFS. BURST_DONE: what a burst of the pool requester or of the Composer fetch completes, and the statement of bursts carried
out (R83, R92, R130, R148 to R151). -/

namespace Sys2Proof.Machine

/-! ### The pool requester -/

/-- The answer of a request in execution. -/
theorem answer_executing {s : State} {p : Port} {r : Request} (h : (s.ports.get p).executing = some r) (c : Code)
    (bs : List Byte) : s.answer p c bs = s.answered p r c bs := by
  simp only [State.answer, h]
  rfl

/-- A plan with a mesh marked written, where it is LOADING for the port (R83). -/
def PlanHold.marked (h : PlanHold) (p : Port) (i : Nat) : PlanHold :=
  match h with
  | .loading c at0 ab =>
    if c.opener = p then .loading { c with meshWritten := c.meshWritten.set i true } at0 ab else .loading c at0 ab
  | h => h

theorem markMesh_eq (s : State) (p : Port) (id : PlanId) (i : Nat) :
    s.markMesh p id i = s.setHold id ((s.plan id).hold.marked p i) := by
  have hsame : s.setHold id (s.plan id).hold = s := by
    have hslots : s.plans.slots.set id (s.plan id) = s.plans.slots := Quad.set_get ..
    rw [State.setHold, State.setPlan, hslots]
  unfold State.markMesh PlanHold.marked
  cases h : (s.plan id).hold with
  | loading c at0 ab =>
    dsimp only
    split
    · rfl
    · rw [← h, hsame]
  | empty | verifying | verified | rejected =>
    dsimp only
    rw [← h, hsame]

/-- The number of meshes marked written, of a plan's state. -/
theorem meshesWritten_setHold (s : State) (id : PlanId) (h : PlanHold) :
    (s.setHold id h).meshesWritten id = (h.content.map (fun c => c.meshWritten.countP (fun w => w))).getD 0 := by
  rw [State.meshesWritten, setHold_hold_same]
  rfl

/-- The state with the requests `rest` left to the pool requester. -/
def State.poolLeft (s : State) (rest : List PoolRequest) : State := { s with arb := { s.arb with pool := rest } }

theorem popPool_eq {s : State} {q : PoolRequest} {rest : List PoolRequest} (h : s.arb.pool = q :: rest) :
    s.popPool = s.poolLeft rest := by
  simp only [State.popPool, h]
  rfl

/-- A mesh record stored at its pool unit, and its mesh marked written (R83). -/
def State.recordStored (s : State) (p : Port) (id : PlanId) (unit i : Nat) (rec : List Byte) : State :=
  ({ s with mem := s.mem.writeBytes (Config.unitAddr unit) rec } : State).setHold id ((s.plan id).hold.marked p i)

/-- The answer of a PLAN_READ with a record read, and the mesh's mark, at its end (R92). -/
def State.readAnswer (s : State) (marks : List Bool) (got : List Byte) (unit : Nat) : List Byte :=
  got ++ s.mem.readBytes (Config.unitAddr unit) 36 ++ mark (marks.head?.getD false)

section pool
variable {s : State} {rest : List PoolRequest} {left : List PoolBurst} {unit : Nat}

section meshes
variable {p : Port} {id : PlanId} (hp : s.arb.pool = { owner := .meshes p id, left := left } :: rest) (i : Nat)
  (rec : List Byte)
include hp

/-- A record burst stores its record and marks its mesh (R83). -/
theorem poolBurstDone_write (hl : left ≠ []) : s.poolBurstDone (.write unit i rec) = s.recordStored p id unit i rec := by
  simp only [State.poolBurstDone, hp, markMesh_eq, if_neg hl]
  rfl

/-- The last one answers its PLAN_MESHES with the meshes marked written (R83). -/
theorem poolBurstDone_writeLast (hl : left = []) {r : Request} (hr : (s.ports.get p).executing = some r) :
    s.poolBurstDone (.write unit i rec) = ((s.recordStored p id unit i rec).poolLeft rest).answered p r .ok
      (be2 ((((s.plan id).hold.marked p i).content.map (fun c => c.meshWritten.countP (fun w => w))).getD 0)) := by
  have hstored : ({ s with mem := s.mem.writeBytes (Config.unitAddr unit) rec } : State).markMesh p id i
      = s.recordStored p id unit i rec := markMesh_eq ..
  have hpool : (s.recordStored p id unit i rec).popPool = (s.recordStored p id unit i rec).poolLeft rest := popPool_eq hp
  have hcount := meshesWritten_setHold { s with mem := s.mem.writeBytes (Config.unitAddr unit) rec } id
    ((s.plan id).hold.marked p i)
  simp only [State.poolBurstDone, hp, if_pos hl, hstored, hpool]
  rw [answer_executing (s := (s.recordStored p id unit i rec).poolLeft rest) hr]
  exact congrArg _ (congrArg be2 hcount)

end meshes

section read
variable {p : Port} {marks : List Bool} {got : List Byte}
  (hp : s.arb.pool = { owner := .read p marks got, left := left } :: rest)
include hp

/-- A record read for a PLAN_READ joins its answer with its mark (R92). -/
theorem poolBurstDone_read (hl : left ≠ []) : s.poolBurstDone (.read unit) =
    s.poolLeft ({ owner := .read p marks.tail (s.readAnswer marks got unit), left := left } :: rest) := by
  simp only [State.poolBurstDone, hp, if_neg hl]
  rfl

/-- The last one posts the answer (R92). -/
theorem poolBurstDone_readLast (hl : left = []) {r : Request} (hr : (s.ports.get p).executing = some r) :
    s.poolBurstDone (.read unit) = (s.poolLeft rest).answered p r .ok (s.readAnswer marks got unit) := by
  simp only [State.poolBurstDone, hp, if_pos hl, popPool_eq hp]
  rw [answer_executing (s := s.poolLeft rest) hr]
  rfl

end read

/-- A record read for the verification walk is kept for it (R84). -/
theorem poolBurstDone_walk (hp : s.arb.pool = { owner := .walk, left := left } :: rest) : s.poolBurstDone (.read unit) =
    { s with
      arb := { s.arb with pool := rest }
      plans := { s.plans with
        walk := s.plans.walk.map (fun w => { w with record := some (s.mem.readBytes (Config.unitAddr unit) 36) }) } } := by
  simp only [State.poolBurstDone, hp, popPool_eq hp]
  rfl

end pool

/-! ### The Composer fetch -/

/-- A shorter read is the beginning of a longer one. -/
theorem take_readBytes (m : Memory) (a : Nat) {k n : Nat} (h : k ≤ n) : (m.readBytes a n).take k = m.readBytes a k := by
  simp only [Memory.readBytes, ← List.map_take, List.take_range, Nat.min_eq_left h]

section fetch
variable {s : State} {x : Context} {k : Nat} (hx : s.composer = some x) (addr : Nat)
include hx

/-- A mesh read carried out is in the tile fetch buffer, to be taken up next (R130, R150). -/
theorem fetchBurstDone_mesh (hp : x.phase = .fetching (.meshRead k)) : s.fetchBurstDone addr =
    { s with
      arb := { s.arb with cursor := none }
      composer := some
        { x with
          phase := .fetching (.meshDone k)
          draws := x.draws.modify k (fun d => { d with record := s.mem.readBytes addr 36 }) } } := by
  have hrec : (s.mem.readBytes addr Config.burstBytes).take Config.meshBytes = s.mem.readBytes addr 36 :=
    take_readBytes s.mem addr (by decide)
  simp only [State.fetchBurstDone, hx, hp, hrec]
  rfl

/-- A composition with a burst's data in the tile fetch buffer (R130). -/
def Context.boxed (x : Context) (k : Nat) (data : List Byte) : Context :=
  { x with draws := x.draws.modify k (fun d => { d with data := d.data ++ data }) }

/-- A burst of a box that is not its last joins the tile fetch buffer (R130, R150). -/
theorem fetchBurstDone_box (hp : x.phase = .fetching (.boxRead k)) (hc : ∀ j, s.arb.cursor ≠ some (.granted j)) :
    s.fetchBurstDone addr = { s with composer := some (x.boxed k (s.mem.readBytes addr 64)) } := by
  simp only [State.fetchBurstDone, hx, hp]
  rfl

section last
variable (hp : x.phase = .fetching (.boxRead k)) {j : Nat} (hc : s.arb.cursor = some (.granted j))
include hp hc

theorem fetchBurstDone_lastOfBox :
    s.fetchBurstDone addr = s.dropCursor.areaFetched (x.boxed k (s.mem.readBytes addr 64)) k := by
  simp only [State.fetchBurstDone, hx, hp, hc]
  rfl

/-- The last burst of the last box: the tile is fetched (R130). -/
theorem fetchBurstDone_lastBox (hd : x.draws[k + 1]? = none) : s.fetchBurstDone addr =
    { s with
      arb := { s.arb with cursor := none }
      composer := some { x.boxed k (s.mem.readBytes addr 64) with phase := .fetching .fetched } } := by
  have hnext : (x.boxed k (s.mem.readBytes addr 64)).draws[k + 1]? = none := by simp [Context.boxed, hd]
  rw [fetchBurstDone_lastOfBox hx addr hp hc]
  simp only [State.areaFetched, hnext]
  rfl

/-- The last burst of a box before the last: the next area's mesh read is in hand, and granted where the Arbiter is FREE (R150). -/
theorem fetchBurstDone_nextArea {d : Draw} (hd : x.draws[k + 1]? = some d) : s.fetchBurstDone addr =
    ({ s with
      arb := { s.arb with cursor := some (.mesh (k + 1) (((s.viewPlan x).map PlanContent.base).getD 0 + d.mesh)) }
      composer := some
        { x.boxed k (s.mem.readBytes addr 64) with phase := .fetching (.meshRead (k + 1)) } } : State).grant := by
  have hnext : (x.boxed k (s.mem.readBytes addr 64)).draws[k + 1]? = some d := by simp [Context.boxed, hd]
  rw [fetchBurstDone_lastOfBox hx addr hp hc]
  simp only [State.areaFetched, hnext]
  rfl

end last
end fetch

/-- Settles O46: the bytes by `burstDone_stores`, and what a burst completes by its requester. -/
theorem burstWritesItsBytesAndNoOthers : Obligations.BurstWritesItsBytesAndNoOthers := by
  refine ⟨fun s b hb hm => burstDone_stores hb hm, fun s b hb => ?_⟩
  intro f pooled bytes
  have hexec : exec .burstDone s = .next (f.burstDone b).grant := exec_burstDone hb
  refine ⟨?withdrawnLane, ?withdrawnFetch, ?lane, ?meshes, ?read, ?walk, ?fetch⟩
  case withdrawnLane =>
    rintro c addr data rfl
    exact hexec
  case withdrawnFetch =>
    rintro addr rfl
    exact hexec
  case lane =>
    rintro c addr data rfl
    intro m
    have hlane : exec .burstDone s = .next (m.laneBurstDone c).grant := hexec
    refine ⟨fun h => ?_, fun y w ws hy hw hn => ⟨fun hk => ?_, fun hk hf => ?_, fun p hk hf => ?_⟩⟩
    · rw [hlane, laneBurstDone_goesOn (s := m) h]
    · rw [hlane, laneBurstDone_own (s := m) hy hw hn hk]
      rfl
    · rw [hlane, laneBurstDone_noFrame (s := m) hy hw hn hk hf]
      rfl
    · rw [hlane, laneBurstDone_repair (s := m) hy hw hn hk hf]
      rfl
  case meshes =>
    rintro p id left rest unit i rec r rfl hp hr
    intro hold m
    have hpool : exec .burstDone s = .next (f.poolBurstDone (.write unit i rec)).grant := hexec
    refine ⟨fun hl => ?_, fun hl => ?_⟩
    · rw [hpool, poolBurstDone_write (s := f) hp i rec hl]
      rfl
    · rw [hpool, poolBurstDone_writeLast (s := f) hp i rec hl hr]
      rfl
  case read =>
    rintro p marks got left rest unit r rfl hp hr
    intro all
    have hpool : exec .burstDone s = .next (f.poolBurstDone (.read unit)).grant := hexec
    refine ⟨fun hl => ?_, fun hl => ?_⟩
    · rw [hpool, poolBurstDone_read (s := f) hp hl]
      rfl
    · rw [hpool, poolBurstDone_readLast (s := f) hp hl hr]
      rfl
  case walk =>
    rintro left rest unit rfl hp
    have hpool : exec .burstDone s = .next (f.poolBurstDone (.read unit)).grant := hexec
    rw [hpool, poolBurstDone_walk (s := f) hp]
    rfl
  case fetch =>
    rintro addr x rfl hx
    intro went
    have hfetch : exec .burstDone s = .next (f.fetchBurstDone addr).grant := hexec
    refine ⟨fun k hp => ?_, fun k hp => ?_⟩
    · rw [hfetch, fetchBurstDone_mesh (s := f) hx addr hp]
      rfl
    · intro y
      refine ⟨fun hc => ?_, fun j hc => ⟨fun hd => ?_, fun d hd => ?_⟩⟩
      · rw [hfetch, fetchBurstDone_box (s := f) hx addr hp hc]
        rfl
      · rw [hfetch, fetchBurstDone_lastBox (s := f) hx addr hp hc hd]
        rfl
      · rw [hfetch, fetchBurstDone_nextArea (s := f) hx addr hp hc hd, grant_grant]
        rfl

end Sys2Proof.Machine
end

section
/-! SUPPORT. A row that leaves the row buffer: what becomes of the places, and the row test that the Composer takes where it waits
for the room (R132, R152). -/

namespace Sys2Proof.Machine

/-! ### Places -/

section place
variable (x : Place) (frame row : Nat)

/-- A COMPLETE row of a picture is one row. -/
theorem rowTiles_one {x : Place} {frame row r : Nat} (h : (x.rowTiles frame row).isSome = true) (hr : r ≠ row) :
    x.rowTiles frame r = none := by
  cases x with
  | free | drawing => rfl
  | complete f k tiles =>
    have hk : f = frame ∧ k = row := by
      by_contra hk
      simp [Place.rowTiles, hk] at h
    exact if_neg (by omega)

/-- A place freed of a row no longer holds it, and holds any other row as before. -/
theorem rowTiles_freed (r : Nat) :
    (if (x.rowTiles frame row).isSome then Place.free else x).rowTiles frame r =
      if r = row then none else x.rowTiles frame r := by
  by_cases h : (x.rowTiles frame row).isSome = true
  · rw [if_pos h]
    split
    · rfl
    · rename_i hr
      exact (rowTiles_one h hr).symm
  · rw [if_neg h]
    split
    · rename_i hr
      rw [hr]
      simpa using h
    · rfl

end place

/-! ### The row buffer -/

section buffer
variable (v : ViewLane) (frame row : Nat)

theorem holdsRow_eq : v.holdsRow frame row = (v.rowTiles frame row).isSome := by
  unfold ViewLane.holdsRow ViewLane.rowTiles
  cases v.placeA.rowTiles frame row <;> rfl

/-- A row freed leaves the buffer, and the picture's other rows stay (R152). -/
theorem freeRow_rowTiles (r : Nat) :
    (v.freeRow frame row).rowTiles frame r = if r = row then none else v.rowTiles frame r := by
  unfold ViewLane.rowTiles ViewLane.freeRow ViewLane.onPlaces
  simp only [rowTiles_freed]
  by_cases hr : r = row
  · simp only [if_pos hr]
  · simp only [if_neg hr]

/-- A row that leaves the buffer makes room for one. -/
theorem freeRow_completeCount (h : v.holdsRow frame row = true) : (v.freeRow frame row).completeCount < 2 := by
  have hnot : ¬Place.free.isComplete = true := by decide
  unfold ViewLane.completeCount
  obtain hA | hB := Bool.or_eq_true_iff.1 h
  · have hfree : (v.freeRow frame row).placeA = .free := if_pos hA
    rw [hfree, if_neg hnot]
    split <;> omega
  · have hfree : (v.freeRow frame row).placeB = .free := if_pos hB
    rw [hfree, if_neg hnot]
    split <;> omega

/-- A row begun takes a FREE place and disturbs no COMPLETE row (R152). -/
theorem beginRow_rowTiles (f r : Nat) : (v.beginRow frame row).rowTiles f r = v.rowTiles f r := by
  have hfree : ∀ {x : Place}, x.isFree = true → x.rowTiles f r = none := fun {x} h => by
    cases x with
    | free => rfl
    | drawing | complete => cases h
  unfold ViewLane.beginRow
  split
  · rename_i hA
    simp only [ViewLane.rowTiles, hfree hA]
    rfl
  · split
    · rename_i hB
      simp only [ViewLane.rowTiles, hfree hB]
      rfl
    · rfl

end buffer

/-! ### The Composer told -/

section told
variable {s : State}

theorem rowLeft_waiting {y : Context} (hy : s.composer = some y) (hp : y.phase = .rowWait) : s.rowLeft = s.beginRow y := by
  simp only [State.rowLeft, hy, hp, if_true]

theorem rowLeft_still (h : ∀ y, s.composer = some y → y.phase ≠ .rowWait) : s.rowLeft = s := by
  unfold State.rowLeft
  split
  · rename_i y hy
    exact if_neg (h y hy)
  · rfl

end told

/-- `t` is `s` with row `row` of picture `frame` out of the row buffer: the picture's other rows stay, and a Composer in ROW_WAIT
has taken the row test where the row was there to leave; nothing else has changed (R132, R152). -/
structure State.RowLeaves (s : State) (frame row : Nat) (t : State) : Prop where
  rest : t = { s with
    view := { s.view with placeA := t.view.placeA, placeB := t.view.placeB }
    composer := t.composer, lanes := t.lanes, arb := t.arb }
  gone : t.view.holdsRow frame row = false
  kept : ∀ r, r ≠ row → t.view.rowTiles frame r = s.view.rowTiles frame r
  still : s.view.holdsRow frame row = false ∨ (∀ y, s.composer = some y → y.phase ≠ .rowWait) →
    t.composer = s.composer ∧ t.lanes = s.lanes ∧ t.arb = s.arb
  begun : ∀ y, s.composer = some y → y.phase = .rowWait → s.view.holdsRow frame row = true →
    ∃ z, t.composer = some z ∧ z.phase ≠ .rowWait ∧ z = { y with phase := z.phase, draws := z.draws }
      ∧ ({ s with view := t.view } : State).tileBegun y t

section leave
variable {s : State} {frame row : Nat}

/-- A row that is not in the buffer leaves nothing to do. -/
theorem rowLeaves_absent (h : s.view.holdsRow frame row = false) : s.RowLeaves frame row s where
  rest := rfl
  gone := h
  kept := fun _ _ => rfl
  still := fun _ => ⟨rfl, rfl, rfl⟩
  begun := fun _ _ _ hheld => by simp [h] at hheld

theorem freeRow_gone (v : ViewLane) (frame row : Nat) : (v.freeRow frame row).holdsRow frame row = false := by
  rw [holdsRow_eq, freeRow_rowTiles, if_pos rfl]
  rfl

theorem freeRow_kept (v : ViewLane) {frame row : Nat} (r : Nat) (hr : r ≠ row) :
    (v.freeRow frame row).rowTiles frame r = v.rowTiles frame r := by
  rw [freeRow_rowTiles, if_neg hr]

/-- With the Composer elsewhere the row leaves, and that is all. -/
theorem rowLeaves_still (h : ∀ y, s.composer = some y → y.phase ≠ .rowWait) :
    s.RowLeaves frame row { s with view := s.view.freeRow frame row } where
  rest := rfl
  gone := freeRow_gone ..
  kept := freeRow_kept s.view
  still := fun _ => ⟨rfl, rfl, rfl⟩
  begun := fun y hy hp _ => absurd hp (h y hy)

/-- A Composer in ROW_WAIT finds room, and its row begins (R132). -/
theorem rowLeaves_waiting {y : Context} (hy : s.composer = some y) (hp : y.phase = .rowWait)
    (hheld : s.view.holdsRow frame row = true) :
    s.RowLeaves frame row (({ s with view := s.view.freeRow frame row } : State).beginRow y) := by
  have hroom := freeRow_completeCount s.view frame row hheld
  obtain ⟨z, hz, hzy, hrest, -, -, hbegun⟩ := beginRow_spec { s with view := s.view.freeRow frame row } y
  obtain ⟨hphase, hview, htile⟩ := hbegun hroom
  generalize ({ s with view := s.view.freeRow frame row } : State).beginRow y = t at *
  obtain ⟨a, b, hplaces⟩ := view_beginRow_frame (s.view.freeRow frame row) y.frame y.row
  have htiles : ∀ r, t.view.rowTiles frame r = (s.view.freeRow frame row).rowTiles frame r := fun r => by
    rw [hview]
    exact beginRow_rowTiles ..
  refine ⟨?_, ?_, fun r hr => ?_, ?_, fun y' hy' _ _ => ?_⟩
  · have hv : t.view = { s.view with placeA := t.view.placeA, placeB := t.view.placeB } := by
      rw [hview, hplaces]
      rfl
    rw [← hv, hz]
    exact hrest
  · rw [holdsRow_eq, htiles, ← holdsRow_eq]
    exact freeRow_gone ..
  · rw [htiles]
    exact freeRow_kept s.view r hr
  · rintro (h | h)
    · simp [h] at hheld
    · exact absurd hp (h y hy)
  · obtain rfl : y = y' := Option.some.inj (hy.symm.trans hy')
    exact ⟨z, hz, hphase, hzy, htile⟩

/-- The end of a row in the buffer, as the frame sent tells it (R152). -/
theorem leaveBuffer_rowLeaves (s : State) (frame row : Nat) : s.RowLeaves frame row (s.leaveBuffer frame row) := by
  unfold State.leaveBuffer
  split
  · rename_i hheld
    by_cases hwait : ∃ y, s.composer = some y ∧ y.phase = .rowWait
    · obtain ⟨y, hy, hp⟩ := hwait
      rw [rowLeft_waiting (s := { s with view := s.view.freeRow frame row }) hy hp]
      exact rowLeaves_waiting hy hp hheld
    · have hstill : ∀ y, s.composer = some y → y.phase ≠ .rowWait := fun y hy hp => hwait ⟨y, hy, hp⟩
      rw [rowLeft_still (s := { s with view := s.view.freeRow frame row }) hstill]
      exact rowLeaves_still hstill
  · rename_i hheld
    exact rowLeaves_absent (by simpa using hheld)

end leave
end Sys2Proof.Machine
end

section
/-! PROOFS. The view lane sends a frame line by line: its start, each line due, its end, and the bytes of a line (R131, R152 to
R157). -/

namespace Sys2Proof.Machine

/-! ### The start of a frame -/

/-- VIEW_FRAME_START with a picture at the head that may start (R153, R156). -/
theorem exec_viewFrameStart {s : State} {w : Waiting} {rest : List Waiting} (hs : s.view.sending = none)
    (hw : s.view.waiting = w :: rest) (hr : w.aborted = true ∨ s.view.holdsRow w.frame 0 = true) :
    exec .viewFrameStart s = .next { s.runTo (s.view.quietUntil.getD 0) with
      view := s.view.startFrame w (s.runTo (s.view.quietUntil.getD 0)).now } := by
  have hready : s.view.headReady = some w := by
    simp only [ViewLane.headReady, hs, hw]
    exact if_pos (by simpa using hr)
  simp only [exec, execViewFrameStart, hready]
  rfl

/-! ### A line -/

section line
variable (v : ViewLane) (x : Transmission) (n : Nat)

theorem sendLine_picture {tiles : List (List Pixel)} (h : v.rowTiles x.frame (n / 32) = some tiles) : v.sendLine x n =
    { v with sending := some { x with pointer := .line (n + 1) }, out := some (.picture n (rowLine tiles (n % 32))) } := by
  simp only [ViewLane.sendLine, h]

theorem sendLine_fill (h : v.rowTiles x.frame (n / 32) = none) : v.sendLine x n =
    { v with
      sending := some { x with pointer := .line (n + 1), underrun := x.underrun + 1 }, out := some (.fill n x.fill) } := by
  simp only [ViewLane.sendLine, h]

/-- A line sent leaves the row buffer, the pictures waiting and the intervals as they are. -/
theorem sendLine_frame : ∃ sending out, v.sendLine x n = { v with sending := sending, out := out } := by
  cases h : v.rowTiles x.frame (n / 32) with
  | none => exact ⟨_, _, sendLine_fill v x n h⟩
  | some tiles => exact ⟨_, _, sendLine_picture v x n h⟩

end line

section due
variable {s : State} {x : Transmission} {n : Nat} (hx : s.view.sending = some x)
include hx

/-- LINE_DUE inside a row, and at line 0, sends the line at its due time (R153, R154). -/
theorem exec_lineDue_inRow (hn : x.pointer.next = n) (hlast : n < 800) (hrow : n % 32 ≠ 0 ∨ n = 0) :
    exec .lineDue s = .next { s.runTo (s.view.dueAt x n) with view := s.view.sendLine x n } := by
  subst hn
  have hinside : ¬(x.pointer.next % 32 = 0 ∧ 0 < x.pointer.next) := by omega
  simp only [exec, execLineDue, hx, if_pos hlast, if_neg hinside]
  rfl

/-- At the first line of a row the row before it has left the buffer (R152). -/
theorem exec_lineDue_newRow (hn : x.pointer.next = n) (hlast : n < 800) (hrow : n % 32 = 0) (h0 : 0 < n) :
    let b := (s.runTo (s.view.dueAt x n)).leaveBuffer x.frame (n / 32 - 1)
    exec .lineDue s = .next { b with view := b.view.sendLine x n } := by
  subst hn
  simp only [exec, execLineDue, hx, if_pos hlast, if_pos (And.intro hrow h0)]

/-- VIEW_FRAME_END after line 799 takes row 24 out of the buffer and ends the frame (R152, R153). -/
theorem exec_viewFrameEnd (hp : x.pointer = .line 800) :
    let b := (s.runTo (s.view.dueAt x 800)).leaveBuffer x.frame 24
    exec .viewFrameEnd s = .next { b with view := b.view.endFrame x (b.composer.map Context.frame) } := by
  simp only [exec, execViewFrameEnd, hx, if_pos hp]

end due

/-! ### What the view lane does after a row has left -/

section leaves
variable {s b : State} {frame row : Nat} (h : s.RowLeaves frame row b) (v : ViewLane)
include h

/-- The view lane may go on to change, and the rest is as the row left it. -/
theorem rowLeaves_rest : ({ b with view := v } : State) =
    { s with view := v, composer := b.composer, lanes := b.lanes, arb := b.arb } := by
  rw [h.rest]

/-- A tile begun where a row left is begun whatever the view lane goes on to do. -/
theorem rowLeaves_begun {y : Context} (hy : s.composer = some y) (hp : y.phase = .rowWait)
    (hheld : s.view.holdsRow frame row = true) : ∃ z, b.composer = some z ∧ z.phase ≠ .rowWait
      ∧ z = { y with phase := z.phase, draws := z.draws }
      ∧ ({ s with view := v } : State).tileBegun y { b with view := v } := by
  obtain ⟨z, hz, hphase, hzy, htile⟩ := h.begun y hy hp hheld
  exact ⟨z, hz, hphase, hzy, tileBegun_view { s with view := b.view } y b v htile⟩

/-- The view lane's other fields are as they were before the row left. -/
theorem rowLeaves_view : b.view = { s.view with placeA := b.view.placeA, placeB := b.view.placeB } :=
  congrArg State.view h.rest

theorem rowLeaves_interval : b.view.interval = s.view.interval := by rw [rowLeaves_view h]

theorem rowLeaves_waits : b.view.waiting = s.view.waiting := by rw [rowLeaves_view h]

theorem rowLeaves_now : b.now = s.now := by rw [h.rest]

end leaves

/-- Settles O49: a frame's start and a line inside a row are equations; at a row's first line and at the frame's end the row
before leaves the buffer first (`leaveBuffer_rowLeaves`), and the view lane goes on from there. -/
theorem framesAreSentLineByLine : Obligations.FramesAreSentLineByLine := by
  refine ⟨fun s w rest hs hw hr => ?start, fun s x n hx hn hlast hrow => ?inRow,
    fun s x n hx hn hlast hrow h0 => ?newRow, fun s x hx hp => ?ends, fun x => rfl, fun n pixels => rfl, fun n colour => ?fill⟩
  case start =>
    refine ⟨_, exec_viewFrameStart hs hw hr, runTo_now s _, rfl, ?_⟩
    simp only [ViewLane.startFrame, hw, List.tail_cons]
  case inRow =>
    have hexec := exec_lineDue_inRow hx hn hlast hrow
    refine ⟨fun tiles h => ?_, fun h => ?_⟩
    · rw [hexec, sendLine_picture _ _ _ h]
      rfl
    · rw [hexec, sendLine_fill _ _ _ h]
      rfl
  case newRow =>
    have hexec := exec_lineDue_newRow hx hn hlast hrow h0
    have hleft := leaveBuffer_rowLeaves (s.runTo (s.view.dueAt x n)) x.frame (n / 32 - 1)
    generalize (s.runTo (s.view.dueAt x n)).leaveBuffer x.frame (n / 32 - 1) = b at hexec hleft
    obtain ⟨sending, out, hsent⟩ := sendLine_frame b.view x n
    have hrows : ∀ f r, (b.view.sendLine x n).rowTiles f r = b.view.rowTiles f r := fun f r => by
      rw [hsent]
      rfl
    have hkept : b.view.rowTiles x.frame (n / 32) = s.view.rowTiles x.frame (n / 32) := hleft.kept _ (by omega)
    refine ⟨_, hexec, (rowLeaves_now hleft).trans (runTo_now s _), fun tiles h => ?_, fun h => ?_, ?_, ?_,
      rowLeaves_rest hleft _, hleft.still, fun y hy hp hheld _ => ?_⟩
    · rw [← hkept] at h
      refine ⟨?_, ?_, (hrows _ _).trans h⟩ <;> rw [sendLine_picture _ _ _ h]
      rw [hrow]
    · rw [← hkept] at h
      refine ⟨?_, ?_⟩ <;> rw [sendLine_fill _ _ _ h]
    · rw [holdsRow_eq, hrows, ← holdsRow_eq]
      exact hleft.gone
    · rw [hsent, rowLeaves_view hleft]
      rfl
    · obtain ⟨z, hz, hphase, hzy, htile⟩ := rowLeaves_begun hleft (b.view.sendLine x n) hy hp hheld
      refine ⟨z, hz, hphase, hzy, ?_⟩
      rw [rowLeaves_rest hleft] at htile ⊢
      exact htile
  case ends =>
    have hexec := exec_viewFrameEnd hx hp
    have hleft := leaveBuffer_rowLeaves (s.runTo (s.view.dueAt x 800)) x.frame 24
    generalize (s.runTo (s.view.dueAt x 800)).leaveBuffer x.frame 24 = b at hexec hleft
    refine ⟨_, hexec, (rowLeaves_now hleft).trans (runTo_now s _), rfl, ?_, hleft.gone, (rowLeaves_waits hleft :),
      rowLeaves_rest hleft _, hleft.still, fun y hy hp hheld _ => ?_⟩
    · rw [ViewLane.endFrame, ViewLane.dueAt, rowLeaves_interval hleft]
      rfl
    · obtain ⟨z, -, -, -, htile⟩ := rowLeaves_begun hleft (b.view.endFrame x (b.composer.map Context.frame)) hy hp hheld
      rw [rowLeaves_rest hleft] at htile ⊢
      exact htile
  case fill =>
    simp only [SentLine.bytes, List.flatMap_def, List.map_replicate]
    rfl

end Sys2Proof.Machine
end

section
/-! SUPPORT and PROOFS. The Record Log: the ring of consecutive records, and the cursors that read it (R162 to R167). -/

namespace Sys2Proof.Machine

/-! ### The log in order -/

/-- The records are consecutive up to the next frame number, 32 at most, and the cursors name numbers up to it: what
`recordsOk` says of the Record Log (R162 to R164). -/
structure RecordLog.InOrder (x : RecordLog) : Prop where
  frames : x.ring.map FrameRecord.frame = List.range' (x.next - x.ring.length) x.ring.length
  bound : x.ring.length ≤ 32
  below : x.ring.length < x.next
  top : x.next ≤ 4294967295
  cursor : ∀ p, 1 ≤ x.cursors.get p ∧ x.cursors.get p ≤ x.next

theorem recordsOk_iff (s : State) :
    s.recordsOk ↔ s.log.InOrder ∧ ∀ x, s.composer = some x → x.frame = s.log.next := by
  constructor
  · rintro ⟨frames, bound, below, top, cp, mp, cp1, mp1, composing⟩
    exact ⟨⟨frames, bound, below, top, fun p => by cases p; exacts [⟨cp1, cp⟩, ⟨mp1, mp⟩]⟩, composing⟩
  · rintro ⟨⟨frames, bound, below, top, cursor⟩, composing⟩
    exact ⟨frames, bound, below, top, (cursor .cp).2, (cursor .mp).2, (cursor .cp).1, (cursor .mp).1, composing⟩

/-- The numbering as it begins anew: no record, and the next frame number and both cursors 1 (R163, R169). -/
theorem inOrder_restart : ({ ring := [], next := 1, cursors := Duo.all 1 } : RecordLog).InOrder :=
  ⟨rfl, by decide, by decide, by decide, fun p => by cases p <;> decide⟩

/-- Of records numbered from `a` on, those from number `n` on are what follows the first `n - a`. -/
theorem filter_consecutive (n : Nat) (l : List FrameRecord) : ∀ a, l.map FrameRecord.frame = List.range' a l.length →
    l.filter (fun r => decide (n ≤ r.frame)) = l.drop (n - a) := by
  induction l with
  | nil => exact fun _ _ => List.drop_nil.symm
  | cons r rest ih =>
    intro a h
    obtain ⟨hr, hrest⟩ := List.cons_eq_cons.1 h
    rw [List.filter_cons, ih (a + 1) hrest, hr]
    by_cases hn : n ≤ a
    · rw [if_pos (decide_eq_true hn), Nat.sub_eq_zero_of_le hn, Nat.sub_eq_zero_of_le (Nat.le_succ_of_le hn)]
      rfl
    · rw [if_neg (by simpa using hn), show n - a = n - (a + 1) + 1 by omega]
      rfl

/-- The records that a read of up to `n` from a cursor returns: from the cursor, or the oldest where that is later (R165). -/
def RecordLog.unread (x : RecordLog) (cursor n : Nat) : List FrameRecord :=
  (x.ring.drop (max cursor x.oldest - x.oldest)).take n

section log
variable {x : RecordLog}

theorem RecordLog.InOrder.oldest_eq (h : x.InOrder) : x.oldest = x.next - x.ring.length := by
  have frames := h.frames
  unfold RecordLog.oldest
  cases hring : x.ring with
  | nil => rfl
  | cons r rest =>
    rw [hring] at frames
    exact (List.cons_eq_cons.1 frames).1

theorem RecordLog.InOrder.oldest_add (h : x.InOrder) : x.oldest + x.ring.length = x.next := by
  rw [h.oldest_eq]
  exact Nat.sub_add_cancel h.below.le

theorem RecordLog.InOrder.one_le_oldest (h : x.InOrder) : 1 ≤ x.oldest := by
  rw [h.oldest_eq]
  exact Nat.sub_pos_of_lt h.below

/-- The three places of a cursor are read alike: a caught-up cursor has nothing after it (R164, R165). -/
theorem RecordLog.InOrder.read_eq (h : x.InOrder) (cursor n : Nat) :
    x.read cursor n = (x.oldest - cursor, x.unread cursor n, max cursor x.oldest + (x.unread cursor n).length) := by
  have hadd := h.oldest_add
  unfold RecordLog.read
  split
  · rename_i hcaught
    have hnone : x.unread cursor n = [] := by
      rw [RecordLog.unread, List.drop_of_length_le (by omega), List.take_nil]
    have hlost : x.oldest - cursor = 0 := by omega
    have hstart : max cursor x.oldest = cursor := by omega
    rw [hnone, hlost, hstart]
    rfl
  · have hfrom : x.ring.filter (fun r => decide (max cursor x.oldest ≤ r.frame))
        = x.ring.drop (max cursor x.oldest - x.oldest) :=
      filter_consecutive _ _ _ (h.oldest_eq ▸ h.frames)
    dsimp only
    rw [hfrom]
    rfl

/-- A read goes no further than the newest record (R164). -/
theorem RecordLog.InOrder.read_le (h : x.InOrder) {cursor : Nat} (hc : cursor ≤ x.next) (n : Nat) :
    max cursor x.oldest + (x.unread cursor n).length ≤ x.next := by
  have hadd := h.oldest_add
  have hlen : (x.unread cursor n).length ≤ x.ring.length - (max cursor x.oldest - x.oldest) := by
    rw [RecordLog.unread, List.length_take, List.length_drop]
    exact Nat.min_le_right ..
  omega

/-- A cursor may be moved to any number up to the next frame number. -/
theorem RecordLog.InOrder.withCursor (h : x.InOrder) (p : Port) {n : Nat} (h1 : 1 ≤ n) (hn : n ≤ x.next) :
    ({ x with cursors := x.cursors.set p n } : RecordLog).InOrder := by
  refine ⟨h.frames, h.bound, h.below, h.top, fun q => ?_⟩
  rw [Duo.get_set]
  split
  · exact ⟨h1, hn⟩
  · exact h.cursor q

end log

/-! ### The requests -/

section requests
variable {p : Port} {s : State} {r : Request} {rest : List Request}

/-- A cursor moved by a request in execution, and the answer. -/
theorem setCursor_answer (n : Nat) (c : Code) (bs : List Byte) :
    ((s.taken p r rest).setCursor p n).answer p c bs = (s.setCursor p n).replied p r rest c bs :=
  taken_answer (s.setCursor p n) p r rest c bs

theorem exec_recordRead_range (h : s.Ready p .recordRead r rest) (hn : byteAt r.payload 0 = 0 ∨ 4 < byteAt r.payload 0) :
    exec (.recordRead p) s = .next (s.replied p r rest .range []) := by
  rw [← taken_refuse]
  exact congrArg Host.Outcome.next ((serve_of_ready h _).trans (if_pos hn))

theorem exec_recordRead (h : s.Ready p .recordRead r rest) (hlog : s.log.InOrder)
    (hn : ¬(byteAt r.payload 0 = 0 ∨ 4 < byteAt r.payload 0)) :
    let c := s.log.cursors.get p
    let got := s.log.unread c (byteAt r.payload 0)
    let cursor := max c s.log.oldest + got.length
    exec (.recordRead p) s =
      .next ((s.setCursor p cursor).replied p r rest .ok (readBytes (s.log.oldest - c) (s.log.next - cursor) got)) := by
  refine congrArg Host.Outcome.next ((serve_of_ready h _).trans ((if_neg hn).trans ?_))
  rw [taken_log, hlog.read_eq]
  exact setCursor_answer ..

theorem exec_recordLatest_empty (h : s.Ready p .recordLatest r rest) (hring : s.log.ring = []) :
    exec (.recordLatest p) s = .next (s.replied p r rest .ok (readBytes 0 0 [])) := by
  refine congrArg Host.Outcome.next ((serve_of_ready h _).trans ?_)
  rw [taken_log, hring, ← taken_answer]
  rfl

theorem exec_recordLatest {x : FrameRecord} (h : s.Ready p .recordLatest r rest) (hlast : s.log.ring.getLast? = some x) :
    exec (.recordLatest p) s =
      .next (s.replied p r rest .ok (readBytes 0 (s.log.next - s.log.cursors.get p) [x])) := by
  refine congrArg Host.Outcome.next ((serve_of_ready h _).trans ?_)
  rw [taken_log, hlast, ← taken_answer]

theorem exec_recordRewind (h : s.Ready p .recordRewind r rest) :
    exec (.recordRewind p) s = .next ((s.setCursor p s.log.oldest).replied p r rest .ok
      (be4 s.log.oldest ++ be4 (s.log.next - s.log.oldest))) :=
  congrArg Host.Outcome.next ((serve_of_ready h _).trans (setCursor_answer ..))

end requests

/-- Settles O51: the ring is in order, so that a cursor's place gives the records it reads. -/
theorem cursorsReadTheRing : Obligations.CursorsReadTheRing := by
  intro p s r rest hs
  obtain ⟨hlog, -⟩ := (recordsOk_iff s).1 hs
  have hold := hlog.oldest_eq
  refine ⟨fun h => ⟨exec_recordRead_range h, fun h1 h4 => ⟨_, rfl, ?read⟩⟩,
    fun h => ⟨fun hring => ?empty, fun x hx => ?latest⟩, fun h => ?rewind⟩
  case read =>
    rw [exec_recordRead h hlog (by omega), RecordLog.unread, hold]
    simp only [readBytes, mark, Nat.sub_pos_iff_lt, decide_eq_true_eq]
    rfl
  case empty => exact exec_recordLatest_empty h hring
  case latest =>
    rw [exec_recordLatest h hx]
    simp [readBytes, mark, byte]
  case rewind =>
    rw [exec_recordRewind h, hold, Nat.sub_sub_self hlog.below.le]
    rfl

end Sys2Proof.Machine
end

section
/-! SUPPORT. The numbering: what the invariant of the records reads of the state, the operations that leave it alone, and
those that move it on (R116, R162, R163). -/

namespace Sys2Proof.Machine

/-- What `recordsOk` reads of the state: the Record Log, and the frame number of the composition in flight. -/
def State.numbering (s : State) : RecordLog × Option Nat := (s.log, s.composer.map Context.frame)

theorem recordsOk_iff_numbering (s : State) :
    s.recordsOk ↔ s.numbering.1.InOrder ∧ ∀ n ∈ s.numbering.2, n = s.numbering.1.next := by
  simp [recordsOk_iff, State.numbering]

theorem recordsOk_of_numbering {s t : State} (h : t.numbering = s.numbering) (hs : s.recordsOk) : t.recordsOk := by
  rw [recordsOk_iff_numbering] at hs ⊢
  rwa [h]

theorem numbering_composing {s : State} {x : Context} (h : s.composer = some x) :
    s.numbering = (s.log, some x.frame) := by
  rw [State.numbering, h]
  rfl

theorem numbering_ite (c : Prop) [Decidable c] (a b : State) :
    (if c then a else b).numbering = if c then a.numbering else b.numbering :=
  apply_ite State.numbering c a b

/-! ### Read off the views -/

theorem numbering_of_sansPipe {s t : State} (h : t.sansPipe = s.sansPipe) : t.numbering = s.numbering := by
  have e : t.sansPipe.numbering = s.sansPipe.numbering := congrArg State.numbering h
  exact e

theorem numbering_of_sansLeases {s t : State} (h : t.sansLeases = s.sansLeases) : t.numbering = s.numbering := by
  have e : t.sansLeases.numbering = s.sansLeases.numbering := congrArg State.numbering h
  exact e

theorem sansWalk_numbering (s : State) : s.sansWalk.numbering = s.numbering := by
  unfold State.numbering State.sansWalk
  rw [Option.map_map]
  rfl

theorem numbering_of_sansWalk {s t : State} (h : t.sansWalk = s.sansWalk) : t.numbering = s.numbering := by
  rw [← sansWalk_numbering t, h, sansWalk_numbering]

section numbering
variable (s : State)

/-! ### Ports, leases and power -/

@[simp] theorem answer_numbering (p : Port) (c : Code) (bs : List Byte) :
    (s.answer p c bs).numbering = s.numbering := by
  obtain ⟨x, h⟩ := answer_frame s p c bs
  rw [h]
  rfl

@[simp] theorem refuse_numbering (p : Port) (c : Code) : (s.refuse p c).numbering = s.numbering :=
  answer_numbering s p c []

@[simp] theorem taken_numbering (p : Port) (r : Request) (rest : List Request) :
    (s.taken p r rest).numbering = s.numbering := rfl

@[simp] theorem onPort_numbering (p : Port) (f : PortState → PortState) : (s.onPort p f).numbering = s.numbering := rfl

@[simp] theorem raise_numbering (p : Port) (k : NoticeKind) : (s.raise p k).numbering = s.numbering := rfl

@[simp] theorem raiseBoth_numbering (k : NoticeKind) : (s.raiseBoth k).numbering = s.numbering := rfl

@[simp] theorem elapse_numbering (dt : Nat) : (s.elapse dt).numbering = s.numbering := rfl

@[simp] theorem runTo_numbering (t : Nat) : (s.runTo t).numbering = s.numbering := rfl

/-- The blocks that the numbering does not read leave it alone. -/
@[simp] theorem numbering_others (pending : List Instr) (now : Nat) (mem : Memory) (chain : Chain) (lanes : Quad Lane)
    (capture : Capture) (plans : Plans) (leases : Leases) (balance : Balance) (arb : Arb) (view : ViewLane)
    (ports : Duo PortState) (power : Power) :
    ({ s with
      pending := pending, now := now, mem := mem, chain := chain, lanes := lanes, capture := capture, plans := plans
      leases := leases, balance := balance, arb := arb, view := view, ports := ports, power := power } : State).numbering
      = s.numbering := rfl

@[simp] theorem raiseLease_numbering (h : LeaseHolder) : (s.raiseLease h).numbering = s.numbering :=
  numbering_of_sansLeases (raiseLease_sansLeases s h)

@[simp] theorem setViews_numbering (v : ViewSettings) : (s.setViews v).numbering = s.numbering :=
  numbering_of_sansLeases (setViews_sansLeases s v)

@[simp] theorem joinLease_numbering (h : LeaseHolder) (level : Nat) (plan : PlanId) (d : Nat) (r : Option Nat)
    (ph : Option LinePhase) : (s.joinLease h level plan d r ph).numbering = s.numbering := rfl

@[simp] theorem removeLease_numbering (l : Lease) : (s.removeLease l).numbering = s.numbering := rfl

@[simp] theorem removeLeases_numbering : s.removeLeases.numbering = s.numbering :=
  numbering_of_sansLeases (removeLeases_sansLeases s)

@[simp] theorem activate_numbering : s.activate.numbering = s.numbering := numbering_of_sansLeases (activate_sansLeases s)

@[simp] theorem inactivate_numbering : s.inactivate.numbering = s.numbering :=
  numbering_of_sansLeases (inactivate_sansLeases s)

@[simp] theorem enterRun_numbering : s.enterRun.numbering = s.numbering := by
  unfold State.enterRun State.handLevel
  refine (numbering_of_sansPipe (sendStrobe_sansPipe _)).trans ((numbering_of_sansPipe (camerasOn_sansPipe _)).trans ?_)
  split
  · exact activate_numbering _
  · rfl

@[simp] theorem wakeEvent_numbering : s.wakeEvent.numbering = s.numbering := by
  unfold State.wakeEvent
  split
  · exact enterRun_numbering s
  · split <;> rfl
  · rfl

@[simp] theorem levelChange_numbering : s.levelChange.numbering = s.numbering := by
  have hwoken : ∀ (t : State) (active : Bool), (t.lineWoken active).numbering = t.numbering := fun t active => by
    simp [State.lineWoken, numbering_ite]
  have htold : ∀ (t : State) (active : Bool), (t.lineTold active).numbering = t.numbering := fun t active => by
    cases active
    · exact inactivate_numbering t
    · exact activate_numbering t
  rw [levelChange_eq]
  split
  · rfl
  · exact hwoken _ _
  · exact (hwoken _ _).trans (htold _ _)

@[simp] theorem takeEntry_numbering : s.takeEntry.numbering = s.numbering := by
  have hentered : s.enterStandby.numbering = s.numbering := by
    have hreported : s.reportAll.numbering = s.numbering := numbering_of_sansPipe (reportAll_sansPipe s)
    unfold State.enterStandby
    generalize s.reportAll = a at hreported
    exact ((removeLeases_numbering _).trans (numbering_others a ..)).trans hreported
  rw [State.takeEntry, numbering_ite, hentered, ite_self]

@[simp] theorem beginEntry_numbering : s.beginEntry.numbering = s.numbering := takeEntry_numbering _

/-! ### The chain and the Plan Store -/

@[simp] theorem endSlot_numbering (c : Camera) (res : SlotResult) : (s.endSlot c res).numbering = s.numbering := by
  unfold State.endSlot
  split
  · rw [numbering_ite, numbering_of_sansPipe (afterSlot_sansPipe _ c), numbering_of_sansPipe (slotResult_sansPipe _ c res),
      runTo_numbering, ite_self]
  · rfl

@[simp] theorem grant_numbering : s.grant.numbering = s.numbering := numbering_of_sansPipe (grant_sansPipe s)

@[simp] theorem setHold_numbering (id : PlanId) (h : PlanHold) : (s.setHold id h).numbering = s.numbering := rfl

@[simp] theorem touchPlan_numbering (p : Port) (bs : List Byte) : (s.touchPlan p bs).numbering = s.numbering := by
  obtain h | ⟨id, c, at0, ab, -, -, -, h⟩ := touchPlan_cases s p bs <;> rw [h]
  rfl

@[simp] theorem endWalk_numbering (id : PlanId) (c : PlanContent) (r : Option Rejection) :
    (s.endWalk id c r).numbering = s.numbering := answer_numbering ..

@[simp] theorem walkOn_numbering (id : PlanId) (c : PlanContent) (passed : List Nat) (n : WalkNext) :
    (s.walkOn id c passed n).numbering = s.numbering := by
  cases n with
  | read place m => exact grant_numbering _
  | fail r => exact endWalk_numbering s id c _
  | done => exact endWalk_numbering s id c _

@[simp] theorem markMesh_numbering (p : Port) (id : PlanId) (i : Nat) : (s.markMesh p id i).numbering = s.numbering := by
  unfold State.markMesh
  split
  · rw [numbering_ite, setHold_numbering, ite_self]
  · rfl

@[simp] theorem poolBurstDone_numbering (b : PoolBurst) : (s.poolBurstDone b).numbering = s.numbering := by
  unfold State.poolBurstDone
  split
  · rfl
  · split
    · rename_i p id unit i rec _
      extract_lets t
      have ht : t.numbering = s.numbering := markMesh_numbering _ p id i
      split
      · exact (answer_numbering ..).trans ht
      · exact ht
    · extract_lets got
      split
      · exact answer_numbering ..
      · rfl
    · rfl
    · rfl

@[simp] theorem burstDone_numbering (b : Burst) : (s.burstDone b).numbering = s.numbering := by
  cases b with
  | lane c addr data withdrawn =>
    cases withdrawn
    · exact (numbering_of_sansPipe (laneBurstDone_sansPipe { s with mem := s.mem.writeBytes addr data } c)).trans rfl
    · rfl
  | pool b => exact poolBurstDone_numbering s b
  | fetch addr withdrawn =>
    cases withdrawn
    · exact numbering_of_sansWalk (fetchBurstDone_sansWalk s addr)
    · rfl

/-! ### The Composer's walk, which is on a composition of one frame number -/

theorem handBox_numbering (x : Context) (k : Nat) (d : Draw) (b : Box) :
    (s.handBox x k d b).numbering = (s.log, some x.frame) := numbering_of_sansWalk (handBox_sansWalk s x k d b)

theorem areaFetched_numbering (x : Context) (k : Nat) : (s.areaFetched x k).numbering = (s.log, some x.frame) :=
  numbering_of_sansWalk (areaFetched_sansWalk s x k)

theorem beginTile_numbering (x : Context) : (s.beginTile x).numbering = (s.log, some x.frame) :=
  numbering_of_sansWalk (beginTile_sansWalk s x)

theorem beginRow_numbering (x : Context) : (s.beginRow x).numbering = (s.log, some x.frame) :=
  numbering_of_sansWalk (beginRow_sansWalk s x)

@[simp] theorem leaveBuffer_numbering (frame row : Nat) : (s.leaveBuffer frame row).numbering = s.numbering :=
  numbering_of_sansWalk (leaveBuffer_sansWalk s frame row)

/-- A start gives the composition the next frame number (R116). -/
theorem startComposition_numbering (st : CaptureSet) (newer : List CaptureSet) :
    (s.startComposition st newer).numbering = (s.log, some s.log.next) := by
  obtain ⟨slots, ports, plans, h, -⟩ := startOpened_frame s st newer
  rw [startComposition_eq, beginRow_numbering, h]
  rfl

/-- A completion appends the composition's record (R134). -/
theorem completeComposition_numbering (x : Context) : (s.completeComposition x).numbering =
    (s.log.append (recordOf x (s.view.underrunOf x.frame) s.capture.drops false), none) := by
  obtain ⟨ports, slots, h⟩ := completeComposition_frame s x
  rw [h]
  rfl

end numbering

/-! ### The record appended -/

/-- What stays of a ring at an append: all of it, or all but the oldest record (R162). -/
def RecordLog.kept (x : RecordLog) : List FrameRecord := if 32 ≤ x.ring.length then x.ring.tail else x.ring

theorem append_restart {x : RecordLog} {r : FrameRecord} (h : r.frame = 4294967295) :
    x.append r = { ring := [], next := 1, cursors := Duo.all 1 } := if_pos h

theorem append_kept {x : RecordLog} {r : FrameRecord} (h : r.frame ≠ 4294967295) :
    x.append r = { x with ring := x.kept ++ [r], next := x.next + 1 } := if_neg h

/-- What stays is consecutive up to the next frame number as well, and has room for one more. -/
theorem RecordLog.InOrder.kept_frames {x : RecordLog} (h : x.InOrder) :
    x.kept.map FrameRecord.frame = List.range' (x.next - x.kept.length) x.kept.length ∧ x.kept.length ≤ 31
      ∧ x.kept.length < x.next := by
  have hbound := h.bound
  have hbelow := h.below
  unfold RecordLog.kept
  split
  · refine ⟨?_, ?_, ?_⟩
    · rw [List.map_tail, h.frames, List.tail_range', List.length_tail]
      congr 1
      omega
    · rw [List.length_tail]
      omega
    · rw [List.length_tail]
      omega
  · exact ⟨h.frames, by omega, hbelow⟩

/-- A record of the next frame number keeps the log in order (R162, R163). -/
theorem RecordLog.InOrder.append {x : RecordLog} (h : x.InOrder) {r : FrameRecord} (hr : r.frame = x.next) :
    (x.append r).InOrder := by
  obtain ⟨hframes, hroom, hbelow⟩ := h.kept_frames
  have htop := h.top
  by_cases hwrap : r.frame = 4294967295
  · rw [append_restart hwrap]
    exact inOrder_restart
  · rw [append_kept hwrap]
    have hlen : (x.kept ++ [r]).length = x.kept.length + 1 := List.length_append
    refine ⟨?_, ?_, ?_, ?_, fun p => ⟨(h.cursor p).1, Nat.le_succ_of_le (h.cursor p).2⟩⟩
    · rw [hlen, Nat.add_sub_add_right, List.range'_1_concat, Nat.sub_add_cancel hbelow.le, List.map_append, hframes, ← hr]
      rfl
    · rw [hlen]
      omega
    · rw [hlen]
      exact Nat.succ_lt_succ hbelow
    · exact Nat.lt_of_le_of_ne htop fun e => hwrap (hr.trans e)

/-- The record of the composition in flight carries the next frame number, so that its append keeps the records in order. -/
theorem recordsOk_append {s t : State} {x : Context} {n dropped : Nat} {aborted : Bool} (hs : s.recordsOk)
    (hx : s.numbering = (s.log, some x.frame))
    (ht : t.numbering = (s.log.append (recordOf x n dropped aborted), none)) : t.recordsOk := by
  rw [recordsOk_iff_numbering, hx] at hs
  obtain ⟨hlog, hframe⟩ := hs
  rw [recordsOk_iff_numbering, ht]
  exact ⟨hlog.append (hframe _ rfl), fun _ h => nomatch h⟩

theorem abortComposition_recordsOk {s : State} (hs : s.recordsOk) : s.abortComposition.recordsOk := by
  cases hx : s.composer with
  | none =>
    rw [State.abortComposition, hx]
    exact hs
  | some x =>
    obtain ⟨⟨ports, plans, h⟩, -⟩ := abortComposition_spec s x hx
    exact recordsOk_append hs (numbering_composing hx) (congrArg State.numbering h)

theorem startComposition_recordsOk {s : State} (st : CaptureSet) (newer : List CaptureSet) (hs : s.recordsOk) :
    (s.startComposition st newer).recordsOk := by
  rw [recordsOk_iff_numbering] at hs ⊢
  rw [startComposition_numbering]
  exact ⟨hs.1, fun n hn => (Option.some.inj hn).symm⟩

theorem rowDrawn_recordsOk {s : State} {x y : Context} (hx : s.composer = some x) (hy : y.frame = x.frame)
    (hs : s.recordsOk) : (s.rowDrawn y).recordsOk := by
  have hin : s.numbering = (s.log, some y.frame) := hy ▸ numbering_composing hx
  unfold State.rowDrawn
  split
  · exact recordsOk_append hs hin ((takeEntry_numbering _).trans (completeComposition_numbering ..))
  · exact recordsOk_of_numbering ((beginRow_numbering ..).trans hin.symm) hs

theorem drawTile_recordsOk {s : State} {x : Context} (hx : s.composer = some x) (hs : s.recordsOk) :
    (s.drawTile x).recordsOk := by
  unfold State.drawTile
  extract_lets drawn y t
  have ht : t.recordsOk := recordsOk_of_numbering rfl hs
  split
  · exact recordsOk_of_numbering ((beginTile_numbering ..).trans (numbering_composing hx).symm) ht
  · exact rowDrawn_recordsOk (s := t) hx rfl ht

/-- A cursor may be set to any number up to the next frame number (R164). -/
theorem setCursor_recordsOk {s : State} (p : Port) {n : Nat} (h1 : 1 ≤ n) (hn : n ≤ s.log.next) (hs : s.recordsOk) :
    (s.setCursor p n).recordsOk := by
  rw [recordsOk_iff] at hs ⊢
  exact ⟨hs.1.withCursor p h1 hn, hs.2⟩

end Sys2Proof.Machine
end

section
/-! PROOFS. Every command keeps the records consecutive and the composition in flight numbered with them, block by block, and
so does every step (R116, R162 to R164). -/

namespace Sys2Proof.Machine

/-- Wherever a command goes on to, the records are in order there where they are here. -/
def State.recordsKept (s : State) (o : Host.Outcome State Fault Refusal) : Prop :=
  ∀ t, o = .next t → s.recordsOk → t.recordsOk

theorem recordsKept_next {s t : State} (h : s.recordsOk → t.recordsOk) : s.recordsKept (.next t) := by
  rintro _ ⟨⟩
  exact h

/-- A command that leaves the numbering alone keeps the records. -/
theorem recordsKept_same {s t : State} (h : t.numbering = s.numbering) : s.recordsKept (.next t) :=
  recordsKept_next (recordsOk_of_numbering h)

theorem recordsKept_stay (s : State) : s.recordsKept (.next s) := recordsKept_next id

/-- An operation of the pipeline leaves the numbering alone, after time has passed or not. -/
theorem recordsKept_pipe {s t : State} (u : State) (h : t.sansPipe = u.sansPipe) (hu : u.numbering = s.numbering) :
    s.recordsKept (.next t) := recordsKept_same ((numbering_of_sansPipe h).trans hu)

/-- A step of the walk stays on the composition in flight. -/
theorem recordsKept_walk {s t : State} {x : Context} (hx : s.composer = some x) (h : t.numbering = (s.log, some x.frame)) :
    s.recordsKept (.next t) := recordsKept_same (h.trans (numbering_composing hx).symm)

/-- A request keeps the records whose rule keeps those of the state in which it is taken. -/
theorem recordsKept_serve {s : State} {p : Port} {k : RequestKind} {body : List Byte → State → State}
    (h : ∀ bs t, t.recordsOk → (body bs t).recordsOk) : s.recordsKept (.next (s.serve p k body)) := by
  obtain e | ⟨r, rest, -, e⟩ := serve_cases s p k body
  · rw [e]
    exact recordsKept_stay s
  · rw [e]
    exact recordsKept_next fun hs => h _ _ (recordsOk_of_numbering (taken_numbering s p r rest) hs)

theorem recordsKept_serve_same {s : State} {p : Port} {k : RequestKind} {body : List Byte → State → State}
    (h : ∀ bs t, (body bs t).numbering = t.numbering) : s.recordsKept (.next (s.serve p k body)) :=
  recordsKept_serve fun bs t => recordsOk_of_numbering (h bs t)

section events
variable (s : State) (c : Camera)

/-! ### The chain, the lanes and the capture sets -/

theorem execStrobe_recordsKept : s.recordsKept (execStrobe s) := by
  unfold execStrobe
  split
  · split
    · exact recordsKept_pipe (s.runTo _) (by rw [chainSettle_sansPipe, sendStrobe_sansPipe]) rfl
    · exact recordsKept_stay s
  · exact recordsKept_stay s

theorem execCameraLost_recordsKept : s.recordsKept (execCameraLost c s) := by
  unfold execCameraLost
  split
  · exact recordsKept_same (endSlot_numbering s c _)
  · exact recordsKept_stay s

theorem execIdentTimeout_recordsKept (reply : Option (BitVec 14)) : s.recordsKept (execIdentTimeout c reply s) := by
  unfold execIdentTimeout
  split
  · split
    · exact recordsKept_same (endSlot_numbering s c _)
    · exact recordsKept_stay s
  · exact recordsKept_stay s

theorem execSettleTimerExpiry_recordsKept : s.recordsKept (execSettleTimerExpiry s) := by
  unfold execSettleTimerExpiry
  split
  · rename_i due _
    refine recordsKept_pipe (s.runTo due) ?_ rfl
    rw [withChain_sansPipe, unaddressAll_sansPipe, enqueue_sansPipe]
  · exact recordsKept_stay s

theorem execTestTimerExpiry_recordsKept : s.recordsKept (execTestTimerExpiry c s) := by
  unfold execTestTimerExpiry
  split
  · extract_lets t
    have ht : t.numbering = s.numbering := runTo_numbering s _
    split
    · exact recordsKept_same ht
    · exact recordsKept_pipe t (by rw [chainSettle_sansPipe, camFault_sansPipe]) ht
  · exact recordsKept_stay s

theorem execPacketArrival_recordsKept (how : PacketEnd) (bytes : List Byte) :
    s.recordsKept (execPacketArrival c how bytes s) := by
  unfold execPacketArrival
  extract_lets ln
  split
  · exact recordsKept_pipe s (setLane_sansPipe ..) rfl
  · exact recordsKept_pipe s (by rw [reportError_sansPipe, setLane_sansPipe]) rfl

theorem execLineConsume_recordsKept : s.recordsKept (execLineConsume c s) := by
  unfold execLineConsume
  split
  · exact recordsKept_pipe s (by rw [dropLine_sansPipe, reportError_sansPipe]) rfl
  · exact recordsKept_pipe s (assess_sansPipe ..) rfl
  · exact recordsKept_pipe s (beginFrame_sansPipe ..) rfl
  · exact recordsKept_stay s

theorem execLineWriteComplete_recordsKept : s.recordsKept (execLineWriteComplete c s) := by
  unfold execLineWriteComplete
  extract_lets ln
  split
  · extract_lets g t
    have ht : t.numbering = s.numbering := rfl
    split
    · exact recordsKept_pipe t (finaliseFrame_sansPipe ..) ht
    · exact recordsKept_same ht
  · exact recordsKept_stay s

theorem execFrameAbandon_recordsKept : s.recordsKept (execFrameAbandon c s) := by
  unfold execFrameAbandon
  extract_lets ln
  split
  · exact recordsKept_pipe (s.runTo _) (by rw [grant_sansPipe, takeTail_sansPipe]) rfl
  · exact recordsKept_stay s

theorem execAbandonRepairsComplete_recordsKept : s.recordsKept (execAbandonRepairsComplete c s) := by
  unfold execAbandonRepairsComplete
  extract_lets ln
  split
  · exact recordsKept_pipe s (by rw [finaliseFrame_sansPipe, setLane_sansPipe]) rfl
  · exact recordsKept_stay s

theorem execWindowExpiry_recordsKept (tag : Tag) : s.recordsKept (execWindowExpiry tag s) := by
  unfold execWindowExpiry
  split
  · split
    · exact recordsKept_same rfl
    · exact recordsKept_stay s
  · exact recordsKept_stay s

/-! ### The Composer, the Arbiter and the View Lane -/

theorem execCompositionStart_recordsKept : s.recordsKept (execCompositionStart s) := by
  unfold execCompositionStart
  split
  · split
    · exact recordsKept_next (startComposition_recordsOk _ _)
    · exact recordsKept_stay s
  · exact recordsKept_stay s

theorem execMeshReadComplete_recordsKept : s.recordsKept (execMeshReadComplete s) := by
  unfold execMeshReadComplete
  split
  · rename_i x hx
    split
    · split
      · extract_lets y
        split
        · exact recordsKept_walk hx (handBox_numbering s y ..)
        · exact recordsKept_walk hx (areaFetched_numbering s y _)
      · exact recordsKept_stay s
    · exact recordsKept_stay s
  · exact recordsKept_stay s

theorem execFetchingEnd_recordsKept : s.recordsKept (execFetchingEnd s) := by
  unfold execFetchingEnd
  split
  · rename_i x hx
    split
    · exact recordsKept_walk hx rfl
    · exact recordsKept_stay s
  · exact recordsKept_stay s

theorem execTileDrawn_recordsKept : s.recordsKept (execTileDrawn s) := by
  unfold execTileDrawn
  split
  · rename_i x hx
    split
    · exact recordsKept_next (drawTile_recordsOk hx)
    · exact recordsKept_stay s
  · exact recordsKept_stay s

theorem execBurstDone_recordsKept : s.recordsKept (execBurstDone s) := by
  unfold execBurstDone
  split
  · exact recordsKept_same ((grant_numbering _).trans (burstDone_numbering ..))
  · exact recordsKept_stay s

theorem execViewFrameStart_recordsKept : s.recordsKept (execViewFrameStart s) := by
  unfold execViewFrameStart
  split
  · exact recordsKept_same rfl
  · exact recordsKept_stay s

theorem execLineDue_recordsKept : s.recordsKept (execLineDue s) := by
  unfold execLineDue
  split
  · extract_lets n a b
    split
    · have hb : b.numbering = s.numbering := by simp [b, a, numbering_ite]
      exact recordsKept_same hb
    · exact recordsKept_stay s
  · exact recordsKept_stay s

theorem execViewFrameEnd_recordsKept : s.recordsKept (execViewFrameEnd s) := by
  unfold execViewFrameEnd
  split
  · split
    · extract_lets a b
      have hb : b.numbering = s.numbering := leaveBuffer_numbering ..
      exact recordsKept_same hb
    · exact recordsKept_stay s
  · exact recordsKept_stay s

/-! ### Plans, leases, power and ports -/

theorem execVerifyMeshRead_recordsKept : s.recordsKept (execVerifyMeshRead s) := by
  unfold execVerifyMeshRead
  split
  · split
    · exact recordsKept_same (walkOn_numbering ..)
    · exact recordsKept_stay s
  · exact recordsKept_stay s

theorem execPlanAbandoned_recordsKept (id : PlanId) : s.recordsKept (execPlanAbandoned id s) := by
  unfold execPlanAbandoned
  split
  · exact recordsKept_same ((setHold_numbering ..).trans (runTo_numbering s _))
  · exact recordsKept_stay s

theorem execLeaseExpiry_recordsKept (handle : Nat) : s.recordsKept (execLeaseExpiry handle s) := by
  unfold execLeaseExpiry
  split
  · split
    · exact recordsKept_same (raiseLease_numbering ..)
    · exact recordsKept_stay s
  · exact recordsKept_stay s

theorem execStartingEnd_recordsKept : s.recordsKept (execStartingEnd s) := by
  unfold execStartingEnd
  split
  · exact recordsKept_same (enterRun_numbering s)
  · exact recordsKept_stay s

theorem execIdleTimerExpiry_recordsKept : s.recordsKept (execIdleTimerExpiry s) := by
  unfold execIdleTimerExpiry
  split
  · split
    · exact recordsKept_same (beginEntry_numbering _)
    · exact recordsKept_stay s
  · exact recordsKept_stay s

theorem execReverseLevelChange_recordsKept : s.recordsKept (execReverseLevelChange s) := by
  unfold execReverseLevelChange
  split
  · exact recordsKept_same (levelChange_numbering s)
  · exact recordsKept_stay s

theorem execReverseLineSample_recordsKept (active : Bool) : s.recordsKept (execReverseLineSample active s) := by
  unfold execReverseLineSample
  extract_lets t u
  have hu : u.numbering = s.numbering := by simp [u, t, numbering_ite]
  exact recordsKept_same hu

theorem execTemperatureSample_recordsKept (celsius : Int) : s.recordsKept (execTemperatureSample celsius s) := by
  unfold execTemperatureSample
  extract_lets t new power u
  refine recordsKept_same ?_
  rw [numbering_ite]
  exact ite_self _

/-- The ring is empty and the numbers are 1 after power-on reset (R169). -/
theorem execPowerOnReset_recordsKept : s.recordsKept (execPowerOnReset s) :=
  recordsKept_next fun _ => (recordsOk_iff _).2 ⟨inOrder_restart, fun _ h => nomatch h⟩

theorem execUnknownRequest_recordsKept (p : Port) : s.recordsKept (execUnknownRequest p s) := by
  unfold execUnknownRequest
  split
  · split
    · exact recordsKept_same (refuse_numbering ..)
    · exact recordsKept_stay s
  · exact recordsKept_stay s

theorem execSelectStart_recordsKept (p : Port) : s.recordsKept (execSelectStart p s) := by
  unfold execSelectStart
  split
  · exact recordsKept_same rfl
  · exact recordsKept_stay s

theorem execRequestArrival_recordsKept (p : Port) (bytes : List Byte) : s.recordsKept (execRequestArrival p bytes s) := by
  unfold execRequestArrival
  split
  · split
    · exact recordsKept_stay s
    · exact recordsKept_same rfl
  · exact recordsKept_stay s

theorem execAnswerShiftedOut_recordsKept (p : Port) : s.recordsKept (execAnswerShiftedOut p s) := by
  unfold execAnswerShiftedOut
  split
  · split
    · exact recordsKept_stay s
    · exact recordsKept_same rfl
  · exact recordsKept_stay s

end events

/-! ### Requests to the Plan Store, the Lease Arbiter and the Power and Rate Controller -/

section requests
variable (p : Port) (s : State)

theorem execPlanOpen_recordsKept : s.recordsKept (execPlanOpen p s) := by
  refine recordsKept_serve_same fun bs t => Eq.trans ?_ (touchPlan_numbering t p bs)
  dsimp only
  generalize t.touchPlan p bs = u
  split
  · exact refuse_numbering ..
  · split_ifs
    · exact refuse_numbering ..
    · exact refuse_numbering ..
    · exact refuse_numbering ..
    · exact refuse_numbering ..
    · split <;> simp

theorem execPlanTiles_recordsKept : s.recordsKept (execPlanTiles p s) := by
  refine recordsKept_serve_same fun bs t => Eq.trans ?_ (touchPlan_numbering t p bs)
  dsimp only
  generalize t.touchPlan p bs = u
  rw [numbering_ite]
  split
  · exact refuse_numbering ..
  · split
    · exact refuse_numbering ..
    · rw [numbering_ite]
      split
      · exact refuse_numbering ..
      · split <;> simp [numbering_ite]

theorem execPlanMeshes_recordsKept : s.recordsKept (execPlanMeshes p s) := by
  refine recordsKept_serve_same fun bs t => Eq.trans ?_ (touchPlan_numbering t p bs)
  dsimp only
  generalize t.touchPlan p bs = u
  rw [numbering_ite]
  split
  · exact refuse_numbering ..
  · split
    · exact refuse_numbering ..
    · rw [numbering_ite]
      split
      · exact refuse_numbering ..
      · split <;> simp [numbering_ite]

theorem execPlanVerify_recordsKept : s.recordsKept (execPlanVerify p s) := by
  refine recordsKept_serve_same fun bs t => Eq.trans ?_ (touchPlan_numbering t p bs)
  dsimp only
  generalize t.touchPlan p bs = u
  split
  · exact refuse_numbering ..
  · split <;> simp [numbering_ite]

theorem execPlanDiscard_recordsKept : s.recordsKept (execPlanDiscard p s) := by
  refine recordsKept_serve_same fun bs t => Eq.trans ?_ (touchPlan_numbering t p bs)
  dsimp only
  generalize t.touchPlan p bs = u
  split <;> simp [numbering_ite]

theorem execPlanRead_recordsKept : s.recordsKept (execPlanRead p s) := by
  refine recordsKept_serve_same fun bs t => Eq.trans ?_ (touchPlan_numbering t p bs)
  dsimp only
  generalize t.touchPlan p bs = u
  split
  · exact refuse_numbering ..
  · split
    · exact answer_numbering ..
    · rw [numbering_ite]
      split
      · exact refuse_numbering ..
      · split <;> simp
    · rw [numbering_ite]
      split
      · exact refuse_numbering ..
      · split <;> simp
    · exact refuse_numbering ..

theorem execViewClaim_recordsKept : s.recordsKept (execViewClaim p s) := by
  refine recordsKept_serve_same fun bs t => ?_
  split
  · exact refuse_numbering ..
  · simp [numbering_ite]

/-- The abort may append a record; the pipeline cleared, the answer and an entry leave the numbering alone (R169, R192). -/
theorem execPipelineRestart_recordsKept : s.recordsKept (execPipelineRestart p s) := by
  refine recordsKept_serve fun bs t ht => ?_
  split
  · exact recordsOk_of_numbering (refuse_numbering ..) ht
  · extract_lets a
    have ha : a.recordsOk :=
      recordsOk_of_numbering (numbering_of_sansPipe (restartLanes_sansPipe _)) (abortComposition_recordsOk ht)
    exact recordsOk_of_numbering ((takeEntry_numbering _).trans (answer_numbering ..)) ha

/-! ### Requests to the Record Log -/

/-- A read moves its port's cursor no further than the next frame number (R164, R165). -/
theorem execRecordRead_recordsKept : s.recordsKept (execRecordRead p s) := by
  refine recordsKept_serve fun bs t ht => ?_
  dsimp only
  split
  · exact recordsOk_of_numbering (refuse_numbering ..) ht
  · obtain ⟨hlog, -⟩ := (recordsOk_iff t).1 ht
    obtain ⟨hone, htop⟩ := hlog.cursor p
    rw [hlog.read_eq]
    have hmoved : (t.setCursor p (max (t.log.cursors.get p) t.log.oldest
        + (t.log.unread (t.log.cursors.get p) (byteAt bs 0)).length)).recordsOk :=
      setCursor_recordsOk p (by omega) (hlog.read_le htop _) ht
    exact recordsOk_of_numbering (answer_numbering ..) hmoved

/-- A rewind sets the cursor to the oldest record (R167). -/
theorem execRecordRewind_recordsKept : s.recordsKept (execRecordRewind p s) := by
  refine recordsKept_serve fun bs t ht => ?_
  obtain ⟨hlog, -⟩ := (recordsOk_iff t).1 ht
  have hrewound := setCursor_recordsOk p hlog.one_le_oldest (by have := hlog.oldest_add; omega) ht
  exact recordsOk_of_numbering (answer_numbering ..) hrewound

end requests

/-! ### Every command, and the step -/

theorem exec_recordsKept (i : Instr) (s : State) : s.recordsKept (exec i s) := by
  cases i with
  | powerOnReset => exact execPowerOnReset_recordsKept s
  | startingEnd => exact execStartingEnd_recordsKept s
  | selectStart p => exact execSelectStart_recordsKept s p
  | requestArrival p bytes => exact execRequestArrival_recordsKept s p bytes
  | selectEnd p => exact recordsKept_same rfl
  | answerShiftedOut p => exact execAnswerShiftedOut_recordsKept s p
  | unknownRequest p => exact execUnknownRequest_recordsKept s p
  | echo p | statusRead p | poolRead p | viewRead p | balanceRead p =>
    exact recordsKept_serve_same fun bs t => answer_numbering ..
  | noticeEnable p | noticeTake p | timingSet p | outputSet p | rateCap p | powerSet p | standby p =>
    exact recordsKept_serve_same fun bs t => by simp [numbering_ite]
  | cameraRead p | chainSet p | captureRead p | viewRenew p | viewRelease p | recordLatest p =>
    refine recordsKept_serve_same fun bs t => ?_
    split <;> simp
  | balanceSet p | viewsSet p =>
    refine recordsKept_serve_same fun bs t => ?_
    dsimp only
    split <;> simp [numbering_ite]
  | chainRebuild p =>
    exact recordsKept_serve_same fun bs t => by simp [numbering_ite, numbering_of_sansPipe (rebuild_sansPipe t)]
  | cameraRestart p =>
    refine recordsKept_serve_same fun bs t => ?_
    split
    · simp
    · simp [numbering_ite, numbering_of_sansPipe (restartCamera_sansPipe ..)]
  | wake p => exact recordsKept_serve_same fun bs t => (answer_numbering ..).trans (wakeEvent_numbering t)
  | pipelineRestart p => exact execPipelineRestart_recordsKept p s
  | recordRead p => exact execRecordRead_recordsKept p s
  | recordRewind p => exact execRecordRewind_recordsKept p s
  | planOpen p => exact execPlanOpen_recordsKept p s
  | planTiles p => exact execPlanTiles_recordsKept p s
  | planMeshes p => exact execPlanMeshes_recordsKept p s
  | planVerify p => exact execPlanVerify_recordsKept p s
  | planDiscard p => exact execPlanDiscard_recordsKept p s
  | planRead p => exact execPlanRead_recordsKept p s
  | viewClaim p => exact execViewClaim_recordsKept p s
  | strobe => exact execStrobe_recordsKept s
  | slotEnd c reply => exact recordsKept_same (endSlot_numbering s c _)
  | cameraLost c => exact execCameraLost_recordsKept s c
  | identTimeout c reply => exact execIdentTimeout_recordsKept s c reply
  | settleTimerExpiry => exact execSettleTimerExpiry_recordsKept s
  | testTimerExpiry c => exact execTestTimerExpiry_recordsKept s c
  | packetArrival lane how bytes => exact execPacketArrival_recordsKept s lane how bytes
  | lineConsume lane => exact execLineConsume_recordsKept s lane
  | lineWriteComplete lane => exact execLineWriteComplete_recordsKept s lane
  | frameAbandon lane => exact execFrameAbandon_recordsKept s lane
  | abandonRepairsComplete lane => exact execAbandonRepairsComplete_recordsKept s lane
  | windowExpiry tag => exact execWindowExpiry_recordsKept s tag
  | compositionStart => exact execCompositionStart_recordsKept s
  | meshReadComplete => exact execMeshReadComplete_recordsKept s
  | fetchingEnd => exact execFetchingEnd_recordsKept s
  | tileDrawn => exact execTileDrawn_recordsKept s
  | burstDone => exact execBurstDone_recordsKept s
  | verifyMeshRead => exact execVerifyMeshRead_recordsKept s
  | planAbandoned plan => exact execPlanAbandoned_recordsKept s plan
  | viewFrameStart => exact execViewFrameStart_recordsKept s
  | lineDue => exact execLineDue_recordsKept s
  | viewFrameEnd => exact execViewFrameEnd_recordsKept s
  | leaseExpiry handle => exact execLeaseExpiry_recordsKept s handle
  | reverseLineSample active => exact execReverseLineSample_recordsKept s active
  | reverseLevelChange => exact execReverseLevelChange_recordsKept s
  | idleTimerExpiry => exact execIdleTimerExpiry_recordsKept s
  | standbyEntry => exact recordsKept_same (takeEntry_numbering s)
  | temperatureSample celsius => exact execTemperatureSample_recordsKept s celsius

/-- Settles O57: on an empty queue time passes, which leaves the numbering alone, and every command keeps the records. -/
theorem everyStepKeepsRecordsConsecutive : Obligations.EveryStepKeepsRecordsConsecutive := by
  intro s t hs h
  unfold step at h
  split at h
  · exact recordsKept_same (elapse_numbering s 1) t h hs
  · rename_i c rest _
    exact exec_recordsKept c { s with pending := rest } t h hs

end Sys2Proof.Machine
end

section
/-! SUPPORT and PROOFS. A record's outcome, its append and its bytes (R160 to R163). -/

namespace Sys2Proof.Machine

/-! ### The outcome -/

/-- The test of order 4 looks at all four cameras (R161). -/
theorem any_notFresh (sources : Quad Source) :
    sources.toList.any (fun x => !(x == .fresh)) = true ↔ ∃ c : Camera, sources.get c.idx ≠ .fresh := by
  rw [← not_iff_not, not_exists, forall_camera]
  simp [Quad.toList, Quad.get, Camera.idx]

section outcome
variable {underrun degraded : Nat} {holder : Holder} {sources : Quad Source}

theorem outcomeOf_aborted : outcomeOf true underrun holder sources degraded = .aborted := rfl

theorem outcomeOf_underrun (hu : 1 ≤ underrun) : outcomeOf false underrun holder sources degraded = .underrun :=
  if_pos hu

theorem outcomeOf_noView : outcomeOf false 0 .none sources degraded = .noView := rfl

/-- With a view and no underrun, the sources and the seams decide (R161 orders 4 and 5). -/
theorem outcomeOf_view (hh : holder ≠ .none) : outcomeOf false 0 holder sources degraded =
    if sources.toList.any (fun x => !(x == .fresh)) || decide (1 ≤ degraded) then .degraded else .complete :=
  if_neg hh

theorem outcomeOf_degraded (hh : holder ≠ .none)
    (hd : (∃ c : Camera, sources.get c.idx ≠ .fresh) ∨ 1 ≤ degraded) :
    outcomeOf false 0 holder sources degraded = .degraded := by
  rw [outcomeOf_view hh, if_pos]
  rwa [Bool.or_eq_true, any_notFresh, decide_eq_true_eq]

theorem outcomeOf_complete (hh : holder ≠ .none) (hf : ∀ c : Camera, sources.get c.idx = .fresh) :
    outcomeOf false 0 holder sources 0 = .complete := by
  rw [outcomeOf_view hh, if_neg]
  rw [Bool.or_eq_true, any_notFresh]
  simp [hf]

end outcome

/-! ### The append -/

theorem kept_room {x : RecordLog} (h : x.ring.length < 32) : x.kept = x.ring := if_neg (Nat.not_le.2 h)

theorem kept_full {x : RecordLog} (h : 32 ≤ x.ring.length) : x.kept = x.ring.tail := if_pos h

theorem appendRecord_complete {s : State} {x : Context} {n : Nat} {ab : Bool}
    (h : outcomeOf ab n x.view.holder x.sources x.degraded = .complete) (p : Port) :
    ((s.appendRecord x n ab).ports.get p).raised = (s.ports.get p).raised ||| NoticeKind.frame.mask := by
  have hports : s.appendRecord x n ab = _ := if_pos h
  rw [hports]
  cases p <;> rfl

theorem appendRecord_degraded {s : State} {x : Context} {n : Nat} {ab : Bool}
    (h : outcomeOf ab n x.view.holder x.sources x.degraded ≠ .complete) : (s.appendRecord x n ab).bothRaised .degraded := by
  have hraised : s.appendRecord x n ab = _ := if_neg h
  rw [hraised]
  exact raiseBoth_bothRaised _ _

/-! ### The bytes -/

/-- A source byte has its kind in bits 7 to 4 and its age in bits 3 to 0 (Formats, Frame record). -/
theorem staleByte_toNat {age : Nat} (h : age ≤ 7) : (Source.stale age).byte.toNat = 16 + age :=
  Nat.mod_eq_of_lt (by omega)

/-- Settles O50: the outcome order by order, the append with and without a restart of the numbering, and the bytes. -/
theorem recordOutcomeFollowsItsOrder : Obligations.RecordOutcomeFollowsItsOrder := by
  refine ⟨fun aborted underrun holder sources degraded => ⟨?aborted, ?underrun, ?noView, ?view⟩,
    fun s x underrun aborted => ?append, fun r => ?bytes, rfl, rfl, fun age h => ?sources⟩
  case aborted =>
    rintro rfl
    exact outcomeOf_aborted
  case underrun =>
    rintro rfl
    exact outcomeOf_underrun
  case noView =>
    rintro rfl rfl rfl
    exact outcomeOf_noView
  case view =>
    rintro rfl rfl hh
    refine ⟨outcomeOf_degraded hh, ?_⟩
    rintro hf rfl
    exact outcomeOf_complete hh hf
  case append =>
    intro o r t
    obtain ⟨⟨ports, ht⟩, hframe, -⟩ := appendRecord_frame s x underrun aborted
    have hlog : t.log = s.log.append r := congrArg State.log ht
    refine ⟨hlog, congrArg State.capture ht, rfl, fun hx => ?_, fun hx => ?_, hframe, appendRecord_degraded,
      appendRecord_complete⟩
    · rw [hlog, append_kept hx]
      exact ⟨rfl, rfl, fun h => by rw [kept_room h], fun h => by rw [kept_full h]⟩
    · rw [hlog, append_restart hx]
      exact ⟨rfl, rfl, fun p => by cases p <;> rfl⟩
  case bytes =>
    unfold recordBytes
    cases r.lease with
    | none => rfl
    | some l => rfl
  case sources =>
    simp only [List.map_cons, List.map_nil, staleByte_toNat h]
    rfl

end Sys2Proof.Machine
end

section
/-! SUPPORT. One port's open items: what each operation on the port does to them, and the operations of the other blocks
that leave them alone (R170 to R174). -/

namespace Sys2Proof.Machine

/-! ### One port -/

section port
variable {x : PortState}

/-- A change of the select period keeps the open items accounted for, where an answer it shifts out is queued. -/
theorem PortState.itemsOk.withSelect (h : x.itemsOk) {o : Option Select}
    (ho : ∀ sel, o = some sel → sel.shifted = false → sel.out.isSome = true → x.answers ≠ []) :
    ({ x with select := o } : PortState).itemsOk := by
  obtain ⟨hcount, hbound, -⟩ := h
  exact ⟨hcount, hbound, ho⟩

/-- After a change of the select period's other fields, the answer that it shifts out is queued as before. -/
theorem PortState.itemsOk.queued (h : x.itemsOk) {sel : Select} (hsel : x.select = some sel) {y : Select}
    (ho : y.out = sel.out) (hs : y.shifted = sel.shifted) :
    ∀ z, some y = some z → z.shifted = false → z.out.isSome = true → x.answers ≠ [] := by
  obtain ⟨-, -, hout⟩ := h
  rintro _ ⟨⟩ hshifted hsome
  exact hout sel hsel (hs ▸ hshifted) (ho ▸ hsome)

/-- The answer that a select period chooses is the head of the answer queue (R170). -/
theorem PortState.itemsOk.beginSelect (h : x.itemsOk) (starting : Bool) : (x.beginSelect starting).itemsOk := by
  refine h.withSelect ?_
  rintro _ ⟨⟩ - hout hempty
  rw [hempty, List.head?_nil, ite_self] at hout
  cases hout

/-- A request that joins is counted, one that is dropped or discarded is not (R172, R181). -/
theorem PortState.itemsOk.arrive (h : x.itemsOk) {sel : Select} (hsel : x.select = some sel) (r : Request) :
    (x.arrive sel r).itemsOk := by
  have hqueued := @PortState.itemsOk.queued x h sel hsel
  obtain ⟨hcount, hbound, -⟩ := h
  unfold PortState.arrive
  split_ifs with hstarting hroom
  · exact ⟨hcount, hbound, hqueued rfl rfl⟩
  · refine ⟨?_, Nat.succ_le_of_lt hroom, hqueued rfl rfl⟩
    simp only [List.length_append, List.length_singleton]
    omega
  · exact ⟨hcount, hbound, hqueued rfl rfl⟩

theorem PortState.itemsOk.shiftIn (h : x.itemsOk) {sel : Select} (hsel : x.select = some sel) (bytes : List Byte) :
    (x.shiftIn sel bytes).itemsOk := by
  unfold PortState.shiftIn
  split
  · exact h.withSelect (h.queued hsel rfl rfl)
  · split
    · exact h.arrive hsel _
    · exact h

/-- An answer wholly shifted out leaves the queue and the count together (R173). -/
theorem PortState.itemsOk.shiftedOut (h : x.itemsOk) {sel : Select} (hsel : x.select = some sel)
    (hshifted : sel.shifted = false) : (x.shiftedOut sel).itemsOk := by
  have hqueued : sel.out.isSome = true → x.answers ≠ [] := h.queued hsel rfl rfl sel rfl hshifted
  obtain ⟨hcount, hbound, -⟩ := h
  have hover : ∀ y, some { sel with shifted := true } = some y → y.shifted = false → y.out.isSome = true →
      (x.shiftedOut sel).answers ≠ [] := by
    rintro _ ⟨⟩ ⟨⟩
  refine ⟨?_, ?_, hover⟩
  · simp only [PortState.shiftedOut]
    split
    · rename_i hsome
      have hpos : 0 < x.answers.length := List.length_pos_iff.2 (hqueued hsome)
      have hleft :
          x.openItems - 1 = x.requests.length + (if x.executing.isSome then 1 else 0) + x.answers.tail.length := by
        rw [List.length_tail]
        omega
      exact hleft
    · exact hcount
  · simp only [PortState.shiftedOut]
    split
    · exact (Nat.sub_le _ _).trans hbound
    · exact hbound

/-- A request whose execution begins stays an open item (R174). -/
theorem PortState.itemsOk.taken (h : x.itemsOk) {r : Request} {rest : List Request} (he : x.executing = none)
    (hr : x.requests = r :: rest) : ({ x with executing := some r, requests := rest } : PortState).itemsOk := by
  obtain ⟨hcount, hbound, hout⟩ := h
  refine ⟨?_, hbound, hout⟩
  rw [hr, he] at hcount
  simpa [Nat.add_assoc] using hcount

/-- A request in execution that is answered stays an open item (R174). -/
theorem PortState.itemsOk.answered (h : x.itemsOk) {r : Request} (he : x.executing = some r) (a : Answer) :
    ({ x with executing := none, answers := x.answers ++ [a] } : PortState).itemsOk := by
  obtain ⟨hcount, hbound, -⟩ := h
  refine ⟨?_, hbound, fun _ _ _ _ => List.append_ne_nil_of_right_ne_nil _ (List.cons_ne_nil a [])⟩
  rw [he] at hcount
  simp only [Option.isSome_some, if_true] at hcount
  simp only [List.length_append, List.length_singleton, Option.isSome_none]
  rw [hcount]
  simp only [Bool.false_eq_true, if_false]
  omega

end port

/-- A request is ready where one is queued and none is in execution (R174). -/
theorem ready_eq_some (x : PortState) (r : Request) (rest : List Request) :
    x.ready = some (r, rest) ↔ x.executing = none ∧ x.requests = r :: rest := by
  unfold PortState.ready
  split
  · rename_i he hr
    simp [he, hr]
  · rename_i hnone
    exact iff_of_false nofun fun h => hnone r rest h.1 h.2

/-! ### Both ports -/

/-- The ports but for raised notice flags, which `itemsOk` does not read. -/
def State.exchange (s : State) : Duo PortState := quietPorts s.ports

theorem itemsOk_iff_exchange (s : State) : s.itemsOk ↔ s.exchange.cp.itemsOk ∧ s.exchange.mp.itemsOk := Iff.rfl

theorem itemsOk_of_exchange {s t : State} (h : t.exchange = s.exchange) (hs : s.itemsOk) : t.itemsOk := by
  rw [itemsOk_iff_exchange] at hs ⊢
  rwa [h]

theorem State.itemsOk.port {s : State} (h : s.itemsOk) (p : Port) : (s.ports.get p).itemsOk := by
  cases p
  · exact h.1
  · exact h.2

/-- One port replaced by one whose open items are accounted for. -/
theorem State.itemsOk.setPort {s : State} (h : s.itemsOk) (p : Port) {x : PortState} (hx : x.itemsOk) {t : State}
    (ht : t.ports = s.ports.set p x) : t.itemsOk := by
  unfold State.itemsOk
  rw [ht]
  cases p
  · exact ⟨hx, h.2⟩
  · exact ⟨h.1, hx⟩

theorem State.itemsOk.onPort {s : State} (h : s.itemsOk) (p : Port) {f : PortState → PortState}
    (hf : (s.ports.get p).itemsOk → (f (s.ports.get p)).itemsOk) : (s.onPort p f).itemsOk :=
  h.setPort p (hf (h.port p)) rfl

theorem State.itemsOk.taken {s : State} (h : s.itemsOk) {p : Port} {r : Request} {rest : List Request}
    (he : (s.ports.get p).executing = none) (hr : (s.ports.get p).requests = r :: rest) : (s.taken p r rest).itemsOk :=
  h.setPort p ((h.port p).taken he hr) rfl

theorem State.itemsOk.answer {s : State} (h : s.itemsOk) (p : Port) (c : Code) (bs : List Byte) :
    (s.answer p c bs).itemsOk := by
  unfold State.answer
  extract_lets x
  split
  · exact h
  · rename_i r he
    exact h.setPort p ((h.port p).answered he _) rfl

theorem State.itemsOk.refuse {s : State} (h : s.itemsOk) (p : Port) (c : Code) : (s.refuse p c).itemsOk :=
  h.answer p c []

/-! ### Read off the views -/

theorem exchange_of_sansPipe {s t : State} (h : t.sansPipe = s.sansPipe) : t.exchange = s.exchange := by
  have e : t.sansPipe.exchange = s.sansPipe.exchange := congrArg State.exchange h
  exact e

theorem exchange_of_sansLeases {s t : State} (h : t.sansLeases = s.sansLeases) : t.exchange = s.exchange := by
  have e : t.sansLeases.exchange = s.sansLeases.exchange := congrArg State.exchange h
  exact e

theorem exchange_of_sansWalk {s t : State} (h : t.sansWalk = s.sansWalk) : t.exchange = s.exchange := by
  have e : t.sansWalk.exchange = s.sansWalk.exchange := congrArg State.exchange h
  exact e

theorem exchange_ite (c : Prop) [Decidable c] (a b : State) :
    (if c then a else b).exchange = if c then a.exchange else b.exchange := apply_ite State.exchange c a b

section exchange
variable (s : State)

/-! ### Operations that leave it alone -/

@[simp] theorem raise_exchange (p : Port) (k : NoticeKind) : (s.raise p k).exchange = s.exchange :=
  exchange_of_sansPipe (raise_sansPipe s p k)

@[simp] theorem raiseBoth_exchange (k : NoticeKind) : (s.raiseBoth k).exchange = s.exchange := rfl

@[simp] theorem elapse_exchange (dt : Nat) : (s.elapse dt).exchange = s.exchange := rfl

@[simp] theorem runTo_exchange (t : Nat) : (s.runTo t).exchange = s.exchange := rfl

@[simp] theorem setHold_exchange (id : PlanId) (h : PlanHold) : (s.setHold id h).exchange = s.exchange := rfl

/-- The blocks other than the ports leave it alone. -/
@[simp] theorem exchange_others (pending : List Instr) (now : Nat) (mem : Memory) (chain : Chain) (lanes : Quad Lane)
    (capture : Capture) (plans : Plans) (leases : Leases) (composer : Option Context) (balance : Balance) (arb : Arb)
    (view : ViewLane) (log : RecordLog) (power : Power) :
    ({ s with
      pending := pending, now := now, mem := mem, chain := chain, lanes := lanes, capture := capture, plans := plans
      leases := leases, composer := composer, balance := balance, arb := arb, view := view, log := log
      power := power } : State).exchange = s.exchange := rfl

@[simp] theorem activate_exchange : s.activate.exchange = s.exchange := exchange_of_sansLeases (activate_sansLeases s)

@[simp] theorem inactivate_exchange : s.inactivate.exchange = s.exchange :=
  exchange_of_sansLeases (inactivate_sansLeases s)

@[simp] theorem enterRun_exchange : s.enterRun.exchange = s.exchange := by
  unfold State.enterRun State.handLevel
  refine (exchange_of_sansPipe (sendStrobe_sansPipe _)).trans ((exchange_of_sansPipe (camerasOn_sansPipe _)).trans ?_)
  split
  · exact activate_exchange _
  · rfl

@[simp] theorem wakeEvent_exchange : s.wakeEvent.exchange = s.exchange := by
  unfold State.wakeEvent
  split
  · exact enterRun_exchange s
  · split <;> rfl
  · rfl

@[simp] theorem levelChange_exchange : s.levelChange.exchange = s.exchange := by
  have hwoken : ∀ (t : State) (active : Bool), (t.lineWoken active).exchange = t.exchange := fun t active => by
    simp [State.lineWoken, exchange_ite]
  have htold : ∀ (t : State) (active : Bool), (t.lineTold active).exchange = t.exchange := fun t active => by
    cases active
    · exact inactivate_exchange t
    · exact activate_exchange t
  rw [levelChange_eq]
  split
  · rfl
  · exact hwoken _ _
  · exact (hwoken _ _).trans (htold _ _)

@[simp] theorem takeEntry_exchange : s.takeEntry.exchange = s.exchange := by
  obtain ⟨-, -, hsleeps⟩ | ⟨-, h⟩ := takeEntry_cases s
  · obtain ⟨-, -, -, -, -, -, -, -, -, -, -, hquiet⟩ := hsleeps
    exact hquiet
  · rw [h]

@[simp] theorem beginEntry_exchange : s.beginEntry.exchange = s.exchange := takeEntry_exchange _

@[simp] theorem endSlot_exchange (c : Camera) (res : SlotResult) : (s.endSlot c res).exchange = s.exchange := by
  unfold State.endSlot
  split
  · split
    · rw [exchange_of_sansPipe (afterSlot_sansPipe _ c), exchange_of_sansPipe (slotResult_sansPipe _ c res),
        runTo_exchange]
    · rfl
  · rfl

@[simp] theorem grant_exchange : s.grant.exchange = s.exchange := exchange_of_sansPipe (grant_sansPipe s)

@[simp] theorem touchPlan_exchange (p : Port) (bs : List Byte) : (s.touchPlan p bs).exchange = s.exchange := by
  obtain h | ⟨id, c, at0, ab, -, -, -, h⟩ := touchPlan_cases s p bs <;> rw [h]
  rfl

@[simp] theorem markMesh_exchange (p : Port) (id : PlanId) (i : Nat) : (s.markMesh p id i).exchange = s.exchange := by
  unfold State.markMesh
  split
  · split <;> rfl
  · rfl

/-! ### Compositions -/

@[simp] theorem areaFetched_exchange (x : Context) (k : Nat) : (s.areaFetched x k).exchange = s.exchange :=
  (exchange_of_sansWalk (areaFetched_sansWalk s x k)).trans rfl

@[simp] theorem beginTile_exchange (x : Context) : (s.beginTile x).exchange = s.exchange :=
  (exchange_of_sansWalk (beginTile_sansWalk s x)).trans rfl

@[simp] theorem beginRow_exchange (x : Context) : (s.beginRow x).exchange = s.exchange :=
  (exchange_of_sansWalk (beginRow_sansWalk s x)).trans rfl

@[simp] theorem leaveBuffer_exchange (frame row : Nat) : (s.leaveBuffer frame row).exchange = s.exchange :=
  exchange_of_sansWalk (leaveBuffer_sansWalk s frame row)

/-- A start raises VIEW at most (R101). -/
@[simp] theorem startComposition_exchange (st : CaptureSet) (newer : List CaptureSet) :
    (s.startComposition st newer).exchange = s.exchange := by
  obtain ⟨slots, ports, plans, h, hquiet, -⟩ := startOpened_frame s st newer
  rw [startComposition_eq, beginRow_exchange, h]
  exact hquiet

@[simp] theorem completeComposition_exchange (x : Context) : (s.completeComposition x).exchange = s.exchange :=
  (completeComposition_effects s x).2.1

@[simp] theorem abortComposition_exchange : s.abortComposition.exchange = s.exchange := by
  cases hx : s.composer with
  | none => rw [State.abortComposition, hx]
  | some x => exact (abortComposition_spec s x hx).2.2.1

@[simp] theorem drawTile_exchange (x : Context) : (s.drawTile x).exchange = s.exchange := by
  simp [State.drawTile, State.rowDrawn, exchange_ite]

end exchange

/-- An answer given in a state whose ports differ in raised notice flags alone. -/
theorem State.itemsOk.answerOf {s t : State} (h : s.itemsOk) (ht : t.exchange = s.exchange) (p : Port) (c : Code)
    (bs : List Byte) : (t.answer p c bs).itemsOk := (itemsOk_of_exchange ht h).answer p c bs

/-- An answer given after a change of other blocks alone. -/
theorem State.itemsOk.answerSamePorts {s t : State} (h : s.itemsOk) (p : Port) (c : Code) (bs : List Byte)
    (ht : t.ports = s.ports := by rfl) : (t.answer p c bs).itemsOk := h.answerOf (congrArg quietPorts ht) p c bs

/-! ### The verification walk and the pool requester, which answer requests in execution -/

/-- The answer of a walk's PLAN_VERIFY, and PLAN on the opening port (R86). -/
theorem State.itemsOk.endWalk {s : State} (h : s.itemsOk) (id : PlanId) (x : PlanContent) (r : Option Rejection) :
    (s.endWalk id x r).itemsOk := by
  unfold State.endWalk
  exact itemsOk_of_exchange (raise_exchange ..) (h.answerSamePorts x.opener _ _)

theorem State.itemsOk.walkOn {s : State} (h : s.itemsOk) (id : PlanId) (x : PlanContent) (passed : List Nat)
    (n : WalkNext) : (s.walkOn id x passed n).itemsOk := by
  cases n with
  | read place m => exact itemsOk_of_exchange (grant_exchange _) h
  | fail r => exact h.endWalk id x _
  | done => exact h.endWalk id x _

/-- The last burst of a PLAN_MESHES or of a PLAN_READ posts its answer (R83, R92). -/
theorem State.itemsOk.poolBurstDone {s : State} (h : s.itemsOk) (b : PoolBurst) : (s.poolBurstDone b).itemsOk := by
  unfold State.poolBurstDone
  split
  · exact h
  · split
    · rename_i p id unit i rec _
      extract_lets t
      have ht : t.itemsOk := itemsOk_of_exchange (markMesh_exchange _ p id i) h
      split
      · exact ht.answerSamePorts p _ _
      · exact ht
    · extract_lets got
      split
      · exact h.answerSamePorts _ _ _
      · exact h
    · exact h
    · exact h

theorem State.itemsOk.burstDone {s : State} (h : s.itemsOk) (b : Burst) : (s.burstDone b).itemsOk := by
  cases b with
  | lane c addr data withdrawn =>
    cases withdrawn
    · exact itemsOk_of_exchange (exchange_of_sansPipe (laneBurstDone_sansPipe _ c)) h
    · exact h
  | pool b => exact h.poolBurstDone b
  | fetch addr withdrawn =>
    cases withdrawn
    · exact itemsOk_of_exchange (exchange_of_sansWalk (fetchBurstDone_sansWalk s addr)) h
    · exact h

end Sys2Proof.Machine
end

section
/-! PROOFS. Every command keeps each port's open items accounted for, block by block, and so does every step (R172 to
R174). -/

namespace Sys2Proof.Machine

/-- Wherever a command goes on to, the open items are accounted for there where they are here. -/
def State.itemsKept (s : State) (o : Host.Outcome State Fault Refusal) : Prop :=
  ∀ t, o = .next t → s.itemsOk → t.itemsOk

theorem itemsKept_next {s t : State} (h : s.itemsOk → t.itemsOk) : s.itemsKept (.next t) := by
  rintro _ ⟨⟩
  exact h

theorem itemsKept_stay (s : State) : s.itemsKept (.next s) := itemsKept_next id

/-- A command that changes no more of the ports than raised notice flags keeps the open items. -/
theorem itemsKept_same {s t : State} (h : t.exchange = s.exchange) : s.itemsKept (.next t) :=
  itemsKept_next (itemsOk_of_exchange h)

/-- An operation of the pipeline does so, after time has passed or not. -/
theorem itemsKept_pipe {s t : State} (u : State) (h : t.sansPipe = u.sansPipe) (hu : u.exchange = s.exchange) :
    s.itemsKept (.next t) := itemsKept_same ((exchange_of_sansPipe h).trans hu)

/-- A request is taken as an open item, and then its rule acts on the state in which it is. -/
theorem itemsKept_serve {s : State} {p : Port} {k : RequestKind} {body : List Byte → State → State}
    (h : ∀ bs t, t.itemsOk → (body bs t).itemsOk) : s.itemsKept (.next (s.serve p k body)) := by
  obtain e | ⟨r, rest, ⟨he, hr, -⟩, e⟩ := serve_cases s p k body
  · rw [e]
    exact itemsKept_stay s
  · rw [e]
    exact itemsKept_next fun hs => h _ _ (hs.taken he hr)

section ports
variable (p : Port) (s : State)

/-! ### The exchange -/

theorem execSelectStart_itemsKept : s.itemsKept (execSelectStart p s) := by
  unfold execSelectStart
  split
  · exact itemsKept_next fun hs => hs.onPort p fun h => h.beginSelect _
  · exact itemsKept_stay s

theorem execRequestArrival_itemsKept (bytes : List Byte) : s.itemsKept (execRequestArrival p bytes s) := by
  unfold execRequestArrival
  split
  · rename_i hsel
    split
    · exact itemsKept_stay s
    · exact itemsKept_next fun hs => hs.onPort p fun h => h.shiftIn hsel bytes
  · exact itemsKept_stay s

theorem execSelectEnd_itemsKept : s.itemsKept (execSelectEnd p s) :=
  itemsKept_next fun hs => hs.onPort p fun h => h.withSelect nofun

theorem execAnswerShiftedOut_itemsKept : s.itemsKept (execAnswerShiftedOut p s) := by
  unfold execAnswerShiftedOut
  split
  · rename_i hsel
    split
    · exact itemsKept_stay s
    · rename_i hshifted
      exact itemsKept_next fun hs => hs.onPort p fun h => h.shiftedOut hsel (Bool.eq_false_of_not_eq_true hshifted)
  · exact itemsKept_stay s

theorem execUnknownRequest_itemsKept : s.itemsKept (execUnknownRequest p s) := by
  unfold execUnknownRequest
  split
  · rename_i r rest hready
    obtain ⟨he, hr⟩ := (ready_eq_some ..).1 hready
    split
    · exact itemsKept_next fun hs => (hs.taken he hr).refuse p _
    · exact itemsKept_stay s
  · exact itemsKept_stay s

end ports

section events
variable (s : State) (c : Camera)

/-! ### The chain, the lanes and the capture sets -/

theorem execStrobe_itemsKept : s.itemsKept (execStrobe s) := by
  unfold execStrobe
  split
  · split
    · exact itemsKept_pipe (s.runTo _) (by rw [chainSettle_sansPipe, sendStrobe_sansPipe]) (runTo_exchange s _)
    · exact itemsKept_stay s
  · exact itemsKept_stay s

theorem execCameraLost_itemsKept : s.itemsKept (execCameraLost c s) := by
  unfold execCameraLost
  split
  · exact itemsKept_same (endSlot_exchange s c _)
  · exact itemsKept_stay s

theorem execIdentTimeout_itemsKept (reply : Option (BitVec 14)) : s.itemsKept (execIdentTimeout c reply s) := by
  unfold execIdentTimeout
  split
  · split
    · exact itemsKept_same (endSlot_exchange s c _)
    · exact itemsKept_stay s
  · exact itemsKept_stay s

theorem execSettleTimerExpiry_itemsKept : s.itemsKept (execSettleTimerExpiry s) := by
  unfold execSettleTimerExpiry
  split
  · rename_i due _
    refine itemsKept_pipe (s.runTo due) ?_ (runTo_exchange s due)
    rw [withChain_sansPipe, unaddressAll_sansPipe, enqueue_sansPipe]
  · exact itemsKept_stay s

theorem execTestTimerExpiry_itemsKept : s.itemsKept (execTestTimerExpiry c s) := by
  unfold execTestTimerExpiry
  split
  · extract_lets t
    have ht : t.exchange = s.exchange := runTo_exchange s _
    split
    · exact itemsKept_same ht
    · exact itemsKept_pipe t (by rw [chainSettle_sansPipe, camFault_sansPipe]) ht
  · exact itemsKept_stay s

theorem execPacketArrival_itemsKept (how : PacketEnd) (bytes : List Byte) :
    s.itemsKept (execPacketArrival c how bytes s) := by
  unfold execPacketArrival
  extract_lets ln
  split
  · exact itemsKept_pipe s (setLane_sansPipe ..) rfl
  · exact itemsKept_pipe s (by rw [reportError_sansPipe, setLane_sansPipe]) rfl

theorem execLineConsume_itemsKept : s.itemsKept (execLineConsume c s) := by
  unfold execLineConsume
  split
  · exact itemsKept_pipe s (by rw [dropLine_sansPipe, reportError_sansPipe]) rfl
  · exact itemsKept_pipe s (assess_sansPipe ..) rfl
  · exact itemsKept_pipe s (beginFrame_sansPipe ..) rfl
  · exact itemsKept_stay s

theorem execLineWriteComplete_itemsKept : s.itemsKept (execLineWriteComplete c s) := by
  unfold execLineWriteComplete
  extract_lets ln
  split
  · extract_lets g t
    split
    · exact itemsKept_pipe t (finaliseFrame_sansPipe ..) rfl
    · exact itemsKept_same rfl
  · exact itemsKept_stay s

theorem execFrameAbandon_itemsKept : s.itemsKept (execFrameAbandon c s) := by
  unfold execFrameAbandon
  extract_lets ln
  split
  · exact itemsKept_pipe (s.runTo _) (by rw [grant_sansPipe, takeTail_sansPipe]) (runTo_exchange s _)
  · exact itemsKept_stay s

theorem execAbandonRepairsComplete_itemsKept : s.itemsKept (execAbandonRepairsComplete c s) := by
  unfold execAbandonRepairsComplete
  extract_lets ln
  split
  · exact itemsKept_pipe s (by rw [finaliseFrame_sansPipe, setLane_sansPipe]) rfl
  · exact itemsKept_stay s

theorem execWindowExpiry_itemsKept (tag : Tag) : s.itemsKept (execWindowExpiry tag s) := by
  unfold execWindowExpiry
  split
  · split
    · exact itemsKept_same rfl
    · exact itemsKept_stay s
  · exact itemsKept_stay s

/-! ### The Composer and the View Lane -/

theorem execCompositionStart_itemsKept : s.itemsKept (execCompositionStart s) := by
  unfold execCompositionStart
  split
  · split
    · exact itemsKept_same (startComposition_exchange ..)
    · exact itemsKept_stay s
  · exact itemsKept_stay s

theorem execMeshReadComplete_itemsKept : s.itemsKept (execMeshReadComplete s) := by
  unfold execMeshReadComplete
  split
  · split
    · split
      · extract_lets y
        split
        · exact itemsKept_same (grant_exchange _)
        · exact itemsKept_same (areaFetched_exchange ..)
      · exact itemsKept_stay s
    · exact itemsKept_stay s
  · exact itemsKept_stay s

theorem execFetchingEnd_itemsKept : s.itemsKept (execFetchingEnd s) := by
  unfold execFetchingEnd
  split
  · split
    · exact itemsKept_same rfl
    · exact itemsKept_stay s
  · exact itemsKept_stay s

theorem execTileDrawn_itemsKept : s.itemsKept (execTileDrawn s) := by
  unfold execTileDrawn
  split
  · split
    · exact itemsKept_same (drawTile_exchange ..)
    · exact itemsKept_stay s
  · exact itemsKept_stay s

theorem execViewFrameStart_itemsKept : s.itemsKept (execViewFrameStart s) := by
  unfold execViewFrameStart
  split
  · exact itemsKept_same rfl
  · exact itemsKept_stay s

theorem execLineDue_itemsKept : s.itemsKept (execLineDue s) := by
  unfold execLineDue
  split
  · extract_lets n a b
    split
    · have ha : a.exchange = s.exchange := runTo_exchange s _
      have hb : b.exchange = a.exchange := by simp [b, exchange_ite]
      exact itemsKept_same (hb.trans ha)
    · exact itemsKept_stay s
  · exact itemsKept_stay s

theorem execViewFrameEnd_itemsKept : s.itemsKept (execViewFrameEnd s) := by
  unfold execViewFrameEnd
  split
  · split
    · extract_lets a b
      have hb : b.exchange = s.exchange := leaveBuffer_exchange ..
      exact itemsKept_same hb
    · exact itemsKept_stay s
  · exact itemsKept_stay s

/-! ### Leases and power -/

theorem execLeaseExpiry_itemsKept (handle : Nat) : s.itemsKept (execLeaseExpiry handle s) := by
  unfold execLeaseExpiry
  split
  · rename_i l _
    split
    · rename_i r _
      refine itemsKept_same ((exchange_of_sansLeases (t := _) (s := s.elapse r) ?_).trans (elapse_exchange s r))
      rw [raiseLease_sansLeases, removeLease_sansLeases]
    · exact itemsKept_stay s
  · exact itemsKept_stay s

theorem execStartingEnd_itemsKept : s.itemsKept (execStartingEnd s) := by
  unfold execStartingEnd
  split
  · exact itemsKept_same (enterRun_exchange s)
  · exact itemsKept_stay s

theorem execIdleTimerExpiry_itemsKept : s.itemsKept (execIdleTimerExpiry s) := by
  unfold execIdleTimerExpiry
  split
  · split
    · exact itemsKept_same (beginEntry_exchange _)
    · exact itemsKept_stay s
  · exact itemsKept_stay s

theorem execReverseLevelChange_itemsKept : s.itemsKept (execReverseLevelChange s) := by
  unfold execReverseLevelChange
  split
  · exact itemsKept_same (levelChange_exchange s)
  · exact itemsKept_stay s

theorem execReverseLineSample_itemsKept (active : Bool) : s.itemsKept (execReverseLineSample active s) := by
  unfold execReverseLineSample
  extract_lets t u
  have ht : t.exchange = s.exchange := runTo_exchange s _
  have hu : u.exchange = t.exchange := by simp [u, exchange_ite]
  exact itemsKept_same (hu.trans ht)

theorem execTemperatureSample_itemsKept (celsius : Int) : s.itemsKept (execTemperatureSample celsius s) := by
  unfold execTemperatureSample
  extract_lets t new power u
  have hu : u.exchange = s.exchange := (exchange_others t ..).trans (runTo_exchange s _)
  refine itemsKept_same (Eq.trans ?_ hu)
  simp [exchange_ite]

/-- Both queues are empty after power-on reset (R181). -/
theorem execPowerOnReset_itemsKept : s.itemsKept (execPowerOnReset s) := by
  have hport : PortState.reset.itemsOk := ⟨rfl, Nat.zero_le 4, nofun⟩
  exact itemsKept_next fun _ => ⟨hport, hport⟩

/-! ### The verification walk and the Arbiter, which answer requests in execution -/

theorem execBurstDone_itemsKept : s.itemsKept (execBurstDone s) := by
  unfold execBurstDone
  split
  · rename_i b _
    let u : State := { s with arb := { s.arb with inFlight := none } }
    exact itemsKept_next fun hs => itemsOk_of_exchange (grant_exchange _) (State.itemsOk.burstDone (s := u) hs b)
  · exact itemsKept_stay s

theorem execVerifyMeshRead_itemsKept : s.itemsKept (execVerifyMeshRead s) := by
  unfold execVerifyMeshRead
  split
  · split
    · exact itemsKept_next fun hs => hs.walkOn ..
    · exact itemsKept_stay s
  · exact itemsKept_stay s

theorem execPlanAbandoned_itemsKept (id : PlanId) : s.itemsKept (execPlanAbandoned id s) := by
  unfold execPlanAbandoned
  split
  · exact itemsKept_same ((setHold_exchange ..).trans (runTo_exchange s _))
  · exact itemsKept_stay s

end events

/-! ### Requests -/

section requests
variable (p : Port) (s : State)

theorem execPlanOpen_itemsKept : s.itemsKept (execPlanOpen p s) := by
  refine itemsKept_serve fun bs t ht => ?_
  have hu := itemsOk_of_exchange (touchPlan_exchange t p bs) ht
  dsimp only
  generalize t.touchPlan p bs = u at *
  split
  · exact hu.refuse p _
  · split_ifs
    · exact hu.refuse p _
    · exact hu.refuse p _
    · exact hu.refuse p _
    · exact hu.refuse p _
    · split
      · exact hu.refuse p _
      · exact hu.answerSamePorts p _ _

theorem execPlanTiles_itemsKept : s.itemsKept (execPlanTiles p s) := by
  refine itemsKept_serve fun bs t ht => ?_
  have hu := itemsOk_of_exchange (touchPlan_exchange t p bs) ht
  dsimp only
  generalize t.touchPlan p bs = u at *
  split
  · exact hu.refuse p _
  · split
    · exact hu.refuse p _
    · split
      · exact hu.refuse p _
      · split
        · split
          · exact hu.refuse p _
          · exact hu.answerSamePorts p _ _
        · exact hu.refuse p _

/-- An accepted PLAN_MESHES stays in execution (R83, log 15). -/
theorem execPlanMeshes_itemsKept : s.itemsKept (execPlanMeshes p s) := by
  refine itemsKept_serve fun bs t ht => ?_
  have hu := itemsOk_of_exchange (touchPlan_exchange t p bs) ht
  dsimp only
  generalize t.touchPlan p bs = u at *
  split
  · exact hu.refuse p _
  · split
    · exact hu.refuse p _
    · split
      · exact hu.refuse p _
      · split
        · split
          · exact hu.refuse p _
          · exact itemsOk_of_exchange (grant_exchange _) hu
        · exact hu.refuse p _

theorem execPlanVerify_itemsKept : s.itemsKept (execPlanVerify p s) := by
  refine itemsKept_serve fun bs t ht => ?_
  have hu := itemsOk_of_exchange (touchPlan_exchange t p bs) ht
  dsimp only
  generalize t.touchPlan p bs = u at *
  split
  · exact hu.refuse p _
  · rename_i id _
    split
    · rename_i c _ _ _
      split_ifs
      · exact hu.refuse p _
      · exact hu.refuse p _
      · exact (itemsOk_of_exchange (setHold_exchange u id (.verifying c)) hu).walkOn ..
    · exact hu.refuse p _

theorem execPlanDiscard_itemsKept : s.itemsKept (execPlanDiscard p s) := by
  refine itemsKept_serve fun bs t ht => ?_
  have hu := itemsOk_of_exchange (touchPlan_exchange t p bs) ht
  dsimp only
  generalize t.touchPlan p bs = u at *
  split
  · exact hu.refuse p _
  · split_ifs
    · exact hu.refuse p _
    · exact hu.refuse p _
    · exact hu.refuse p _
    · exact hu.answerSamePorts p _ _

/-- An accepted PLAN_READ of part 2 stays in execution (R92, log 15). -/
theorem execPlanRead_itemsKept : s.itemsKept (execPlanRead p s) := by
  refine itemsKept_serve fun bs t ht => ?_
  have hu := itemsOk_of_exchange (touchPlan_exchange t p bs) ht
  dsimp only
  generalize t.touchPlan p bs = u at *
  split
  · exact hu.refuse p _
  · split
    · exact hu.answer ..
    · split
      · exact hu.refuse p _
      · split
        · exact hu.refuse p _
        · exact hu.answer ..
    · split
      · exact hu.refuse p _
      · split
        · exact hu.refuse p _
        · exact itemsOk_of_exchange (grant_exchange _) hu
    · exact hu.refuse p _

/-- A claim that is accepted may wake the part (R107, R186). -/
theorem execViewClaim_itemsKept : s.itemsKept (execViewClaim p s) := by
  refine itemsKept_serve fun bs t ht => ?_
  split
  · exact ht.refuse p _
  · extract_lets duration a b
    have ha : a.exchange = t.exchange := exchange_of_sansLeases (joinLease_sansLeases ..)
    have hb : b.exchange = a.exchange := by simp [b, exchange_ite]
    exact ht.answerOf (hb.trans ha) ..

/-- The restart answers between the abort and an entry that waited (R192). -/
theorem execPipelineRestart_itemsKept : s.itemsKept (execPipelineRestart p s) := by
  refine itemsKept_serve fun bs t ht => ?_
  split
  · exact ht.refuse p _
  · extract_lets a
    have ha : a.exchange = t.exchange :=
      (exchange_of_sansPipe (restartLanes_sansPipe _)).trans (abortComposition_exchange t)
    exact itemsOk_of_exchange (takeEntry_exchange _) (ht.answerOf ((exchange_others a ..).trans ha) ..)

/-- STANDBY is answered before the entry begins (R189). -/
theorem execStandby_itemsKept : s.itemsKept (execStandby p s) := by
  refine itemsKept_serve fun bs t ht => ?_
  split_ifs
  · exact ht.refuse p _
  · exact ht.answer ..
  · exact ht.refuse p _
  · exact itemsOk_of_exchange (beginEntry_exchange _) (ht.answer ..)

theorem execNoticeEnable_itemsKept : s.itemsKept (execNoticeEnable p s) := by
  refine itemsKept_serve fun bs t ht => ?_
  dsimp only
  split
  · exact ht.refuse p _
  · exact (ht.onPort p id).answer ..

theorem execNoticeTake_itemsKept : s.itemsKept (execNoticeTake p s) := by
  refine itemsKept_serve fun bs t ht => ?_
  dsimp only
  split
  · exact ht.refuse p _
  · exact (ht.onPort p id).answer ..

theorem execCameraRestart_itemsKept : s.itemsKept (execCameraRestart p s) := by
  refine itemsKept_serve fun bs t ht => ?_
  split
  · exact ht.refuse p _
  · split_ifs
    · exact ht.refuse p _
    · exact ht.refuse p _
    · exact ht.refuse p _
    · exact ht.refuse p _
    · exact ht.answerOf (exchange_of_sansPipe (restartCamera_sansPipe ..)) ..

theorem execChainRebuild_itemsKept : s.itemsKept (execChainRebuild p s) := by
  refine itemsKept_serve fun bs t ht => ?_
  split_ifs
  · exact ht.refuse p _
  · exact ht.refuse p _
  · exact ht.answerOf (exchange_of_sansPipe (rebuild_sansPipe t)) ..

theorem execViewsSet_itemsKept : s.itemsKept (execViewsSet p s) := by
  refine itemsKept_serve fun bs t ht => ?_
  dsimp only
  split
  · split_ifs
    · exact ht.refuse p _
    · exact ht.refuse p _
    · exact ht.answerOf (exchange_of_sansLeases (setViews_sansLeases ..)) ..
  · exact ht.refuse p _

theorem execBalanceSet_itemsKept : s.itemsKept (execBalanceSet p s) := by
  refine itemsKept_serve fun bs t ht => ?_
  dsimp only
  split
  · split
    · exact ht.refuse p _
    · exact ht.answerSamePorts p _ _
  · exact ht.refuse p _

end requests

/-! ### Every command, and the step -/

theorem exec_itemsKept (i : Instr) (s : State) : s.itemsKept (exec i s) := by
  cases i with
  | powerOnReset => exact execPowerOnReset_itemsKept s
  | startingEnd => exact execStartingEnd_itemsKept s
  | selectStart p => exact execSelectStart_itemsKept p s
  | requestArrival p bytes => exact execRequestArrival_itemsKept p s bytes
  | selectEnd p => exact execSelectEnd_itemsKept p s
  | answerShiftedOut p => exact execAnswerShiftedOut_itemsKept p s
  | unknownRequest p => exact execUnknownRequest_itemsKept p s
  | echo p | statusRead p | poolRead p | viewRead p | balanceRead p =>
    exact itemsKept_serve fun bs t ht => ht.answer ..
  | recordRewind p => exact itemsKept_serve fun bs t ht => ht.answerSamePorts p _ _
  | wake p => exact itemsKept_serve fun bs t ht => ht.answerOf (wakeEvent_exchange t) ..
  | timingSet p =>
    refine itemsKept_serve fun bs t ht => ?_
    split
    · exact ht.answerSamePorts p _ _
    · exact ht.refuse p _
  | outputSet p | recordRead p | rateCap p | powerSet p =>
    refine itemsKept_serve fun bs t ht => ?_
    dsimp only
    split
    · exact ht.refuse p _
    · exact ht.answerSamePorts p _ _
  | cameraRead p =>
    refine itemsKept_serve fun bs t ht => ?_
    split
    · exact ht.answer ..
    · exact ht.refuse p _
  | chainSet p =>
    refine itemsKept_serve fun bs t ht => ?_
    split
    · exact ht.answerSamePorts p _ _
    · exact ht.answerSamePorts p _ _
    · exact ht.refuse p _
  | captureRead p =>
    refine itemsKept_serve fun bs t ht => ?_
    split
    · exact ht.answer ..
    · exact ht.answer ..
    · exact ht.answer ..
    · exact ht.refuse p _
  | viewRenew p | viewRelease p =>
    refine itemsKept_serve fun bs t ht => ?_
    split
    · exact ht.refuse p _
    · exact ht.answerSamePorts p _ _
  | recordLatest p =>
    refine itemsKept_serve fun bs t ht => ?_
    split
    · exact ht.answer ..
    · exact ht.answer ..
  | noticeEnable p => exact execNoticeEnable_itemsKept p s
  | noticeTake p => exact execNoticeTake_itemsKept p s
  | balanceSet p => exact execBalanceSet_itemsKept p s
  | viewsSet p => exact execViewsSet_itemsKept p s
  | chainRebuild p => exact execChainRebuild_itemsKept p s
  | cameraRestart p => exact execCameraRestart_itemsKept p s
  | standby p => exact execStandby_itemsKept p s
  | pipelineRestart p => exact execPipelineRestart_itemsKept p s
  | planOpen p => exact execPlanOpen_itemsKept p s
  | planTiles p => exact execPlanTiles_itemsKept p s
  | planMeshes p => exact execPlanMeshes_itemsKept p s
  | planVerify p => exact execPlanVerify_itemsKept p s
  | planDiscard p => exact execPlanDiscard_itemsKept p s
  | planRead p => exact execPlanRead_itemsKept p s
  | viewClaim p => exact execViewClaim_itemsKept p s
  | strobe => exact execStrobe_itemsKept s
  | slotEnd c reply => exact itemsKept_same (endSlot_exchange s c _)
  | cameraLost c => exact execCameraLost_itemsKept s c
  | identTimeout c reply => exact execIdentTimeout_itemsKept s c reply
  | settleTimerExpiry => exact execSettleTimerExpiry_itemsKept s
  | testTimerExpiry c => exact execTestTimerExpiry_itemsKept s c
  | packetArrival lane how bytes => exact execPacketArrival_itemsKept s lane how bytes
  | lineConsume lane => exact execLineConsume_itemsKept s lane
  | lineWriteComplete lane => exact execLineWriteComplete_itemsKept s lane
  | frameAbandon lane => exact execFrameAbandon_itemsKept s lane
  | abandonRepairsComplete lane => exact execAbandonRepairsComplete_itemsKept s lane
  | windowExpiry tag => exact execWindowExpiry_itemsKept s tag
  | compositionStart => exact execCompositionStart_itemsKept s
  | meshReadComplete => exact execMeshReadComplete_itemsKept s
  | fetchingEnd => exact execFetchingEnd_itemsKept s
  | tileDrawn => exact execTileDrawn_itemsKept s
  | burstDone => exact execBurstDone_itemsKept s
  | verifyMeshRead => exact execVerifyMeshRead_itemsKept s
  | planAbandoned plan => exact execPlanAbandoned_itemsKept s plan
  | viewFrameStart => exact execViewFrameStart_itemsKept s
  | lineDue => exact execLineDue_itemsKept s
  | viewFrameEnd => exact execViewFrameEnd_itemsKept s
  | leaseExpiry handle => exact execLeaseExpiry_itemsKept s handle
  | reverseLineSample active => exact execReverseLineSample_itemsKept s active
  | reverseLevelChange => exact execReverseLevelChange_itemsKept s
  | idleTimerExpiry => exact execIdleTimerExpiry_itemsKept s
  | standbyEntry => exact itemsKept_same (takeEntry_exchange s)
  | temperatureSample celsius => exact execTemperatureSample_itemsKept s celsius

/-- Settles O56: on an empty queue time passes, which leaves the ports alone, and every command keeps the open items. -/
theorem everyStepKeepsOpenItemsAccounted : Obligations.EveryStepKeepsOpenItemsAccounted := by
  intro s t hs h
  unfold step at h
  split at h
  · exact itemsKept_same (elapse_exchange s 1) t h hs
  · rename_i c rest _
    exact exec_itemsKept c { s with pending := rest } t h hs

end Sys2Proof.Machine
end

section
/-! SUPPORT and PROOFS. The requests that the ports serve themselves: the port's own checks, ECHO, STATUS_READ,
NOTICE_ENABLE and NOTICE_TAKE (R174 to R180). -/

namespace Sys2Proof.Machine

/-! ### The port's own checks -/

theorem screen_check {r : Request} (h : r.badCheck = true) : r.screen = .inl .check := if_pos h

theorem screen_unknown {r : Request} (h : r.badCheck = false) (hk : RequestKind.ofCode r.code.toNat = none) :
    r.screen = .inl .unknown := by
  simp [Request.screen, h, hk]

theorem screen_length {r : Request} {k : RequestKind} (h : r.badCheck = false)
    (hk : RequestKind.ofCode r.code.toNat = some k) (hl : k.lengthOk r.len = false) : r.screen = .inl .length := by
  simp [Request.screen, h, hk, hl]

section head
variable {p : Port} {s : State} {r : Request} {rest : List Request}

/-- A request at the head of its queue that fails a check is answered with the check's outcome (R174). -/
theorem unknownRequest_eq (he : (s.ports.get p).executing = none) (hr : (s.ports.get p).requests = r :: rest) {c : Code}
    (hc : r.screen = .inl c) : exec (.unknownRequest p) s = .next (s.replied p r rest c []) := by
  show execUnknownRequest p s = _
  simp only [execUnknownRequest, (ready_eq_some ..).2 ⟨he, hr⟩, hc, beginRequest_eq_taken, taken_refuse]

/-! ### STATUS_READ -/

/-- A request in execution changes of its port the queue alone. -/
theorem taken_port : (s.taken p r rest).ports.get p = { s.ports.get p with executing := some r, requests := rest } :=
  Duo.get_set_same ..

theorem taken_otherPort {q : Port} (h : q ≠ p) : (s.taken p r rest).ports.get q = s.ports.get q :=
  (Duo.get_set ..).trans (if_neg h)

theorem taken_flags : ((s.taken p r rest).ports.get p).flags = (s.ports.get p).flags := by
  rw [taken_port]
  rfl

theorem port_other_eq {p q : Port} (h : q ≠ p) : Port.other p = q := by
  cases p <;> cases q
  · exact absurd rfl h
  · rfl
  · rfl
  · exact absurd rfl h

/-- The summary is of the state before the request was taken, which has no part in it. -/
theorem taken_statusBytes {q : Port} (h : q ≠ p) : (s.taken p r rest).statusBytes p =
    [byte s.power.state.value, byte s.power.thermal.value, byte s.power.rateCap, byte s.power.divisor]
      ++ mark s.composer.isSome ++ [byte s.chain.phase.value, byte s.capture.sets.length, byte s.capture.credit]
      ++ be4 s.log.next ++ [byte (s.ports.get p).openItems] ++ mark (s.ports.get p).overflow
      ++ be2 (s.ports.get p).flags.toNat ++ be2 (s.ports.get p).enables.toNat ++ [byte (s.ports.get q).openItems] := by
  unfold State.statusBytes
  dsimp only
  rw [port_other_eq h, taken_otherPort h, taken_flags, taken_port]
  rfl

/-! ### Notices -/

/-- A change of a port that does not read its queue, made while a request is in execution. -/
theorem taken_onPort {f : PortState → PortState}
    (hf : ∀ x : PortState, f { x with executing := some r, requests := rest }
      = { f x with executing := some r, requests := rest }) :
    (s.taken p r rest).onPort p f = (s.onPort p f).taken p r rest := by
  simp only [State.onPort, State.taken, Duo.get_set_same, Duo.set_set, hf]

/-- NOTICE_ENABLE refuses a mask of more than ten bits, and else answers with the enables it sets (R177). -/
theorem noticeEnable_cases (h : s.Ready p .noticeEnable r rest) :
    (halfAt r.payload 0 < 1024 → exec (.noticeEnable p) s = .next
      ((s.onPort p (fun x => { x with enables := BitVec.ofNat 10 (halfAt r.payload 0) })).replied p r rest .ok
        (be2 (halfAt r.payload 0))))
    ∧ (1024 ≤ halfAt r.payload 0 → exec (.noticeEnable p) s = .next (s.replied p r rest .range [])) := by
  refine ⟨fun hm => congrArg Host.Outcome.next (serve_replied h _ ?_),
    fun hm => congrArg Host.Outcome.next (serve_replied h s (if_pos hm))⟩
  dsimp only
  rw [if_neg (Nat.not_le_of_lt hm), taken_onPort fun _ => rfl]

/-- NOTICE_TAKE refuses such a mask, and else answers with the flags before it clears those of the mask (R178). -/
theorem noticeTake_cases (h : s.Ready p .noticeTake r rest) :
    (halfAt r.payload 0 < 1024 → exec (.noticeTake p) s = .next
      ((s.onPort p (fun x => { x with raised := x.raised &&& ~~~(BitVec.ofNat 10 (halfAt r.payload 0)) })).replied p r
        rest .ok (be2 (s.ports.get p).flags.toNat)))
    ∧ (1024 ≤ halfAt r.payload 0 → exec (.noticeTake p) s = .next (s.replied p r rest .range [])) := by
  refine ⟨fun hm => congrArg Host.Outcome.next (serve_replied h _ ?_),
    fun hm => congrArg Host.Outcome.next (serve_replied h s (if_pos hm))⟩
  dsimp only
  rw [if_neg (Nat.not_le_of_lt hm), taken_flags, taken_onPort fun _ => rfl]

end head

/-- The bits of the nine raised flags (R175). -/
theorem raisedMask_bit : ∀ i : Fin 10, (0x3FE : BitVec 10).getLsbD i.val = decide (0 < i.val) := by decide

/-- ANSWER is set exactly while an answer is queued (R175). -/
theorem flags_answer (x : PortState) : x.flags.getLsbD 0 = true ↔ x.answers ≠ [] := by
  unfold PortState.flags
  cases x.answers with
  | nil => simp
  | cons a l => simp [NoticeKind.mask]

/-- Every other flag is the raised one (R175). -/
theorem flags_raised (x : PortState) (i : Fin 10) (hi : 0 < i.val) : x.flags.getLsbD i.val = x.raised.getLsbD i.val := by
  have hanswer : (if x.answers.isEmpty then 0 else NoticeKind.answer.mask).getLsbD i.val = false := by
    split
    · exact BitVec.getLsbD_zero
    · simp [NoticeKind.mask, Nat.ne_of_gt hi]
  unfold PortState.flags
  rw [BitVec.getLsbD_or, BitVec.getLsbD_and, raisedMask_bit, hanswer, decide_eq_true hi, Bool.and_true, Bool.or_false]

/-! ### The statements -/

/-- Settles O7: each outcome is the first check that fails. -/
theorem failedPortCheckIsAnswered : Obligations.FailedPortCheckIsAnswered := by
  intro p s r rest he hr
  refine ⟨fun h => ?_, fun h hk => ?_, fun k h hk hl => ?_⟩
  · exact unknownRequest_eq he hr (screen_check h)
  · exact unknownRequest_eq he hr (screen_unknown h hk)
  · exact unknownRequest_eq he hr (screen_length h hk hl)

/-- Settles O8: the rule is an answer with the payload of the request. -/
theorem echoAnswersItsOwnPayload : Obligations.EchoAnswersItsOwnPayload :=
  fun _ s _ _ h => congrArg Host.Outcome.next (serve_replied h s rfl)

/-- Settles O9: the rule is an answer with the summary. -/
theorem statusReadAnswersTheSummary : Obligations.StatusReadAnswersTheSummary := by
  intro p q s r rest h hq
  refine congrArg Host.Outcome.next (serve_replied h s ?_)
  rw [taken_statusBytes hq]
  rfl

/-- Settles O10: the two requests by their cases, and the flags bit by bit. -/
theorem noticeEnableAndTakeActOnTheirPort : Obligations.NoticeEnableAndTakeActOnTheirPort := by
  intro p s r rest
  refine ⟨noticeEnable_cases, noticeTake_cases, fun x e => ?_⟩
  exact ⟨flags_answer x, flags_raised x, rfl, rfl⟩

end Sys2Proof.Machine
end

section
/-! SUPPORT and PROOFS. The exchange of a select period: the frame sent, the request frame read, and its arrival (R170 to
R173). -/

namespace Sys2Proof.Machine

/-! ### The frame sent -/

/-- Reading a list past its end with a default is reading it with the default repeated after it. -/
theorem map_getD_range {α : Type} (l : List α) (d : α) (n : Nat) :
    (List.range n).map (fun k => (l[k]?).getD d) = (l ++ List.replicate n d).take n := by
  refine List.ext_getElem (by simp) fun k hk _ => ?_
  have hn : k < n := by simpa using hk
  rw [List.getElem_map, List.getElem_range, List.getElem_take]
  by_cases hl : k < l.length
  · rw [List.getElem_append_left hl, List.getElem?_eq_getElem hl, Option.getD_some]
  · have hpast := Nat.le_of_not_lt hl
    rw [List.getElem_append_right hpast, List.getElem_replicate, List.getElem?_eq_none hpast, Option.getD_none]

/-- A select period sends its frame and filler after it (R170). -/
theorem select_shiftsOut (x : Select) (n : Nat) : x.shiftsOut n =
    if x.shifted then List.replicate n 0 else (x.frameBytes ++ List.replicate n 0).take n := by
  unfold Select.shiftsOut
  rw [← map_getD_range]
  rfl

/-- In STARTING a select period sends the empty answer frame with both flags no (R181). -/
theorem beginSelect_starting (x : PortState) : x.beginSelect true =
    { x with
      select := some
        { out := none, overflow := false, notice := false
          shifted := false, taken := false, dropped := false, starting := true } } := rfl

/-- In the other power states it sends the head of the answer queue, with the flags as they stand (R170, R173). -/
theorem beginSelect_running (x : PortState) : x.beginSelect false =
    { x with
      select := some
        { out := x.answers.head?, overflow := x.overflow, notice := x.flags &&& x.enables &&& 0x3FE != 0
          shifted := false, taken := false, dropped := false, starting := false } } := rfl

/-- The overflow flag stays but for a frame that carried it and no drop since (R173). -/
theorem overflow_shifted (a b c : Bool) : (a && !(b && !c)) = if b = true ∧ c = false then false else a := by
  cases b <;> cases c <;> simp

theorem shiftedOut_eq (x : PortState) (sel : Select) : x.shiftedOut sel =
    { x with
      answers := if sel.out = none then x.answers else x.answers.tail
      openItems := if sel.out = none then x.openItems else x.openItems - 1
      overflow := if sel.overflow = true ∧ sel.dropped = false then false else x.overflow
      select := some { sel with shifted := true } } := by
  unfold PortState.shiftedOut
  rw [overflow_shifted]
  cases sel.out <;> rfl

section select
variable {p : Port} {s : State}

theorem selectStart_eq (h : (s.ports.get p).select = none) : exec (.selectStart p) s =
    .next (s.onPort p (fun x => x.beginSelect (decide (s.power.state = .starting)))) := by
  show execSelectStart p s = _
  simp only [execSelectStart, h]

theorem answerShiftedOut_eq {sel : Select} (h : (s.ports.get p).select = some sel) (hs : sel.shifted = false) :
    exec (.answerShiftedOut p) s = .next (s.onPort p (fun x => x.shiftedOut sel)) := by
  show execAnswerShiftedOut p s = _
  simp [execAnswerShiftedOut, h, hs]

end select

/-- Settles O4: the period's start by the power state, its frame's last byte, its end, and the bytes that go out. -/
theorem selectPeriodSendsOneFrame : Obligations.SelectPeriodSendsOneFrame := by
  intro p s
  refine ⟨fun h => ?_, fun sel h hs => ?_, rfl, fun n => ?_, fun sel => rfl⟩
  · rw [selectStart_eq h, State.onPort]
    by_cases hstarting : s.power.state = .starting
    · rw [if_pos hstarting, decide_eq_true hstarting, beginSelect_starting]
    · rw [if_neg hstarting, decide_eq_false hstarting, beginSelect_running]
  · rw [answerShiftedOut_eq h hs, State.onPort, shiftedOut_eq]
  · exact congrArg (fun f => (s.ports.get p).select.map f) (funext fun sel => select_shiftsOut sel n)

/-! ### The request frame read -/

/-- A request frame's bytes: sequence, code, payload length, payload and check (Formats). -/
def requestFrame (seq code hi lo : Byte) (payload : List Byte) : List Byte :=
  [seq, code, byte payload.length] ++ payload ++ [hi, lo]

section frame
variable {seq code hi lo : Byte} {payload : List Byte}

theorem byte_toNat {n : Nat} (h : n ≤ 255) : (byte n).toNat = n := by
  rw [byte, BitVec.toNat_ofNat]
  exact Nat.mod_eq_of_lt (Nat.lt_succ_of_le h)

theorem requestFrame_head_length : ([seq, code, byte payload.length] ++ payload).length = 3 + payload.length := by
  rw [List.length_append]
  rfl

theorem requestFrame_length : (requestFrame seq code hi lo payload).length = 5 + payload.length := by
  rw [requestFrame, List.length_append, requestFrame_head_length]
  exact Nat.add_right_comm 3 payload.length 2

theorem requestFrame_len (h : payload.length ≤ 255) :
    byteAt (requestFrame seq code hi lo payload) 2 = payload.length :=
  byte_toNat h

theorem requestFrame_payload :
    ((requestFrame seq code hi lo payload).drop 3).take payload.length = payload :=
  List.take_left

/-- The check covers the bytes from the sequence through the last payload byte (R170, R171). -/
theorem requestFrame_checked : (requestFrame seq code hi lo payload).take (3 + payload.length)
    = [seq, code, byte payload.length] ++ payload := by
  rw [← requestFrame_head_length (seq := seq) (code := code)]
  exact List.take_left

/-- The check is the last two bytes (Formats). -/
theorem requestFrame_check :
    halfAt (requestFrame seq code hi lo payload) (3 + payload.length) = hi.toNat * 256 + lo.toNat := by
  have hlen := requestFrame_head_length (seq := seq) (code := code) (payload := payload)
  have hhi : (requestFrame seq code hi lo payload)[3 + payload.length]? = some hi := by
    rw [requestFrame, List.getElem?_append_right hlen.le, hlen, Nat.sub_self]
    rfl
  have hlo : (requestFrame seq code hi lo payload)[3 + payload.length + 1]? = some lo := by
    rw [requestFrame, List.getElem?_append_right (hlen.le.trans (Nat.le_succ _)), hlen, Nat.succ_sub (Nat.le_refl _),
      Nat.sub_self]
    rfl
  rw [halfAt, byteAt, byteAt, hhi, hlo]
  rfl

end frame

/-- Settles O5: the frame is complete, and each field is read where it stands. -/
theorem requestFrameIsReadByItsFields : Obligations.RequestFrameIsReadByItsFields := by
  intro seq code hi lo payload hcode hlen
  show requestOfFrame (requestFrame seq code hi lo payload) = _
  have hcomplete : ¬((requestFrame seq code hi lo payload).length < 3
      ∨ (requestFrame seq code hi lo payload).length < 5 + payload.length) := by
    rw [requestFrame_length]
    omega
  have hasked : ¬byteAt (requestFrame seq code hi lo payload) 1 = 0 := fun h => hcode (BitVec.eq_of_toNat_eq h)
  unfold requestOfFrame
  dsimp only
  rw [requestFrame_len hlen, if_neg hcomplete, if_neg hasked, requestFrame_payload, requestFrame_checked,
    requestFrame_check]
  rfl

/-! ### Its arrival -/

/-- A frame that carries a request is no empty request (R171). -/
theorem emptyRequest_of_frame {bytes : List Byte} {r : Request} (h : requestOfFrame bytes = some r) :
    emptyRequest bytes = false := by
  have hasked : byteAt bytes 1 ≠ 0 := by
    intro hzero
    simp [requestOfFrame, hzero] at h
  refine decide_eq_false fun hzero => hasked ?_
  rw [byteAt, hzero]
  rfl

theorem requestArrival_eq {p : Port} {s : State} {sel : Select} (h : (s.ports.get p).select = some sel)
    (bytes : List Byte) : exec (.requestArrival p bytes) s =
      if sel.taken then .next s else .next (s.onPort p (fun x => x.shiftIn sel bytes)) := by
  show execRequestArrival p bytes s = _
  simp only [execRequestArrival, h]

/-- Settles O6: a request by the room there is, an empty one, and a period that has taken its frame. -/
theorem arrivalJoinsTheQueueOrOverflows : Obligations.ArrivalJoinsTheQueueOrOverflows := by
  intro p bytes s sel hsel
  rw [requestArrival_eq hsel]
  refine ⟨fun r htaken hr => ?_, fun htaken hzero => ?_, fun htaken => if_pos htaken⟩
  · have hin : (s.ports.get p).shiftIn sel bytes = (s.ports.get p).arrive sel r := by
      simp only [PortState.shiftIn, emptyRequest_of_frame hr, hr, Bool.false_eq_true, if_false]
    rw [htaken, State.onPort, hin]
    rfl
  · have hin : (s.ports.get p).shiftIn sel bytes = { s.ports.get p with select := some { sel with taken := true } } :=
      if_pos (decide_eq_true hzero)
    rw [htaken, State.onPort, hin]
    rfl

end Sys2Proof.Machine
end

section
/-! PROOFS. The state after power-on reset: the manual's values, and the invariants of every step (R182, and the rules on each
block's own values after reset). -/

namespace Sys2Proof

theorem Trio.get_all {α : Type} (x : α) (k : SlotNo) : (Trio.all x).get k = x := by
  match k with
  | 0 | 1 | 2 => rfl

namespace Machine

/-! ### The values -/

/-- Where every slot table is filled with FREE slots, each slot is FREE and not pinned (R46). -/
theorem slot_of_allFree {x : Capture} (h : x.slots = Quad.all (Trio.all Slot.free)) (c : Camera) (k : SlotNo) :
    x.slot c k = Slot.free := by
  rw [Capture.slot, h, Quad.get_all, Trio.get_all]

theorem reset_ports (p : Port) : State.reset.ports.get p = PortState.reset := by
  cases p <;> rfl

theorem reset_plan (id : PlanId) : State.reset.plan id = PlanSlot.reset := Quad.get_all PlanSlot.reset id

/-- Settles O3: POWER_ON_RESET means the reset state, and the values are read off the reset of each block. -/
theorem resetHoldsTheManualsValues : Obligations.ResetHoldsTheManualsValues := by
  refine ⟨fun _ => rfl, ?power, fun p => ?ports, ?log, ?view, ?arb, ?balance, rfl, ?leases, ⟨fun id => ?plan, rfl⟩,
    ?capture, fun c => ?lane, ?chain⟩
  case power => exact ⟨rfl, rfl, rfl, rfl, rfl, rfl, rfl, rfl⟩
  case ports =>
    rw [reset_ports]
    exact ⟨rfl, rfl, rfl, rfl, rfl, rfl⟩
  case log => exact ⟨rfl, rfl, fun p => by cases p <;> rfl⟩
  case view => exact ⟨rfl, rfl, rfl, rfl, rfl, rfl, rfl⟩
  case arb => exact ⟨rfl, rfl, rfl, rfl⟩
  case balance => exact ⟨rfl, rfl, rfl, rfl, rfl⟩
  case leases => exact ⟨rfl, rfl, rfl, rfl, rfl, rfl⟩
  case plan =>
    rw [reset_plan]
    exact ⟨rfl, rfl⟩
  case capture =>
    refine ⟨rfl, rfl, rfl, rfl, rfl, fun c => Quad.get_all none c.idx, fun c k => ?_⟩
    rw [slot_of_allFree (x := State.reset.capture) rfl]
    exact ⟨rfl, rfl⟩
  case lane =>
    rw [State.lane, show State.reset.lanes = Quad.all Lane.reset from rfl, Quad.get_all]
    exact ⟨rfl, rfl, rfl, rfl, rfl, rfl⟩
  case chain =>
    refine ⟨fun c => ?_, rfl, rfl, rfl, rfl, rfl, rfl, rfl⟩
    rw [State.cam, show State.reset.chain.table = Quad.all CamRecord.reset from rfl, Quad.get_all]
    exact ⟨rfl, rfl, rfl, rfl, rfl, rfl⟩

/-! ### The invariants -/

/-- Both queues are empty, and no select period is in progress (R181). -/
theorem reset_itemsOk : State.reset.itemsOk := by
  have hport : PortState.reset.itemsOk := ⟨rfl, Nat.zero_le 4, nofun⟩
  exact ⟨hport, hport⟩

theorem reset_queuesOk : State.reset.queuesOk :=
  (queuesOk_iff _).2 ⟨fun i => by simp [State.reset, Lane.reset], Nat.zero_le 8⟩

/-- No lease, setting or composition names a plan, and no plan is marked (R94, R111). -/
theorem reset_plansOk : State.reset.plansOk := by
  refine (plansOk_iff _).2 ⟨⟨.nil, nofun⟩, by decide, fun id => ?_, fun id h => ?_⟩
  · rw [reset_plan]
    rfl
  · obtain ⟨l, hl, -⟩ | h | h | h := h <;> contradiction

/-- Every plan is EMPTY, so that there is no run (R94). -/
theorem reset_runsOk : State.reset.runsOk := by
  have hrun : ∀ id, State.reset.plans.runOf id = none := fun id =>
    congrArg (fun x : PlanSlot => x.hold.content.map _) (reset_plan id)
  refine ⟨fun id r h => ?_, fun i j r q _ h => ?_⟩ <;>
  · rw [hrun] at h
    contradiction

/-- Settles O60: what the reset state holds nothing of is in order, and the gains are unity. -/
theorem resetHasTheInvariants : Obligations.ResetHasTheInvariants := by
  refine ⟨Memory.wf_nil, reset_itemsOk, (recordsOk_iff _).2 ⟨inOrder_restart, ?noComposition⟩, gains_all, reset_queuesOk,
    ?sets, ?noWait, reset_plansOk, reset_runsOk, ?noSet⟩
  case noComposition => exact fun _ h => nomatch h
  case sets => exact clear_tableOk Capture.reset
  case noWait => exact fun h => nomatch h
  case noSet => exact clear_opens Capture.reset

end Machine
end Sys2Proof
end

section
/-! SUPPORT and PROOFS. RUN entered, and left by a standby entry: what each leaves of the state it begins in (R9, R14, R182, R184
to R186). -/

namespace Sys2Proof.Machine

/-! ### The line lease in the state around it -/

theorem withLeases_leasesOnly (s : State) (x : Leases) : s.leasesOnly { s with leases := x } :=
  ⟨rfl, fun _ => rfl, rfl, rfl⟩

/-- An activation changes the leases and the count of the plan it names alone (R103). -/
theorem activate_leasesOnly (s : State) : s.leasesOnly s.activate := by
  unfold State.activate
  dsimp only
  split
  next =>
    split
    · exact withLeases_leasesOnly ..
    · unfold State.joinLease
      exact onRefs_leasesOnly ..
  next =>
    split <;> exact withLeases_leasesOnly ..

/-- An inactivation changes the leases and the count of the line lease's plan alone (R104). -/
theorem inactivate_leasesOnly (s : State) : s.leasesOnly s.inactivate := by
  unfold State.inactivate
  dsimp only
  split
  next => exact withLeases_leasesOnly ..
  next =>
    split_ifs
    · exact onRefs_leasesOnly ..
    · exact withLeases_leasesOnly ..
    · exact withLeases_leasesOnly ..

/-- An activation hands the level over, and raises nothing. -/
theorem activate_handed (s : State) : s.activate.leases.handed = true ∧ s.activate.ports = s.ports := by
  unfold State.activate
  dsimp only
  repeat' split
  all_goals exact ⟨rfl, rfl⟩

theorem inactivate_handed (s : State) : s.inactivate.leases.handed = false := by
  unfold State.inactivate
  dsimp only
  repeat' split
  all_goals rfl

/-- An active level is handed over, as an activation, where RUN is entered (R182, R186). -/
theorem handLevel_spec (s : State) :
    s.leasesOnly s.handLevel ∧ s.handLevel.leases.handed = (s.power.level || s.leases.handed)
      ∧ s.handLevel.ports = s.ports := by
  unfold State.handLevel
  cases s.power.level with
  | true => exact ⟨activate_leasesOnly s, activate_handed s⟩
  | false => exact ⟨withLeases_leasesOnly s s.leases, rfl, rfl⟩

/-! ### RUN entered -/

/-- A strobe leaves the chain as `atStrobe` makes it, but for the queue and the command word held. -/
theorem sendStrobe_chain (s : State) : ∃ period queue word,
    s.sendStrobe.chain = { s.chain.atStrobe s.now period with queue := queue, commandWord := word } := by
  obtain ⟨queue, word, hsend⟩ := sendCommand_fixed (s.chain.atStrobe s.now s.sendStrobe.capture.timing.period)
  exact ⟨_, queue, word, (sendStrobe_spec s).1.trans hsend⟩

/-- RUN entered, before the cameras are switched on: POWER raised, the level handed over (R182, R186). -/
def State.inRun (s : State) : State := (({ s with power := s.power.running } : State).raiseBoth .power).handLevel

theorem enterRun_eq (s : State) : s.enterRun = s.inRun.camerasOn.sendStrobe := rfl

theorem inRun_leasesOnly (s : State) :
    (({ s with power := s.power.running } : State).raiseBoth .power).leasesOnly s.inRun := (handLevel_spec _).1

theorem inRun_bothRaised (s : State) : s.inRun.bothRaised .power := by
  intro p
  rw [State.inRun, (handLevel_spec _).2.2]
  exact raiseBoth_bothRaised _ _ p

theorem inRun_before (s : State) :
    s.inRun.chain = s.chain ∧ s.inRun.now = s.now ∧ s.inRun.power = s.power.running := by
  rw [(inRun_leasesOnly s).1]
  exact ⟨rfl, rfl, rfl⟩

/-- The cameras switched on and the first strobe sent are the pipeline's own (R9, R14). -/
theorem enterRun_pipeOnly (s : State) : s.inRun.pipeOnly s.enterRun :=
  pipeOnly_of_sansPipe ((sendStrobe_sansPipe _).trans (camerasOn_sansPipe _))

/-- The chain as RUN is entered: power settle begins, and the first strobe is sent (R9, R14). -/
theorem enterRun_chain (s : State) : ∃ period queue word, s.enterRun.chain =
    { ({ s.chain with cameraPower := true, phase := .settling, settleAt := some (s.now + 200000) } : Chain).atStrobe
        s.now period with queue := queue, commandWord := word } := by
  obtain ⟨hchain, hnow, -⟩ := inRun_before s
  obtain ⟨period, queue, word, hstrobe⟩ := sendStrobe_chain s.inRun.camerasOn
  refine ⟨period, queue, word, ?_⟩
  rw [enterRun_eq, hstrobe, State.camerasOn, hchain, hnow]
  rfl

/-- `t` is `s` with RUN entered: POWER is raised, camera power on and in power settle, the first strobe sent with the tag
counter's value, an active level handed over; and what else has changed is the pipeline's (R9, R14, R182, R184, R186). -/
structure State.runsTo (s t : State) : Prop where
  power : t.power = s.power.running
  raised : t.bothRaised .power
  cameraPower : t.chain.cameraPower = true
  phase : t.chain.phase = .settling
  settleAt : t.chain.settleAt = some (s.now + 200000)
  lastTag : t.chain.lastTag = some s.chain.tag
  tag : t.chain.tag = s.chain.tag + 1
  strobeWord : t.chain.strobeWord = some (strobeWordOf s.chain.tag)
  handed : t.leases.handed = (s.power.level || s.leases.handed)
  hold : ∀ id, (t.plan id).hold = (s.plan id).hold
  exchange : t.exchange = s.exchange
  rest : t = { s with
    chain := t.chain, lanes := t.lanes, capture := t.capture, arb := t.arb, ports := t.ports, power := t.power
    leases := t.leases, plans := { s.plans with slots := t.plans.slots } }

theorem enterRun_runsTo (s : State) : s.runsTo s.enterRun := by
  obtain ⟨hrest, hhold, hwalk, -⟩ := inRun_leasesOnly s
  obtain ⟨-, hhanded, -⟩ := handLevel_spec (({ s with power := s.power.running } : State).raiseBoth .power)
  obtain ⟨-, -, hpower⟩ := inRun_before s
  obtain ⟨period, queue, word, hchain⟩ := enterRun_chain s
  have hpipe := enterRun_pipeOnly s
  obtain ⟨tpower, tleases, tplans, -⟩ := pipeOnly_rest hpipe
  have hraised : s.enterRun.bothRaised .power := sendStrobe_keeps (s := s.inRun.camerasOn) (inRun_bothRaised s)
  have hexchange := enterRun_exchange s
  change s.inRun.leases.handed = _ at hhanded
  generalize s.enterRun = t at *
  generalize s.inRun = v at *
  have hplans : t.plans = { s.plans with slots := t.plans.slots } := by
    rw [tplans]
    exact congrArg (fun w => ({ v.plans with walk := w } : Plans)) hwalk
  refine { power := tpower.trans hpower, raised := hraised, exchange := hexchange, cameraPower := ?_, phase := ?_,
           settleAt := ?_, lastTag := ?_, tag := ?_, strobeWord := ?_, handed := ?_, hold := fun id => ?_
           rest := hpipe.1.trans ?_ }
  · exact congrArg Chain.cameraPower hchain
  · exact congrArg Chain.phase hchain
  · exact congrArg Chain.settleAt hchain
  · exact congrArg Chain.lastTag hchain
  · exact congrArg Chain.tag hchain
  · exact congrArg Chain.strobeWord hchain
  · rw [tleases]
    exact hhanded
  · rw [State.plan, tplans]
    exact hhold id
  · rw [← hplans, tpower, tleases, tplans, hrest]
    rfl

/-! ### Standby entry begun -/

/-- Standby entry that begins with the Composer IDLE is taken at once (R185). -/
theorem beginEntry_idle {s : State} (h : s.composer = none) : s.sleepsTo s.beginEntry := by
  obtain ⟨-, -, hsleeps⟩ | ⟨hnot, -⟩ := takeEntry_cases { s with power := { s.power with entry := true, idle := none } }
  · exact hsleeps
  · exact absurd ⟨rfl, h⟩ hnot

/-- With a composition in flight the standby wait begins, and nothing else changes (R185). -/
theorem beginEntry_busy {s : State} (h : s.composer ≠ none) :
    s.beginEntry = { s with power := { s.power with entry := true, idle := none } } := by
  obtain ⟨-, hidle, -⟩ | ⟨-, hstays⟩ := takeEntry_cases { s with power := { s.power with entry := true, idle := none } }
  · exact absurd hidle h
  · exact hstays

/-- IDLE_TIMER_EXPIRY in RUN, outside a standby wait and with no lease live, begins standby entry (R184). -/
theorem exec_idleTimerExpiry {s : State} {left : Nat} (hidle : s.power.idle = some left) (hrun : s.power.state = .run)
    (hentry : s.power.entry = false) (hleases : s.leases.table = []) :
    exec .idleTimerExpiry s = .next (s.elapse left).beginEntry := by
  have hlive : s.leases.live = false := by
    rw [Leases.live, hleases]
    rfl
  change execIdleTimerExpiry s = _
  simp only [execIdleTimerExpiry, hidle]
  exact if_pos ⟨hrun, hentry, hlive⟩

/-- Settles O54: STARTING end as RUN entered, and the standby entry as begun, waiting or taken. -/
theorem runIsEnteredAndLeftWhole : Obligations.RunIsEnteredAndLeftWhole := by
  refine ⟨fun s hstarting => ?entered, fun s left hidle hrun hentry hleases => ⟨fun hbusy => ?waits, fun hfree => ?taken⟩,
    fun s hentry hfree => ?due⟩
  case entered =>
    have h := enterRun_runsTo s
    exact ⟨s.enterRun, if_pos hstarting, congrArg Power.state h.power, h.raised,
      h.cameraPower, h.phase, h.settleAt, h.lastTag, h.strobeWord, h.handed, h.rest, h.hold, h.exchange⟩
  case waits =>
    rw [exec_idleTimerExpiry hidle hrun hentry hleases, beginEntry_busy (s := s.elapse left) hbusy]
  case taken =>
    exact ⟨_, exec_idleTimerExpiry hidle hrun hentry hleases, beginEntry_idle hfree⟩
  case due =>
    obtain ⟨-, -, hsleeps⟩ | ⟨hnot, -⟩ := takeEntry_cases s
    · exact ⟨_, rfl, hsleeps⟩
    · exact absurd ⟨hentry, hfree⟩ hnot

end Sys2Proof.Machine
end

section
/-! PROOFS. The samples of the reverse line and of the die temperature, and the change of the debounced level (R103, R104, R183
to R187). -/

namespace Sys2Proof.Machine

/-! ### The change of level -/

/-- An activation reads and changes no part of the power block. -/
theorem activate_withPower (s : State) (x : Power) :
    ({ s with power := x } : State).activate = { s.activate with power := x } := by
  unfold State.activate
  dsimp only
  repeat' split
  all_goals rfl

theorem inactivate_withPower (s : State) (x : Power) :
    ({ s with power := x } : State).inactivate = { s.inactivate with power := x } := by
  unfold State.inactivate
  dsimp only
  repeat' split
  all_goals rfl

/-- The change told to the Lease Arbiter: an activation or an inactivation of `s`, with the power block of the change. -/
theorem lineTold_leveled (s : State) : s.leveled.lineTold (!s.power.level) =
    { (if s.power.level then s.inactivate else s.activate) with power := s.leveled.power.reloadIdle } := by
  unfold State.lineTold State.leveled
  cases s.power.level with
  | true => simp [inactivate_withPower]
  | false => simp [activate_withPower]

/-- In RUN an activation with LINE wake on cancels a standby wait, and changes nothing outside one (R185). -/
theorem lineWoken_run {t : State} {active : Bool} (h : t.power.state = .run) (hidle : t.power.reloadIdle = t.power) :
    t.lineWoken active =
      { t with power := ({ t.power with entry := t.power.entry && !(active && t.power.lineWake) }).reloadIdle } := by
  have hstays : t = { t with power := ({ t.power with entry := t.power.entry }).reloadIdle } := by
    change t = { t with power := t.power.reloadIdle }
    rw [hidle]
  unfold State.lineWoken
  cases active && t.power.lineWake with
  | false => simpa using hstays
  | true =>
    rw [wakeEvent_run h]
    cases he : t.power.entry with
    | true => rfl
    | false => simpa [he] using hstays

/-- The power block after a change of level in RUN: the level and the count, a standby wait cancelled by a wake event, and the
idle timer reloaded (R183 to R185). -/
def Power.levelChanged (x : Power) : Power :=
  ({ x with level := !x.level, count := 0, entry := x.entry && (x.level || !x.lineWake) }).reloadIdle

/-- In STARTING the change is not handed over (R183). -/
theorem levelChange_starting {s : State} (h : s.power.state = .starting) : s.levelChange = s.leveled := by
  rw [levelChange_eq, h]

/-- In STANDBY an activation with LINE wake on is a wake event, and the change is not handed over otherwise (R183, R186). -/
theorem levelChange_standby {s : State} (h : s.power.state = .standby) :
    s.levelChange = if !s.power.level && s.power.lineWake then s.leveled.enterRun else s.leveled := by
  rw [levelChange_eq, h, ← wakeEvent_standby (s := s.leveled) h]
  rfl

/-- In RUN the change is handed to the Lease Arbiter (R103, R104, R183). -/
theorem levelChange_run {s : State} (h : s.power.state = .run) :
    s.levelChange =
      { (if s.power.level then s.inactivate else s.activate) with power := s.power.levelChanged } := by
  have hentry : ∀ level wake : Bool, (!(!level && wake)) = (level || !wake) := by decide
  rw [levelChange_eq, h]
  dsimp only
  rw [lineTold_leveled, lineWoken_run (by exact h) rfl, hentry]
  rfl

/-- REVERSE_LEVEL_CHANGE takes the change once the count has reached 5 (R183, log 12). -/
theorem exec_reverseLevelChange {s : State} (h : s.power.count = 5) :
    exec .reverseLevelChange s = .next s.levelChange := if_pos h

/-- What an operation on the leases leaves alone does not depend on the power block that goes with it. -/
theorem leasesOnly_withPower {s t : State} (h : s.leasesOnly t) (x : Power) :
    s.leasesOnly { ({ t with power := x } : State) with power := s.power } := by
  obtain ⟨hrest, hhold, hwalk, hports⟩ := h
  exact ⟨congrArg (fun u : State => { u with power := s.power }) hrest, hhold, hwalk, hports⟩

/-- A change of level in RUN leaves all but the leases and the power block alone (R183). -/
theorem levelChange_run_frame {s : State} (h : s.power.state = .run) :
    s.leasesOnly { s.levelChange with power := s.power } ∧ s.levelChange.power = s.power.levelChanged
      ∧ s.levelChange.leases.handed = !s.power.level := by
  rw [levelChange_run h]
  cases s.power.level with
  | true => exact ⟨leasesOnly_withPower (inactivate_leasesOnly s) _, rfl, inactivate_handed s⟩
  | false => exact ⟨leasesOnly_withPower (activate_leasesOnly s) _, rfl, (activate_handed s).1⟩

/-! ### Samples -/

/-- A sample of the reverse line, with no change of level waiting, moves the count alone (R183). -/
theorem exec_reverseLineSample (active : Bool) {s : State} (h : s.power.count < 5) :
    exec (.reverseLineSample active) s = .next
      { s.runTo s.power.nextReverse with
        power := { (s.runTo s.power.nextReverse).power with
          nextReverse := max s.now s.power.nextReverse + 2000
          count := if active = s.power.level then 0 else s.power.count + 1 } } := by
  have hnone : (s.runTo s.power.nextReverse).power.count ≠ 5 := Nat.ne_of_lt h
  change execReverseLineSample active s = _
  unfold execReverseLineSample
  dsimp only
  rw [if_neg hnone, runTo_now]
  rfl

/-- A temperature sample runs the timebase to its moment, moves the thermal state, and raises HEAT at a change (R187). -/
theorem exec_temperatureSample (celsius : Int) (s : State) : ∃ t, exec (.temperatureSample celsius) s = .next t
    ∧ t.power.thermal = s.power.thermal.sample celsius ∧ t.power.nextTemp = max s.now s.power.nextTemp + 100000
    ∧ (s.power.thermal.sample celsius ≠ s.power.thermal → t.bothRaised .heat)
    ∧ (s.power.thermal.sample celsius = s.power.thermal → t.ports = s.ports)
    ∧ t = { s.runTo s.power.nextTemp with power := t.power, ports := t.ports } ∧ t.exchange = s.exchange := by
  let u : State := { s.runTo s.power.nextTemp with
    power := { (s.runTo s.power.nextTemp).power with
      nextTemp := (s.runTo s.power.nextTemp).now + 100 * Config.ms, thermal := s.power.thermal.sample celsius } }
  have htime : u.power.nextTemp = max s.now s.power.nextTemp + 100000 :=
    congrArg (· + 100000) (runTo_now s s.power.nextTemp)
  have hexec : exec (.temperatureSample celsius) s =
      .next (if s.power.thermal.sample celsius = s.power.thermal then u else u.raiseBoth .heat) := rfl
  by_cases hsame : s.power.thermal.sample celsius = s.power.thermal
  · exact ⟨u, hexec.trans (congrArg _ (if_pos hsame)), rfl, htime, fun h => absurd hsame h, fun _ => rfl, rfl, rfl⟩
  · exact ⟨u.raiseBoth .heat, hexec.trans (congrArg _ (if_neg hsame)), rfl, htime,
      fun _ => raiseBoth_bothRaised u .heat, fun h => absurd h hsame, rfl, rfl⟩

/-- Settles O53: the sample that counts, the change of level by the power state, and the temperature sample. -/
theorem samplesMoveLevelAndHeat : Obligations.SamplesMoveLevelAndHeat := by
  refine ⟨fun active s hcount => exec_reverseLineSample active hcount,
    fun s hcount => ⟨fun hkept => ?kept, fun hsleeps hlevel hwake => ?wakes, fun hrun => ?run⟩, fun d s => ?heat⟩
  case kept =>
    rw [exec_reverseLevelChange hcount]
    obtain hstarting | ⟨hsleeps, hoff⟩ := hkept
    · exact congrArg _ (levelChange_starting hstarting)
    · refine congrArg _ ((levelChange_standby hsleeps).trans (if_neg ?_))
      obtain h | h := hoff <;> simp [h]
  case wakes =>
    have hwoken : s.levelChange = s.leveled.enterRun := by
      rw [levelChange_standby hsleeps, if_pos (by simp [hlevel, hwake])]
    have hactive : s.leveled.power.level = true := congrArg (!·) hlevel
    have h := enterRun_runsTo s.leveled
    rw [exec_reverseLevelChange hcount, hwoken]
    exact ⟨_, rfl, congrArg Power.state h.power, (congrArg Power.level h.power).trans hactive, congrArg Power.count h.power,
      h.handed.trans (congrArg (· || s.leases.handed) hactive), h.raised, h.lastTag, h.rest, h.hold, h.exchange⟩
  case run =>
    obtain ⟨hrest, hpower, hhanded⟩ := levelChange_run_frame hrun
    refine ⟨s.levelChange, exec_reverseLevelChange hcount, ?_, ?_, ?_, hhanded, hrest, ?_, fun hl => ?active,
      fun hl => ?inactive⟩
    · exact (congrArg Power.state hpower).trans hrun
    · exact congrArg Power.level hpower
    · exact congrArg Power.count hpower
    · exact congrArg Power.entry hpower
    case active =>
      have ht := levelChange_run hrun
      rw [if_neg (by simp [hl])] at ht
      rw [ht, hl]
      exact activate_spec s
    case inactive =>
      have ht := levelChange_run hrun
      rw [if_pos hl] at ht
      rw [ht, hl]
      exact inactivate_spec s
  case heat => exact exec_temperatureSample d s

end Sys2Proof.Machine
end

section
/-! SUPPORT. PIPELINE_RESTART: the abort of a composition in flight, and the pipeline cleared after it (R44, R69, R136, R147, R151,
R156, R192). -/

namespace Sys2Proof.Machine

/-! ### The abort -/

/-- A place after picture `frame` has been aborted: FREE where it held a row of that picture (R156). -/
def Place.afterAbort (x : Place) (frame : Nat) : Place :=
  match x with
  | .drawing f _ _ | .complete f _ _ => if f = frame then .free else x
  | .free => .free

theorem afterAbort_eq (x : Place) (frame : Nat) : (if x.ofFrame frame then Place.free else x) = x.afterAbort frame := by
  cases x with
  | free => rfl
  | drawing f row tiles => simp only [Place.ofFrame, Place.afterAbort, beq_iff_eq]
  | complete f row tiles => simp only [Place.ofFrame, Place.afterAbort, beq_iff_eq]

/-- A picture aborted leaves the buffer, its frame is marked, and the count kept for its record is taken (R156, R157). -/
theorem abort_countTaken (v : ViewLane) (frame : Nat) : (v.abort frame).countTaken = { v with
    placeA := v.placeA.afterAbort frame
    placeB := v.placeB.afterAbort frame
    sending := v.sending.map (fun y => if y.frame = frame then { y with aborted := true } else y)
    waiting := v.waiting.map (fun y => if y.frame = frame then { y with aborted := true } else y)
    endedCount := none } := by
  simp only [ViewLane.abort, ViewLane.countTaken, ViewLane.onPlaces, afterAbort_eq]

/-- The mark of an abort leaves the count of underruns as it is (R156, R157). -/
theorem underrunOf_abort (v : ViewLane) (frame f : Nat) : (v.abort frame).underrunOf f = v.underrunOf f := by
  unfold ViewLane.abort ViewLane.underrunOf
  dsimp only [ViewLane.onPlaces]
  cases v.sending with
  | none => rfl
  | some y =>
    rw [Option.map_some]
    split_ifs <;> rfl

/-- The record of an abort raises DEGRADED, for its outcome is ABORTED (R136, R161). -/
theorem abortComposition_degraded {s : State} {x : Context} (h : s.composer = some x) :
    s.abortComposition.bothRaised .degraded := by
  let a : State := { s with arb := s.arb.withdrawFetch, view := s.view.abort x.frame }
  let b := a.appendRecord x (a.view.underrunOf x.frame) true
  have hraised : b.bothRaised .degraded := appendRecord_degraded (by rw [outcomeOf_aborted]; decide)
  obtain ⟨⟨plans, hrelease⟩, -⟩ := releaseComposition_frame b x
  have habort : s.abortComposition = b.releaseComposition x := by
    simp only [State.abortComposition, h]
    rfl
  rw [habort, hrelease]
  exact hraised

/-- An abort leaves the Plan Store's walk alone. -/
theorem abortComposition_walk (s : State) : s.abortComposition.plans.walk = s.plans.walk := by
  unfold State.abortComposition
  split
  · rfl
  · rename_i x _
    let a : State := { s with arb := s.arb.withdrawFetch, view := s.view.abort x.frame }
    obtain ⟨⟨ports, happend⟩, -⟩ := appendRecord_frame a x (a.view.underrunOf x.frame) true
    refine (releaseComposition_walk _ x).trans ?_
    exact (congrArg (fun t : State => t.plans.walk) happend).trans rfl

/-- What an abort leaves alone, whether or not a composition is in flight (R136). -/
theorem abortComposition_frame (s : State) :
    s.abortComposition = { s with
      composer := none, capture := s.abortComposition.capture, arb := s.abortComposition.arb
      view := s.abortComposition.view, log := s.abortComposition.log, ports := s.abortComposition.ports
      plans := { s.plans with slots := s.abortComposition.plans.slots } }
    ∧ (∀ id, (s.abortComposition.plan id).hold = (s.plan id).hold)
    ∧ s.abortComposition.capture.timing = s.capture.timing
    ∧ s.abortComposition.capture.pendingTiming = s.capture.pendingTiming
    ∧ s.abortComposition.arb = if s.composer.isSome then s.arb.withdrawFetch else s.arb := by
  cases hx : s.composer with
  | none =>
    have habort : s.abortComposition = s := by simp only [State.abortComposition, hx]
    rw [habort]
    refine ⟨?_, fun _ => rfl, rfl, rfl, rfl⟩
    rw [← hx]
  | some x =>
    obtain ⟨⟨ports, plans, habort⟩, -, -, hplan⟩ := abortComposition_spec s x hx
    have hwalk := abortComposition_walk s
    generalize s.abortComposition = t at *
    refine ⟨?_, fun id => by rw [hplan], ?_, ?_, ?_⟩
    · have hplans : t.plans = { s.plans with slots := t.plans.slots } :=
        congrArg (fun w => ({ t.plans with walk := w } : Plans)) hwalk
      rw [← hplans, habort]
    · rw [habort]; rfl
    · rw [habort]; rfl
    · rw [habort]; rfl

/-! ### The pipeline cleared -/

/-- The withdrawals of a restart, `busy` telling whether a composition is in flight: of every lane's write, and of the
Composer's fetch where it is (R136, R151). -/
theorem restart_arb (x : Arb) (busy : Bool) : (if busy then x.withdrawFetch else x).withMark (fun _ => true) = { x with
    cursor := if busy then none else x.cursor
    inFlight := match x.inFlight with
      | some (.lane c addr data _) => some (.lane c addr data true)
      | some (.fetch addr w) => some (.fetch addr (w || busy))
      | other => other } := by
  obtain ⟨inFlight, pointer, pool, cursor⟩ := x
  rcases inFlight with - | burst
  · cases busy <;> rfl
  · cases burst <;> cases busy <;> simp [Arb.withMark, Arb.withdrawFetch]

/-- What PIPELINE_RESTART does before it answers: the abort, then lanes, capture sets, slots and gains cleared (R192). -/
def State.restarted (s : State) : State :=
  { s.abortComposition.restartLanes with
    capture := s.abortComposition.capture.clear, balance := s.abortComposition.balance.unity }

theorem restarted_exchange (s : State) : s.restarted.exchange = s.exchange :=
  (exchange_of_sansPipe (restartLanes_sansPipe _)).trans (abortComposition_exchange s)

theorem restarted_arb (s : State) : s.restarted.arb =
    (if s.composer.isSome then s.arb.withdrawFetch else s.arb).withMark (fun _ => true) := by
  obtain ⟨-, -, -, -, harb⟩ := abortComposition_frame s
  rw [← harb]
  exact restartLanes_arb _

/-- A restart leaves alone all but the pipeline, the composition and its picture, the records, and notices (R192). -/
theorem restarted_frame (s : State) : s.restarted = { s with
    composer := none, lanes := s.restarted.lanes, capture := s.restarted.capture
    balance := { s.balance with gains := Quad.all 256 }, arb := s.restarted.arb, view := s.restarted.view
    log := s.restarted.log, ports := s.restarted.ports
    plans := { s.plans with slots := s.restarted.plans.slots } } := by
  obtain ⟨hframe, -⟩ := abortComposition_frame s
  unfold State.restarted
  generalize s.abortComposition = a at *
  rw [hframe]
  rfl

/-- With no composition in flight a restart leaves the records, the drop count, the View Lane and the plans alone. -/
theorem restarted_idle {s : State} (h : s.composer = none) :
    s.restarted.log = s.log ∧ s.restarted.capture.drops = s.capture.drops ∧ s.restarted.view = s.view
      ∧ s.restarted.plans = s.plans := by
  have habort : s.abortComposition = s := by simp only [State.abortComposition, h]
  unfold State.restarted
  rw [habort]
  exact ⟨rfl, rfl, rfl, rfl⟩

/-- With a composition in flight a restart appends its record, takes its picture off the View Lane, and unpins its plan (R136,
R156, R160, R192). -/
theorem restarted_busy {s : State} {x : Context} (h : s.composer = some x) :
    s.restarted.log = s.log.append (recordOf x (s.view.underrunOf x.frame) s.capture.drops true)
      ∧ s.restarted.capture.drops = 0 ∧ s.restarted.bothRaised .frame ∧ s.restarted.bothRaised .degraded
      ∧ s.restarted.view = (s.view.abort x.frame).countTaken
      ∧ ∀ id, (s.restarted.plan id).refs = { (s.plan id).refs with
        pinned := if x.view.plan = some id then false else (s.plan id).refs.pinned } := by
  obtain ⟨⟨ports, plans, habort⟩, hframe, -, hplan⟩ := abortComposition_spec s x h
  have hdegraded := abortComposition_degraded h
  rw [underrunOf_abort] at habort
  unfold State.restarted
  generalize s.abortComposition = a at *
  refine ⟨?_, ?_, hframe, hdegraded, ?_, fun id => congrArg PlanSlot.refs (hplan id)⟩
  · exact congrArg State.log habort
  · exact congrArg (fun b : State => b.capture.drops) habort
  · exact congrArg State.view habort

/-- Between two states alike but for raised flags, an answer makes no difference. -/
theorem answer_exchange {a b : State} (p : Port) (c : Code) (bs : List Byte) (h : a.exchange = b.exchange) :
    (a.answer p c bs).exchange = (b.answer p c bs).exchange := by
  let d : State := { b with ports := a.ports }
  have hports : (a.answer p c bs).ports = (d.answer p c bs).ports := by
    unfold State.answer
    dsimp only [d]
    split <;> rfl
  have hview : d.sansPipe = b.sansPipe := congrArg (fun q => { b.sansPipe with ports := q }) h
  exact (congrArg quietPorts hports).trans (exchange_of_sansPipe (answer_sansPipe p c bs hview))

end Sys2Proof.Machine
end

section
/-! PROOFS. STANDBY, WAKE and PIPELINE_RESTART, each by the power state (R185, R186, R189, R190, R192). -/

namespace Sys2Proof.Machine

section power
variable {p : Port} {s : State} {r : Request} {rest : List Request}

/-! ### STANDBY -/

/-- A level-0 lease or the line lease lives (R102). -/
theorem urgent_iff (x : Leases) : x.urgent = true ↔ ∃ l ∈ x.table, l.level = 0 ∨ l.holder = .line := by
  simp [Leases.urgent]

/-- STANDBY accepted is answered, and standby entry begins (R185, R189). -/
theorem standby_accepted (h : s.Ready p .standby r rest) (hawake : s.power.state ≠ .standby)
    (hentry : s.power.entry = false) (hurgent : s.leases.urgent = false) :
    exec (.standby p) s = .next (s.replied p r rest .ok []).beginEntry := by
  refine congrArg Host.Outcome.next ((serve_of_ready h _).trans ?_)
  have hopen : ¬(s.taken p r rest).power.entry = true := by simp [hentry]
  have hcalm : ¬(s.taken p r rest).leases.urgent = true := by simp [hurgent]
  rw [← taken_answer]
  exact (if_neg hawake).trans ((if_neg hopen).trans (if_neg hcalm))

/-! ### WAKE -/

/-- In RUN a WAKE cancels a standby wait, and is answered (R190). -/
theorem wake_run (h : s.Ready p .wake r rest) (hrun : s.power.state = .run) :
    exec (.wake p) s = .next (({ s with power := { s.power with entry := false } } : State).replied p r rest .ok []) := by
  refine congrArg Host.Outcome.next ((serve_of_ready h _).trans ?_)
  rw [taken_wakeEvent_run hrun]
  cases hentry : s.power.entry with
  | true =>
    rw [if_pos rfl, taken_answer_withPower]
    rfl
  | false =>
    rw [if_neg Bool.false_ne_true, taken_answer, ← hentry]

/-- RUN entered by a request that is answered after it. -/
theorem State.runsTo.answered {s t : State} (h : s.runsTo t) (p : Port) (c : Code) (bs : List Byte) :
    (s.answer p c bs).runsTo (t.answer p c bs) := by
  have hraised := answer_keeps p c bs h.raised
  have hexchange := answer_exchange p c bs h.exchange
  obtain ⟨x, hx⟩ := answer_frame s p c bs
  obtain ⟨y, hy⟩ := answer_frame t p c bs
  rw [hy] at hraised
  rw [hx, hy] at hexchange ⊢
  exact { h with
    raised := hraised, exchange := hexchange
    rest := congrArg (fun u : State => { u with ports := t.ports.set p y }) h.rest }

/-- In STANDBY a WAKE takes the part to RUN, and is answered (R186, R190). -/
theorem wake_standby (h : s.Ready p .wake r rest) (hsleeps : s.power.state = .standby) :
    ∃ t, exec (.wake p) s = .next t ∧ (s.replied p r rest .ok []).runsTo t := by
  refine ⟨_, congrArg Host.Outcome.next (serve_of_ready h _), ?_⟩
  rw [wakeEvent_standby (s := s.taken p r rest) hsleeps, ← taken_answer]
  exact (enterRun_runsTo (s.taken p r rest)).answered p .ok []

/-! ### PIPELINE_RESTART -/

/-- The state in which a PIPELINE_RESTART accepted has been answered, before an entry that waits is taken (R192). -/
def State.restartReplied (s : State) (p : Port) (r : Request) (rest : List Request) : State :=
  (s.taken p r rest).restarted.answer p .ok []

theorem pipelineRestart_accepted (h : s.Ready p .pipelineRestart r rest) (hawake : s.power.state ≠ .standby) :
    exec (.pipelineRestart p) s = .next (s.restartReplied p r rest).takeEntry :=
  congrArg Host.Outcome.next ((serve_of_ready h _).trans (if_neg hawake))

/-- The answer is the last thing that changes the ports: `ports` stands for what it leaves them as. -/
theorem restartReplied_eq (s : State) (p : Port) (r : Request) (rest : List Request) : ∃ ports,
    s.restartReplied p r rest = { (s.taken p r rest).restarted with ports := ports }
    ∧ quietPorts ports = quietPorts (s.replied p r rest .ok []).ports
    ∧ ∀ k, (s.taken p r rest).restarted.bothRaised k → (s.restartReplied p r rest).bothRaised k := by
  obtain ⟨x, hx⟩ := answer_frame (s.taken p r rest).restarted p .ok []
  have hexchange := answer_exchange p .ok [] (restarted_exchange (s.taken p r rest))
  rw [taken_answer, hx] at hexchange
  exact ⟨_, hx, hexchange, fun k => answer_keeps p .ok []⟩

end power

/-- Settles O52: each request's checks by the power state, and what it does where it is accepted. -/
theorem powerRequestsActByThePowerState : Obligations.PowerRequestsActByThePowerState := by
  intro p s r rest
  refine ⟨fun h => ⟨fun hsleeps => ?asleep, fun hawake hentry => ?waiting, fun hawake hentry hlease => ?inUse,
      fun hawake hentry hlease => ?accepted⟩,
    fun h => ⟨wake_run h, fun hsleeps => ?woken⟩, fun h => ⟨fun hsleeps => ?restartAsleep, fun hawake => ?restart⟩⟩
  case asleep => exact congrArg _ (serve_replied h s (if_pos hsleeps))
  case waiting => exact congrArg _ (serve_replied h s ((if_neg hawake).trans (if_pos hentry)))
  case inUse =>
    have hopen : ¬(s.taken p r rest).power.entry = true := by simp [hentry]
    exact congrArg _ (serve_replied h s
      ((if_neg hawake).trans ((if_neg hopen).trans (if_pos ((urgent_iff _).2 hlease)))))
  case accepted =>
    have hcalm : s.leases.urgent = false := by
      rw [← Bool.not_eq_true, urgent_iff]
      rintro ⟨l, hl, h | h⟩
      · exact (hlease l hl).1 h
      · exact (hlease l hl).2 h
    have hexec := standby_accepted h hawake hentry hcalm
    refine ⟨fun hbusy => ?_, fun hfree => ⟨_, hexec, beginEntry_idle hfree⟩⟩
    rw [hexec, beginEntry_busy (s := s.replied p r rest .ok []) hbusy]
    simp [State.replied, Power.reloadIdle]
  case woken =>
    obtain ⟨t, hexec, ht⟩ := wake_standby h hsleeps
    exact ⟨t, hexec, congrArg Power.state ht.power, ht.raised, ht.cameraPower, ht.phase, ht.settleAt, ht.lastTag, ht.tag,
      ht.rest, ht.hold, ht.exchange⟩
  case restartAsleep => exact congrArg _ (serve_replied h s (if_pos hsleeps))
  case restart =>
    obtain ⟨ports, hu, hquiet, hkeeps⟩ := restartReplied_eq s p r rest
    have hexec := pipelineRestart_accepted h hawake
    have hcases := takeEntry_cases (s.restartReplied p r rest)
    obtain ⟨-, hhold, htiming, hpending, -⟩ := abortComposition_frame (s.taken p r rest)
    have hframe := restarted_frame (s.taken p r rest)
    have harb := (restarted_arb (s.taken p r rest)).trans (restart_arb ..)
    have hfree : (s.taken p r rest).restarted.composer = none := abortComposition_composer (s.taken p r rest)
    have hentry : (s.taken p r rest).restarted.power.entry = s.power.entry := by rw [hframe]; rfl
    rw [hu] at hexec hcases hkeeps
    refine ⟨_, { (s.taken p r rest).restarted with ports := ports }, hexec, hfree, fun c => Quad.get_all Lane.reset c.idx, rfl,
      rfl, fun c k => ?slot, fun c => Quad.get_all none c.idx, htiming, hpending, ?rest, hhold, hquiet, harb,
      fun hidle => ?idle, fun x hx => ?busy, fun hnone => ?stays, fun hwaits => ?entry⟩
    case slot =>
      rw [slot_of_allFree rfl]
      exact ⟨rfl, rfl⟩
    case rest => exact congrArg (fun v : State => { v with ports := ports }) hframe
    case idle => exact restarted_idle (s := s.taken p r rest) hidle
    case busy =>
      obtain ⟨hlog, hdrops, hraised, hdegraded, hview, hrefs⟩ := restarted_busy (s := s.taken p r rest) hx
      refine ⟨hlog, hdrops, hkeeps _ hraised, hkeeps _ hdegraded, ?_, hview.trans ?_, hrefs⟩
      · refine (congrArg Arb.cursor harb).trans ?_
        exact if_pos (by simp [hx])
      · exact abort_countTaken s.view x.frame
    case stays =>
      obtain ⟨hdue, -⟩ | ⟨-, hstays⟩ := hcases
      · exact absurd (hdue.symm.trans (hentry.trans hnone)) (by decide)
      · exact hstays
    case entry =>
      obtain ⟨-, -, hsleepsTo⟩ | ⟨hnot, -⟩ := hcases
      · exact hsleepsTo
      · exact absurd ⟨hentry.trans hwaits, hfree⟩ hnot

end Sys2Proof.Machine
end

section
/-! SUPPORT and PROOFS. What a step runs, and that no command ends in a fault or a refusal (log 1, log 2, log 35). -/

namespace Sys2Proof.Machine

/-- The outcome is a next state: the command ends neither in a fault nor in a refusal. -/
def proceeds (o : Host.Outcome State Fault Refusal) : Prop := ∃ t, o = .next t

theorem proceeds_next (t : State) : proceeds (.next t) := ⟨t, rfl⟩

/-- A condition chooses the state that a command goes on to, not whether it goes on. -/
theorem proceeds_ite (c : Prop) [Decidable c] (a b : State) : proceeds (if c then .next a else .next b) := by
  split
  · exact proceeds_next a
  · exact proceeds_next b

/-- MESH_READ_COMPLETE: the box that the mesh read gives is fetched, or the next area taken where it is empty (R130, R150). -/
theorem execMeshReadComplete_proceeds (s : State) : proceeds (execMeshReadComplete s) := by
  unfold execMeshReadComplete
  split
  · split
    · split
      · dsimp only
        split
        · exact proceeds_next _
        · exact proceeds_next _
      · exact proceeds_next s
    · exact proceeds_next s
  · exact proceeds_next s

/-! ### Every command -/

/-- The commands by the shape of their meaning: a request goes on whether it is served or not. Of the events
some have no condition and some one test; the others look for what they act on, and some then test it or look further. -/
theorem exec_proceeds (c : Instr) (s : State) : proceeds (exec c s) := by
  cases c with
  | echo p | statusRead p | noticeEnable p | noticeTake p | chainRebuild p | cameraRead p | cameraRestart p | chainSet p
  | timingSet p | captureRead p | planOpen p | planTiles p | planMeshes p | planVerify p | planDiscard p | planRead p
  | poolRead p | viewClaim p | viewRenew p | viewRelease p | viewRead p | viewsSet p | balanceSet p | balanceRead p
  | outputSet p | recordRead p | recordLatest p | recordRewind p | rateCap p | standby p | wake p | powerSet p
  | pipelineRestart p => exact proceeds_next (s.serve p _ _)
  | powerOnReset | selectEnd p | slotEnd c reply | reverseLineSample active | standbyEntry | temperatureSample celsius =>
    exact proceeds_next _
  | startingEnd | cameraLost c | packetArrival lane how bytes | reverseLevelChange => exact proceeds_ite _ _ _
  | selectStart p | settleTimerExpiry | lineConsume lane | lineWriteComplete lane | frameAbandon lane
  | abandonRepairsComplete lane | burstDone | planAbandoned plan | viewFrameStart =>
    simp only [exec, execSelectStart, execSettleTimerExpiry, execLineConsume, execLineWriteComplete, execFrameAbandon,
      execAbandonRepairsComplete, execBurstDone, execPlanAbandoned, execViewFrameStart]
    split <;> exact proceeds_next _
  | requestArrival p bytes | answerShiftedOut p | strobe | identTimeout c reply | testTimerExpiry c | windowExpiry tag
  | compositionStart | fetchingEnd | tileDrawn | lineDue | viewFrameEnd | idleTimerExpiry =>
    simp only [exec, execRequestArrival, execAnswerShiftedOut, execStrobe, execIdentTimeout, execTestTimerExpiry,
      execWindowExpiry, execCompositionStart, execFetchingEnd, execTileDrawn, execLineDue, execViewFrameEnd,
      execIdleTimerExpiry]
    split
    · exact proceeds_ite _ _ _
    · exact proceeds_next s
  | unknownRequest p | verifyMeshRead | leaseExpiry handle =>
    simp only [exec, execUnknownRequest, execVerifyMeshRead, execLeaseExpiry]
    split
    · split <;> exact proceeds_next _
    · exact proceeds_next s
  | meshReadComplete => exact execMeshReadComplete_proceeds s

/-- Settles O2: the commands are gone through by the shape of their meaning. -/
theorem noCommandStopsThePart : Obligations.NoCommandStopsThePart := exec_proceeds

/-! ### The step -/

/-- With a command at the front of the queue, a step is that command on the queue's rest. -/
theorem step_cons {c : Instr} {rest : List Instr} {s : State} (h : s.pending = c :: rest) :
    step s = exec c { s with pending := rest } := by
  unfold step
  rw [h]

/-- Settles O1: the queue is not empty, so the step's second case is taken. -/
theorem stepRunsTheFrontCommand : Obligations.StepRunsTheFrontCommand := fun _ _ _ => step_cons

end Sys2Proof.Machine
end

section
/-! SUPPORT and PROOFS. PLAN_TILES and PLAN_DISCARD: entries written into consecutive tiles, a plan emptied, and the six bytes of
a tile entry (R73, R82, R91). -/

namespace Sys2Proof.Machine

/-! ### Pieces of a payload -/

/-- Piece `j` begins `n * j` bytes on. -/
theorem pieces_eq_map (n : Nat) : ∀ (count : Nat) (bs : List Byte),
    pieces n count bs = (List.range count).map (fun j => (bs.drop (n * j)).take n) := by
  intro count
  induction count with
  | zero => intro bs; rfl
  | succ count ih =>
    intro bs
    rw [pieces, ih, List.range_succ_eq_map, List.map_cons, List.map_map]
    simp [Function.comp_def, Nat.mul_add, Nat.add_comm]

/-! ### Tiles written (R82) -/

/-- The tiles before the first and past the last entry stay. -/
theorem setTiles_outside (es : List TileEntry) : ∀ (tiles : List (Option TileEntry)) (first k : Nat),
    k < first ∨ first + es.length ≤ k → (setTiles tiles first es)[k]? = tiles[k]? := by
  induction es with
  | nil => intro tiles first k _; rfl
  | cons e es ih =>
    intro tiles first k hk
    rw [List.length_cons] at hk
    rw [setTiles, ih _ _ _ (by omega), List.getElem?_set_ne (by omega)]

/-- Entry `j` is in tile `first + j`. -/
theorem setTiles_inside {e : TileEntry} (es : List TileEntry) : ∀ (tiles : List (Option TileEntry)) (first j : Nat),
    first + es.length ≤ tiles.length → es[j]? = some e → (setTiles tiles first es)[first + j]? = some (some e) := by
  induction es with
  | nil => intro tiles first j _ hj; cases hj
  | cons a es ih =>
    intro tiles first j hlen hj
    rw [List.length_cons] at hlen
    cases j with
    | zero =>
      cases hj
      rw [setTiles, setTiles_outside _ _ _ _ (by omega), Nat.add_zero, List.getElem?_set_self (by omega)]
    | succ j =>
      rw [setTiles, ← Nat.add_assoc, Nat.add_right_comm]
      exact ih _ _ _ (by rw [List.length_set]; omega) hj

/-- The content of a plan with the entries of a PLAN_TILES payload written. -/
def PlanContent.tiled (c : PlanContent) (bs : List Byte) : PlanContent :=
  { c with tiles := setTiles c.tiles (halfAt bs 1) ((pieces 6 (byteAt bs 3) (bs.drop 4)).map tileOfBytes) }

theorem tiled_inside {c : PlanContent} {bs : List Byte} (h : halfAt bs 1 + byteAt bs 3 ≤ c.tiles.length) {j : Nat}
    (hj : j < byteAt bs 3) :
    (c.tiled bs).tiles[halfAt bs 1 + j]? = some (some (tileOfBytes ((bs.drop (4 + 6 * j)).take 6))) := by
  refine setTiles_inside _ _ _ _ ?_ ?_
  · simpa [pieces_eq_map] using h
  · simp [pieces_eq_map, hj]

theorem tiled_outside {c : PlanContent} {bs : List Byte} {k : Nat}
    (hk : k < halfAt bs 1 ∨ halfAt bs 1 + byteAt bs 3 ≤ k) : (c.tiled bs).tiles[k]? = c.tiles[k]? :=
  setTiles_outside _ _ _ _ (by simpa [pieces_eq_map] using hk)

section requests
variable {p : Port} {s : State} {r : Request} {rest : List Request} {id : PlanId} {c : PlanContent} {at0 : Nat} {ab : Bool}

/-- A PLAN_TILES of legal length and range for a LOADING plan: the opening port alone is not refused (R82). -/
theorem planTiles_loading (h : s.Ready p .planTiles r rest) (hid : planOf r.payload = some id)
    (hold : ((s.touchPlan p r.payload).plan id).hold = .loading c at0 ab)
    (hlen : r.payload.length = 4 + 6 * byteAt r.payload 3)
    (hrange : 1 ≤ byteAt r.payload 3 ∧ byteAt r.payload 3 ≤ 16 ∧ halfAt r.payload 1 + byteAt r.payload 3 ≤ 375) :
    exec (.planTiles p) s = .next
      (if c.opener ≠ p then (s.touchPlan p r.payload).replied p r rest .owner []
      else (s.setHold id (.loading (c.tiled r.payload) at0 ab)).replied p r rest .ok
        (be2 (c.tiled r.payload).tilesWritten)) := by
  have hin : ¬(byteAt r.payload 3 = 0 ∨ 16 < byteAt r.payload 3 ∨ 375 < halfAt r.payload 1 + byteAt r.payload 3) := by
    omega
  change execPlanTiles p s = _
  unfold execPlanTiles
  rw [serve_of_ready h]
  simp only [taken_touchPlan, hid, taken_plan, hold, hlen, if_neg hin, taken_refuse, taken_setHold,
    touchPlan_setHold hid, taken_answer, ne_eq, not_true, if_false]
  rfl

theorem planTiles_owner (h : s.Ready p .planTiles r rest) (hid : planOf r.payload = some id)
    (hold : (s.plan id).hold = .loading c at0 ab) (hlen : r.payload.length = 4 + 6 * byteAt r.payload 3)
    (hrange : 1 ≤ byteAt r.payload 3 ∧ byteAt r.payload 3 ≤ 16 ∧ halfAt r.payload 1 + byteAt r.payload 3 ≤ 375)
    (ho : c.opener ≠ p) : exec (.planTiles p) s = .next (s.replied p r rest .owner []) := by
  have hu : s.touchPlan p r.payload = s := touchPlan_other hid hold ho
  rw [planTiles_loading h hid (by rw [hu, hold]) hlen hrange, if_pos ho, hu]

theorem planTiles_accepted (h : s.Ready p .planTiles r rest) (hid : planOf r.payload = some id)
    (hold : (s.plan id).hold = .loading c at0 ab) (hlen : r.payload.length = 4 + 6 * byteAt r.payload 3)
    (hrange : 1 ≤ byteAt r.payload 3 ∧ byteAt r.payload 3 ≤ 16 ∧ halfAt r.payload 1 + byteAt r.payload 3 ≤ 375)
    (ho : c.opener = p) :
    exec (.planTiles p) s = .next
      ((s.setHold id (.loading (c.tiled r.payload) s.now false)).replied p r rest .ok
        (be2 (c.tiled r.payload).tilesWritten)) := by
  rw [planTiles_loading h hid (by rw [touchPlan_opener hid hold ho, setHold_hold_same]) hlen hrange,
    if_neg (not_not_intro ho)]

/-! ### PLAN_DISCARD (R91) -/

theorem touchPlan_empty (s : State) (p : Port) (bs : List Byte) (id : PlanId) :
    ((s.touchPlan p bs).plan id).hold = .empty ↔ (s.plan id).hold = .empty := by
  have hcontent : ∀ h : PlanHold, h = .empty ↔ h.content = none := fun h => by cases h <;> simp [PlanHold.content]
  rw [hcontent, hcontent, touchPlan_content]

/-- PLAN_DISCARD of a plan: the checks of R91 in their order. -/
theorem planDiscard_eq (h : s.Ready p .planDiscard r rest) (hid : planOf r.payload = some id) :
    exec (.planDiscard p) s = .next
      (let u := s.touchPlan p r.payload
      if (s.plan id).hold = .empty ∨ (s.plan id).hold.isVerifying = true then u.replied p r rest .state []
      else if (u.plan id).hold.ownedByOther p then u.replied p r rest .owner []
      else if (s.plan id).refs.referenced then u.replied p r rest .inUse []
      else (s.setHold id .empty).replied p r rest .ok []) := by
  change execPlanDiscard p s = _
  unfold execPlanDiscard
  rw [serve_of_ready h]
  simp only [taken_touchPlan, hid, taken_refuse, taken_plan, touchPlan_empty, touchPlan_isVerifying, touchPlan_refs,
    taken_setHold, touchPlan_setHold hid, taken_answer]

theorem planDiscard_inUse (h : s.Ready p .planDiscard r rest) (hid : planOf r.payload = some id)
    (hold : (s.plan id).hold = .verified c) (href : (s.plan id).refs.referenced = true) :
    exec (.planDiscard p) s = .next (s.replied p r rest .inUse []) := by
  have hu : s.touchPlan p r.payload = s := touchPlan_notLoading hid (by simp [hold])
  rw [planDiscard_eq h hid]
  simp [hu, hold, href, PlanHold.isVerifying, PlanHold.ownedByOther]

theorem planDiscard_accepted (h : s.Ready p .planDiscard r rest) (hid : planOf r.payload = some id)
    (hne : (s.plan id).hold ≠ .empty) (hv : (s.plan id).hold.isVerifying = false)
    (hown : ((s.touchPlan p r.payload).plan id).hold.ownedByOther p = false)
    (href : (s.plan id).refs.referenced = false) :
    exec (.planDiscard p) s = .next ((s.setHold id .empty).replied p r rest .ok []) := by
  rw [planDiscard_eq h hid]
  simp [hne, hv, hown, href]

end requests

/-! ### Tile entries (R73) -/

/-- The fields of a tile entry's six bytes; bits 3 and 7 of the first two bytes and the top six of the mesh indices are in none. -/
theorem tileOfBytes_fields (b0 b1 b2 b3 b4 b5 : Byte) :
    let e := tileOfBytes [b0, b1, b2, b3, b4, b5]
    e.cls.toNat = b0.toNat % 8 ∧ e.ramp.toNat = b0.toNat / 16 % 8
    ∧ e.primCam.toNat = b1.toNat % 8 ∧ e.secCam.toNat = b1.toNat / 16 % 8
    ∧ e.primMesh.toNat = (b2.toNat * 256 + b3.toNat) % 1024 ∧ e.secMesh.toNat = (b4.toNat * 256 + b5.toNat) % 1024 := by
  simp [tileOfBytes, halfAt, byteAt, BitVec.extractLsb'_toNat, Nat.shiftRight_eq_div_pow]

/-- Settles O33: the entries are written one after another, and a discard passes its checks in their order. -/
theorem tilesAreWrittenAndPlansDiscarded : Obligations.TilesAreWrittenAndPlansDiscarded := by
  refine ⟨fun p s r rest id hid => ⟨fun hr c at0 ab hold htiles hlen h1 h16 hfit => ?tiles, fun hr => ?discard⟩,
    tileOfBytes_fields⟩
  case tiles =>
    refine ⟨planTiles_owner hr hid hold hlen ⟨h1, h16, hfit⟩, fun ho => ⟨(c.tiled r.payload).tiles, ?_, ?_, ?_⟩⟩
    · exact planTiles_accepted hr hid hold hlen ⟨h1, h16, hfit⟩ ho
    · exact fun j hj => tiled_inside (htiles ▸ hfit) hj
    · exact fun k hk => tiled_outside hk
  case discard =>
    exact ⟨fun c hold href => planDiscard_inUse hr hid hold href,
      fun hne hv hown href => planDiscard_accepted hr hid hne hv hown href⟩

end Sys2Proof.Machine
end

section
/-! SUPPORT and PROOFS. PLAN_MESHES and PLAN_READ: the bursts handed to the pool requester, and the payloads of a plan's state
and tiles field by field (R83, R92, R148). -/

namespace Sys2Proof.Machine

/-! ### Records written (R83) -/

/-- Record `j` is written `j` places into the run, for mesh `i + j`. -/
theorem meshBursts_getElem? (recs : List (List Byte)) : ∀ base i j : Nat,
    (meshBursts base i recs)[j]? = recs[j]?.map (fun rec => .write (base + (i + j)) (i + j) rec) := by
  induction recs with
  | nil => intro base i j; rfl
  | cons a recs ih =>
    intro base i j
    cases j with
    | zero => rfl
    | succ j =>
      rw [meshBursts, List.getElem?_cons_succ, ih, List.getElem?_cons_succ, Nat.add_right_comm i 1 j]
      rfl

/-- The bursts of a PLAN_MESHES payload. -/
theorem meshBursts_pieces (base i count : Nat) (bs : List Byte) :
    meshBursts base i (pieces 36 count (bs.drop 4)) =
      (List.range count).map (fun j => .write (base + i + j) (i + j) ((bs.drop (4 + 36 * j)).take 36)) := by
  refine List.ext_getElem? fun j => ?_
  rw [meshBursts_getElem?, pieces_eq_map, List.getElem?_map, List.getElem?_map, Option.map_map]
  by_cases hj : j < count
  · simp [hj, Nat.add_assoc]
  · simp [hj]

/-- The state with a request handed to the pool requester, behind those that wait for it (R148). -/
def State.handPool (s : State) (q : PoolRequest) : State :=
  ({ s with arb := { s.arb with pool := s.arb.pool ++ [q] } } : State).grant

section requests
variable {p : Port} {s : State} {r : Request} {rest : List Request} {id : PlanId} {c : PlanContent} {at0 : Nat} {ab : Bool}

/-- An accepted PLAN_MESHES stays in execution, its records handed to the pool requester (R83, log 15). -/
theorem planMeshes_accepted (h : s.Ready p .planMeshes r rest) (hid : planOf r.payload = some id)
    (hold : (s.plan id).hold = .loading c at0 ab) (ho : c.opener = p)
    (hlen : r.payload.length = 4 + 36 * byteAt r.payload 3)
    (hrange : 1 ≤ byteAt r.payload 3 ∧ byteAt r.payload 3 ≤ 6
      ∧ halfAt r.payload 1 + byteAt r.payload 3 ≤ c.header.meshCount) :
    exec (.planMeshes p) s = .next
      (((s.touchPlan p r.payload).taken p r rest).handPool
        { owner := .meshes p id
          left := meshBursts c.base (halfAt r.payload 1) (pieces 36 (byteAt r.payload 3) (r.payload.drop 4)) }) := by
  have hu : ((s.touchPlan p r.payload).plan id).hold = .loading c s.now false := by
    rw [touchPlan_opener hid hold ho, setHold_hold_same]
  have hin : ¬(byteAt r.payload 3 = 0 ∨ 6 < byteAt r.payload 3
      ∨ (PlanHold.loading c s.now false).meshBound < halfAt r.payload 1 + byteAt r.payload 3) := by
    change ¬(_ ∨ _ ∨ c.header.meshCount < _)
    omega
  change execPlanMeshes p s = _
  unfold execPlanMeshes
  rw [serve_of_ready h]
  simp only [taken_touchPlan, hid, taken_plan, hu, hlen, if_neg hin, ne_eq, not_true, if_false, ho]
  rfl

/-! ### Parts of PLAN_READ (R92) -/

/-- Part 0 reads the plan as it stands before the request renews it (log 34). -/
theorem planRead_slot (h : s.Ready p .planRead r rest) (hid : planOf r.payload = some id) (hpart : byteAt r.payload 1 = 0) :
    exec (.planRead p) s = .next ((s.touchPlan p r.payload).replied p r rest .ok ((s.plan id).bytes s.now)) := by
  change execPlanRead p s = _
  unfold execPlanRead
  rw [serve_of_ready h]
  simp only [taken_touchPlan, hid, hpart, taken_plan, taken_now, taken_answer]

/-- Part 1 of a legal range answers its tiles. -/
theorem planRead_tiles (h : s.Ready p .planRead r rest) (hid : planOf r.payload = some id) (hpart : byteAt r.payload 1 = 1)
    (hc : (s.plan id).hold.content = some c)
    (hrange : 1 ≤ byteAt r.payload 4 ∧ byteAt r.payload 4 ≤ 16 ∧ halfAt r.payload 2 + byteAt r.payload 4 ≤ 375) :
    exec (.planRead p) s = .next ((s.touchPlan p r.payload).replied p r rest .ok
      (((c.tiles.drop (halfAt r.payload 2)).take (byteAt r.payload 4)).flatMap tileReadBytes)) := by
  have hin : ¬(byteAt r.payload 4 = 0 ∨ 16 < byteAt r.payload 4 ∨ 375 < halfAt r.payload 2 + byteAt r.payload 4) := by
    omega
  change execPlanRead p s = _
  unfold execPlanRead
  rw [serve_of_ready h]
  simp only [taken_touchPlan, hid, hpart, taken_plan, if_neg hin, hc, taken_answer]

/-- Part 2 of a legal range stays in execution, its reads handed to the pool requester (log 15, log 43). -/
theorem planRead_meshes (h : s.Ready p .planRead r rest) (hid : planOf r.payload = some id) (hpart : byteAt r.payload 1 = 2)
    (hc : (s.plan id).hold.content = some c)
    (hrange : 1 ≤ byteAt r.payload 4 ∧ byteAt r.payload 4 ≤ 6
      ∧ halfAt r.payload 2 + byteAt r.payload 4 ≤ c.header.meshCount) :
    exec (.planRead p) s = .next
      (((s.touchPlan p r.payload).taken p r rest).handPool
        { owner := .read p ((List.range' (halfAt r.payload 2) (byteAt r.payload 4)).map (s.plan id).hold.meshMark) []
          left := (List.range' (halfAt r.payload 2) (byteAt r.payload 4)).map (fun i => .read (c.base + i)) }) := by
  have hbound : (s.plan id).hold.meshBound = c.header.meshCount := by simp [PlanHold.meshBound, hc]
  have hin : ¬(byteAt r.payload 4 = 0 ∨ 6 < byteAt r.payload 4
      ∨ c.header.meshCount < halfAt r.payload 2 + byteAt r.payload 4) := by
    omega
  change execPlanRead p s = _
  unfold execPlanRead
  rw [serve_of_ready h]
  simp only [taken_touchPlan, hid, hpart, taken_plan, hbound, if_neg hin, hc]
  rfl

end requests

/-! ### Payloads (Formats) -/

theorem byte_absent : byte 0xFF = 0xFF := rfl
theorem be2_absent : be2 0xFFFF = [0xFF, 0xFF] := by decide
theorem be4_absent : be4 0xFFFFFFFF = [0xFF, 0xFF, 0xFF, 0xFF] := by decide

theorem stamps_bytes (q : Quad Half) :
    q.toList.flatMap (fun x => be2 x.toNat) = Camera.all.flatMap (fun d => be2 (q.get d.idx).toNat) := rfl

theorem meshesWritten_eq (c : PlanContent) : c.meshesWritten = c.meshWritten.countP (fun w => w) := rfl

/-- A mesh's mark: set where it is written, and for every mesh of a VERIFIED plan (R92). -/
theorem meshMark_eq {h : PlanHold} {c : PlanContent} (hc : h.content = some c) (i : Nat) :
    h.meshMark i = (h.isVerified || decide (c.meshWritten[i]? = some true)) := by
  cases h with
  | empty => cases hc
  | verified => rfl
  | loading | verifying | rejected =>
    cases hc
    exact isWritten_eq c i

/-- Settles O34: each request hands over or answers what its part reads, and the payloads are read off by the plan's state. -/
theorem meshesPassThroughThePool : Obligations.MeshesPassThroughThePool := by
  intro p s r rest id hid u
  refine ⟨fun hr c at0 ab hold ho hlen h1 h6 hfit => ?meshes, fun hr => ⟨fun hpart => ?slot,
    fun c hpart hc h1 h16 hfit => ?tiles, fun c hpart hc h1 h6 hfit => ?reads⟩⟩
  case meshes =>
    rw [planMeshes_accepted hr hid hold ho hlen ⟨h1, h6, hfit⟩, meshBursts_pieces, State.handPool, taken_arb, touchPlan_arb]
  case slot =>
    dsimp only
    rw [planRead_slot hr hid hpart]
    congr 2
    generalize s.plan id = x
    obtain ⟨hold, refs⟩ := x
    cases hold with
    | empty | loading | verifying | verified | rejected =>
      simp [PlanSlot.bytes, PlanHold.content, headerBytes, pixelBytes, stamps_bytes, PlanContent.tilesWritten,
        meshesWritten_eq, Config.ms, opt1, opt2, opt4, byte_absent, be2_absent, be4_absent]
  case tiles => exact planRead_tiles hr hid hpart hc ⟨h1, h16, hfit⟩
  case reads =>
    rw [planRead_meshes hr hid hpart hc ⟨h1, h6, hfit⟩, State.handPool, taken_arb, touchPlan_arb,
      funext (meshMark_eq hc)]

end Sys2Proof.Machine
end

section
/-! SUPPORT and PROOFS. The verification walk: PLAN_VERIFY, the checks of a tile in their order, the record that takes the walk
on, and the walk's end (R74, R84 to R88). -/

namespace Sys2Proof.Machine

/-! ### The walk's end (R86) -/

theorem raise_raised (s : State) (p : Port) (k : NoticeKind) : ((s.raise p k).ports.get p).raised &&& k.mask ≠ 0 := by
  have h := raiseBoth_bothRaised s k p
  cases p with
  | cp | mp => exact h

/-- The state after a verdict on a plan: no walk is in flight. -/
def State.judged (s : State) (id : PlanId) (h : PlanHold) : State :=
  { s with plans := { slots := s.plans.slots.set id { s.plan id with hold := h }, walk := none } }

/-- A plan after its walk: REJECTED by the first check that failed, else VERIFIED. -/
def verdict (c : PlanContent) : Option Rejection → PlanHold
  | none => .verified c
  | some q => .rejected c q

section ended
variable (s : State) (id : PlanId) (c : PlanContent) (q : Option Rejection)

theorem endWalk_eq :
    s.endWalk id c q = ((s.judged id (verdict c q)).answer c.opener .ok (verifyBytes q)).raise c.opener .plan := by
  cases q with
  | none | some => rfl

/-- The end of a walk changes the plans and the opening port alone, and raises PLAN there. -/
theorem endWalk_frame : ∃ x, s.endWalk id c q =
    ({ s.judged id (verdict c q) with ports := s.ports.set c.opener x } : State).raise c.opener .plan := by
  obtain ⟨x, hx⟩ := answer_frame (s.judged id (verdict c q)) c.opener .ok (verifyBytes q)
  exact ⟨x, by rw [endWalk_eq, hx]; rfl⟩

theorem endWalk_hold : ((s.endWalk id c q).plan id).hold = verdict c q := by
  obtain ⟨x, hx⟩ := endWalk_frame s id c q
  rw [hx]
  exact congrArg PlanSlot.hold (Quad.get_set_same ..)

theorem endWalk_walk : (s.endWalk id c q).plans.walk = none := by
  obtain ⟨x, hx⟩ := endWalk_frame s id c q
  rw [hx]
  rfl

theorem endWalk_arb : (s.endWalk id c q).arb = s.arb := by
  obtain ⟨x, hx⟩ := endWalk_frame s id c q
  rw [hx]
  rfl

theorem endWalk_raised : ((s.endWalk id c q).ports.get c.opener).raised &&& NoticeKind.plan.mask ≠ 0 := by
  obtain ⟨x, hx⟩ := endWalk_frame s id c q
  rw [hx]
  exact raise_raised _ _ _

/-- The end of a walk answers the PLAN_VERIFY in execution. -/
theorem endWalk_answered {r : Request} (hr : (s.ports.get c.opener).executing = some r) :
    s.endWalk id c q = ((s.judged id (verdict c q)).answered c.opener r .ok (verifyBytes q)).raise c.opener .plan := by
  rw [endWalk_eq, answer_executing (s := s.judged id (verdict c q)) hr]

theorem endWalk_port {r : Request} (hr : (s.ports.get c.opener).executing = some r) :
    ((s.endWalk id c q).ports.get c.opener).executing = none
    ∧ ((s.endWalk id c q).ports.get c.opener).answers = (s.ports.get c.opener).answers
      ++ [{ seq := r.seq, code := r.code, outcome := .ok, payload := verifyBytes q }] := by
  rw [endWalk_answered s id c q hr]
  cases c.opener with
  | cp | mp => exact ⟨rfl, rfl⟩

end ended

theorem verifyBytes_none : verifyBytes none = [0, 0xFF, 0xFF, 0xFF, 0xFF, 0xFF] := by decide

theorem verifyBytes_unwritten :
    verifyBytes (some { reason := .unwritten, tile := some 0, mesh := none }) = [1, 0, 0, 0, 0xFF, 0xFF] := by decide

/-! ### Where the walk begins and goes on (R84, R85) -/

section requests
variable {p : Port} {s : State} {r : Request} {rest : List Request} {id : PlanId} {c : PlanContent} {at0 : Nat} {ab : Bool}

/-- PLAN_VERIFY of the port's LOADING plan begins the walk at tile 0, unless another is in flight (R88). -/
theorem planVerify_eq (h : s.Ready p .planVerify r rest) (hid : planOf r.payload = some id)
    (hold : (s.plan id).hold = .loading c at0 ab) (ho : c.opener = p) :
    exec (.planVerify p) s = .next
      (if s.plans.walk.isSome then (s.touchPlan p r.payload).replied p r rest .busy []
      else ((s.taken p r rest).setHold id (.verifying c)).walkOn id c [] (c.tilesFrom [] 0)) := by
  have hu : ((s.touchPlan p r.payload).plan id).hold = .loading c s.now false := by
    rw [touchPlan_opener hid hold ho, setHold_hold_same]
  change execPlanVerify p s = _
  unfold execPlanVerify
  rw [serve_of_ready h]
  simp only [taken_touchPlan, hid, taken_plan, hu, ho, ne_eq, not_true, if_false, taken_plans, touchPlan_walk,
    taken_refuse, taken_setHold, touchPlan_setHold hid]

/-- A plan whose tile 0 is unwritten needs no read: the walk ends in its PLAN_VERIFY (log 16). -/
theorem tilesFrom_unwritten (h : c.tiles.head? = some none) (passed : List Nat) :
    c.tilesFrom passed 0 = .fail { reason := .unwritten, tile := some 0, mesh := none } := by
  obtain ⟨l, hl⟩ := List.head?_eq_some_iff.1 h
  rw [PlanContent.tilesFrom, hl]
  rfl

theorem planVerify_unwritten (h : s.Ready p .planVerify r rest) (hid : planOf r.payload = some id)
    (hold : (s.plan id).hold = .loading c at0 ab) (ho : c.opener = p) (hw : s.plans.walk = none)
    (htile : c.tiles.head? = some none) :
    exec (.planVerify p) s = .next (((s.taken p r rest).setHold id (.verifying c)).endWalk id c
      (some { reason := .unwritten, tile := some 0, mesh := none })) := by
  rw [planVerify_eq h hid hold ho, hw, tilesFrom_unwritten htile]
  rfl

end requests

theorem verifyMeshRead_eq {s : State} {id : PlanId} {place : WalkAt} {passed : List Nat} {rec : List Byte} {c : PlanContent}
    (hw : s.plans.walk = some { plan := id, place := place, passed := passed, record := some rec })
    (hold : (s.plan id).hold = .verifying c) :
    exec .verifyMeshRead s = .next
      (s.walkOn id c (walkResume c place passed rec).1 (walkResume c place passed rec).2) := by
  change execVerifyMeshRead s = _
  unfold execVerifyMeshRead
  rw [hw]
  dsimp only
  rw [hold]

/-- Past the last mesh of the run the walk is done. -/
theorem meshesFrom_end {c : PlanContent} {m : Nat} (h : m = c.header.meshCount) (passed : List Nat) :
    c.meshesFrom passed m = .done := (meshesFrom_spec c passed m).2 (fun j h1 h2 => by omega)

/-! ### The checks of a tile in their order (R84) -/

/-- The class codes: 4 and more name no class (R73). -/
theorem tileClass_cases : ∀ b : BitVec 3, 4 ≤ b.toNat ∨ b = 0 ∨ b = 3 ∨ b = 1 ∨ b = 2 := by decide

theorem tileClass_none : ∀ {b : BitVec 3}, 4 ≤ b.toNat → TileClass.ofBits b = none := by decide

/-- A field that names no camera. -/
abbrev noCamera (b : BitVec 3) : Prop := b.toNat = 0 ∨ 4 < b.toNat

/-- A rejection at tile `t`. -/
def tileFail (t : Nat) (why : RejectReason) (m : Option Nat) : WalkNext :=
  .fail { reason := why, tile := some t, mesh := m }

/-- The read of a mesh for tile `t`, or the rejection where the mesh is unwritten (R84, check 6). -/
def PlanContent.readFor (c : PlanContent) (t : Nat) (place : WalkAt) (m : Nat) : WalkNext :=
  if c.meshWritten[m]? = some true then .read place m else tileFail t .meshRange (some m)

theorem readFor_eq (c : PlanContent) (t : Nat) (place : WalkAt) (m : Nat) :
    (if c.isWritten m then .read place m else rangeFail (some t) m) = c.readFor t place m := by
  simp [isWritten_eq, PlanContent.readFor, rangeFail, tileFail]

section tile
variable (c : PlanContent) (passed : List Nat) (t : Nat) {e : TileEntry}

theorem scanTile_unwritten : scanTile c passed t none = some (tileFail t .unwritten none) := rfl

theorem scanTile_noClass (h : 4 ≤ e.cls.toNat) : scanTile c passed t (some e) = some (tileFail t .cls none) := by
  simp [scanTile, checkTile, tileClass_none h, tileFail]

/-- BODY and VOID tiles use no camera and no mesh. -/
theorem scanTile_plain (h : e.cls = 0 ∨ e.cls = 3) : scanTile c passed t (some e) = none := by
  obtain h | h := h <;> simp [scanTile, checkTile, TileEntry.meshes, h, TileClass.ofBits]

theorem meshes_single (h : e.cls = 1) : e.meshes = [e.primMesh.toNat] := by
  rw [TileEntry.meshes, h]
  rfl

theorem meshes_seam (h : e.cls = 2) : e.meshes = [e.primMesh.toNat, e.secMesh.toNat] := by
  rw [TileEntry.meshes, h]
  rfl

/-- Checks 1 to 5 of a SINGLE tile. -/
theorem checkTile_single (h : e.cls = 1) :
    checkTile c t (some e) =
      if noCamera e.primCam then some { reason := .camera, tile := some t, mesh := none }
      else if c.header.meshCount ≤ e.primMesh.toNat then
        some { reason := .meshIndex, tile := some t, mesh := some e.primMesh.toNat }
      else none := by
  simp only [checkTile, h, show TileClass.ofBits 1 = some .single from rfl, camOfBits_none, decide_eq_true_eq, ge_iff_le]

/-- Checks 1 to 5 of a SEAM tile. -/
theorem checkTile_seam (h : e.cls = 2) :
    checkTile c t (some e) =
      if noCamera e.primCam ∨ noCamera e.secCam then some { reason := .camera, tile := some t, mesh := none }
      else if e.primCam = e.secCam then some { reason := .sameCamera, tile := some t, mesh := none }
      else if c.header.meshCount ≤ e.primMesh.toNat then
        some { reason := .meshIndex, tile := some t, mesh := some e.primMesh.toNat }
      else if c.header.meshCount ≤ e.secMesh.toNat then
        some { reason := .meshIndex, tile := some t, mesh := some e.secMesh.toNat }
      else none := by
  simp only [checkTile, h, show TileClass.ofBits 2 = some .seam from rfl, camOfBits_none, decide_eq_true_eq, ge_iff_le]

theorem scanTile_failed {q : Rejection} (h : checkTile c t (some e) = some q) :
    scanTile c passed t (some e) = some (.fail q) := by
  simp only [scanTile, h]

/-- A SINGLE tile that passes checks 1 to 5 waits for its mesh, unless that has passed before. -/
theorem scanTile_singleMesh (hcls : e.cls = 1) (h : checkTile c t (some e) = none) :
    scanTile c passed t (some e) =
      if e.primMesh.toNat ∉ passed then some (c.readFor t (.primary t e.primMesh.toNat) e.primMesh.toNat) else none := by
  simp only [scanTile, h, Option.map_some, Option.getD_some, meshes_single hcls, readFor_eq, List.contains_eq_mem,
    Bool.not_eq_true', decide_eq_false_iff_not]

/-- A SEAM tile that passes checks 1 to 5 waits for its primary mesh, then its secondary one. -/
theorem scanTile_seamMeshes (hcls : e.cls = 2) (h : checkTile c t (some e) = none) :
    scanTile c passed t (some e) =
      if e.primMesh.toNat ∉ passed then some (c.readFor t (.primary t e.primMesh.toNat) e.primMesh.toNat)
      else if e.secMesh.toNat ∉ passed then some (c.readFor t (.secondary t e.secMesh.toNat none) e.secMesh.toNat)
      else none := by
  simp only [scanTile, h, Option.map_some, Option.getD_some, meshes_seam hcls, readFor_eq, List.contains_eq_mem,
    Bool.not_eq_true', decide_eq_false_iff_not]

/-- The checks of a SINGLE tile in their order. -/
theorem scanTile_single (hcls : e.cls = 1) : scanTile c passed t (some e) =
    if noCamera e.primCam then some (tileFail t .camera none)
    else if c.header.meshCount ≤ e.primMesh.toNat then some (tileFail t .meshIndex (some e.primMesh.toNat))
    else if e.primMesh.toNat ∉ passed then some (c.readFor t (.primary t e.primMesh.toNat) e.primMesh.toNat)
    else none := by
  have hcheck := checkTile_single c t hcls
  by_cases hcam : noCamera e.primCam
  · rw [if_pos hcam] at hcheck ⊢
    exact scanTile_failed c passed t hcheck
  rw [if_neg hcam] at hcheck ⊢
  by_cases hp : c.header.meshCount ≤ e.primMesh.toNat
  · rw [if_pos hp] at hcheck ⊢
    exact scanTile_failed c passed t hcheck
  · rw [if_neg hp] at hcheck ⊢
    exact scanTile_singleMesh c passed t hcls hcheck

/-- The checks of a SEAM tile in their order, primary before secondary. -/
theorem scanTile_seam (hcls : e.cls = 2) : scanTile c passed t (some e) =
    if noCamera e.primCam ∨ noCamera e.secCam then some (tileFail t .camera none)
    else if e.primCam = e.secCam then some (tileFail t .sameCamera none)
    else if c.header.meshCount ≤ e.primMesh.toNat then some (tileFail t .meshIndex (some e.primMesh.toNat))
    else if c.header.meshCount ≤ e.secMesh.toNat then some (tileFail t .meshIndex (some e.secMesh.toNat))
    else if e.primMesh.toNat ∉ passed then some (c.readFor t (.primary t e.primMesh.toNat) e.primMesh.toNat)
    else if e.secMesh.toNat ∉ passed then some (c.readFor t (.secondary t e.secMesh.toNat none) e.secMesh.toNat)
    else none := by
  have hcheck := checkTile_seam c t hcls
  by_cases hcam : noCamera e.primCam ∨ noCamera e.secCam
  · rw [if_pos hcam] at hcheck ⊢
    exact scanTile_failed c passed t hcheck
  rw [if_neg hcam] at hcheck ⊢
  by_cases hsame : e.primCam = e.secCam
  · rw [if_pos hsame] at hcheck ⊢
    exact scanTile_failed c passed t hcheck
  rw [if_neg hsame] at hcheck ⊢
  by_cases hp : c.header.meshCount ≤ e.primMesh.toNat
  · rw [if_pos hp] at hcheck ⊢
    exact scanTile_failed c passed t hcheck
  rw [if_neg hp] at hcheck ⊢
  by_cases hq : c.header.meshCount ≤ e.secMesh.toNat
  · rw [if_pos hq] at hcheck ⊢
    exact scanTile_failed c passed t hcheck
  · rw [if_neg hq] at hcheck ⊢
    exact scanTile_seamMeshes c passed t hcls hcheck

/-- The checks of a written tile in their order, primary before secondary. -/
theorem scanTile_some : scanTile c passed t (some e) =
    if 4 ≤ e.cls.toNat then some (tileFail t .cls none)
    else if e.cls = 0 ∨ e.cls = 3 then none
    else if noCamera e.primCam ∨ e.cls = 2 ∧ noCamera e.secCam then some (tileFail t .camera none)
    else if e.cls = 2 ∧ e.primCam = e.secCam then some (tileFail t .sameCamera none)
    else if c.header.meshCount ≤ e.primMesh.toNat then some (tileFail t .meshIndex (some e.primMesh.toNat))
    else if e.cls = 2 ∧ c.header.meshCount ≤ e.secMesh.toNat then some (tileFail t .meshIndex (some e.secMesh.toNat))
    else if e.primMesh.toNat ∉ passed then some (c.readFor t (.primary t e.primMesh.toNat) e.primMesh.toNat)
    else if e.cls = 2 ∧ e.secMesh.toNat ∉ passed then
      some (c.readFor t (.secondary t e.secMesh.toNat none) e.secMesh.toNat)
    else none := by
  obtain hcls | hcls | hcls | hcls | hcls := tileClass_cases e.cls
  · rw [if_pos hcls, scanTile_noClass c passed t hcls]
  · rw [if_neg (by simp [hcls]), if_pos (Or.inl hcls), scanTile_plain c passed t (Or.inl hcls)]
  · rw [if_neg (by simp [hcls]), if_pos (Or.inr hcls), scanTile_plain c passed t (Or.inr hcls)]
  · rw [scanTile_single c passed t hcls]
    simp [hcls]
  · rw [scanTile_seam c passed t hcls]
    simp [hcls]

end tile

/-! ### The record that takes the walk on (R84, R85) -/

section resume
variable {c : PlanContent} {t : Nat} {e : TileEntry} (passed : List Nat) (rec : List Byte)

theorem secondaryOf_single (he : c.tiles[t]? = some (some e)) (hcls : e.cls = 1) : c.secondaryOf t = none := by
  simp [PlanContent.secondaryOf, he, meshes_single hcls]

theorem secondaryOf_seam (he : c.tiles[t]? = some (some e)) (hcls : e.cls = 2) :
    c.secondaryOf t = some e.secMesh.toNat := by
  simp [PlanContent.secondaryOf, he, meshes_seam hcls]

theorem primaryOf_seam (he : c.tiles[t]? = some (some e)) (hcls : e.cls = 2) : c.primaryOf t = e.primMesh.toNat := by
  simp [PlanContent.primaryOf, he, meshes_seam hcls]

/-- With the primary mesh's record: MESH_RANGE, then the secondary mesh of a SEAM if it has not passed, then SPREAD. -/
theorem walkResume_primary (he : c.tiles[t]? = some (some e)) (hcls : e.cls = 1 ∨ e.cls = 2) (m : Nat) :
    walkResume c (.primary t m) passed rec =
      if meshInRange rec = false then (passed, tileFail t .meshRange (some m))
      else if e.cls = 2 ∧ e.secMesh.toNat ∉ passed then
        (passed, c.readFor t (.secondary t e.secMesh.toNat (some rec)) e.secMesh.toNat)
      else if spreadOk rec = false then (passed, tileFail t .spread (some m))
      else (addPassed m passed, c.tilesFrom (addPassed m passed) (t + 1)) := by
  unfold walkResume
  by_cases hrange : meshInRange rec = false
  · simp [hrange, rangeFail, tileFail]
  obtain hcls | hcls := hcls
  · by_cases hspread : spreadOk rec = false
    · simp [hrange, hcls, secondaryOf_single he hcls, hspread, spreadFail, tileFail]
    · simp [hrange, hcls, secondaryOf_single he hcls, hspread]
  · by_cases hq : e.secMesh.toNat ∈ passed
    · by_cases hspread : spreadOk rec = false
      · simp [hrange, hcls, secondaryOf_seam he hcls, hq, hspread, spreadFail, tileFail]
      · simp [hrange, hcls, secondaryOf_seam he hcls, hq, hspread]
    · by_cases hw : c.meshWritten[e.secMesh.toNat]? = some true
      · simp [hrange, hcls, secondaryOf_seam he hcls, hq, isWritten_eq, PlanContent.readFor, hw]
      · simp [hrange, hcls, secondaryOf_seam he hcls, hq, isWritten_eq, PlanContent.readFor, hw, rangeFail, tileFail]

/-- With the secondary mesh's record: MESH_RANGE of it, then SPREAD of the primary one where it was read for this tile, then
SPREAD of the secondary one. -/
theorem walkResume_secondary (he : c.tiles[t]? = some (some e)) (hcls : e.cls = 2) (m : Nat) (first : Option (List Byte)) :
    walkResume c (.secondary t m first) passed rec =
      if meshInRange rec = false then (passed, tileFail t .meshRange (some m))
      else if first.map spreadOk = some false then (passed, tileFail t .spread (some e.primMesh.toNat))
      else if spreadOk rec = false then (passed, tileFail t .spread (some m))
      else
        (addPassed m (if first.isSome then addPassed e.primMesh.toNat passed else passed),
          c.tilesFrom (addPassed m (if first.isSome then addPassed e.primMesh.toNat passed else passed)) (t + 1)) := by
  have hfirst : (first.map spreadOk).getD true = false ↔ first.map spreadOk = some false := by
    cases first with
    | none | some => simp
  simp only [walkResume, primaryOf_seam he hcls, hfirst, Bool.not_eq_true', rangeFail, spreadFail, tileFail]

/-- With the record of a mesh that no tile referenced: MESH_RANGE alone (R86). -/
theorem walkResume_mesh (m : Nat) : walkResume c (.mesh m) passed rec =
    (passed, if meshInRange rec then c.meshesFrom passed (m + 1) else rangeFail none m) := rfl

end resume

/-! ### The order of tiles and meshes (R84, R86) -/

/-- The tile walk from `t` ends at the first tile that decides. -/
theorem tilesFrom_decides {c : PlanContent} {passed : List Nat} {t k : Nat} {e : Option TileEntry} {n : WalkNext}
    (htk : t ≤ k) (he : c.tiles[k]? = some e) (hn : scanTile c passed k e = some n)
    (hbefore : ∀ j d, t ≤ j → j < k → c.tiles[j]? = some d → scanTile c passed j d = none) : c.tilesFrom passed t = n := by
  obtain ⟨i, rfl⟩ := Nat.exists_eq_add_of_le htk
  refine scan_seen c passed _ t i e n (by rw [List.getElem?_drop, he]) hn fun j d hj hd => ?_
  exact hbefore (t + j) d (by omega) (by omega) (by rw [← hd, List.getElem?_drop])

/-- Where no tile decides it goes on to the mesh walk. -/
theorem tilesFrom_passes {c : PlanContent} {passed : List Nat} {t : Nat}
    (h : ∀ j d, t ≤ j → c.tiles[j]? = some d → scanTile c passed j d = none) :
    c.tilesFrom passed t = c.meshesFrom passed 0 :=
  scan_none c passed _ t fun j d hd => h (t + j) d (by omega) (by rw [← hd, List.getElem?_drop])

/-- The mesh walk from `t` decides at the first mesh that no tile referenced (R86). -/
theorem meshesFrom_decides {c : PlanContent} {passed : List Nat} {t m : Nat} (htm : t ≤ m) (hm : m < c.header.meshCount)
    (hnot : m ∉ passed) (hbefore : ∀ j, t ≤ j → j < m → j ∈ passed) :
    c.meshesFrom passed t = if c.meshWritten[m]? = some true then .read (.mesh m) m else rangeFail none m := by
  rw [(meshesFrom_spec c passed t).1 m htm hm hnot hbefore]
  simp only [isWritten_eq, decide_eq_true_eq]

/-! ### Mesh records (Formats) -/

/-- A coordinate is its two bytes as a signed number. -/
theorem signedHalfAt_eq (rec : List Byte) (i : Nat) : signedHalfAt rec i =
    if halfAt rec i < 32768 then (halfAt rec i : Int) else (halfAt rec i : Int) - 65536 := by
  have hlt : halfAt rec i < 65536 := by
    have h0 : byteAt rec i < 256 := BitVec.isLt _
    have h1 : byteAt rec (i + 1) < 256 := BitVec.isLt _
    unfold halfAt
    omega
  rw [signedHalfAt, BitVec.toInt_eq_toNat_cond, BitVec.toNat_ofNat, Nat.mod_eq_of_lt hlt]
  split <;> split <;> omega

/-! ### The statement -/

/-- Settles O35: the walk's beginning, the record taken up, the walk's end, the checks of a tile, the order of the tiles and
meshes, and the measures of a record. -/
theorem verificationWalksToItsVerdict : Obligations.VerificationWalksToItsVerdict := by
  refine ⟨fun p s r rest id c at0 ab hr hid hold ho => ⟨?busy, ?begins, ?unwritten⟩,
    fun s id place passed rec c hw hold => ⟨verifyMeshRead_eq hw hold, ?passes, ?fails⟩,
    fun s id c passed r hr => ⟨?done, fun why tile mesh => ?failed, fun place m => rfl⟩,
    fun c passed t e rec => ⟨scanTile_unwritten c passed t, scanTile_some c passed t,
      fun he hcls => walkResume_primary passed rec he hcls _,
      fun he hcls first => walkResume_secondary passed rec he hcls _ first,
      walkResume_mesh passed rec, fun m n => mem_addPassed m n passed⟩,
    fun c passed t => ⟨fun k e n htk he hn hb => tilesFrom_decides htk he hn hb, tilesFrom_passes,
      fun m htm hm hnot hb => meshesFrom_decides htm hm hnot hb, (meshesFrom_spec c passed t).2⟩,
    fun rec => ⟨meshInRange_iff rec, spreadOk_iff rec,
      fun i j _ _ => ⟨signedHalfAt_eq rec _, signedHalfAt_eq rec _⟩⟩, rfl⟩
  case busy =>
    intro hw
    rw [planVerify_eq hr hid hold ho, if_pos hw]
  case begins =>
    intro hw
    rw [planVerify_eq hr hid hold ho, hw]
    rfl
  case unwritten =>
    intro hw htile
    subst ho
    have hport : ((s.taken c.opener r rest).setHold id (.verifying c)).ports.get c.opener =
        { s.ports.get c.opener with executing := some r, requests := rest } := Duo.get_set_same ..
    obtain ⟨hnone, hanswers⟩ := endWalk_port ((s.taken c.opener r rest).setHold id (.verifying c)) id c
      (some { reason := .unwritten, tile := some 0, mesh := none }) (congrArg PortState.executing hport)
    rw [hport, verifyBytes_unwritten] at hanswers
    exact ⟨_, planVerify_unwritten hr hid hold rfl hw htile, endWalk_walk .., endWalk_hold .., hnone, hanswers,
      endWalk_raised _ _ _ _⟩
  case passes =>
    rintro m rfl hm hrange
    have he : exec .verifyMeshRead s = .next (s.endWalk id c none) := by
      rw [verifyMeshRead_eq hw hold, walkResume_mesh, if_pos hrange, meshesFrom_end hm]
      rfl
    exact ⟨_, he, endWalk_hold .., endWalk_walk .., endWalk_raised _ _ _ _, endWalk_mem .., endWalk_arb ..⟩
  case fails =>
    rintro m rfl hrange
    have he : exec .verifyMeshRead s = .next (s.endWalk id c (some { reason := .meshRange, tile := none, mesh := some m })) := by
      rw [verifyMeshRead_eq hw hold, walkResume_mesh, if_neg (by simp [hrange])]
      rfl
    exact ⟨_, he, endWalk_hold .., endWalk_walk .., endWalk_raised _ _ _ _⟩
  case done =>
    rw [← verifyBytes_none]
    exact endWalk_answered s id c none hr
  case failed => exact endWalk_answered s id c (some _) hr

end Sys2Proof.Machine
end
